-- ==== Sys2Proof/Word.lean ====
section
/-! DEFINITION. The bit-vector types of the block (R10): bytes, half-words, words, colours, pixels. -/

namespace Sys2Proof

/-- One byte: the unit of every register access (R89) and of the bus address space (R80). -/
abbrev Byte := BitVec 8
/-- A half-word, `u16` (R10). -/
abbrev Half := BitVec 16
/-- A word, `u32`: bus addresses and word data (R10, R80). -/
abbrev Word := BitVec 32
/-- The internal 15-bit colour (R160). -/
abbrev Color := BitVec 15
/-- An output pixel, the type `COLOR_OUT` returns (R9, R62). Width 32: DESIGN CHOICE, assumption 5. -/
abbrev Pixel := BitVec 32
/-- A set over channel ids: bit `c` is 1 when channel `c` is a member (R11). -/
abbrev ChanSet := BitVec 4
/-- A DMA channel id, which is also its priority rank, 0 highest (R30). -/
abbrev Chan := Fin 4

end Sys2Proof
end

