-- ==== Sys2Proof/Config.lean ====
section
/-! DEFINITION. What an implementation fixes: the constants of R8 and the record of parameters of R8 and R9
that a claim may quantify over. The record is plain data and stands in `State.cfg`; no step writes it (assumption 4). -/

namespace Sys2Proof

/-- Bus-access kind (R85): the first unit of a `Run` is NonSeq, every later one Seq. -/
inductive AccessKind where
  | nonSeq
  | seq
  deriving DecidableEq, Repr

/-- How a 9-bit scroll value enters the map coordinate (R333, conflict C10). -/
inductive ScrollInterp where
  | unsigned
  | signMagnitude
  deriving DecidableEq, Repr

/-- One exception to the default of `BUS_COST(addr, width, kind)` (R9). -/
structure BusCostRow where
  addr : Word
  bits : Nat
  kind : AccessKind
  cost : Nat
  deriving DecidableEq, Repr

/-- One exception to the default of `COLOR_OUT(c15)` (R9). -/
structure ColorOutRow where
  color : Color
  pixel : Pixel
  deriving DecidableEq, Repr

/-- The parameters a claim may quantify over: the open ones of R9 (`QCAP`, `BUS_COST`, `IDLE_COST`, `COLOR_OUT`) and
those of R8 that name a policy (`HBLANK_DMA_IN_VBLANK`, `VIDEO_FIRST_LINE`, `BLANK_COLOR`, `SCROLL_INTERP`).
`BUS_COST` and `COLOR_OUT` are finite functions written as a default and a list of exceptions, the first that fits
counting, so every function of their types is some value of these fields (assumption 5). `fuel` is the model's own:
how many nested or repeated passes of the service loop one operation may make (R236, R487, assumption 8). -/
structure Params where
  qcap : Nat
  busCostDefault : Nat
  busCosts : List BusCostRow
  idleCost : Nat
  colorOuts : List ColorOutRow
  hblankDmaInVblank : Bool
  videoFirstLine : Nat
  blankColor : Color
  scrollInterp : ScrollInterp
  fuel : Nat
  deriving DecidableEq, Repr

/-- The values R8 states and the suggested defaults of R9, which are test configuration T0 (R94). -/
def Params.t0 : Params where
  qcap := 64
  busCostDefault := 1
  busCosts := []
  idleCost := 1
  colorOuts := []
  hblankDmaInVblank := true
  videoFirstLine := 2
  blankColor := 0x7FFF#15
  scrollInterp := .unsigned
  fuel := 2 ^ 64

namespace Config

/-- Address of byte 0 of the I/O register region (R8). -/
def ioBase : Word := 0x04000000#32
/-- Largest value of the cycle counter: `NOW_BITS` = 64 (R8, R23). -/
def nowMax : Nat := 2 ^ 64 - 1
/-- Largest event handle: `SEQ_BITS` = 48 (R8, R25). -/
def seqMax : Nat := 2 ^ 48 - 1
/-- Largest delay of `Add`: `DELAY_BITS` = 48 (R8, R201). -/
def delayMax : Nat := 2 ^ 48 - 1
/-- `SRC_MASK[c]` (R8). -/
def srcMask (c : Chan) : Word := if c = 0 then 0x07FFFFFF#32 else 0x0FFFFFFF#32
/-- `DST_MASK[c]` (R8). -/
def dstMask (c : Chan) : Word := if c = 3 then 0x0FFFFFFF#32 else 0x07FFFFFF#32
/-- `LEN_MASK[c]` (R8). -/
def lenMask (c : Chan) : Half := if c = 3 then 0xFFFF#16 else 0x3FFF#16
/-- The bits of DMAcCNT_H that are stored (R150, R442). -/
def ctrlMask (c : Chan) : Half := if c = 3 then 0xFFE0#16 else 0xF7E0#16
/-- `FIFO_A_ADDR` (R8). -/
def fifoAAddr : Word := 0x040000A0#32
/-- `FIFO_B_ADDR` (R8). -/
def fifoBAddr : Word := 0x040000A4#32
/-- `ROM_LO` (R8). -/
def romLo : Word := 0x08000000#32
/-- `ROM_HI` (R8). -/
def romHi : Word := 0x0DFFFFFF#32
/-- `SRC_READABLE_LO` (R8). -/
def srcReadableLo : Word := 0x02000000#32
/-- `PRAM_BASE` (R8). -/
def pramBase : Nat := 0x05000000
/-- `VRAM_BASE` (R8). -/
def vramBase : Nat := 0x06000000
/-- `OAM_BASE` (R8). -/
def oamBase : Nat := 0x07000000

end Config
end Sys2Proof
end

