-- ==== Sys2Proof/Syntax.lean ====
section
/-! DEFINITION. Syntax: the operations of the block (one constructor of `Instr` per row of spec/opcode_table.json), the
registers they name, and the two written forms in which the environment presents an operation (R120). -/

namespace Sys2Proof

/-- An occasion: an event class that can trigger DMA channels (R16, codes R124). -/
inductive Occasion where
  | hblank
  | vblank
  | video
  | fifoA
  | fifoB
  deriving DecidableEq, Repr

/-- One register access: read byte `o` of the register, or write `v` to byte `o` (R131, R440, R441). -/
inductive Access where
  | read (o : Nat)
  | write (o : Nat) (v : Byte)
  deriving DecidableEq, Repr

/-- The byte of the register an access touches. -/
def Access.byte : Access → Nat
  | .read o => o
  | .write o _ => o

/-- The 53 registers of R130, by group and index: layer `b`, affine set `k` (0 serves background 2, 1 background 3),
window `w`, channel `c` (R20). -/
inductive Reg where
  | dispcnt
  | dispstat
  | vcount
  | bgcnt (b : Fin 4)
  | bghofs (b : Fin 4)
  | bgvofs (b : Fin 4)
  | bgpa (k : Fin 2)
  | bgpb (k : Fin 2)
  | bgpc (k : Fin 2)
  | bgpd (k : Fin 2)
  | bgx (k : Fin 2)
  | bgy (k : Fin 2)
  | winh (w : Fin 2)
  | winv (w : Fin 2)
  | winin
  | winout
  | mosaic
  | bldcnt
  | bldalpha
  | bldy
  | dmaSad (c : Chan)
  | dmaDad (c : Chan)
  | dmaCntL (c : Chan)
  | dmaCntH (c : Chan)
  deriving DecidableEq, Repr

/-- The instructions of the block. The first 24 are the command rows (R122 top level, R123 internal), the other 53 the
register rows (R130), each with the access made to that register. -/
inductive Instr where
  -- top-level operations (R122)
  | schAdd (tag : Byte) (delay : BitVec 48)
  | schCancel (handle : BitVec 48)
  | schRemain
  | schStep
  | schAdvance (n : BitVec 48)
  | schNow
  | schReset
  | dmaRequest (occ : Occasion)
  | dmaStopvideo
  | dmaReset
  | ppuReset
  | ioRead (addr : Word)
  | ioWrite (addr : Word) (v : Byte)
  | sysReset
  -- internal operations (R123)
  | dmaTrystart (c : Chan)
  | dmaSelect
  | dmaService
  | dmaRun
  | dmaComplete (c : Chan)
  | dmaDisable (c : Chan)
  | dmaOnwrite (c : Chan) (wasEnabled : Bool)
  | ppuPhase (late : BitVec 48)
  | ppuVcount
  | ppuRender
  -- register rows (R130)
  | dispcnt (a : Access)
  | dispstat (a : Access)
  | vcount (a : Access)
  | bg0cnt (a : Access)
  | bg1cnt (a : Access)
  | bg2cnt (a : Access)
  | bg3cnt (a : Access)
  | bg0hofs (a : Access)
  | bg0vofs (a : Access)
  | bg1hofs (a : Access)
  | bg1vofs (a : Access)
  | bg2hofs (a : Access)
  | bg2vofs (a : Access)
  | bg3hofs (a : Access)
  | bg3vofs (a : Access)
  | bg2pa (a : Access)
  | bg2pb (a : Access)
  | bg2pc (a : Access)
  | bg2pd (a : Access)
  | bg2x (a : Access)
  | bg2y (a : Access)
  | bg3pa (a : Access)
  | bg3pb (a : Access)
  | bg3pc (a : Access)
  | bg3pd (a : Access)
  | bg3x (a : Access)
  | bg3y (a : Access)
  | win0h (a : Access)
  | win1h (a : Access)
  | win0v (a : Access)
  | win1v (a : Access)
  | winin (a : Access)
  | winout (a : Access)
  | mosaic (a : Access)
  | bldcnt (a : Access)
  | bldalpha (a : Access)
  | bldy (a : Access)
  | dma0sad (a : Access)
  | dma0dad (a : Access)
  | dma0cntL (a : Access)
  | dma0cntH (a : Access)
  | dma1sad (a : Access)
  | dma1dad (a : Access)
  | dma1cntL (a : Access)
  | dma1cntH (a : Access)
  | dma2sad (a : Access)
  | dma2dad (a : Access)
  | dma2cntL (a : Access)
  | dma2cntH (a : Access)
  | dma3sad (a : Access)
  | dma3dad (a : Access)
  | dma3cntL (a : Access)
  | dma3cntH (a : Access)
  deriving DecidableEq, Repr

/-- One operation as the environment presents it, in one of the two ways of R120: (a) a 64-bit command word; (b) the pair
(`IO.READ` or `IO.WRITE`, 32-bit byte address), the second with its data byte. -/
inductive Request where
  | command (w : BitVec 64)
  | read (addr : Word)
  | write (addr : Word) (v : Byte)
  deriving DecidableEq, Repr

end Sys2Proof
end

