-- ==== Sys2Proof/WellFormed.lean ====
section
/-! DEFINITION. Which terms of `Instr` stand for an operation that can be written. Tags, delays, handles, addresses,
channels and occasions are bounded by their types (R121); what remains is the byte index of a register access, which runs
to the register's width (R131). -/

namespace Sys2Proof

/-- The access touches a byte of a register of `w` bytes: 0 = low byte, up to width - 1 (R87, R131). -/
def Access.within (a : Access) (w : Nat) : Bool := decide (a.byte < w)

/-- An instruction that has an encoding (R121, R130, R131). -/
def Instr.wellFormed : Instr → Bool
  | .schAdd _ _ | .schCancel _ | .schRemain | .schStep | .schAdvance _ | .schNow | .schReset => true
  | .dmaRequest _ | .dmaStopvideo | .dmaReset | .ppuReset | .ioRead _ | .ioWrite _ _ | .sysReset => true
  | .dmaTrystart _ | .dmaSelect | .dmaService | .dmaRun | .dmaComplete _ | .dmaDisable _ | .dmaOnwrite _ _ => true
  | .ppuPhase _ | .ppuVcount | .ppuRender => true
  | .dispcnt a => a.within 2
  | .dispstat a => a.within 2
  | .vcount a => a.within 2
  | .bg0cnt a => a.within 2
  | .bg1cnt a => a.within 2
  | .bg2cnt a => a.within 2
  | .bg3cnt a => a.within 2
  | .bg0hofs a => a.within 2
  | .bg0vofs a => a.within 2
  | .bg1hofs a => a.within 2
  | .bg1vofs a => a.within 2
  | .bg2hofs a => a.within 2
  | .bg2vofs a => a.within 2
  | .bg3hofs a => a.within 2
  | .bg3vofs a => a.within 2
  | .bg2pa a => a.within 2
  | .bg2pb a => a.within 2
  | .bg2pc a => a.within 2
  | .bg2pd a => a.within 2
  | .bg2x a => a.within 4
  | .bg2y a => a.within 4
  | .bg3pa a => a.within 2
  | .bg3pb a => a.within 2
  | .bg3pc a => a.within 2
  | .bg3pd a => a.within 2
  | .bg3x a => a.within 4
  | .bg3y a => a.within 4
  | .win0h a => a.within 2
  | .win1h a => a.within 2
  | .win0v a => a.within 2
  | .win1v a => a.within 2
  | .winin a => a.within 2
  | .winout a => a.within 2
  | .mosaic a => a.within 2
  | .bldcnt a => a.within 2
  | .bldalpha a => a.within 2
  | .bldy a => a.within 2
  | .dma0sad a => a.within 4
  | .dma0dad a => a.within 4
  | .dma0cntL a => a.within 2
  | .dma0cntH a => a.within 2
  | .dma1sad a => a.within 4
  | .dma1dad a => a.within 4
  | .dma1cntL a => a.within 2
  | .dma1cntH a => a.within 2
  | .dma2sad a => a.within 4
  | .dma2dad a => a.within 4
  | .dma2cntL a => a.within 2
  | .dma2cntH a => a.within 2
  | .dma3sad a => a.within 4
  | .dma3dad a => a.within 4
  | .dma3cntL a => a.within 2
  | .dma3cntH a => a.within 2

end Sys2Proof
end

