-- ==== Sys2Proof/Decode.lean ====
section
/-! DEFINITION. The decoder of the two written forms of an operation (R120 to R127, R130 to R132) and, after it, the
encoder written from the same tables. Decoding is total; `none` is a reserved encoding (R126). -/

namespace Sys2Proof

/-! ### Register addresses (R130, R131) -/

/-- Offset of a register from `IO_BASE` (R130). -/
def Reg.offset : Reg → Nat
  | .dispcnt => 0x000
  | .dispstat => 0x004
  | .vcount => 0x006
  | .bgcnt b => 0x008 + 2 * b.val
  | .bghofs b => 0x010 + 4 * b.val
  | .bgvofs b => 0x012 + 4 * b.val
  | .bgpa k => 0x020 + 16 * k.val
  | .bgpb k => 0x022 + 16 * k.val
  | .bgpc k => 0x024 + 16 * k.val
  | .bgpd k => 0x026 + 16 * k.val
  | .bgx k => 0x028 + 16 * k.val
  | .bgy k => 0x02C + 16 * k.val
  | .winh w => 0x040 + 2 * w.val
  | .winv w => 0x044 + 2 * w.val
  | .winin => 0x048
  | .winout => 0x04A
  | .mosaic => 0x04C
  | .bldcnt => 0x050
  | .bldalpha => 0x052
  | .bldy => 0x054
  | .dmaSad c => 0x0B0 + 12 * c.val
  | .dmaDad c => 0x0B4 + 12 * c.val
  | .dmaCntL c => 0x0B8 + 12 * c.val
  | .dmaCntH c => 0x0BA + 12 * c.val

/-- Width of a register in bytes (R130). -/
def Reg.width : Reg → Nat
  | .bgx _ | .bgy _ | .dmaSad _ | .dmaDad _ => 4
  | .dispcnt | .dispstat | .vcount | .bgcnt _ | .bghofs _ | .bgvofs _ => 2
  | .bgpa _ | .bgpb _ | .bgpc _ | .bgpd _ | .winh _ | .winv _ => 2
  | .winin | .winout | .mosaic | .bldcnt | .bldalpha | .bldy | .dmaCntL _ | .dmaCntH _ => 2

/-- Address of byte `o` of a register. -/
def Reg.addr (r : Reg) (o : Nat) : Word := BitVec.ofNat 32 (Config.ioBase.toNat + r.offset + o)

/-- Display and background control, and scroll registers (R130). -/
def displayRegs : List Reg :=
  [.dispcnt, .dispstat, .vcount, .bgcnt 0, .bgcnt 1, .bgcnt 2, .bgcnt 3,
   .bghofs 0, .bgvofs 0, .bghofs 1, .bgvofs 1, .bghofs 2, .bgvofs 2, .bghofs 3, .bgvofs 3]

/-- Affine, window, mosaic and blend registers (R130). -/
def effectRegs : List Reg :=
  [.bgpa 0, .bgpb 0, .bgpc 0, .bgpd 0, .bgx 0, .bgy 0, .bgpa 1, .bgpb 1, .bgpc 1, .bgpd 1, .bgx 1, .bgy 1,
   .winh 0, .winh 1, .winv 0, .winv 1, .winin, .winout, .mosaic, .bldcnt, .bldalpha, .bldy]

/-- The registers of one DMA channel (R130). -/
def channelRegs (c : Chan) : List Reg := [.dmaSad c, .dmaDad c, .dmaCntL c, .dmaCntH c]

/-- The registers of the CORE in the order of R130. -/
def allRegs : List Reg :=
  displayRegs ++ (effectRegs ++ (channelRegs 0 ++ (channelRegs 1 ++ (channelRegs 2 ++ channelRegs 3))))

/-- `addr` selects register `r`: `(addr & ~(w-1)) = A` (R131). -/
def Reg.selects (r : Reg) (addr : Word) : Bool :=
  decide (addr &&& ~~~(BitVec.ofNat 32 (r.width - 1)) = r.addr 0)

/-- Decoding an address: the register and the byte inside it, or `none` for an unmapped address (R131, R132). -/
def regAt (addr : Word) : Option (Reg × Nat) :=
  match allRegs.find? (fun r => r.selects addr) with
  | some r => some (r, (addr &&& BitVec.ofNat 32 (r.width - 1)).toNat)
  | none => none

/-- The instruction of a register row: an access to that register. -/
def Reg.instr : Reg → Access → Instr
  | .dispcnt, a => .dispcnt a
  | .dispstat, a => .dispstat a
  | .vcount, a => .vcount a
  | .bgcnt 0, a => .bg0cnt a
  | .bgcnt 1, a => .bg1cnt a
  | .bgcnt 2, a => .bg2cnt a
  | .bgcnt 3, a => .bg3cnt a
  | .bghofs 0, a => .bg0hofs a
  | .bgvofs 0, a => .bg0vofs a
  | .bghofs 1, a => .bg1hofs a
  | .bgvofs 1, a => .bg1vofs a
  | .bghofs 2, a => .bg2hofs a
  | .bgvofs 2, a => .bg2vofs a
  | .bghofs 3, a => .bg3hofs a
  | .bgvofs 3, a => .bg3vofs a
  | .bgpa 0, a => .bg2pa a
  | .bgpb 0, a => .bg2pb a
  | .bgpc 0, a => .bg2pc a
  | .bgpd 0, a => .bg2pd a
  | .bgx 0, a => .bg2x a
  | .bgy 0, a => .bg2y a
  | .bgpa 1, a => .bg3pa a
  | .bgpb 1, a => .bg3pb a
  | .bgpc 1, a => .bg3pc a
  | .bgpd 1, a => .bg3pd a
  | .bgx 1, a => .bg3x a
  | .bgy 1, a => .bg3y a
  | .winh 0, a => .win0h a
  | .winh 1, a => .win1h a
  | .winv 0, a => .win0v a
  | .winv 1, a => .win1v a
  | .winin, a => .winin a
  | .winout, a => .winout a
  | .mosaic, a => .mosaic a
  | .bldcnt, a => .bldcnt a
  | .bldalpha, a => .bldalpha a
  | .bldy, a => .bldy a
  | .dmaSad 0, a => .dma0sad a
  | .dmaDad 0, a => .dma0dad a
  | .dmaCntL 0, a => .dma0cntL a
  | .dmaCntH 0, a => .dma0cntH a
  | .dmaSad 1, a => .dma1sad a
  | .dmaDad 1, a => .dma1dad a
  | .dmaCntL 1, a => .dma1cntL a
  | .dmaCntH 1, a => .dma1cntH a
  | .dmaSad 2, a => .dma2sad a
  | .dmaDad 2, a => .dma2dad a
  | .dmaCntL 2, a => .dma2cntL a
  | .dmaCntH 2, a => .dma2cntH a
  | .dmaSad 3, a => .dma3sad a
  | .dmaDad 3, a => .dma3dad a
  | .dmaCntL 3, a => .dma3cntL a
  | .dmaCntH 3, a => .dma3cntH a

/-- The register and the access of a register row; `none` for a command row. -/
def Instr.regAccess : Instr → Option (Reg × Access)
  | .dispcnt a => some (.dispcnt, a)
  | .dispstat a => some (.dispstat, a)
  | .vcount a => some (.vcount, a)
  | .bg0cnt a => some (.bgcnt 0, a)
  | .bg1cnt a => some (.bgcnt 1, a)
  | .bg2cnt a => some (.bgcnt 2, a)
  | .bg3cnt a => some (.bgcnt 3, a)
  | .bg0hofs a => some (.bghofs 0, a)
  | .bg0vofs a => some (.bgvofs 0, a)
  | .bg1hofs a => some (.bghofs 1, a)
  | .bg1vofs a => some (.bgvofs 1, a)
  | .bg2hofs a => some (.bghofs 2, a)
  | .bg2vofs a => some (.bgvofs 2, a)
  | .bg3hofs a => some (.bghofs 3, a)
  | .bg3vofs a => some (.bgvofs 3, a)
  | .bg2pa a => some (.bgpa 0, a)
  | .bg2pb a => some (.bgpb 0, a)
  | .bg2pc a => some (.bgpc 0, a)
  | .bg2pd a => some (.bgpd 0, a)
  | .bg2x a => some (.bgx 0, a)
  | .bg2y a => some (.bgy 0, a)
  | .bg3pa a => some (.bgpa 1, a)
  | .bg3pb a => some (.bgpb 1, a)
  | .bg3pc a => some (.bgpc 1, a)
  | .bg3pd a => some (.bgpd 1, a)
  | .bg3x a => some (.bgx 1, a)
  | .bg3y a => some (.bgy 1, a)
  | .win0h a => some (.winh 0, a)
  | .win1h a => some (.winh 1, a)
  | .win0v a => some (.winv 0, a)
  | .win1v a => some (.winv 1, a)
  | .winin a => some (.winin, a)
  | .winout a => some (.winout, a)
  | .mosaic a => some (.mosaic, a)
  | .bldcnt a => some (.bldcnt, a)
  | .bldalpha a => some (.bldalpha, a)
  | .bldy a => some (.bldy, a)
  | .dma0sad a => some (.dmaSad 0, a)
  | .dma0dad a => some (.dmaDad 0, a)
  | .dma0cntL a => some (.dmaCntL 0, a)
  | .dma0cntH a => some (.dmaCntH 0, a)
  | .dma1sad a => some (.dmaSad 1, a)
  | .dma1dad a => some (.dmaDad 1, a)
  | .dma1cntL a => some (.dmaCntL 1, a)
  | .dma1cntH a => some (.dmaCntH 1, a)
  | .dma2sad a => some (.dmaSad 2, a)
  | .dma2dad a => some (.dmaDad 2, a)
  | .dma2cntL a => some (.dmaCntL 2, a)
  | .dma2cntH a => some (.dmaCntH 2, a)
  | .dma3sad a => some (.dmaSad 3, a)
  | .dma3dad a => some (.dmaDad 3, a)
  | .dma3cntL a => some (.dmaCntL 3, a)
  | .dma3cntH a => some (.dmaCntH 3, a)
  | .schAdd _ _ | .schCancel _ | .schRemain | .schStep | .schAdvance _ | .schNow | .schReset => none
  | .dmaRequest _ | .dmaStopvideo | .dmaReset | .ppuReset | .ioRead _ | .ioWrite _ _ | .sysReset => none
  | .dmaTrystart _ | .dmaSelect | .dmaService | .dmaRun | .dmaComplete _ | .dmaDisable _ | .dmaOnwrite _ _ => none
  | .ppuPhase _ | .ppuVcount | .ppuRender => none

/-! ### The command word (R121) -/

/-- `op`, bits 63:56 (R121). -/
def cmdOp (w : BitVec 64) : Byte := w.extractLsb' 56 8
/-- `a`, bits 55:48 (R121). -/
def cmdA (w : BitVec 64) : Byte := w.extractLsb' 48 8
/-- `b`, bits 47:0 (R121). -/
def cmdB (w : BitVec 64) : BitVec 48 := w.extractLsb' 0 48

/-- The command word with the three fields (R121). -/
def cmdWord (op a : Byte) (b : BitVec 48) : BitVec 64 := op ++ (a ++ b)

/-- The operand `a` is a channel: it must be 0..3 (R121). -/
def channelOf (a : Byte) : Option Chan := if h : a.toNat < 4 then some ⟨a.toNat, h⟩ else none

/-- The operand `a` of `DMA.REQUEST` (R124): it must be 0..4 (R121). -/
def occasionOf (a : Byte) : Option Occasion :=
  if a = 0 then some .hblank
  else if a = 1 then some .vblank
  else if a = 2 then some .video
  else if a = 3 then some .fifoA
  else if a = 4 then some .fifoB
  else none

/-- The address operand: `b[31:0]`, and `b[47:32]` must be 0 (R121). -/
def addressOf (b : BitVec 48) : Option Word := if b.toNat < 2 ^ 32 then some (b.setWidth 32) else none

/-- An operation with no operand: both fields are unused and must be 0 (R121, R126). -/
def noOperands (i : Instr) (a : Byte) (b : BitVec 48) : Option Instr := if a = 0 ∧ b = 0 then some i else none

/-- An operation with only the operand `b`: `a` is unused and must be 0 (R121, R126). -/
def onlyB (i : Instr) (a : Byte) : Option Instr := if a = 0 then some i else none

/-- An operation with only the operand `a`: `b` is unused and must be 0 (R121, R126). -/
def onlyA (i : Option Instr) (b : BitVec 48) : Option Instr := if b = 0 then i else none

/-- The decoder of a command word by its three fields (R122, R123). -/
def decodeFields (op a : Byte) (b : BitVec 48) : Option Instr :=
  if op = 0x01 then some (.schAdd a b)
  else if op = 0x02 then onlyB (.schCancel b) a
  else if op = 0x03 then noOperands .schRemain a b
  else if op = 0x04 then noOperands .schStep a b
  else if op = 0x05 then onlyB (.schAdvance b) a
  else if op = 0x06 then noOperands .schNow a b
  else if op = 0x07 then noOperands .schReset a b
  else if op = 0x10 then onlyA ((occasionOf a).map .dmaRequest) b
  else if op = 0x11 then noOperands .dmaStopvideo a b
  else if op = 0x12 then noOperands .dmaReset a b
  else if op = 0x18 then onlyA ((channelOf a).map .dmaTrystart) b
  else if op = 0x19 then noOperands .dmaSelect a b
  else if op = 0x1A then noOperands .dmaService a b
  else if op = 0x1B then noOperands .dmaRun a b
  else if op = 0x1C then onlyA ((channelOf a).map .dmaComplete) b
  else if op = 0x1D then onlyA ((channelOf a).map .dmaDisable) b
  else if op = 0x1E then
    if b = 0 then (channelOf a).map (fun c => .dmaOnwrite c false)
    else if b = 1 then (channelOf a).map (fun c => .dmaOnwrite c true)
    else none
  else if op = 0x20 then onlyB (.ppuPhase b) a
  else if op = 0x21 then noOperands .ppuVcount a b
  else if op = 0x22 then noOperands .ppuReset a b
  else if op = 0x24 then noOperands .ppuRender a b
  else if op = 0x30 then if a = 0 then (addressOf b).map .ioRead else none
  else if op = 0x31 then (addressOf b).map (fun addr => .ioWrite addr a)
  else if op = 0x3F then noOperands .sysReset a b
  else none

/-- The decoder. A pair that names a CORE register is that register's row; a pair that names any other address is the
plain `IO.READ` or `IO.WRITE` (R120, R131, R132). -/
def decode : Request → Option Instr
  | .command w => decodeFields (cmdOp w) (cmdA w) (cmdB w)
  | .read addr =>
    match regAt addr with
    | some (r, o) => some (r.instr (.read o))
    | none => some (.ioRead addr)
  | .write addr v =>
    match regAt addr with
    | some (r, o) => some (r.instr (.write o v))
    | none => some (.ioWrite addr v)

/-- Whether the environment may issue the operation (R122): the internal ones (R123) it may not. -/
def Instr.topLevel : Instr → Bool
  | .dmaTrystart _ | .dmaSelect | .dmaService | .dmaRun | .dmaComplete _ | .dmaDisable _ | .dmaOnwrite _ _ => false
  | .ppuPhase _ | .ppuVcount | .ppuRender => false
  | .schAdd _ _ | .schCancel _ | .schRemain | .schStep | .schAdvance _ | .schNow | .schReset => true
  | .dmaRequest _ | .dmaStopvideo | .dmaReset | .ppuReset | .ioRead _ | .ioWrite _ _ | .sysReset => true
  | .dispcnt _ | .dispstat _ | .vcount _ | .bg0cnt _ | .bg1cnt _ | .bg2cnt _ | .bg3cnt _ => true
  | .bg0hofs _ | .bg0vofs _ | .bg1hofs _ | .bg1vofs _ | .bg2hofs _ | .bg2vofs _ | .bg3hofs _ => true
  | .bg3vofs _ | .bg2pa _ | .bg2pb _ | .bg2pc _ | .bg2pd _ | .bg2x _ | .bg2y _ => true
  | .bg3pa _ | .bg3pb _ | .bg3pc _ | .bg3pd _ | .bg3x _ | .bg3y _ | .win0h _ => true
  | .win1h _ | .win0v _ | .win1v _ | .winin _ | .winout _ | .mosaic _ | .bldcnt _ => true
  | .bldalpha _ | .bldy _ | .dma0sad _ | .dma0dad _ | .dma0cntL _ | .dma0cntH _ | .dma1sad _ => true
  | .dma1dad _ | .dma1cntL _ | .dma1cntH _ | .dma2sad _ | .dma2dad _ | .dma2cntL _ | .dma2cntH _ => true
  | .dma3sad _ | .dma3dad _ | .dma3cntL _ | .dma3cntH _ => true

/-! ### The words of the opcode table -/

/-- The operation a word of spec/opcode_table.json stands for. A row of at most 32 bits is a register row, whose word is
the 32-bit address of a pair (R120 (b)), taken with `IO.READ`; a word of at most 16 bits leaves the upper half of the
address to `IO_BASE`. Any longer row is a command word. DESIGN CHOICE, assumption 10. -/
def tableRequest (nbits w : Nat) : Request :=
  if nbits ≤ 16 then .read (Config.ioBase ||| BitVec.ofNat 32 w)
  else if nbits ≤ 32 then .read (BitVec.ofNat 32 w)
  else .command (BitVec.ofNat 64 w)

/-- The instruction the decoder reads from a word of the opcode table. -/
def decodeTableWord (nbits w : Nat) : Option Instr := decode (tableRequest nbits w)

/-! ### The encoder (R121 to R124, R130, R131) -/

/-- The operand code of an occasion (R124). -/
def Occasion.code : Occasion → Byte
  | .hblank => 0
  | .vblank => 1
  | .video => 2
  | .fifoA => 3
  | .fifoB => 4

/-- The operand code of a channel (R124). -/
def channelCode (c : Chan) : Byte := BitVec.ofNat 8 c.val

/-- The pair that makes an access to a register (R120 (b), R131). -/
def encodeAccess (r : Reg) : Access → Request
  | .read o => .read (r.addr o)
  | .write o v => .write (r.addr o) v

/-- The written form of an instruction. -/
def encode : Instr → Request
  | .schAdd tag delay => .command (cmdWord 0x01 tag delay)
  | .schCancel h => .command (cmdWord 0x02 0 h)
  | .schRemain => .command (cmdWord 0x03 0 0)
  | .schStep => .command (cmdWord 0x04 0 0)
  | .schAdvance n => .command (cmdWord 0x05 0 n)
  | .schNow => .command (cmdWord 0x06 0 0)
  | .schReset => .command (cmdWord 0x07 0 0)
  | .dmaRequest occ => .command (cmdWord 0x10 occ.code 0)
  | .dmaStopvideo => .command (cmdWord 0x11 0 0)
  | .dmaReset => .command (cmdWord 0x12 0 0)
  | .ppuReset => .command (cmdWord 0x22 0 0)
  | .ioRead addr => .command (cmdWord 0x30 0 (addr.setWidth 48))
  | .ioWrite addr v => .command (cmdWord 0x31 v (addr.setWidth 48))
  | .sysReset => .command (cmdWord 0x3F 0 0)
  | .dmaTrystart c => .command (cmdWord 0x18 (channelCode c) 0)
  | .dmaSelect => .command (cmdWord 0x19 0 0)
  | .dmaService => .command (cmdWord 0x1A 0 0)
  | .dmaRun => .command (cmdWord 0x1B 0 0)
  | .dmaComplete c => .command (cmdWord 0x1C (channelCode c) 0)
  | .dmaDisable c => .command (cmdWord 0x1D (channelCode c) 0)
  | .dmaOnwrite c was => .command (cmdWord 0x1E (channelCode c) (if was then 1 else 0))
  | .ppuPhase late => .command (cmdWord 0x20 0 late)
  | .ppuVcount => .command (cmdWord 0x21 0 0)
  | .ppuRender => .command (cmdWord 0x24 0 0)
  | .dispcnt a => encodeAccess (.dispcnt) a
  | .dispstat a => encodeAccess (.dispstat) a
  | .vcount a => encodeAccess (.vcount) a
  | .bg0cnt a => encodeAccess (.bgcnt 0) a
  | .bg1cnt a => encodeAccess (.bgcnt 1) a
  | .bg2cnt a => encodeAccess (.bgcnt 2) a
  | .bg3cnt a => encodeAccess (.bgcnt 3) a
  | .bg0hofs a => encodeAccess (.bghofs 0) a
  | .bg0vofs a => encodeAccess (.bgvofs 0) a
  | .bg1hofs a => encodeAccess (.bghofs 1) a
  | .bg1vofs a => encodeAccess (.bgvofs 1) a
  | .bg2hofs a => encodeAccess (.bghofs 2) a
  | .bg2vofs a => encodeAccess (.bgvofs 2) a
  | .bg3hofs a => encodeAccess (.bghofs 3) a
  | .bg3vofs a => encodeAccess (.bgvofs 3) a
  | .bg2pa a => encodeAccess (.bgpa 0) a
  | .bg2pb a => encodeAccess (.bgpb 0) a
  | .bg2pc a => encodeAccess (.bgpc 0) a
  | .bg2pd a => encodeAccess (.bgpd 0) a
  | .bg2x a => encodeAccess (.bgx 0) a
  | .bg2y a => encodeAccess (.bgy 0) a
  | .bg3pa a => encodeAccess (.bgpa 1) a
  | .bg3pb a => encodeAccess (.bgpb 1) a
  | .bg3pc a => encodeAccess (.bgpc 1) a
  | .bg3pd a => encodeAccess (.bgpd 1) a
  | .bg3x a => encodeAccess (.bgx 1) a
  | .bg3y a => encodeAccess (.bgy 1) a
  | .win0h a => encodeAccess (.winh 0) a
  | .win1h a => encodeAccess (.winh 1) a
  | .win0v a => encodeAccess (.winv 0) a
  | .win1v a => encodeAccess (.winv 1) a
  | .winin a => encodeAccess (.winin) a
  | .winout a => encodeAccess (.winout) a
  | .mosaic a => encodeAccess (.mosaic) a
  | .bldcnt a => encodeAccess (.bldcnt) a
  | .bldalpha a => encodeAccess (.bldalpha) a
  | .bldy a => encodeAccess (.bldy) a
  | .dma0sad a => encodeAccess (.dmaSad 0) a
  | .dma0dad a => encodeAccess (.dmaDad 0) a
  | .dma0cntL a => encodeAccess (.dmaCntL 0) a
  | .dma0cntH a => encodeAccess (.dmaCntH 0) a
  | .dma1sad a => encodeAccess (.dmaSad 1) a
  | .dma1dad a => encodeAccess (.dmaDad 1) a
  | .dma1cntL a => encodeAccess (.dmaCntL 1) a
  | .dma1cntH a => encodeAccess (.dmaCntH 1) a
  | .dma2sad a => encodeAccess (.dmaSad 2) a
  | .dma2dad a => encodeAccess (.dmaDad 2) a
  | .dma2cntL a => encodeAccess (.dmaCntL 2) a
  | .dma2cntH a => encodeAccess (.dmaCntH 2) a
  | .dma3sad a => encodeAccess (.dmaSad 3) a
  | .dma3dad a => encodeAccess (.dmaDad 3) a
  | .dma3cntL a => encodeAccess (.dmaCntL 3) a
  | .dma3cntH a => encodeAccess (.dmaCntH 3) a

end Sys2Proof
end

