-- ==== Sys2Proof/Machine/State.lean ====
section
/-! DEFINITION. The state of the block as plain data (10_state.md), the reasons a step can stop, and the state after
reset (R71). The first six parts are the CORE's own (R20 to R62); `env`, `cfg` and `result` are the model's: the
environment the CORE talks to (R66, R94), the parameters (R8, R9) and what the last operation returned (R125). -/

namespace Sys2Proof.Machine

/-- Why the machine stops with a fault. The block itself has none (R520). -/
inductive Fault where
  /-- Raised by the service loop and what it calls when they have not ended after `cfg.fuel` nested or repeated passes
  (R236, R487: the spec claims no bound). Safe: the model stops where the hardware goes on. Assumption 8. -/
  | serviceFuel
  deriving DecidableEq, Repr

/-- Why an operation has no meaning. The first seven are the spec's own `refuse(reason)` (93_implementation_defined.md
I1 to I9): the operation has no successor state (R13, R521). All are safe: the model stops. -/
inductive Refusal where
  /-- Raised by `Add` for a delay below 0 (R201, I1): a phase event more than one phase late (R573). -/
  | negativeDelay
  /-- Raised by `Add` for a delay above 2^48 - 1 (R201, I2). -/
  | delayTooLarge
  /-- Raised by `Add` and `Advance` when the clock would pass 2^64 - 1 (R201, R205, I3, I4). -/
  | clockOverflow
  /-- Raised by `Add` when the queue holds QCAP events (R201, I5). -/
  | queueFull
  /-- Raised by `Add` when the last handle has been given out (R201, I6). -/
  | handlesExhausted
  /-- Raised by `Add` when the environment uses tag 0 (R127, R201, I7). -/
  | ppuTagReserved
  /-- Raised by a request that decodes to nothing (R126, I8), and by an access to a byte a register does not have. -/
  | reservedEncoding
  /-- Raised by the step and by a callback for an internal operation issued by the environment (R123, I9). -/
  | internalOperation
  /-- Raised by `Run` when no channel is active: R237 works on the active channel. Assumption 18. -/
  | noActiveChannel
  /-- Raised by `exec` for an instruction that has no meaning yet. No arm of this model uses it. -/
  | notModelled (mnemonic : String)
  deriving DecidableEq, Repr

/-- A pending event of the scheduler queue (R24): the cycle it is due at, its handle, its callback tag. -/
structure Event where
  target : Nat
  seq : Nat
  tag : Byte
  deriving DecidableEq, Repr

/-- The event scheduler (R23 to R25). `queue` is kept sorted by `(target, seq)`, the earliest event first. -/
structure Sched where
  now : Nat
  queue : List Event
  nextSeq : Nat
  deriving DecidableEq, Repr

/-- One DMA channel: its registers (R31 to R33), its mode flags (R34, R35) and its latch (R36). -/
structure Channel where
  cfgSrc : Word
  cfgDst : Word
  cfgLen : Half
  ctrl : Half
  fifoMode : Bool
  srcModeEff : BitVec 2
  latSrc : Word
  latDst : Word
  latRem : Nat
  deriving DecidableEq, Repr

/-- The DMA controller (R30 to R41). -/
structure Dma where
  ch : Vector Channel 4
  runnable : ChanSet
  hblank : ChanSet
  vblank : ChanSet
  video : ChanSet
  active : Option Chan
  earlyExit : Bool
  busy : Bool
  openBus : Word
  deriving DecidableEq, Repr

/-- The phase the PPU timing machine is in (R45). -/
inductive Phase where
  | visible
  | preHblankWindow
  | hblank
  | vblankVisible
  | vblankHblank
  deriving DecidableEq, Repr

/-- PPU timing state (R45 to R48) with the three status flags (R22) and the rest of DISPSTAT (R47). -/
structure Timing where
  phase : Phase
  scanline : Nat
  vblankFlag : Bool
  hblankFlag : Bool
  vcountFlag : Bool
  vblankIrqEn : Bool
  hblankIrqEn : Bool
  vcountIrqEn : Bool
  vcountTarget : Byte
  ppuEvent : Nat
  deriving DecidableEq, Repr

/-- The PPU register block (R50 to R58) and the running reference points (R54). -/
structure PpuRegs where
  dispcnt : Half
  bgcnt : Vector Half 4
  bghofs : Vector (BitVec 9) 4
  bgvofs : Vector (BitVec 9) 4
  bgpa : Vector Half 2
  bgpb : Vector Half 2
  bgpc : Vector Half 2
  bgpd : Vector Half 2
  bgx : Vector (BitVec 28) 2
  bgy : Vector (BitVec 28) 2
  refX : Vector Int 2
  refY : Vector Int 2
  winh : Vector Half 2
  winv : Vector Half 2
  winin : Half
  winout : Half
  mosaic : Half
  bldcnt : Half
  bldalpha : Half
  bldy : Byte
  deriving DecidableEq, Repr

/-- The interrupt sources of the block (R523). -/
inductive IrqSource where
  | vblank
  | hblank
  | vcount
  | dma
  deriving DecidableEq, Repr

/-- One call of `IRQ.Raise` as the reference environment logs it (R94, R522). -/
structure IrqEntry where
  source : IrqSource
  index : Nat
  time : Nat
  deriving DecidableEq, Repr

/-- One external callback as the reference environment logs it (R94, R207). -/
structure ExtEntry where
  tag : Byte
  late : Nat
  time : Nat
  deriving DecidableEq, Repr

/-- The bytes of the bus address space (R80): addresses strictly rising, no entry equal to what an unlisted address reads
as, which is 0 (R94). -/
abbrev Mem := List Host.Cell

/-- One thing the environment does: it issues an operation of the block (R120, R122), or its processor stores a byte through
the bus (R82). -/
inductive EnvAct where
  | issue (r : Request)
  | store (addr : Word) (v : Byte)
  deriving DecidableEq, Repr

/-- One row of the function `EXT_CALLBACK(tag, late, state)` (R9, R207): what the callback of an event with this tag does, for
a lateness and a state of the environment that fit. `late` is the lateness, `calls` and `irqs` are the lengths of the two
logs, `reads` are bytes of memory; a number that is `none` and an empty `reads` fit everything. Assumption 6. -/
structure ExtRow where
  tag : Byte
  late : Option Nat
  calls : Option Nat
  irqs : Option Nat
  reads : List Host.Cell
  acts : List EnvAct
  deriving DecidableEq, Repr

/-- The environment: the reference environment ENV0 of R94 (`mem`, `irqLog`, `extLog`), what it has yet to do at top level
(`requests`, assumption 1), and the function `EXT_CALLBACK` as rows of which the first that fits counts (`callbacks`,
assumption 6). No step changes `callbacks`. -/
structure Env where
  mem : Mem
  irqLog : List IrqEntry
  extLog : List ExtEntry
  requests : List EnvAct
  callbacks : List ExtRow
  deriving DecidableEq, Repr

/-- What an operation returns (R125): a handle, a signed count, the clock, a byte, or, for the internal vertical-counter
check, a truth value (R294). -/
inductive Result where
  | none
  | handle (h : Nat)
  | count (n : Int)
  | clock (n : Nat)
  | byte (v : Byte)
  | flag (b : Bool)
  deriving DecidableEq, Repr

/-- The whole state. -/
structure State where
  sched : Sched
  dma : Dma
  timing : Timing
  regs : PpuRegs
  fb : List (List Pixel)
  env : Env
  cfg : Params
  result : Result
  deriving DecidableEq, Repr

/-! ### The state after reset (R71) -/

/-- A channel after reset (R71). -/
def Channel.reset : Channel := ⟨0, 0, 0, 0, false, 0, 0, 0, 0⟩

/-- The DMA controller after reset (R71). -/
def Dma.reset : Dma where
  ch := Vector.replicate 4 Channel.reset
  runnable := 0
  hblank := 0
  vblank := 0
  video := 0
  active := none
  earlyExit := false
  busy := false
  openBus := 0

/-- The PPU timing state after reset, `ppu_event` being the handle `h` of the first phase event (R71). -/
def Timing.reset (h : Nat) : Timing := ⟨.visible, 0, false, false, false, false, false, false, 0, h⟩

/-- The PPU register block after reset (R71). -/
def PpuRegs.reset : PpuRegs where
  dispcnt := 0
  bgcnt := Vector.replicate 4 0
  bghofs := Vector.replicate 4 0
  bgvofs := Vector.replicate 4 0
  bgpa := Vector.replicate 2 0
  bgpb := Vector.replicate 2 0
  bgpc := Vector.replicate 2 0
  bgpd := Vector.replicate 2 0
  bgx := Vector.replicate 2 0
  bgy := Vector.replicate 2 0
  refX := Vector.replicate 2 0
  refY := Vector.replicate 2 0
  winh := Vector.replicate 2 0
  winv := Vector.replicate 2 0
  winin := 0
  winout := 0
  mosaic := 0
  bldcnt := 0
  bldalpha := 0
  bldy := 0

/-- A framebuffer of one colour: 160 rows of 240 pixels (R62). -/
def blankFb (p : Pixel) : List (List Pixel) := List.replicate 160 (List.replicate 240 p)

/-- The environment before anything happened: memory all 0, empty logs (R94), nothing waiting, callbacks that only log. -/
def Env.reset : Env := ⟨[], [], [], [], []⟩

/-- The machine right after reset: the table of R71, with the parameters at the values of R8 and the suggested defaults
of R9 (assumption 4). The pixel is `COLOR_OUT(0)` under the default conversion (R419). -/
def State.reset : State where
  sched := ⟨0, [⟨960, 0, 0⟩], 1⟩
  dma := Dma.reset
  timing := Timing.reset 0
  regs := PpuRegs.reset
  fb := blankFb 0xFF000000#32
  env := Env.reset
  cfg := Params.t0
  result := .none

end Sys2Proof.Machine
end

