-- ==== Sys2Proof/Machine/Operands.lean ====
section
/-! DEFINITION. Operand forms: bit fields, sets of channels, the fields of every register (30_encoding.md section 5), the
channel helpers of R231 and R232, and what a register reads as, which bits a write keeps and where they go (R442). -/

namespace Sys2Proof.Machine

/-! ### Bit fields and sets (R10, R11) -/

/-- `v[lo+len-1:lo]` as an unsigned number (R10). -/
def field {n : Nat} (v : BitVec n) (lo len : Nat) : Nat := (v.extractLsb' lo len).toNat

/-- `S[c]` (R11). -/
def hasChan (S : ChanSet) (c : Chan) : Bool := S.getLsbD c.val

/-- The set with the one member `c` (R11). -/
def chanBit (c : Chan) : ChanSet := BitVec.ofNat 4 (2 ^ c.val)

/-- `S[c] <- 1` (R11). -/
def insertChan (S : ChanSet) (c : Chan) : ChanSet := S ||| chanBit c

/-- `S[c] <- 0` (R11). -/
def removeChan (S : ChanSet) (c : Chan) : ChanSet := S &&& ~~~chanBit c

/-- `lowest(S)`: the member of highest priority, `none` for the empty set (R11). -/
def lowest (S : ChanSet) : Option Chan :=
  if S.getLsbD 0 then some 0
  else if S.getLsbD 1 then some 1
  else if S.getLsbD 2 then some 2
  else if S.getLsbD 3 then some 3
  else none

/-! ### The control half-word of a channel (R33, R150) -/

/-- `dst_mode`, bits 6:5. -/
def ctrlDstMode (h : Half) : BitVec 2 := h.extractLsb' 5 2
/-- `src_mode`, bits 8:7. -/
def ctrlSrcMode (h : Half) : BitVec 2 := h.extractLsb' 7 2
/-- `repeat`, bit 9. -/
def ctrlRepeat (h : Half) : Bool := h.getLsbD 9
/-- `size`, bit 10: true is Word. -/
def ctrlWord (h : Half) : Bool := h.getLsbD 10
/-- `timing`, bits 13:12. -/
def ctrlTiming (h : Half) : BitVec 2 := h.extractLsb' 12 2
/-- `irq`, bit 14. -/
def ctrlIrq (h : Half) : Bool := h.getLsbD 14
/-- `enable`, bit 15. -/
def ctrlEnable (h : Half) : Bool := h.getLsbD 15
/-- `enable <- 0`. -/
def clearEnable (h : Half) : Half := h &&& 0x7FFF#16

/-- Timing code Immediate (R150). -/
def timingImmediate : BitVec 2 := 0
/-- Timing code VBlank (R150). -/
def timingVblank : BitVec 2 := 1
/-- Timing code HBlank (R150). -/
def timingHblank : BitVec 2 := 2
/-- Timing code Special (R150). -/
def timingSpecial : BitVec 2 := 3
/-- Addressing-mode code Increment (R150). -/
def modeIncrement : BitVec 2 := 0
/-- Addressing-mode code Decrement (R150). -/
def modeDecrement : BitVec 2 := 1
/-- Addressing-mode code Fixed (R150). -/
def modeFixed : BitVec 2 := 2
/-- Addressing-mode code Reload (R150). -/
def modeReload : BitVec 2 := 3

/-! ### Channel helpers (R231, R232) -/

/-- `UnitBytes(size)` (R232). -/
def unitBytes (word : Bool) : Nat := if word then 4 else 2

/-- `Delta[size][mode]` as the 32-bit amount added modulo 2^32 (R231, R105). -/
def delta (word : Bool) (mode : BitVec 2) : Word :=
  let step : Word := BitVec.ofNat 32 (unitBytes word)
  if mode = modeDecrement then -step else if mode = modeFixed then 0 else step

/-- `Align(a, size)` (R88, R232). -/
def align (word : Bool) (a : Word) : Word := if word then a &&& 0xFFFFFFFC#32 else a &&& 0xFFFFFFFE#32

/-- `ExpandLen(c, v)`: a stored 0 is the maximum value + 1 (R32, R232). -/
def expandLen (c : Chan) (v : Half) : Nat := if v = 0 then (Config.lenMask c).toNat + 1 else v.toNat

/-- `IsRom(a)` (R232). -/
def isRom (a : Word) : Bool := decide (Config.romLo ≤ a ∧ a ≤ Config.romHi)

/-- `SrcReadable(a)` (R232). -/
def srcReadable (a : Word) : Bool := decide (Config.srcReadableLo ≤ a)

/-- A half-word in both halves of a word: `v | v << 16` (R237). -/
def duplicateHalf (v : Word) : Word := (v &&& 0xFFFF#32) ||| (v <<< 16)

/-! ### Display control and background control (R140, R143) -/

/-- `bg_mode`, DISPCNT bits 2:0. -/
def bgMode (d : Half) : Nat := field d 0 3
/-- `frame`, DISPCNT bit 4. -/
def dispFrame (d : Half) : Bool := d.getLsbD 4
/-- `obj_1d`, DISPCNT bit 6. -/
def dispObj1d (d : Half) : Bool := d.getLsbD 6
/-- `forced_blank`, DISPCNT bit 7. -/
def dispForcedBlank (d : Half) : Bool := d.getLsbD 7
/-- `bg_en[b]`, DISPCNT bit 8 + b. -/
def dispBgEn (d : Half) (b : Fin 4) : Bool := d.getLsbD (8 + b.val)
/-- `obj_en`, DISPCNT bit 12. -/
def dispObjEn (d : Half) : Bool := d.getLsbD 12
/-- `win0_en`, DISPCNT bit 13. -/
def dispWin0En (d : Half) : Bool := d.getLsbD 13
/-- `win1_en`, DISPCNT bit 14. -/
def dispWin1En (d : Half) : Bool := d.getLsbD 14
/-- `objwin_en`, DISPCNT bit 15. -/
def dispObjwinEn (d : Half) : Bool := d.getLsbD 15

/-- `prio`, BGbCNT bits 1:0. -/
def cntPrio (h : Half) : Nat := field h 0 2
/-- `char_base`, BGbCNT bits 3:2, in units of 16 KiB. -/
def cntCharBase (h : Half) : Nat := field h 2 2 * 0x4000
/-- `mosaic`, BGbCNT bit 6. -/
def cntMosaic (h : Half) : Bool := h.getLsbD 6
/-- `pal256`, BGbCNT bit 7. -/
def cntPal256 (h : Half) : Bool := h.getLsbD 7
/-- `screen_base`, BGbCNT bits 12:8. -/
def cntScreenBase (h : Half) : Nat := field h 8 5
/-- `wrap`, BGbCNT bit 13. -/
def cntWrap (h : Half) : Bool := h.getLsbD 13
/-- `size`, BGbCNT bits 15:14. -/
def cntSize (h : Half) : Nat := field h 14 2

/-! ### Register contents (R442) -/

/-- A truth value as the bit `i` of a word. -/
def bitAt (b : Bool) (i : Nat) : Word := if b then BitVec.ofNat 32 (2 ^ i) else 0

/-- `Stored(reg)`: the bits of the register that are kept, at its full width, in the low bits of a word (R442). -/
def stored (r : Reg) (s : State) : Word :=
  match r with
  | .dispcnt => s.regs.dispcnt.setWidth 32
  | .dispstat =>
    bitAt s.timing.vblankIrqEn 3 ||| bitAt s.timing.hblankIrqEn 4 ||| bitAt s.timing.vcountIrqEn 5
      ||| (s.timing.vcountTarget.setWidth 32 <<< 8)
  | .vcount => 0
  | .bgcnt b => s.regs.bgcnt[b].setWidth 32
  | .bghofs b => s.regs.bghofs[b].setWidth 32
  | .bgvofs b => s.regs.bgvofs[b].setWidth 32
  | .bgpa k => s.regs.bgpa[k].setWidth 32
  | .bgpb k => s.regs.bgpb[k].setWidth 32
  | .bgpc k => s.regs.bgpc[k].setWidth 32
  | .bgpd k => s.regs.bgpd[k].setWidth 32
  | .bgx k => s.regs.bgx[k].setWidth 32
  | .bgy k => s.regs.bgy[k].setWidth 32
  | .winh w => s.regs.winh[w].setWidth 32
  | .winv w => s.regs.winv[w].setWidth 32
  | .winin => s.regs.winin.setWidth 32
  | .winout => s.regs.winout.setWidth 32
  | .mosaic => s.regs.mosaic.setWidth 32
  | .bldcnt => s.regs.bldcnt.setWidth 32
  | .bldalpha => s.regs.bldalpha.setWidth 32
  | .bldy => s.regs.bldy.setWidth 32
  | .dmaSad c => s.dma.ch[c].cfgSrc
  | .dmaDad c => s.dma.ch[c].cfgDst
  | .dmaCntL c => s.dma.ch[c].cfgLen.setWidth 32
  | .dmaCntH c => s.dma.ch[c].ctrl.setWidth 32

/-- `WriteMask(reg)` (R442). VCOUNT is read-only: no bit is kept. -/
def writeMask : Reg → Word
  | .dispcnt | .bgcnt _ | .bgpa _ | .bgpb _ | .bgpc _ | .bgpd _ | .winh _ | .winv _ | .mosaic => 0xFFFF#32
  | .dispstat => 0xFF38#32
  | .vcount => 0#32
  | .bghofs _ | .bgvofs _ => 0x01FF#32
  | .bgx _ | .bgy _ => 0x0FFFFFFF#32
  | .winin | .winout => 0x3F3F#32
  | .bldcnt => 0x3FFF#32
  | .bldalpha => 0x1F1F#32
  | .bldy => 0x001F#32
  | .dmaSad c => Config.srcMask c
  | .dmaDad c => Config.dstMask c
  | .dmaCntL c => (Config.lenMask c).setWidth 32
  | .dmaCntH c => (Config.ctrlMask c).setWidth 32

/-- The register is readable; every other one is write-only and reads 0 (R442, R130). -/
def readable : Reg → Bool
  | .dispcnt | .dispstat | .vcount | .bgcnt _ | .winin | .winout | .bldcnt | .bldalpha | .dmaCntH _ => true
  | .bghofs _ | .bgvofs _ | .bgpa _ | .bgpb _ | .bgpc _ | .bgpd _ | .bgx _ | .bgy _ | .winh _ | .winv _ => false
  | .mosaic | .bldy | .dmaSad _ | .dmaDad _ | .dmaCntL _ => false

/-- The live status flags of DISPSTAT, bits 2:0 (R141, R442). -/
def statusFlags (t : Timing) : Word := bitAt t.vblankFlag 0 ||| bitAt t.hblankFlag 1 ||| bitAt t.vcountFlag 2

/-- `ReadValue(reg)` (R442): the stored bits, with the hardware-driven ones of DISPSTAT and VCOUNT; 0 for a write-only
register (R440). -/
def readValue (r : Reg) (s : State) : Word :=
  match r with
  | .dispstat => stored .dispstat s ||| statusFlags s.timing
  | .vcount => (BitVec.ofNat 8 s.timing.scanline).setWidth 32
  | _ => if readable r then stored r s else 0

/-- Byte `o` of a register's value (R87, R440). -/
def byteOf (v : Word) (o : Nat) : Byte := v.extractLsb' (8 * o) 8

/-- Replace byte `o` of a register's value: `(old & ~(0xFF << 8*o)) | (v << 8*o)` (R441). -/
def mergeByte (old : Word) (o : Nat) (v : Byte) : Word :=
  (old &&& ~~~(0xFF#32 <<< (8 * o))) ||| (v.setWidth 32 <<< (8 * o))

end Sys2Proof.Machine
end

