-- ==== Sys2Proof/Machine/Ops.lean ====
section
/-! DEFINITION. The named operations over the state: sequencing, field updates, memory and bus costs (20_memory.md), the
scheduler's queue and clock (40_scheduler.md), raising an interrupt (60_exceptions.md), storing into a register. -/

namespace Sys2Proof.Machine

/-! ### Sequencing -/

/-- The outcome of an operation that gives a value. -/
abbrev Res (α : Type) := Host.Outcome α Fault Refusal

/-- Go on with `f` where `x` gives a value; a stop stays a stop, so a refusal anywhere refuses the whole operation (R13). -/
def andThen {α β : Type} (x : Res α) (f : α → Res β) : Res β :=
  match x with
  | .next a => f a
  | .fault r => .fault r
  | .refused r => .refused r

/-- Run `f` only when `b` holds. -/
def doIf (b : Bool) (f : State → Res State) (s : State) : Res State := if b then f s else .next s

/-- Give the operation's result (R125) and end it. -/
def finish (r : Result) (x : Res State) : Res State := andThen x fun s => .next { s with result := r }

/-! ### Field updates -/

/-- Change the DMA controller. -/
def State.mapDma (f : Dma → Dma) (s : State) : State := { s with dma := f s.dma }

/-- Change the PPU timing state. -/
def State.mapTiming (f : Timing → Timing) (s : State) : State := { s with timing := f s.timing }

/-- Change the PPU register block. -/
def State.mapRegs (f : PpuRegs → PpuRegs) (s : State) : State := { s with regs := f s.regs }

/-- Change the environment. -/
def State.mapEnv (f : Env → Env) (s : State) : State := { s with env := f s.env }

/-- Channel `c`. -/
def State.chan (s : State) (c : Chan) : Channel := s.dma.ch[c]

/-- Change channel `c`. -/
def State.mapChan (c : Chan) (f : Channel → Channel) (s : State) : State :=
  { s with dma := { s.dma with ch := s.dma.ch.set c (f s.dma.ch[c]) } }

/-! ### Memory (R80, R87, R94) -/

/-- What an address that is not listed reads as (R94: `mem` is initially all 0). -/
def unlistedByte : Byte := 0

/-- One byte of memory. -/
def Mem.read (m : Mem) (a : Nat) : Byte :=
  match m with
  | [] => unlistedByte
  | (k, v) :: rest => if k = a then v else Mem.read rest a

/-- Put a cell in its place by address. -/
def Mem.insert (a : Nat) (v : Byte) : Mem → Mem
  | [] => [(a, v)]
  | (k, w) :: rest => if a < k then (a, v) :: (k, w) :: rest else (k, w) :: Mem.insert a v rest

/-- Memory without a cell for `a`. -/
def Mem.erase (m : Mem) (a : Nat) : Mem := m.filter fun cell => cell.1 != a

/-- Store one byte; storing what an unlisted address reads as removes the cell. -/
def Mem.write (m : Mem) (a : Nat) (v : Byte) : Mem :=
  if v = unlistedByte then m.erase a else Mem.insert a v (m.erase a)

/-- The canonical form: addresses strictly rising and inside the 2^32-byte space (R80), no entry that reads as an unlisted
address does. -/
def Mem.wf : Mem → Bool
  | [] => true
  | [(a, v)] => decide (a < 2 ^ 32) && v != unlistedByte
  | (a, v) :: (b, w) :: rest => decide (a < b) && v != unlistedByte && Mem.wf ((b, w) :: rest)

/-- Address of byte `i` of an access at `a`, modulo 2^32 (R105). -/
def byteAddr (a : Word) (i : Nat) : Nat := (a + BitVec.ofNat 32 i).toNat

/-- A little-endian half-word of memory (R87). -/
def Mem.readHalf (m : Mem) (a : Word) : Half := m.read (byteAddr a 1) ++ m.read (byteAddr a 0)

/-- A little-endian word of memory (R87). -/
def Mem.readWord (m : Mem) (a : Word) : Word :=
  m.read (byteAddr a 3) ++ (m.read (byteAddr a 2) ++ (m.read (byteAddr a 1) ++ m.read (byteAddr a 0)))

/-- Store the low `n` bytes of `v` at `a`, little-endian, lowest address first (R87). -/
def Mem.writeBytes (m : Mem) (a : Word) (v : Word) : Nat → Mem
  | 0 => m
  | n + 1 => (Mem.writeBytes m a v n).write (byteAddr a n) (byteOf v n)

/-! ### The environment's callback function (R9, R207) -/

/-- The row is for this tag, this lateness and this state of the environment. -/
def ExtRow.fits (r : ExtRow) (tag : Byte) (late : Nat) (e : Env) : Bool :=
  r.tag == tag && r.late.all (· == late) && r.calls.all (· == e.extLog.length) && r.irqs.all (· == e.irqLog.length)
    && r.reads.all fun cell => e.mem.read cell.1 == cell.2

/-- What the callback of an event with tag `tag`, fired `late` cycles late, does: the acts of the first row that fits, none
when none does (R9, assumption 6). -/
def Env.response (e : Env) (tag : Byte) (late : Nat) : List EnvAct :=
  match e.callbacks.find? fun r => r.fits tag late e with
  | some r => r.acts
  | none => []

/-! ### Costs and colours (R9) -/

/-- `BUS_COST(addr, width, kind)` (R9). -/
def busCost (cfg : Params) (addr : Word) (bits : Nat) (kind : AccessKind) : Nat :=
  match cfg.busCosts.find? (fun r => decide (r.addr = addr ∧ r.bits = bits ∧ r.kind = kind)) with
  | some r => r.cost
  | none => cfg.busCostDefault

/-- A 5-bit channel widened to 8 bits: `(v << 3) | (v >> 2)` (R419). -/
def widen (v : Nat) : Nat := v * 8 + v / 4

/-- The default conversion: `0xFF000000 | R << 16 | G << 8 | B` (R419), with red in the low bits of the colour (R160). -/
def defaultColorOut (c : Color) : Pixel :=
  BitVec.ofNat 32 (0xFF000000 + widen (field c 0 5) * 0x10000 + widen (field c 5 5) * 0x100 + widen (field c 10 5))

/-- `COLOR_OUT(c15)` (R9, R419). -/
def colorOut (cfg : Params) (c : Color) : Pixel :=
  match cfg.colorOuts.find? (fun r => decide (r.color = c)) with
  | some r => r.pixel
  | none => defaultColorOut c

/-! ### The scheduler's queue and clock (R23 to R26, R201 to R205) -/

/-- The queue order: by `(target, seq)`, smaller first (R24, R208). -/
def Event.before (a b : Event) : Bool := decide (a.target < b.target ∨ (a.target = b.target ∧ a.seq < b.seq))

/-- The queue with one more event, in its place. -/
def insertEvent (e : Event) : List Event → List Event
  | [] => [e]
  | x :: rest => if e.before x then e :: x :: rest else x :: insertEvent e rest

/-- The queue after an event with target `now + delay` is added under the next handle (R201). -/
def Sched.add (s : Sched) (delay : Nat) (tag : Byte) : Sched :=
  { s with queue := insertEvent ⟨s.now + delay, s.nextSeq, tag⟩ s.queue, nextSeq := s.nextSeq + 1 }

/-- `Add(delay, tag) -> handle` (R201), `fromEnv` when the caller is the environment. -/
def addEvent (fromEnv : Bool) (delay : Int) (tag : Byte) (s : State) : Res (Nat × State) :=
  if delay < 0 then .refused .negativeDelay
  else if delay > Config.delayMax then .refused .delayTooLarge
  else if s.sched.now + delay > Config.nowMax then .refused .clockOverflow
  else if s.sched.queue.length = s.cfg.qcap then .refused .queueFull
  else if s.sched.nextSeq = Config.seqMax then .refused .handlesExhausted
  else if tag = 0 ∧ fromEnv then .refused .ppuTagReserved
  else .next (s.sched.nextSeq, { s with sched := s.sched.add delay.toNat tag })

/-- `Cancel(handle)` (R202). -/
def cancelEvent (h : Nat) (s : State) : State :=
  { s with sched := { s.sched with queue := s.sched.queue.filter fun e => e.seq != h } }

/-- `GetRemainingCycleCount()` (R203): signed, `2^63 - 1` for an empty queue. -/
def remaining (s : Sched) : Int :=
  match s.queue with
  | [] => 2 ^ 63 - 1
  | e :: _ => (e.target : Int) - s.now

/-- `Advance(n)` (R205). -/
def advance (n : Nat) (s : State) : Res State :=
  if s.sched.now + n > Config.nowMax then .refused .clockOverflow
  else .next { s with sched := { s.sched with now := s.sched.now + n } }

/-- Take the earliest event `e` out of the queue and move the clock to its target if that lies ahead (R204). -/
def takeEvent (e : Event) (rest : List Event) (s : State) : State :=
  { s with sched := { s.sched with queue := rest, now := max s.sched.now e.target } }

/-! ### Interrupts: the block's only outgoing event (R522 to R525) -/

/-- The source number of R523; the flag bit of a raise is `number + index`. -/
def IrqSource.number : IrqSource → Nat
  | .vblank => 0
  | .hblank => 1
  | .vcount => 2
  | .dma => 8

/-- `IRQ.Raise(source, index)`: the reference environment logs it with the clock (R94, R522). Nothing else happens. -/
def raise (source : IrqSource) (index : Nat) (s : State) : State :=
  s.mapEnv fun e => { e with irqLog := e.irqLog ++ [⟨source, index, s.sched.now⟩] }

/-- Raise when the condition and its enable hold (R524). -/
def raiseIf (b : Bool) (source : IrqSource) (index : Nat) (s : State) : State := if b then raise source index s else s

/-! ### Register stores (R441, R442, R458) -/

/-- `Stored(reg) <- v`, `v` already masked (R441). VCOUNT stores nothing. -/
def setStored (r : Reg) (v : Word) (s : State) : State :=
  match r with
  | .dispcnt => s.mapRegs fun p => { p with dispcnt := v.setWidth 16 }
  | .dispstat =>
    s.mapTiming fun t =>
      { t with
        vblankIrqEn := v.getLsbD 3
        hblankIrqEn := v.getLsbD 4
        vcountIrqEn := v.getLsbD 5
        vcountTarget := v.extractLsb' 8 8 }
  | .vcount => s
  | .bgcnt b => s.mapRegs fun p => { p with bgcnt := p.bgcnt.set b (v.setWidth 16) }
  | .bghofs b => s.mapRegs fun p => { p with bghofs := p.bghofs.set b (v.setWidth 9) }
  | .bgvofs b => s.mapRegs fun p => { p with bgvofs := p.bgvofs.set b (v.setWidth 9) }
  | .bgpa k => s.mapRegs fun p => { p with bgpa := p.bgpa.set k (v.setWidth 16) }
  | .bgpb k => s.mapRegs fun p => { p with bgpb := p.bgpb.set k (v.setWidth 16) }
  | .bgpc k => s.mapRegs fun p => { p with bgpc := p.bgpc.set k (v.setWidth 16) }
  | .bgpd k => s.mapRegs fun p => { p with bgpd := p.bgpd.set k (v.setWidth 16) }
  | .bgx k => s.mapRegs fun p => { p with bgx := p.bgx.set k (v.setWidth 28) }
  | .bgy k => s.mapRegs fun p => { p with bgy := p.bgy.set k (v.setWidth 28) }
  | .winh w => s.mapRegs fun p => { p with winh := p.winh.set w (v.setWidth 16) }
  | .winv w => s.mapRegs fun p => { p with winv := p.winv.set w (v.setWidth 16) }
  | .winin => s.mapRegs fun p => { p with winin := v.setWidth 16 }
  | .winout => s.mapRegs fun p => { p with winout := v.setWidth 16 }
  | .mosaic => s.mapRegs fun p => { p with mosaic := v.setWidth 16 }
  | .bldcnt => s.mapRegs fun p => { p with bldcnt := v.setWidth 16 }
  | .bldalpha => s.mapRegs fun p => { p with bldalpha := v.setWidth 16 }
  | .bldy => s.mapRegs fun p => { p with bldy := v.setWidth 8 }
  | .dmaSad c => s.mapChan c fun ch => { ch with cfgSrc := v }
  | .dmaDad c => s.mapChan c fun ch => { ch with cfgDst := v }
  | .dmaCntL c => s.mapChan c fun ch => { ch with cfgLen := v.setWidth 16 }
  | .dmaCntH c => s.mapChan c fun ch => { ch with ctrl := v.setWidth 16 }

/-- The value a write of byte `v` to byte `o` leaves stored: byte `o` replaced, unstored bits dropped (R441). -/
def newStored (r : Reg) (o : Nat) (v : Byte) (s : State) : Word := mergeByte (stored r s) o v &&& writeMask r

/-- Store one byte of a register (R441). -/
def storeByte (r : Reg) (o : Nat) (v : Byte) (s : State) : State := setStored r (newStored r o v s) s

/-- `ref_x[k] <- sext_28(bgx[k])` (R54, R458). -/
def reloadRefX (k : Fin 2) (s : State) : State :=
  s.mapRegs fun p => { p with refX := p.refX.set k p.bgx[k].toInt }

/-- `ref_y[k] <- sext_28(bgy[k])` (R54, R458). -/
def reloadRefY (k : Fin 2) (s : State) : State :=
  s.mapRegs fun p => { p with refY := p.refY.set k p.bgy[k].toInt }

/-- Every running reference point reloads from its register (R293, when `scanline` becomes 160). -/
def reloadRefs (s : State) : State := reloadRefY 1 (reloadRefX 1 (reloadRefY 0 (reloadRefX 0 s)))

/-- `ref_x[k] <- ref_x[k] + sext_16(bgpb[k])` and `ref_y[k] <- ref_y[k] + sext_16(bgpd[k])` (R341). -/
def advanceRef (k : Fin 2) (s : State) : State :=
  s.mapRegs fun p =>
    { p with
      refX := p.refX.set k (p.refX[k] + p.bgpb[k].toInt)
      refY := p.refY.set k (p.refY[k] + p.bgpd[k].toInt) }

/-- The per-scanline increment of both affine sets (R341). -/
def advanceRefs (s : State) : State := advanceRef 1 (advanceRef 0 s)

/-- `IoRead(addr)` (R440): 0 for an unmapped address and for a write-only register. Changes nothing. -/
def ioReadByte (addr : Word) (s : State) : Byte :=
  match regAt addr with
  | some (r, o) => byteOf (readValue r s) o
  | none => 0

/-- A word of four bytes that `IoRead` gives in ascending order (R93). -/
def ioReadWord (addr : Word) (s : State) : Word :=
  ioReadByte (addr + 3) s ++ (ioReadByte (addr + 2) s ++ (ioReadByte (addr + 1) s ++ ioReadByte addr s))

/-- What `MemRead(addr, n, kind)` gives, zero-extended: through `IoRead` when the address is a CORE register's, else the
bytes of memory (R93, R94). Which of the two is decided by the access's first byte (assumption 15). -/
def busRead (word : Bool) (addr : Word) (s : State) : Word :=
  let v := if (regAt addr).isSome then ioReadWord addr s else s.env.mem.readWord addr
  if word then v else v &&& 0xFFFF#32

end Sys2Proof.Machine
end

