-- ==== Sys2Proof/Machine/Flags.lean ====
section
/-! DEFINITION. The flag computations: the three status flags of R22 and the vertical-counter check of R294. -/

namespace Sys2Proof.Machine

/-- The match of R294: `scanline = vcount_target`. -/
def vcountMatches (t : Timing) : Bool := decide (t.scanline = t.vcountTarget.toNat)

/-- The match is new and its interrupt enabled (R294). -/
def vcountRaises (t : Timing) : Bool := vcountMatches t && !t.vcountFlag && t.vcountIrqEn

/-- `vcount_flag <- 1 if m else 0` (R294). -/
def setVcountFlag (s : State) : State := s.mapTiming fun t => { t with vcountFlag := vcountMatches t }

/-- `hblank_flag <- b` (R293). -/
def setHblankFlag (b : Bool) (s : State) : State := s.mapTiming fun t => { t with hblankFlag := b }

/-- `vblank_flag <- b` (R293). -/
def setVblankFlag (b : Bool) (s : State) : State := s.mapTiming fun t => { t with vblankFlag := b }

end Sys2Proof.Machine
end

