-- ==== Sys2Proof/Machine/Background.lean ====
section
/-! DEFINITION. The compositor's background layers (43_compositor_bg.md). Every function takes only what the rules say it
reads (R344): the register block, the scanline, the video memories. -/

namespace Sys2Proof.Machine

/-- What a row is rendered from (R92, R344): one snapshot of the parameters, the registers, the scanline and memory. -/
structure View where
  cfg : Params
  regs : PpuRegs
  scanline : Nat
  mem : Mem

/-- The snapshot at the instant `RenderScanline` runs (R92). -/
def State.view (s : State) : View := ⟨s.cfg, s.regs, s.timing.scanline, s.env.mem⟩

/-! ### Video memory (R82, R92) -/

/-- `VidRead8(VRAM, off)`. -/
def View.vram8 (w : View) (off : Nat) : Byte := w.mem.read (Config.vramBase + off)

/-- `VidRead16(VRAM, off)`. -/
def View.vram16 (w : View) (off : Nat) : Half := w.vram8 (off + 1) ++ w.vram8 off

/-- `VidRead16(PRAM, off)`. -/
def View.pram16 (w : View) (off : Nat) : Half :=
  w.mem.read (Config.pramBase + off + 1) ++ w.mem.read (Config.pramBase + off)

/-- `VidRead16(OAM, off)`. -/
def View.oam16 (w : View) (off : Nat) : Half :=
  w.mem.read (Config.oamBase + off + 1) ++ w.mem.read (Config.oamBase + off)

/-- `BgPal(i)`: the background palette, 15-bit colours (R342). -/
def View.bgPal (w : View) (i : Nat) : Color := (w.pram16 (2 * i)).setWidth 15

/-! ### Layer arrangement (R330, R331) -/

/-- Which kind of layer a background is (R331). -/
inductive LayerKind where
  | none
  | text
  | affine (k : Fin 2)
  | bitmap
  deriving DecidableEq, Repr

/-- `LayerKind(mode, b)` (R331). -/
def layerKind (mode : Nat) (b : Fin 4) : LayerKind :=
  match mode with
  | 0 => .text
  | 1 => if b = 0 ∨ b = 1 then .text else if b = 2 then .affine 0 else .none
  | 2 => if b = 2 then .affine 0 else if b = 3 then .affine 1 else .none
  | 3 | 4 | 5 => if b = 2 then .bitmap else .none
  | _ => .none

/-! ### Mosaic and scroll (R332, R333) -/

/-- Snap `v` down to a block of `size + 1` (R332, R375). -/
def snap (v size : Nat) : Nat := v - v % (size + 1)

/-- `BgSample(b, x)`: the column and row at which layer `b` is sampled (R332, R149). -/
def View.bgSample (w : View) (b : Fin 4) (x : Nat) : Nat × Nat :=
  if cntMosaic w.regs.bgcnt[b] then (snap x (field w.regs.mosaic 0 4), snap w.scanline (field w.regs.mosaic 4 4))
  else (x, w.scanline)

/-- `ScrollVal(v)` (R333). -/
def scrollVal (interp : ScrollInterp) (v : BitVec 9) : Int :=
  match interp with
  | .unsigned => v.toNat
  | .signMagnitude => if v.getLsbD 8 then -(field v 0 8 : Int) else field v 0 8

/-! ### Text layers (R334 to R336) -/

/-- Width of a text map: 512 if bit 0 of `size` is 1, else 256 (R334). -/
def textWidth (cnt : Half) : Nat := if cnt.getLsbD 14 then 512 else 256

/-- Height of a text map: 512 if bit 1 of `size` is 1, else 256 (R334). -/
def textHeight (cnt : Half) : Nat := if cnt.getLsbD 15 then 512 else 256

/-- `TextMapEntry(b, sx, sy)` (R334); `none` outside the background area of VRAM (R342). -/
def View.textMapEntry (w : View) (cnt : Half) (sx sy : Nat) : Option Half :=
  let right := if 256 ≤ sx then 1 else 0
  let below := if 256 ≤ sy then (if textWidth cnt = 512 then 2 else 1) else 0
  let blk := cntScreenBase cnt + right + below
  let off := blk * 0x800 + ((sy % 256 / 8) * 32 + sx % 256 / 8) * 2
  if 0x10000 ≤ off then none else some (w.vram16 off)

/-- The nibble of a byte for column `tx`: the left (even) pixel in bits 3:0 (R335). -/
def nibble (b : Byte) (tx : Nat) : Nat := if tx % 2 = 1 then field b 4 4 else field b 0 4

/-- `TextTilePixel(b, tile, palbank, tx, ty)` (R335). -/
def View.textTilePixel (w : View) (cnt : Half) (tile palbank tx ty : Nat) : Option Color :=
  if cntPal256 cnt then
    let off := cntCharBase cnt + tile * 64 + ty * 8 + tx
    if 0x10000 ≤ off then none
    else
      let idx := (w.vram8 off).toNat
      if idx = 0 then none else some (w.bgPal idx)
  else
    let off := cntCharBase cnt + tile * 32 + ty * 4 + tx / 2
    if 0x10000 ≤ off then none
    else
      let idx := nibble (w.vram8 off) tx
      if idx = 0 then none else some (w.bgPal (palbank * 16 + idx))

/-- One pixel of `RenderTextBg(b)` (R336). -/
def View.textPixel (w : View) (b : Fin 4) (x : Nat) : Option Color :=
  let cnt := w.regs.bgcnt[b]
  let (xm, ym) := w.bgSample b x
  let sx := (((xm : Int) + scrollVal w.cfg.scrollInterp w.regs.bghofs[b]) % (textWidth cnt : Int)).toNat
  let sy := (((ym : Int) + scrollVal w.cfg.scrollInterp w.regs.bgvofs[b]) % (textHeight cnt : Int)).toNat
  match w.textMapEntry cnt sx sy with
  | none => none
  | some e =>
    let tx := if e.getLsbD 10 then 7 - sx % 8 else sx % 8
    let ty := if e.getLsbD 11 then 7 - sy % 8 else sy % 8
    w.textTilePixel cnt (field e 0 10) (field e 12 4) tx ty

/-! ### Affine layers (R337 to R339) -/

/-- `AffineCoord(b, k, x)`: the texture coordinate, by floor division of the 8-bit-fraction sums (R337). -/
def View.affineCoord (w : View) (b : Fin 4) (k : Fin 2) (x : Nat) : Int × Int :=
  let (xm, ym) := w.bgSample b x
  let back : Int := (w.scanline : Int) - ym
  let rx := w.regs.refX[k] - w.regs.bgpb[k].toInt * back
  let ry := w.regs.refY[k] - w.regs.bgpd[k].toInt * back
  ((rx + w.regs.bgpa[k].toInt * xm) / 256, (ry + w.regs.bgpc[k].toInt * xm) / 256)

/-- Side of an affine layer in pixels: `128 << size` (R338). -/
def affineSide (cnt : Half) : Nat := 128 * 2 ^ cntSize cnt

/-- `AffinePixel(b, px, py)` (R338). -/
def View.affinePixel (w : View) (cnt : Half) (px py : Nat) : Option Color :=
  let moff := cntScreenBase cnt * 0x800 + py / 8 * (affineSide cnt / 8) + px / 8
  if 0x10000 ≤ moff then none
  else
    let tile := (w.vram8 moff).toNat
    let idx := (w.vram8 (cntCharBase cnt + tile * 64 + py % 8 * 8 + px % 8)).toNat
    if idx = 0 then none else some (w.bgPal idx)

/-- One pixel of `RenderAffineBg(b, k)` (R339). -/
def View.affineBgPixel (w : View) (b : Fin 4) (k : Fin 2) (x : Nat) : Option Color :=
  let cnt := w.regs.bgcnt[b]
  let side : Int := affineSide cnt
  let (px, py) := w.affineCoord b k x
  if cntWrap cnt then w.affinePixel cnt (px % side).toNat (py % side).toNat
  else if px < 0 ∨ px ≥ side ∨ py < 0 ∨ py ≥ side then none
  else w.affinePixel cnt px.toNat py.toNat

/-! ### Bitmap layers (R340) -/

/-- One pixel of `RenderBitmapBg()` (R340): modes 3, 4 and 5 on background 2. -/
def View.bitmapPixel (w : View) (x : Nat) : Option Color :=
  let frame := if dispFrame w.regs.dispcnt then 0xA000 else 0
  let (xm, ym) := w.bgSample 2 x
  if bgMode w.regs.dispcnt = 3 then some ((w.vram16 ((ym * 240 + xm) * 2)).setWidth 15)
  else if bgMode w.regs.dispcnt = 4 then
    let idx := (w.vram8 (frame + ym * 240 + xm)).toNat
    if idx = 0 then none else some (w.bgPal idx)
  else if xm ≥ 160 ∨ ym ≥ 128 then none
  else some ((w.vram16 (frame + (ym * 160 + xm) * 2)).setWidth 15)

/-! ### RenderBackgrounds (R330) -/

/-- `bgbuf[b][x]` of `RenderBackgrounds()`: a colour, or `none` for transparent (R330). -/
def View.bgPixel (w : View) (b : Fin 4) (x : Nat) : Option Color :=
  if dispBgEn w.regs.dispcnt b then
    match layerKind (bgMode w.regs.dispcnt) b with
    | .none => none
    | .text => w.textPixel b x
    | .affine k => w.affineBgPixel b k x
    | .bitmap => w.bitmapPixel x
  else none

end Sys2Proof.Machine
end

