-- ==== Sys2Proof/Machine/Sprites.lean ====
section
/-! DEFINITION. The compositor's sprite layer and window masks (44_compositor_obj_win.md). -/

namespace Sys2Proof.Machine

/-! ### Object attribute entries (R371 to R374) -/

/-- An object attribute entry (R371), each field under the rule's name; `x` is `sext_9`. -/
structure Sprite where
  y : Nat
  affine : Bool
  dbl : Bool
  mode : Nat
  mosaic : Bool
  pal256 : Bool
  shape : Nat
  x : Int
  group : Nat
  hflip : Bool
  vflip : Bool
  size : Nat
  tile : Nat
  prio : Nat
  palbank : Nat
  deriving DecidableEq, Repr

/-- The fields of an entry's three half-words (R371). -/
def spriteOf (attr0 attr1 attr2 : Half) : Sprite where
  y := field attr0 0 8
  affine := attr0.getLsbD 8
  dbl := attr0.getLsbD 9
  mode := field attr0 10 2
  mosaic := attr0.getLsbD 12
  pal256 := attr0.getLsbD 13
  shape := field attr0 14 2
  x := (attr1.extractLsb' 0 9).toInt
  group := field attr1 9 5
  hflip := attr1.getLsbD 12
  vflip := attr1.getLsbD 13
  size := field attr1 14 2
  tile := field attr2 0 10
  prio := field attr2 10 2
  palbank := field attr2 12 4

/-- Entry `i` of `OAM` (R371). -/
def View.sprite (w : View) (i : Nat) : Sprite := spriteOf (w.oam16 (8 * i)) (w.oam16 (8 * i + 2)) (w.oam16 (8 * i + 4))

/-- Affine parameter group `g`: `(pa, pb, pc, pd)` (R372). -/
def View.affineGroup (w : View) (g : Nat) : Int × Int × Int × Int :=
  ((w.oam16 (32 * g + 6)).toInt, (w.oam16 (32 * g + 14)).toInt, (w.oam16 (32 * g + 22)).toInt,
    (w.oam16 (32 * g + 30)).toInt)

/-- Sprite size `(w, h)` in pixels (R373); shape 3 is not displayed. -/
def spriteSize (shape size : Nat) : Nat × Nat :=
  match shape, size with
  | 0, 0 => (8, 8)
  | 0, 1 => (16, 16)
  | 0, 2 => (32, 32)
  | 0, _ => (64, 64)
  | 1, 0 => (16, 8)
  | 1, 1 => (32, 8)
  | 1, 2 => (32, 16)
  | 1, _ => (64, 32)
  | 2, 0 => (8, 16)
  | 2, 1 => (8, 32)
  | 2, 2 => (16, 32)
  | 2, _ => (32, 64)
  | _, _ => (0, 0)

/-- Width of the sprite. -/
def Sprite.width (e : Sprite) : Nat := (spriteSize e.shape e.size).1
/-- Height of the sprite. -/
def Sprite.height (e : Sprite) : Nat := (spriteSize e.shape e.size).2
/-- The box is twice the sprite for an affine sprite with `dbl` (R373). -/
def Sprite.boxScale (e : Sprite) : Nat := if e.affine && e.dbl then 2 else 1
/-- `bw` (R373). -/
def Sprite.boxWidth (e : Sprite) : Nat := e.boxScale * e.width
/-- `bh` (R373). -/
def Sprite.boxHeight (e : Sprite) : Nat := e.boxScale * e.height

/-- The row inside the box: `(scanline - y) mod 256` (R374). -/
def Sprite.row (e : Sprite) (scanline : Nat) : Nat := (((scanline : Int) - e.y) % 256).toNat

/-- The entry is displayed on the scanline (R374). -/
def Sprite.touches (e : Sprite) (scanline : Nat) : Bool :=
  !(e.shape == 3) && !(e.mode == 3) && !(!e.affine && e.dbl) && decide (e.row scanline < e.boxHeight)

/-! ### Texture coordinate and tile data (R375, R376) -/

/-- `SpriteTexel(entry, lx, ly)` (R375); `none` is "outside". -/
def View.spriteTexel (w : View) (e : Sprite) (lx0 ly0 : Nat) : Option (Nat × Nat) :=
  let lx := if e.mosaic then snap lx0 (field w.regs.mosaic 8 4) else lx0
  let ly := if e.mosaic then snap ly0 (field w.regs.mosaic 12 4) else ly0
  if e.affine then
    let (pa, pb, pc, pd) := w.affineGroup e.group
    let dx : Int := (lx : Int) - (e.boxWidth / 2 : Nat)
    let dy : Int := (ly : Int) - (e.boxHeight / 2 : Nat)
    let tx := (pa * dx + pb * dy) / 256 + (e.width / 2 : Nat)
    let ty := (pc * dx + pd * dy) / 256 + (e.height / 2 : Nat)
    if tx < 0 ∨ tx ≥ e.width ∨ ty < 0 ∨ ty ≥ e.height then none else some (tx.toNat, ty.toNat)
  else some (if e.hflip then e.width - 1 - lx else lx, if e.vflip then e.height - 1 - ly else ly)

/-- `ObjPal(i)`: the sprite palette (R376). -/
def View.objPal (w : View) (i : Nat) : Color := (w.pram16 (0x200 + 2 * i)).setWidth 15

/-- The tile number of a sprite pixel, wrapped inside the 1024 units (R376). -/
def View.spriteTile (w : View) (e : Sprite) (tx ty : Nat) : Nat :=
  let step := if e.pal256 then 2 else 1
  let t :=
    if dispObj1d w.regs.dispcnt then e.tile + (ty / 8 * (e.width / 8) + tx / 8) * step
    else e.tile + ty / 8 * 32 + tx / 8 * step
  t % 0x400

/-- `SpritePixel(entry, tx, ty)` (R376). -/
def View.spritePixel (w : View) (e : Sprite) (tx ty : Nat) : Option Color :=
  let t := w.spriteTile e tx ty
  if 3 ≤ bgMode w.regs.dispcnt ∧ bgMode w.regs.dispcnt ≤ 5 ∧ t < 512 then none
  else if e.pal256 then
    let idx := (w.vram8 (0x10000 + (t * 32 + ty % 8 * 8 + tx % 8) % 0x8000)).toNat
    if idx = 0 then none else some (w.objPal idx)
  else
    let idx := nibble (w.vram8 (0x10000 + (t * 32 + ty % 8 * 4 + tx % 8 / 2) % 0x8000)) tx
    if idx = 0 then none else some (w.objPal (e.palbank * 16 + idx))

/-! ### RenderSprites (R370, R377) -/

/-- One element of the sprite buffer (R370). -/
structure ObjPixel where
  color : Option Color
  prio : Nat
  alpha : Bool
  window : Bool
  deriving DecidableEq, Repr

/-- The empty sprite buffer element (R370, R377). -/
def ObjPixel.empty : ObjPixel := ⟨none, 3, false, false⟩

/-- The colour entry `e` has at output column `x`, if its box covers `x` and the pixel is opaque (R377). -/
def View.spriteColor (w : View) (e : Sprite) (x : Nat) : Option Color :=
  if (x : Int) < e.x ∨ (x : Int) ≥ e.x + e.boxWidth then none
  else
    match w.spriteTexel e ((x : Int) - e.x).toNat (e.row w.scanline) with
    | none => none
    | some (tx, ty) => w.spritePixel e tx ty

/-- What an opaque pixel of entry `e` does to the buffer element: a window marker sets the flag and draws nothing; any
other replaces a transparent or a strictly lower-ranking pixel (R377). -/
def ObjPixel.put (o : ObjPixel) (e : Sprite) (col : Color) : ObjPixel :=
  if e.mode = 2 then { o with window := true }
  else if o.color = none ∨ e.prio < o.prio then { o with color := some col, prio := e.prio, alpha := e.mode == 1 }
  else o

/-- The entries evaluated on the scanline, in ascending number (R374, R377): none when the layer is off. -/
def View.sprites (w : View) : List Sprite :=
  if dispObjEn w.regs.dispcnt then ((List.range 128).map w.sprite).filter fun e => e.touches w.scanline else []

/-- `objbuf[x]`, the entries of `sprites` applied in order (R377). -/
def View.objPixel (w : View) (sprites : List Sprite) (x : Nat) : ObjPixel :=
  sprites.foldl
    (fun o e =>
      match w.spriteColor e x with
      | none => o
      | some col => o.put e col)
    ObjPixel.empty

/-! ### Window masks (R380 to R382) -/

/-- `InRange(v, lo, hi)` (R381). -/
def inRange (v lo hi : Nat) : Bool := if lo ≤ hi then decide (lo ≤ v ∧ v < hi) else decide (v ≥ lo ∨ v < hi)

/-- `Inside(w, x, y)` (R381). -/
def View.insideWindow (w : View) (i : Fin 2) (x y : Nat) : Bool :=
  inRange x (field w.regs.winh[i] 8 8) (field w.regs.winh[i] 0 8)
    && inRange y (field w.regs.winv[i] 8 8) (field w.regs.winv[i] 0 8)

/-- `winmask[x]` of `RenderWindows(objbuf)` (R382), a 6-bit set in the layout of R148. -/
def View.winMask (w : View) (o : ObjPixel) (x : Nat) : BitVec 6 :=
  let d := w.regs.dispcnt
  if !(dispWin0En d || dispWin1En d || dispObjwinEn d) then 0b111111#6
  else if dispWin0En d && w.insideWindow 0 x w.scanline then w.regs.winin.extractLsb' 0 6
  else if dispWin1En d && w.insideWindow 1 x w.scanline then w.regs.winin.extractLsb' 8 6
  else if dispObjwinEn d && o.window then w.regs.winout.extractLsb' 8 6
  else w.regs.winout.extractLsb' 0 6

end Sys2Proof.Machine
end

