-- ==== Sys2Proof/Machine/Compose.lean ====
section
/-! DEFINITION. The compositor's priority resolution, blending and output row (45_compositor_compose.md). -/

namespace Sys2Proof.Machine

/-! ### Selection (R410 to R416) -/

/-- The layers (R411). -/
inductive Layer where
  | bg (b : Fin 4)
  | obj
  | bd
  deriving DecidableEq, Repr

/-- The layer's number: its bit in `winmask` and in the target sets of `bldcnt` (R411). -/
def Layer.number : Layer → Nat
  | .bg b => b.val
  | .obj => 4
  | .bd => 5

/-- The rank that breaks a tie of priorities: 0 for OBJ, `1 + b` for BGb (R412). -/
def Layer.rank : Layer → Nat
  | .obj => 0
  | .bg b => 1 + b.val
  | .bd => 5

/-- A candidate at one column: its layer, colour and priority (R411). -/
structure Candidate where
  layer : Layer
  color : Color
  prio : Nat
  deriving DecidableEq, Repr

/-- The order of R412: `(prio, rank)` ascending. -/
def Candidate.above (a b : Candidate) : Bool :=
  decide (a.prio < b.prio ∨ (a.prio = b.prio ∧ a.layer.rank < b.layer.rank))

/-- Put a candidate in its place. -/
def insertCandidate (c : Candidate) : List Candidate → List Candidate
  | [] => [c]
  | d :: rest => if c.above d then c :: d :: rest else d :: insertCandidate c rest

/-- BGb as a candidate (R411). -/
def View.bgCandidate (w : View) (mask : BitVec 6) (b : Fin 4) (x : Nat) : Option Candidate :=
  if mask.getLsbD b.val then (w.bgPixel b x).map fun c => ⟨.bg b, c, cntPrio w.regs.bgcnt[b]⟩ else none

/-- OBJ as a candidate (R411). -/
def objCandidate (mask : BitVec 6) (o : ObjPixel) : Option Candidate :=
  if mask.getLsbD 4 then o.color.map fun c => ⟨.obj, c, o.prio⟩ else none

/-- The candidates other than the backdrop, topmost first (R411, R412). -/
def View.candidates (w : View) (mask : BitVec 6) (o : ObjPixel) (x : Nat) : List Candidate :=
  let list := [objCandidate mask o, w.bgCandidate mask 0 x, w.bgCandidate mask 1 x, w.bgCandidate mask 2 x,
    w.bgCandidate mask 3 x]
  (list.filterMap id).foldr insertCandidate []

/-- The backdrop (R415). Its priority is never read. -/
def View.backdrop (w : View) : Candidate := ⟨.bd, w.bgPal 0, 4⟩

/-- `TopTwo(x)` (R416) of the ordered candidates. -/
def topTwo (bd : Candidate) : List Candidate → Candidate × Option Candidate
  | [] => (bd, none)
  | [a] => (a, some bd)
  | a :: b :: _ => (a, some b)

/-! ### Blending (R417) -/

/-- Channel `i` of a colour: 0 red, 1 green, 2 blue (R160). -/
def channel (c : Color) (i : Nat) : Nat := field c (5 * i) 5

/-- A colour from its three channels (R160, R417). -/
def mkColor (r g b : Nat) : Color := BitVec.ofNat 15 (r + g * 32 + b * 1024)

/-- A colour computed channel by channel. -/
def mapChannels (f : Nat → Nat) : Color := mkColor (f 0) (f 1) (f 2)

/-- A coefficient above 16 counts as 16 (R170, R417). -/
def coeff (e : Nat) : Nat := min 16 e

/-- `Alpha(A, B)` (R417). -/
def alphaBlend (eva evb : Nat) (a b : Color) : Color :=
  mapChannels fun i => min 31 ((channel a i * eva + channel b i * evb) / 16)

/-- `Brighten(A)` (R417). -/
def brighten (evy : Nat) (a : Color) : Color := mapChannels fun i => channel a i + (31 - channel a i) * evy / 16

/-- `Darken(A)` (R417). -/
def darken (evy : Nat) (a : Color) : Color := mapChannels fun i => channel a i - channel a i * evy / 16

/-- `L` is a first target (R151, R417). -/
def firstTarget (bldcnt : Half) (l : Layer) : Bool := bldcnt.getLsbD l.number

/-- `L` is a second target (R151, R417). -/
def secondTarget (bldcnt : Half) (l : Layer) : Bool := bldcnt.getLsbD (8 + l.number)

/-- The second layer exists and is a second target (R417). -/
def secondBlends (bldcnt : Half) (second : Option Candidate) : Bool :=
  match second with
  | none => false
  | some b => secondTarget bldcnt b.layer

/-- `Blend(x, top, second)` (R417), `alpha` being `objbuf[x].alpha`. -/
def blend (regs : PpuRegs) (mask : BitVec 6) (alpha : Bool) (top : Candidate) (second : Option Candidate) : Color :=
  let eff := field regs.bldcnt 6 2
  let eva := coeff (field regs.bldalpha 0 5)
  let evb := coeff (field regs.bldalpha 8 5)
  let evy := coeff (field regs.bldy 0 5)
  let under := match second with
    | none => top.color
    | some b => b.color
  if !mask.getLsbD 5 then top.color
  else if top.layer = .obj ∧ alpha ∧ secondBlends regs.bldcnt second then alphaBlend eva evb top.color under
  else if eff = 1 ∧ firstTarget regs.bldcnt top.layer ∧ secondBlends regs.bldcnt second then
    alphaBlend eva evb top.color under
  else if eff = 2 ∧ firstTarget regs.bldcnt top.layer then brighten evy top.color
  else if eff = 3 ∧ firstTarget regs.bldcnt top.layer then darken evy top.color
  else top.color

/-! ### The output row (R419, R420) -/

/-- The 15-bit colour of column `x` (R420). -/
def View.columnColor (w : View) (sprites : List Sprite) (x : Nat) : Color :=
  let o := w.objPixel sprites x
  let mask := w.winMask o x
  let tt := topTwo w.backdrop (w.candidates mask o x)
  blend w.regs mask o.alpha tt.1 tt.2

/-- The 240 output pixels of the scanline (R420): the blank colour under forced blank. -/
def View.row (w : View) : List Pixel :=
  if dispForcedBlank w.regs.dispcnt then List.replicate 240 (colorOut w.cfg w.cfg.blankColor)
  else
    let sprites := w.sprites
    (List.range 240).map fun x => colorOut w.cfg (w.columnColor sprites x)

/-- `RenderScanline()` (R420): row `scanline` of the framebuffer, then the reference-point increment (R341). A scanline at
or above 160 has no row (R420: "Rows 160 to 227 do not exist"), and then only the increment happens (assumption 19). -/
def renderScanline (s : State) : State :=
  advanceRefs { s with fb := s.fb.set s.timing.scanline s.view.row }

end Sys2Proof.Machine
end

