-- ==== Sys2Proof/Machine/Dma.lean ====
section
/-! DEFINITION. The parts of the DMA controller and of the phase machine that call nothing recursive: arbitration,
completion, disabling, arming (41_dma.md), and the state updates of a phase transition (42_ppu_timing.md). -/

namespace Sys2Proof.Machine

/-! ### Arbitration (R233, R234) -/

/-- `SelectNextDMA()` (R234). -/
def selectNext (s : State) : State := s.mapDma fun d => { d with active := lowest d.runnable }

/-- `TryStart(c)` (R233): only arbitrates, moves no data. -/
def tryStart (c : Chan) (s : State) : State :=
  s.mapDma fun d =>
    if d.runnable = 0 then { d with active := some c, runnable := insertChan d.runnable c }
    else
      match d.active with
      | some a =>
        if c < a then { d with earlyExit := true, active := some c, runnable := insertChan d.runnable c }
        else { d with runnable := insertChan d.runnable c }
      | none => { d with runnable := insertChan d.runnable c }

/-- `runnable <- runnable | S` (R235). -/
def uniteRunnable (S : ChanSet) (s : State) : State := s.mapDma fun d => { d with runnable := d.runnable ||| S }

/-- The eligibility set of an occasion that has one (R235, R37). -/
def occasionSet (occ : Occasion) (d : Dma) : ChanSet :=
  match occ with
  | .hblank => d.hblank
  | .vblank => d.vblank
  | .video => d.video
  | .fifoA | .fifoB => 0

/-- The audio FIFO address an occasion matches (R235, R8). -/
def fifoAddr (occ : Occasion) : Word := if occ = .fifoA then Config.fifoAAddr else Config.fifoBAddr

/-- Channel `c` is enabled, Special-timed and aimed at the FIFO (R235). -/
def fifoMatches (occ : Occasion) (c : Chan) (s : State) : Bool :=
  ctrlEnable (s.chan c).ctrl && ctrlTiming (s.chan c).ctrl == timingSpecial && (s.chan c).cfgDst == fifoAddr occ

/-- Start channel `c` if it matches the FIFO occasion (R235). -/
def tryFifo (occ : Occasion) (c : Chan) (s : State) : State := if fifoMatches occ c s then tryStart c s else s

/-- Start the highest-priority member of the occasion's set and make the whole set runnable (R235). -/
def startSet (S : ChanSet) (s : State) : State :=
  match lowest S with
  | none => s
  | some c => uniteRunnable S (tryStart c s)

/-- The arbitration part of `Request(occasion)` (R235), before `Service`. -/
def arbitrate (occ : Occasion) (s : State) : State :=
  match occ with
  | .hblank | .vblank | .video => startSet (occasionSet occ s.dma) s
  | .fifoA | .fifoB => tryFifo occ 2 (tryFifo occ 1 s)

/-! ### Occasion membership, completion, disabling (R232, R238 to R240) -/

/-- `hblank[c] <- 0; vblank[c] <- 0; video[c] <- 0`. -/
def leaveSets (c : Chan) (s : State) : State :=
  s.mapDma fun d =>
    { d with hblank := removeChan d.hblank c, vblank := removeChan d.vblank c, video := removeChan d.video c }

/-- `Derive(c)` (R232). -/
def derive (c : Chan) (s : State) : State :=
  s.mapDma fun d =>
    let t := ctrlTiming d.ch[c].ctrl
    if t = timingHblank then { d with hblank := insertChan d.hblank c }
    else if t = timingVblank then { d with vblank := insertChan d.vblank c }
    else if t = timingSpecial ∧ c = 3 then { d with video := insertChan d.video c }
    else d

/-- `runnable[c] <- 0`. -/
def leaveRunnable (c : Chan) (s : State) : State := s.mapDma fun d => { d with runnable := removeChan d.runnable c }

/-- `ctrl[c].enable <- 0`. -/
def disableBit (c : Chan) (s : State) : State := s.mapChan c fun ch => { ch with ctrl := clearEnable ch.ctrl }

/-- The length a channel is latched with: 4 in FIFO mode, else the expanded configured length (R238, R241). -/
def latchLength (c : Chan) (ch : Channel) : Nat := if ch.fifoMode then 4 else expandLen c ch.cfgLen

/-- The repeat reload of R238: the length, and the destination of a non-FIFO channel in Reload mode. -/
def reloadLatch (c : Chan) (ch : Channel) : Channel :=
  { ch with
    latRem := latchLength c ch
    latDst :=
      if !ch.fifoMode && ctrlDstMode ch.ctrl == modeReload then align (ctrlWord ch.ctrl) ch.cfgDst else ch.latDst }

/-- `Complete(c)` (R238). -/
def complete (c : Chan) (s : State) : State :=
  let s1 := leaveRunnable c s
  let s2 := raiseIf (ctrlIrq (s1.chan c).ctrl) .dma c.val s1
  let s3 := if ctrlRepeat (s2.chan c).ctrl then s2.mapChan c (reloadLatch c) else leaveSets c (disableBit c s2)
  selectNext s3

/-- `if active_dma_id = c: early_exit_trigger <- true` (R239). -/
def triggerIfActive (c : Chan) (s : State) : State :=
  s.mapDma fun d => { d with earlyExit := d.earlyExit || decide (d.active = some c) }

/-- `DisableChannel(c)` (R239). -/
def disableChannel (c : Chan) (s : State) : State :=
  selectNext (triggerIfActive c (leaveRunnable c (leaveSets c (disableBit c s))))

/-- `StopVideoXferDMA()` (R240). -/
def stopVideo (s : State) : State :=
  if ctrlEnable (s.chan 3).ctrl && ctrlTiming (s.chan 3).ctrl == timingSpecial then disableChannel 3 s else s

/-! ### Arming (R241) -/

/-- FIFO mode: Special timing on channel 1 or 2 (R34, R241). -/
def isFifo (c : Chan) (ctrl : Half) : Bool := ctrlTiming ctrl == timingSpecial && (c == 1 || c == 2)

/-- What the transition of the enable bit from 0 to 1 loads (R241). -/
def armChannel (c : Chan) (ch : Channel) : Channel :=
  let fifo := isFifo c ch.ctrl
  let word := fifo || ctrlWord ch.ctrl
  { ch with
    fifoMode := fifo
    latSrc := align word ch.cfgSrc
    latDst := align word ch.cfgDst
    latRem := if fifo then 4 else expandLen c ch.cfgLen
    srcModeEff := if isRom ch.cfgSrc then modeIncrement else ctrlSrcMode ch.ctrl }

/-- Everything `OnChannelWritten(c, was_enabled)` does before a transfer may run (R241). -/
def configure (c : Chan) (wasEnabled : Bool) (s : State) : State :=
  let s1 := leaveSets c s
  if ctrlEnable (s1.chan c).ctrl then
    let s2 := derive c s1
    if wasEnabled then s2
    else
      let s3 := s2.mapChan c (armChannel c)
      if ctrlTiming (s3.chan c).ctrl = timingImmediate then tryStart c s3 else s3
  else disableChannel c s1

/-- `OnChannelWritten` goes on to `Service` (R241): the channel has just armed with Immediate timing. -/
def startsNow (c : Chan) (wasEnabled : Bool) (s : State) : Bool :=
  ctrlEnable (s.chan c).ctrl && !wasEnabled && ctrlTiming (s.chan c).ctrl == timingImmediate

/-! ### One unit of a transfer (R237) -/

/-- What `Run` fixes at entry (R237): the channel, the size, the two deltas, and the access kind of the next unit. -/
structure Burst where
  chan : Chan
  word : Bool
  srcDelta : Word
  dstDelta : Word
  kind : AccessKind
  deriving DecidableEq, Repr

/-- The entry of `Run` for channel `c` (R237). -/
def burstOf (c : Chan) (ch : Channel) : Burst :=
  let word := ch.fifoMode || ctrlWord ch.ctrl
  { chan := c
    word := word
    srcDelta := delta word ch.srcModeEff
    dstDelta := if ch.fifoMode then 0 else delta word (ctrlDstMode ch.ctrl)
    kind := .nonSeq }

/-- Every later unit of the same `Run` call is Seq (R85). -/
def Burst.continued (b : Burst) : Burst := { b with kind := .seq }

/-- What a real read leaves in the open-bus latch: a half-word is duplicated into both halves (R237). -/
def openBusAfter (word : Bool) (v : Word) : Word := if word then v else duplicateHalf v

/-- What the open-bus latch gives in place of a read: a half-word takes the low half (R237). -/
def openBusValue (word : Bool) (v : Word) : Word := if word then v else v &&& 0xFFFF#32

/-- The source half of a unit (R237): a read, or the open-bus value and an idle cycle. Gives the datum. -/
def fetchUnit (b : Burst) (s : State) : Res (Word × State) :=
  let src := (s.chan b.chan).latSrc
  if srcReadable src then
    let v := busRead b.word src s
    andThen (advance (busCost s.cfg src (8 * unitBytes b.word) b.kind) s) fun s1 =>
      .next (v, s1.mapDma fun d => { d with openBus := openBusAfter b.word v })
  else
    let v := openBusValue b.word s.dma.openBus
    andThen (advance s.cfg.idleCost s) fun s1 => .next (v, s1)

/-- The bookkeeping of a unit (R237): both addresses move modulo 2^32, one unit less remains. -/
def stepLatch (b : Burst) (s : State) : State :=
  s.mapChan b.chan fun ch =>
    { ch with latSrc := ch.latSrc + b.srcDelta, latDst := ch.latDst + b.dstDelta, latRem := ch.latRem - 1 }

/-- The trigger is honoured: cleared, then `SelectNextDMA` (R237). -/
def honourTrigger (s : State) : State := selectNext (s.mapDma fun d => { d with earlyExit := false })

/-- `dma_busy <- b` (R236). -/
def setBusy (b : Bool) (s : State) : State := s.mapDma fun d => { d with busy := b }

/-! ### Phase transitions (R291, R293) -/

/-- `DUR(phase)` (R45). -/
def Phase.dur : Phase → Nat
  | .visible => 960
  | .preHblankWindow => 46
  | .hblank => 226
  | .vblankVisible => 1006
  | .vblankHblank => 226

/-- What a transition asks for once its state updates are done (R293). -/
structure PhaseEffects where
  irqV : Bool := false
  irqH : Bool := false
  reqH : Bool := false
  reqV : Bool := false
  reqVideo : Bool := false
  stopVideo : Bool := false
  deriving DecidableEq, Repr

/-- `phase <- p`. -/
def setPhase (p : Phase) (s : State) : State := s.mapTiming fun t => { t with phase := p }

/-- `scanline <- n`. -/
def setScanline (n : Nat) (s : State) : State := s.mapTiming fun t => { t with scanline := n }

/-- `ppu_event <- h`. -/
def setPpuEvent (h : Nat) (s : State) : State := s.mapTiming fun t => { t with ppuEvent := h }

/-- The state updates of the handler by the phase it finds, and what they ask for (R293, the `case`). -/
def transition (s : State) : State × PhaseEffects :=
  match s.timing.phase with
  | .visible => (setPhase .preHblankWindow (renderScanline s), {})
  | .preHblankWindow =>
    (setPhase .hblank (setHblankFlag true s),
      { irqH := s.timing.hblankIrqEn, reqH := true, reqVideo := decide (s.cfg.videoFirstLine ≤ s.timing.scanline) })
  | .hblank =>
    let n := s.timing.scanline + 1
    let s1 := setScanline n (setHblankFlag false s)
    if n = 160 then
      (setPhase .vblankVisible (reloadRefs (setVblankFlag true s1)),
        { irqV := s.timing.vblankIrqEn, reqV := true, stopVideo := true })
    else (setPhase .visible s1, {})
  | .vblankVisible =>
    (setPhase .vblankHblank (setHblankFlag true s),
      { irqH := s.timing.hblankIrqEn, reqH := s.cfg.hblankDmaInVblank })
  | .vblankHblank =>
    let n := s.timing.scanline + 1
    let s1 := setScanline n (setHblankFlag false s)
    if n = 228 then (setPhase .visible (setVblankFlag false (setScanline 0 s1)), {})
    else (setPhase .vblankVisible s1, {})

end Sys2Proof.Machine
end

