-- ==== Sys2Proof/Machine/Resets.lean ====
section
/-! DEFINITION. The meanings of the reset operations (70_reset_and_hazards.md). None touches the environment: memory and
logs stay (R564). -/

namespace Sys2Proof.Machine

/-- `SchedReset()` (R560). -/
def schedReset (s : State) : State := { s with sched := ⟨0, [], 0⟩ }

/-- `DmaReset()` (R561). -/
def dmaReset (s : State) : State := { s with dma := Dma.reset }

/-- The old phase event, cancelled if it is still pending (R562). -/
def cancelPhaseEvent (s : State) : State :=
  if s.sched.queue.any fun e => e.seq == s.timing.ppuEvent && e.tag == 0 then cancelEvent s.timing.ppuEvent s else s

/-- Everything `PpuReset()` sets before it adds the first phase event (R562). `ppu_event` keeps its value until then. -/
def clearPpu (s : State) : State :=
  { s with
    timing := Timing.reset s.timing.ppuEvent
    regs := PpuRegs.reset
    fb := blankFb (colorOut s.cfg 0) }

/-- `PpuReset()` (R562). -/
def ppuReset (s : State) : Res State :=
  andThen (addEvent false (Phase.visible.dur : Int) 0 (clearPpu (cancelPhaseEvent s))) fun p =>
    .next (setPpuEvent p.1 p.2)

/-- `SysReset()` (R563): scheduler, DMA, PPU in that order. -/
def sysReset (s : State) : Res State := ppuReset (dmaReset (schedReset s))

/-- `SCH.RESET` (R560). -/
def execSchReset (s : State) : Res State := finish .none (.next (schedReset s))

/-- `DMA.RESET` (R561). -/
def execDmaReset (s : State) : Res State := finish .none (.next (dmaReset s))

/-- `PPU.RESET` (R562). -/
def execPpuReset (s : State) : Res State := finish .none (ppuReset s)

/-- `SYS.RESET` (R563). -/
def execSysReset (s : State) : Res State := finish .none (sysReset s)

end Sys2Proof.Machine
end

