-- ==== Sys2Proof/Machine/Engine.lean ====
section
/-! DEFINITION. The operations that call one another (call graph R486): register writes, bus writes, transfers, events,
the phase handler, external callbacks. Each takes `self`, which runs a `Task`; `go` ties the knot on `fuel`, because the
spec claims no bound for `Service` (R236, R487). -/

namespace Sys2Proof.Machine

/-- What the recursion runs. -/
inductive Task where
  /-- `Service()` (R236). -/
  | service
  /-- The rest of `Service`'s loop: `while active_dma_id != none: Run()` (R236). -/
  | loop
  /-- The rest of `Run`'s loop, one unit at a time (R237). -/
  | units (b : Burst)
  /-- The rest of what an external callback does (R207). -/
  | callback (acts : List EnvAct)
  deriving DecidableEq, Repr

/-- How a task is run. -/
abbrev Runner := Task → State → Res State

/-! ### Requests and register writes -/

/-- `Request(occasion)` (R235). -/
def request (self : Runner) (occ : Occasion) (s : State) : Res State := self .service (arbitrate occ s)

/-- `OnChannelWritten(c, was_enabled)` (R241), called after the control half-word is stored. -/
def onChannelWritten (self : Runner) (c : Chan) (wasEnabled : Bool) (s : State) : Res State :=
  if startsNow c wasEnabled s then self .service (configure c wasEnabled s) else .next (configure c wasEnabled s)

/-- What a write of byte `o` of register `r` does to the state: the store, then the register's side effect (R441, R442,
R458, R472). -/
def writeState (r : Reg) (o : Nat) (v : Byte) (s : State) : State :=
  match r with
  | .dmaCntH c => configure c (ctrlEnable (s.chan c).ctrl) (storeByte r o v s)
  | .bgx k => reloadRefX k (storeByte r o v s)
  | .bgy k => reloadRefY k (storeByte r o v s)
  | .dispcnt | .dispstat | .vcount | .bgcnt _ | .bghofs _ | .bgvofs _ | .bgpa _ | .bgpb _ | .bgpc _ | .bgpd _ => storeByte r o v s
  | .winh _ | .winv _ | .winin | .winout | .mosaic | .bldcnt | .bldalpha | .bldy | .dmaSad _ | .dmaDad _ | .dmaCntL _ =>
    storeByte r o v s

/-- The write armed a channel with Immediate timing (R241, R472). No other register starts anything. -/
def writeStarts (r : Reg) (o : Nat) (v : Byte) (s : State) : Bool :=
  match r with
  | .dmaCntH c => startsNow c (ctrlEnable (s.chan c).ctrl) (storeByte r o v s)
  | .dispcnt | .dispstat | .vcount | .bgcnt _ | .bghofs _ | .bgvofs _ | .bgpa _ | .bgpb _ | .bgpc _ | .bgpd _ => false
  | .bgx _ | .bgy _ | .winh _ | .winv _ | .winin | .winout | .mosaic | .bldcnt | .bldalpha | .bldy => false
  | .dmaSad _ | .dmaDad _ | .dmaCntL _ => false

/-- A write of byte `o` of register `r` (R441): for a DMA control half-word, `OnChannelWritten` may go on to `Service`
(R472). -/
def writeReg (self : Runner) (r : Reg) (o : Nat) (v : Byte) (s : State) : Res State :=
  if writeStarts r o v s then self .service (writeState r o v s) else .next (writeState r o v s)

/-- `IoWrite(addr, v)` (R441): nothing for an unmapped address. -/
def ioWriteByte (self : Runner) (addr : Word) (v : Byte) (s : State) : Res State :=
  match regAt addr with
  | some (r, o) => writeReg self r o v s
  | none => .next s

/-- `n` byte writes `IoWrite(addr + i, v[8i+7:8i])` in ascending order (R93). -/
def ioWriteBytes (self : Runner) (addr : Word) (v : Word) : Nat → State → Res State
  | 0, s => .next s
  | n + 1, s => andThen (ioWriteBytes self addr v n s) (ioWriteByte self (addr + BitVec.ofNat 32 n) (byteOf v n))

/-! ### Transfers (R237) -/

/-- `MemWrite(addr, n, v, kind)`: through `IoWrite` when the address is a CORE register's, else into memory (R93, R94,
assumption 15); then the bus charges its cost (R86). -/
def busWrite (self : Runner) (b : Burst) (addr : Word) (v : Word) (s : State) : Res State :=
  let n := unitBytes b.word
  andThen
    (if (regAt addr).isSome then ioWriteBytes self addr v n s
    else .next (s.mapEnv fun e => { e with mem := e.mem.writeBytes addr v n }))
    fun s1 => advance (busCost s1.cfg addr (8 * n) b.kind) s1

/-- One unit: source read or idle, destination write, bookkeeping (R237). -/
def moveUnit (self : Runner) (b : Burst) (s : State) : Res State :=
  andThen (fetchUnit b s) fun p =>
    andThen (busWrite self b (p.2.chan b.chan).latDst p.1 p.2) fun s1 => .next (stepLatch b s1)

/-- `Run()` (R237) enters its loop for the active channel; it is never called without one (assumption 18). -/
def run (self : Runner) (s : State) : Res State :=
  match s.dma.active with
  | none => .refused .noActiveChannel
  | some c => self (.units (burstOf c (s.chan c))) s

/-! ### Events (R204, R207, R293, R294) -/

/-- The state part of the handler: the updates, the vertical-counter check, the next phase event, the interrupts and the
end of video capture, in the order of R293. Gives what is still to be requested. -/
def phaseUpdate (late : Nat) (s : State) : Res (PhaseEffects × State) :=
  let (s1, fx) := transition s
  let irqC := vcountRaises s1.timing
  let s2 := setVcountFlag s1
  andThen (addEvent false ((s2.timing.phase.dur : Int) - late) 0 s2) fun p =>
    let s3 := setPpuEvent p.1 p.2
    let s4 := raiseIf irqC .vcount 0 (raiseIf fx.irqH .hblank 0 (raiseIf fx.irqV .vblank 0 s3))
    .next (fx, if fx.stopVideo then stopVideo s4 else s4)

/-- `PpuPhaseComplete(late)` (R293): the state part, then the DMA requests in the order VBlank, HBlank, Video. -/
def phaseComplete (self : Runner) (late : Nat) (s : State) : Res State :=
  andThen (phaseUpdate late s) fun p =>
    andThen (doIf p.1.reqV (request self .vblank) p.2) fun s1 =>
      andThen (doIf p.1.reqH (request self .hblank) s1) fun s2 => doIf p.1.reqVideo (request self .video) s2

/-- `EXT_CALLBACK(tag, late, ..)` (R207): logged as in ENV0 (R94), then what the environment's function answers for the tag,
the lateness and its own state (R9, assumption 6). -/
def extCallback (self : Runner) (tag : Byte) (late : Nat) (s : State) : Res State :=
  let s1 := s.mapEnv fun e => { e with extLog := e.extLog ++ [⟨tag, late, s.sched.now⟩] }
  self (.callback (s.env.response tag late)) s1

/-- `Fire(tag, late)` (R207). -/
def fire (self : Runner) (tag : Byte) (late : Nat) (s : State) : Res State :=
  if tag = 0 then phaseComplete self late s else extCallback self tag late s

/-- `Step()` (R204): fires exactly one event, none when the queue is empty. -/
def stepEvent (self : Runner) (s : State) : Res State :=
  match s.sched.queue with
  | [] => .next s
  | e :: rest =>
    let s1 := takeEvent e rest s
    fire self e.tag (s1.sched.now - e.target) s1

/-! ### What a callback does (R207) -/

/-- One access to a register by its row (R440, R441). -/
def accessInCallback (self : Runner) (r : Reg) (a : Access) (s : State) : Res State :=
  match a with
  | .read _ => .next s
  | .write o v => writeReg self r o v s

/-- An operation issued from inside an external callback: any top-level one (R207, R486), the resets included (assumption 7).
Its result goes to the environment. -/
def issueInCallback (self : Runner) (i : Instr) (s : State) : Res State :=
  match i.regAccess with
  | some (r, a) => accessInCallback self r a s
  | none =>
    match i with
    | .schAdd tag delay => andThen (addEvent true delay.toNat tag s) fun p => .next p.2
    | .schCancel h => .next (cancelEvent h.toNat s)
    | .schStep => stepEvent self s
    | .schAdvance n => advance n.toNat s
    | .schRemain | .schNow | .ioRead _ => .next s
    | .schReset => .next (schedReset s)
    | .dmaReset => .next (dmaReset s)
    | .ppuReset => ppuReset s
    | .sysReset => sysReset s
    | .dmaRequest occ => request self occ s
    | .dmaStopvideo => .next (stopVideo s)
    | .ioWrite addr v => ioWriteByte self addr v s
    | .dmaTrystart _ | .dmaSelect | .dmaService | .dmaRun | .dmaComplete _ => .refused .internalOperation
    | .dmaDisable _ | .dmaOnwrite _ _ | .ppuPhase _ | .ppuVcount | .ppuRender => .refused .internalOperation
    -- the register rows, all taken by `regAccess` above
    | .dispcnt _ | .dispstat _ | .vcount _ | .bg0cnt _ | .bg1cnt _ | .bg2cnt _ | .bg3cnt _ | .bg0hofs _ | .bg0vofs _ => .next s
    | .bg1hofs _ | .bg1vofs _ | .bg2hofs _ | .bg2vofs _ | .bg3hofs _ | .bg3vofs _ | .bg2pa _ | .bg2pb _ | .bg2pc _ => .next s
    | .bg2pd _ | .bg2x _ | .bg2y _ | .bg3pa _ | .bg3pb _ | .bg3pc _ | .bg3pd _ | .bg3x _ | .bg3y _ => .next s
    | .win0h _ | .win1h _ | .win0v _ | .win1v _ | .winin _ | .winout _ | .mosaic _ | .bldcnt _ | .bldalpha _ => .next s
    | .bldy _ | .dma0sad _ | .dma0dad _ | .dma0cntL _ | .dma0cntH _ | .dma1sad _ | .dma1dad _ | .dma1cntL _ | .dma1cntH _ => .next s
    | .dma2sad _ | .dma2dad _ | .dma2cntL _ | .dma2cntH _ | .dma3sad _ | .dma3dad _ | .dma3cntL _ | .dma3cntH _ => .next s

/-- A byte the environment's processor stores through the bus (R82): through `IoWrite` when the address is a CORE register's,
else into memory (R93, R94). Its time is the environment's to charge, with `SCH.ADVANCE` (R565). -/
def envStore (self : Runner) (addr : Word) (v : Byte) (s : State) : Res State :=
  if (regAt addr).isSome then ioWriteByte self addr v s
  else .next (s.mapEnv fun e => { e with mem := e.mem.writeBytes addr (v.setWidth 32) 1 })

/-- One act of a callback. A request that decodes to nothing is refused (R126). -/
def actInCallback (self : Runner) (act : EnvAct) (s : State) : Res State :=
  match act with
  | .store addr v => envStore self addr v s
  | .issue r =>
    match decode r with
    | none => .refused .reservedEncoding
    | some i => issueInCallback self i s

/-- The acts of a callback, in order. -/
def runCallback (self : Runner) (acts : List EnvAct) (s : State) : Res State :=
  match acts with
  | [] => .next s
  | act :: rest => andThen (actInCallback self act s) (self (.callback rest))

/-! ### The recursion -/

/-- One pass of `Run`'s loop (R237): at most one event, then the trigger, then one unit; `Complete` when none is left. -/
def unitPass (self : Runner) (b : Burst) (s : State) : Res State :=
  if (s.chan b.chan).latRem = 0 then .next (complete b.chan s)
  else
    andThen (doIf (decide (remaining s.sched ≤ 0)) (stepEvent self) s) fun s1 =>
      if s1.dma.earlyExit then .next (honourTrigger s1)
      else andThen (moveUnit self b s1) (self (.units b.continued))

/-- `Service()` (R236): nothing when a `Run` is already on the call stack. -/
def servicePass (self : Runner) (s : State) : Res State :=
  if s.dma.busy then .next s else self .loop (setBusy true s)

/-- One pass of `Service`'s loop (R236). -/
def loopPass (self : Runner) (s : State) : Res State :=
  match s.dma.active with
  | none => .next (setBusy false s)
  | some _ => andThen (run self s) (self .loop)

/-- One pass of a task. -/
def taskPass (self : Runner) (t : Task) (s : State) : Res State :=
  match t with
  | .service => servicePass self s
  | .loop => loopPass self s
  | .units b => unitPass self b s
  | .callback acts => runCallback self acts s

/-- Run a task with at most `n` nested or repeated passes. -/
def go : Nat → Runner
  | 0 => fun _ _ => .fault .serviceFuel
  | n + 1 => taskPass (go n)

/-- The machine's own way of running a task: as far as its fuel goes. -/
def engine (s : State) : Runner := go s.cfg.fuel

end Sys2Proof.Machine
end

