-- ==== Sys2Proof/Machine/DmaOps.lean ====
section
/-! DEFINITION. The meanings of the DMA controller's operations (41_dma.md), the internal ones (R123) included: what each
does when it is called. -/

namespace Sys2Proof.Machine

/-- `DMA.REQUEST` (R235). -/
def execDmaRequest (occ : Occasion) (s : State) : Res State := finish .none (request (engine s) occ s)

/-- `DMA.STOPVIDEO` (R240). -/
def execDmaStopvideo (s : State) : Res State := finish .none (.next (stopVideo s))

/-- `DMA.TRYSTART` (R233). -/
def execDmaTrystart (c : Chan) (s : State) : Res State := finish .none (.next (tryStart c s))

/-- `DMA.SELECT` (R234). -/
def execDmaSelect (s : State) : Res State := finish .none (.next (selectNext s))

/-- `DMA.SERVICE` (R236). -/
def execDmaService (s : State) : Res State := finish .none (engine s .service s)

/-- `DMA.RUN` (R237), on the active channel. -/
def execDmaRun (s : State) : Res State := finish .none (run (engine s) s)

/-- `DMA.COMPLETE` (R238). -/
def execDmaComplete (c : Chan) (s : State) : Res State := finish .none (.next (complete c s))

/-- `DMA.DISABLE` (R239). -/
def execDmaDisable (c : Chan) (s : State) : Res State := finish .none (.next (disableChannel c s))

/-- `DMA.ONWRITE` (R241). -/
def execDmaOnwrite (c : Chan) (wasEnabled : Bool) (s : State) : Res State :=
  finish .none (onChannelWritten (engine s) c wasEnabled s)

end Sys2Proof.Machine
end

