-- ==== Sys2Proof/Machine/PpuOps.lean ====
section
/-! DEFINITION. The meanings of the phase machine's and the compositor's operations (42_ppu_timing.md, R420). All three
are internal (R123): what each does when it is called. -/

namespace Sys2Proof.Machine

/-- `PPU.PHASE` (R293), `late` cycles late. -/
def execPpuPhase (late : BitVec 48) (s : State) : Res State := finish .none (phaseComplete (engine s) late.toNat s)

/-- `PPU.VCOUNT` (R294). Returns whether the interrupt is to be raised. -/
def execPpuVcount (s : State) : Res State := finish (.flag (vcountRaises s.timing)) (.next (setVcountFlag s))

/-- `PPU.RENDER` (R420). -/
def execPpuRender (s : State) : Res State := finish .none (.next (renderScanline s))

end Sys2Proof.Machine
end

