-- ==== Sys2Proof/Machine/Registers.lean ====
section
/-! DEFINITION. The meanings of register access (46_register_access.md): the two operations `IO.READ` and `IO.WRITE`, and
the row of every register of R130, whose address is fixed and whose byte the access names. -/

namespace Sys2Proof.Machine

/-- `IO.READ` (R440). Returns the byte; changes no state of the block. -/
def execIoRead (addr : Word) (s : State) : Res State := finish (.byte (ioReadByte addr s)) (.next s)

/-- `IO.WRITE` (R441). -/
def execIoWrite (addr : Word) (v : Byte) (s : State) : Res State := finish .none (ioWriteByte (engine s) addr v s)

/-- An access to register `r` (R440, R441). A byte the register does not have has no encoding (R131): refused,
assumption 17. -/
def accessReg (r : Reg) (a : Access) (s : State) : Res State :=
  if a.within r.width then
    match a with
    | .read o => finish (.byte (byteOf (readValue r s) o)) (.next s)
    | .write o v => finish .none (writeReg (engine s) r o v s)
  else .refused .reservedEncoding

/-- Access to DISPCNT (R450, layout R140). -/
def execDispcnt (a : Access) (s : State) : Res State := accessReg .dispcnt a s

/-- Access to DISPSTAT (R451, layout R141). -/
def execDispstat (a : Access) (s : State) : Res State := accessReg .dispstat a s

/-- Access to VCOUNT (R451, layout R142). -/
def execVcount (a : Access) (s : State) : Res State := accessReg .vcount a s

/-- Access to BG0CNT (R452, layout R143). -/
def execBg0cnt (a : Access) (s : State) : Res State := accessReg (.bgcnt 0) a s

/-- Access to BG1CNT (R452, layout R143). -/
def execBg1cnt (a : Access) (s : State) : Res State := accessReg (.bgcnt 1) a s

/-- Access to BG2CNT (R452, layout R143). -/
def execBg2cnt (a : Access) (s : State) : Res State := accessReg (.bgcnt 2) a s

/-- Access to BG3CNT (R452, layout R143). -/
def execBg3cnt (a : Access) (s : State) : Res State := accessReg (.bgcnt 3) a s

/-- Access to BG0HOFS (R453, layout R144). -/
def execBg0hofs (a : Access) (s : State) : Res State := accessReg (.bghofs 0) a s

/-- Access to BG0VOFS (R453, layout R144). -/
def execBg0vofs (a : Access) (s : State) : Res State := accessReg (.bgvofs 0) a s

/-- Access to BG1HOFS (R453, layout R144). -/
def execBg1hofs (a : Access) (s : State) : Res State := accessReg (.bghofs 1) a s

/-- Access to BG1VOFS (R453, layout R144). -/
def execBg1vofs (a : Access) (s : State) : Res State := accessReg (.bgvofs 1) a s

/-- Access to BG2HOFS (R453, layout R144). -/
def execBg2hofs (a : Access) (s : State) : Res State := accessReg (.bghofs 2) a s

/-- Access to BG2VOFS (R453, layout R144). -/
def execBg2vofs (a : Access) (s : State) : Res State := accessReg (.bgvofs 2) a s

/-- Access to BG3HOFS (R453, layout R144). -/
def execBg3hofs (a : Access) (s : State) : Res State := accessReg (.bghofs 3) a s

/-- Access to BG3VOFS (R453, layout R144). -/
def execBg3vofs (a : Access) (s : State) : Res State := accessReg (.bgvofs 3) a s

/-- Access to BG2PA (R454, layout R145). -/
def execBg2pa (a : Access) (s : State) : Res State := accessReg (.bgpa 0) a s

/-- Access to BG2PB (R454, layout R145). -/
def execBg2pb (a : Access) (s : State) : Res State := accessReg (.bgpb 0) a s

/-- Access to BG2PC (R454, layout R145). -/
def execBg2pc (a : Access) (s : State) : Res State := accessReg (.bgpc 0) a s

/-- Access to BG2PD (R454, layout R145). -/
def execBg2pd (a : Access) (s : State) : Res State := accessReg (.bgpd 0) a s

/-- Access to BG2X (R458, layout R146). -/
def execBg2x (a : Access) (s : State) : Res State := accessReg (.bgx 0) a s

/-- Access to BG2Y (R458, layout R146). -/
def execBg2y (a : Access) (s : State) : Res State := accessReg (.bgy 0) a s

/-- Access to BG3PA (R454, layout R145). -/
def execBg3pa (a : Access) (s : State) : Res State := accessReg (.bgpa 1) a s

/-- Access to BG3PB (R454, layout R145). -/
def execBg3pb (a : Access) (s : State) : Res State := accessReg (.bgpb 1) a s

/-- Access to BG3PC (R454, layout R145). -/
def execBg3pc (a : Access) (s : State) : Res State := accessReg (.bgpc 1) a s

/-- Access to BG3PD (R454, layout R145). -/
def execBg3pd (a : Access) (s : State) : Res State := accessReg (.bgpd 1) a s

/-- Access to BG3X (R458, layout R146). -/
def execBg3x (a : Access) (s : State) : Res State := accessReg (.bgx 1) a s

/-- Access to BG3Y (R458, layout R146). -/
def execBg3y (a : Access) (s : State) : Res State := accessReg (.bgy 1) a s

/-- Access to WIN0H (R459, layout R147). -/
def execWin0h (a : Access) (s : State) : Res State := accessReg (.winh 0) a s

/-- Access to WIN1H (R459, layout R147). -/
def execWin1h (a : Access) (s : State) : Res State := accessReg (.winh 1) a s

/-- Access to WIN0V (R459, layout R147). -/
def execWin0v (a : Access) (s : State) : Res State := accessReg (.winv 0) a s

/-- Access to WIN1V (R459, layout R147). -/
def execWin1v (a : Access) (s : State) : Res State := accessReg (.winv 1) a s

/-- Access to WININ (R460, layout R148). -/
def execWinin (a : Access) (s : State) : Res State := accessReg .winin a s

/-- Access to WINOUT (R460, layout R148). -/
def execWinout (a : Access) (s : State) : Res State := accessReg .winout a s

/-- Access to MOSAIC (R461, layout R149). -/
def execMosaic (a : Access) (s : State) : Res State := accessReg .mosaic a s

/-- Access to BLDCNT (R462, layout R151). -/
def execBldcnt (a : Access) (s : State) : Res State := accessReg .bldcnt a s

/-- Access to BLDALPHA (R462, layout R152). -/
def execBldalpha (a : Access) (s : State) : Res State := accessReg .bldalpha a s

/-- Access to BLDY (R462, layout R153). -/
def execBldy (a : Access) (s : State) : Res State := accessReg .bldy a s

/-- Access to DMA0SAD (R470, layout R154). -/
def execDma0sad (a : Access) (s : State) : Res State := accessReg (.dmaSad 0) a s

/-- Access to DMA0DAD (R470, layout R154). -/
def execDma0dad (a : Access) (s : State) : Res State := accessReg (.dmaDad 0) a s

/-- Access to DMA0CNT_L (R471, layout R155). -/
def execDma0cntL (a : Access) (s : State) : Res State := accessReg (.dmaCntL 0) a s

/-- Access to DMA0CNT_H (R472, layout R150). -/
def execDma0cntH (a : Access) (s : State) : Res State := accessReg (.dmaCntH 0) a s

/-- Access to DMA1SAD (R470, layout R154). -/
def execDma1sad (a : Access) (s : State) : Res State := accessReg (.dmaSad 1) a s

/-- Access to DMA1DAD (R470, layout R154). -/
def execDma1dad (a : Access) (s : State) : Res State := accessReg (.dmaDad 1) a s

/-- Access to DMA1CNT_L (R471, layout R155). -/
def execDma1cntL (a : Access) (s : State) : Res State := accessReg (.dmaCntL 1) a s

/-- Access to DMA1CNT_H (R472, layout R150). -/
def execDma1cntH (a : Access) (s : State) : Res State := accessReg (.dmaCntH 1) a s

/-- Access to DMA2SAD (R470, layout R154). -/
def execDma2sad (a : Access) (s : State) : Res State := accessReg (.dmaSad 2) a s

/-- Access to DMA2DAD (R470, layout R154). -/
def execDma2dad (a : Access) (s : State) : Res State := accessReg (.dmaDad 2) a s

/-- Access to DMA2CNT_L (R471, layout R155). -/
def execDma2cntL (a : Access) (s : State) : Res State := accessReg (.dmaCntL 2) a s

/-- Access to DMA2CNT_H (R472, layout R150). -/
def execDma2cntH (a : Access) (s : State) : Res State := accessReg (.dmaCntH 2) a s

/-- Access to DMA3SAD (R470, layout R154). -/
def execDma3sad (a : Access) (s : State) : Res State := accessReg (.dmaSad 3) a s

/-- Access to DMA3DAD (R470, layout R154). -/
def execDma3dad (a : Access) (s : State) : Res State := accessReg (.dmaDad 3) a s

/-- Access to DMA3CNT_L (R471, layout R155). -/
def execDma3cntL (a : Access) (s : State) : Res State := accessReg (.dmaCntL 3) a s

/-- Access to DMA3CNT_H (R472, layout R150). -/
def execDma3cntH (a : Access) (s : State) : Res State := accessReg (.dmaCntH 3) a s

end Sys2Proof.Machine
end

