-- ==== Sys2Proof/Machine/Scheduler.lean ====
section
/-! DEFINITION. The meanings of the scheduler's operations (40_scheduler.md). -/

namespace Sys2Proof.Machine

/-- `SCH.ADD` (R201), issued by the environment. Returns the handle. -/
def execSchAdd (tag : Byte) (delay : BitVec 48) (s : State) : Res State :=
  andThen (addEvent true delay.toNat tag s) fun p => finish (.handle p.1) (.next p.2)

/-- `SCH.CANCEL` (R202). -/
def execSchCancel (handle : BitVec 48) (s : State) : Res State := finish .none (.next (cancelEvent handle.toNat s))

/-- `SCH.REMAIN` (R203). Returns the signed count; changes no state of the block. -/
def execSchRemain (s : State) : Res State := finish (.count (remaining s.sched)) (.next s)

/-- `SCH.STEP` (R204). -/
def execSchStep (s : State) : Res State := finish .none (stepEvent (engine s) s)

/-- `SCH.ADVANCE` (R205). -/
def execSchAdvance (n : BitVec 48) (s : State) : Res State := finish .none (advance n.toNat s)

/-- `SCH.NOW` (R206). Returns the clock; changes no state of the block. -/
def execSchNow (s : State) : Res State := finish (.clock s.sched.now) (.next s)

end Sys2Proof.Machine
end

