-- ==== Sys2Proof/Machine/Dispatch.lean ====
section
/-! DEFINITION. Dispatch: one arm per instruction, each one call of its meaning. -/

namespace Sys2Proof.Machine

/-- The meaning of an instruction. -/
def exec (i : Instr) (s : State) : Host.Outcome State Fault Refusal :=
  match i with
  | .schAdd tag delay => Sys2Proof.Machine.execSchAdd tag delay s
  | .schCancel handle => Sys2Proof.Machine.execSchCancel handle s
  | .schRemain => Sys2Proof.Machine.execSchRemain s
  | .schStep => Sys2Proof.Machine.execSchStep s
  | .schAdvance n => Sys2Proof.Machine.execSchAdvance n s
  | .schNow => Sys2Proof.Machine.execSchNow s
  | .schReset => Sys2Proof.Machine.execSchReset s
  | .dmaRequest occ => Sys2Proof.Machine.execDmaRequest occ s
  | .dmaStopvideo => Sys2Proof.Machine.execDmaStopvideo s
  | .dmaReset => Sys2Proof.Machine.execDmaReset s
  | .ppuReset => Sys2Proof.Machine.execPpuReset s
  | .ioRead addr => Sys2Proof.Machine.execIoRead addr s
  | .ioWrite addr v => Sys2Proof.Machine.execIoWrite addr v s
  | .sysReset => Sys2Proof.Machine.execSysReset s
  | .dmaTrystart c => Sys2Proof.Machine.execDmaTrystart c s
  | .dmaSelect => Sys2Proof.Machine.execDmaSelect s
  | .dmaService => Sys2Proof.Machine.execDmaService s
  | .dmaRun => Sys2Proof.Machine.execDmaRun s
  | .dmaComplete c => Sys2Proof.Machine.execDmaComplete c s
  | .dmaDisable c => Sys2Proof.Machine.execDmaDisable c s
  | .dmaOnwrite c wasEnabled => Sys2Proof.Machine.execDmaOnwrite c wasEnabled s
  | .ppuPhase late => Sys2Proof.Machine.execPpuPhase late s
  | .ppuVcount => Sys2Proof.Machine.execPpuVcount s
  | .ppuRender => Sys2Proof.Machine.execPpuRender s
  | .dispcnt a => Sys2Proof.Machine.execDispcnt a s
  | .dispstat a => Sys2Proof.Machine.execDispstat a s
  | .vcount a => Sys2Proof.Machine.execVcount a s
  | .bg0cnt a => Sys2Proof.Machine.execBg0cnt a s
  | .bg1cnt a => Sys2Proof.Machine.execBg1cnt a s
  | .bg2cnt a => Sys2Proof.Machine.execBg2cnt a s
  | .bg3cnt a => Sys2Proof.Machine.execBg3cnt a s
  | .bg0hofs a => Sys2Proof.Machine.execBg0hofs a s
  | .bg0vofs a => Sys2Proof.Machine.execBg0vofs a s
  | .bg1hofs a => Sys2Proof.Machine.execBg1hofs a s
  | .bg1vofs a => Sys2Proof.Machine.execBg1vofs a s
  | .bg2hofs a => Sys2Proof.Machine.execBg2hofs a s
  | .bg2vofs a => Sys2Proof.Machine.execBg2vofs a s
  | .bg3hofs a => Sys2Proof.Machine.execBg3hofs a s
  | .bg3vofs a => Sys2Proof.Machine.execBg3vofs a s
  | .bg2pa a => Sys2Proof.Machine.execBg2pa a s
  | .bg2pb a => Sys2Proof.Machine.execBg2pb a s
  | .bg2pc a => Sys2Proof.Machine.execBg2pc a s
  | .bg2pd a => Sys2Proof.Machine.execBg2pd a s
  | .bg2x a => Sys2Proof.Machine.execBg2x a s
  | .bg2y a => Sys2Proof.Machine.execBg2y a s
  | .bg3pa a => Sys2Proof.Machine.execBg3pa a s
  | .bg3pb a => Sys2Proof.Machine.execBg3pb a s
  | .bg3pc a => Sys2Proof.Machine.execBg3pc a s
  | .bg3pd a => Sys2Proof.Machine.execBg3pd a s
  | .bg3x a => Sys2Proof.Machine.execBg3x a s
  | .bg3y a => Sys2Proof.Machine.execBg3y a s
  | .win0h a => Sys2Proof.Machine.execWin0h a s
  | .win1h a => Sys2Proof.Machine.execWin1h a s
  | .win0v a => Sys2Proof.Machine.execWin0v a s
  | .win1v a => Sys2Proof.Machine.execWin1v a s
  | .winin a => Sys2Proof.Machine.execWinin a s
  | .winout a => Sys2Proof.Machine.execWinout a s
  | .mosaic a => Sys2Proof.Machine.execMosaic a s
  | .bldcnt a => Sys2Proof.Machine.execBldcnt a s
  | .bldalpha a => Sys2Proof.Machine.execBldalpha a s
  | .bldy a => Sys2Proof.Machine.execBldy a s
  | .dma0sad a => Sys2Proof.Machine.execDma0sad a s
  | .dma0dad a => Sys2Proof.Machine.execDma0dad a s
  | .dma0cntL a => Sys2Proof.Machine.execDma0cntL a s
  | .dma0cntH a => Sys2Proof.Machine.execDma0cntH a s
  | .dma1sad a => Sys2Proof.Machine.execDma1sad a s
  | .dma1dad a => Sys2Proof.Machine.execDma1dad a s
  | .dma1cntL a => Sys2Proof.Machine.execDma1cntL a s
  | .dma1cntH a => Sys2Proof.Machine.execDma1cntH a s
  | .dma2sad a => Sys2Proof.Machine.execDma2sad a s
  | .dma2dad a => Sys2Proof.Machine.execDma2dad a s
  | .dma2cntL a => Sys2Proof.Machine.execDma2cntL a s
  | .dma2cntH a => Sys2Proof.Machine.execDma2cntH a s
  | .dma3sad a => Sys2Proof.Machine.execDma3sad a s
  | .dma3dad a => Sys2Proof.Machine.execDma3dad a s
  | .dma3cntL a => Sys2Proof.Machine.execDma3cntL a s
  | .dma3cntH a => Sys2Proof.Machine.execDma3cntH a s

end Sys2Proof.Machine
end

