-- ==== Sys2Proof/Machine/Step.lean ====
section
/-! DEFINITION. The step: the environment's next act, a top-level operation (R18) or a store of its processor (R82). -/

namespace Sys2Proof.Machine

/-- One step: the environment's next act. An operation is decoded and run to completion (R14, R18); a request that decodes
to nothing is refused (R126), and so is an internal operation (R123). A store goes through the bus (R82, R93). With nothing
to do the block does nothing by itself (R565): the state stays as it is. Assumptions 1 and 9. -/
def step (s : State) : Host.Outcome State Fault Refusal :=
  match s.env.requests with
  | [] => .next s
  | act :: rest =>
    let s1 := s.mapEnv fun e => { e with requests := rest }
    match act with
    | .store addr v => finish .none (envStore (engine s1) addr v s1)
    | .issue r =>
      match decode r with
      | none => .refused .reservedEncoding
      | some i => if i.topLevel then exec i s1 else .refused .internalOperation

/-- `s` with the operation of a word of the opcode table as the environment's next act (assumption 10). -/
def State.withFetchWord (s : State) (nbits w : Nat) : State :=
  s.mapEnv fun e => { e with requests := .issue (tableRequest nbits w) :: e.requests }

end Sys2Proof.Machine
end

