-- ==== Sys2Proof/Safety.lean ====
section
/-! DEFINITION. What a sound state of the block is, in the terms the claims use: the invariants the spec states of the
scheduler (R26), the DMA controller (R31 to R36, R42), the phase machine (R46, R49), the framebuffer (R62) and memory. -/

namespace Sys2Proof

/-- The register belongs to the DMA controller, not to the PPU (R130). -/
def Reg.isDma : Reg → Bool
  | .dmaSad _ | .dmaDad _ | .dmaCntL _ | .dmaCntH _ => true
  | .dispcnt | .dispstat | .vcount | .bgcnt _ | .bghofs _ | .bgvofs _ | .bgpa _ | .bgpb _ | .bgpc _ | .bgpd _ => false
  | .bgx _ | .bgy _ | .winh _ | .winv _ | .winin | .winout | .mosaic | .bldcnt | .bldalpha | .bldy => false

end Sys2Proof

namespace Sys2Proof.Machine

/-- Every operation the acts issue satisfies `A`. -/
def ActsIn (A : Instr → Prop) (acts : List EnvAct) : Prop :=
  ∀ r : Request, .issue r ∈ acts → ∀ i : Instr, decode r = some i → A i

/-- Every operation the environment's callbacks may issue (R207) satisfies `A`. -/
def Env.CallbacksIn (A : Instr → Prop) (e : Env) : Prop := ∀ row ∈ e.callbacks, ActsIn A row.acts

/-- The scheduler invariant (R23 to R26): the queue in key order, handles given out at most once and already given out,
no more than `QCAP` events, clock, targets and handle counter inside their widths. -/
structure Sched.Sound (s : Sched) (qcap : Nat) : Prop where
  sorted : s.queue.Pairwise fun a b => a.before b = true
  unique : (s.queue.map fun e => e.seq).Nodup
  issued : ∀ e ∈ s.queue, e.seq < s.nextSeq
  capacity : s.queue.length ≤ qcap
  clock : s.now ≤ Config.nowMax
  targets : ∀ e ∈ s.queue, e.target ≤ Config.nowMax
  counter : s.nextSeq ≤ Config.seqMax

/-- R42 (a) to (e): a channel is in an occasion set exactly when it is enabled with that timing (and id), a runnable
channel is enabled, and the active channel is the highest-priority runnable one. -/
structure Dma.Sound (d : Dma) : Prop where
  hblank : ∀ c : Chan, hasChan d.hblank c = (ctrlEnable d.ch[c].ctrl && ctrlTiming d.ch[c].ctrl == timingHblank)
  vblank : ∀ c : Chan, hasChan d.vblank c = (ctrlEnable d.ch[c].ctrl && ctrlTiming d.ch[c].ctrl == timingVblank)
  video : ∀ c : Chan, hasChan d.video c = (ctrlEnable d.ch[c].ctrl && ctrlTiming d.ch[c].ctrl == timingSpecial && c == 3)
  runnable : ∀ c : Chan, hasChan d.runnable c = true → ctrlEnable d.ch[c].ctrl = true
  active : d.active = lowest d.runnable

/-- The configured registers are stored masked (R31, R32, R150), only channels 1 and 2 are in FIFO mode (R34), and no
more than 0x10000 units remain (R36). -/
structure Channel.Masked (c : Chan) (ch : Channel) : Prop where
  src : ch.cfgSrc &&& ~~~Config.srcMask c = 0
  dst : ch.cfgDst &&& ~~~Config.dstMask c = 0
  len : ch.cfgLen &&& ~~~Config.lenMask c = 0
  ctrl : ch.ctrl &&& ~~~Config.ctrlMask c = 0
  fifo : ch.fifoMode = true → c = 1 ∨ c = 2
  rem : ch.latRem ≤ 0x10000

/-- Every channel is masked. -/
def Dma.Masked (d : Dma) : Prop := ∀ c : Chan, Channel.Masked c d.ch[c]

/-- R42 (f), which holds between top-level operations: nothing runnable, nothing active, no service loop on the stack. -/
structure Dma.Quiet (d : Dma) : Prop where
  runnable : d.runnable = 0
  active : d.active = none
  busy : d.busy = false

/-- The position in the frame and the flags that follow from it (R46, R297). -/
structure Timing.Sound (t : Timing) : Prop where
  line : t.scanline ≤ 227
  phase : (t.phase = .visible ∨ t.phase = .preHblankWindow ∨ t.phase = .hblank) ↔ t.scanline ≤ 159
  vblank : t.vblankFlag = true ↔ 160 ≤ t.scanline
  hblank : t.hblankFlag = true ↔ (t.phase = .hblank ∨ t.phase = .vblankHblank)

/-- Every pending event with tag 0 is the one `ppu_event` names (half of R49). -/
def State.PhaseEventOnly (s : State) : Prop := ∀ e ∈ s.sched.queue, e.tag = 0 → e.seq = s.timing.ppuEvent

/-- The phase machine's event is pending (the other half of R49). -/
def State.PhaseEventPending (s : State) : Prop := ∃ e ∈ s.sched.queue, e.tag = 0 ∧ e.seq = s.timing.ppuEvent

/-- A framebuffer of 160 rows of 240 pixels (R62). -/
structure FbShape (fb : List (List Pixel)) : Prop where
  rows : fb.length = 160
  columns : ∀ row ∈ fb, row.length = 240

/-- The registers of the PPU hold only the bits they keep (R56, R58, R442). -/
structure PpuRegs.Masked (p : PpuRegs) : Prop where
  winin : p.winin &&& ~~~0x3F3F#16 = 0
  winout : p.winout &&& ~~~0x3F3F#16 = 0
  bldcnt : p.bldcnt &&& ~~~0x3FFF#16 = 0
  bldalpha : p.bldalpha &&& ~~~0x1F1F#16 = 0
  bldy : p.bldy &&& ~~~0x1F#8 = 0

/-- A sound state between top-level operations. -/
structure State.Sound (s : State) : Prop where
  sched : s.sched.Sound s.cfg.qcap
  phaseEvent : s.PhaseEventOnly
  dma : s.dma.Sound
  masked : s.dma.Masked
  quiet : s.dma.Quiet
  timing : s.timing.Sound
  regs : s.regs.Masked
  fb : FbShape s.fb
  mem : s.env.mem.wf = true

end Sys2Proof.Machine
end

