-- ==== Sys2Proof/Certificates/Slice0/Obligations.lean ====
section
/-! DEFINITION. The statements for the provers. The vocabulary they are written in stands first: it is written from the
spec's words and bit positions, not from the model's own operations, wherever the two could differ. A statement that names
`cfg.fuel` does so because of assumption 8: the spec claims no bound for `Service` (R236), the model runs it under fuel. -/

namespace Sys2Proof.Spec

open Sys2Proof.Machine

/-! ### The rows by index (R20, R130) -/

/-- BG0CNT to BG3CNT. -/
def bgcntRow (b : Fin 4) (a : Access) : Instr :=
  match b with
  | 0 => .bg0cnt a
  | 1 => .bg1cnt a
  | 2 => .bg2cnt a
  | 3 => .bg3cnt a

/-- BG0HOFS to BG3HOFS. -/
def bghofsRow (b : Fin 4) (a : Access) : Instr :=
  match b with
  | 0 => .bg0hofs a
  | 1 => .bg1hofs a
  | 2 => .bg2hofs a
  | 3 => .bg3hofs a

/-- BG0VOFS to BG3VOFS. -/
def bgvofsRow (b : Fin 4) (a : Access) : Instr :=
  match b with
  | 0 => .bg0vofs a
  | 1 => .bg1vofs a
  | 2 => .bg2vofs a
  | 3 => .bg3vofs a

/-- BG2PA and BG3PA. -/
def bgpaRow (k : Fin 2) (a : Access) : Instr :=
  match k with
  | 0 => .bg2pa a
  | 1 => .bg3pa a

/-- BG2PB and BG3PB. -/
def bgpbRow (k : Fin 2) (a : Access) : Instr :=
  match k with
  | 0 => .bg2pb a
  | 1 => .bg3pb a

/-- BG2PC and BG3PC. -/
def bgpcRow (k : Fin 2) (a : Access) : Instr :=
  match k with
  | 0 => .bg2pc a
  | 1 => .bg3pc a

/-- BG2PD and BG3PD. -/
def bgpdRow (k : Fin 2) (a : Access) : Instr :=
  match k with
  | 0 => .bg2pd a
  | 1 => .bg3pd a

/-- BG2X and BG3X. -/
def bgxRow (k : Fin 2) (a : Access) : Instr :=
  match k with
  | 0 => .bg2x a
  | 1 => .bg3x a

/-- BG2Y and BG3Y. -/
def bgyRow (k : Fin 2) (a : Access) : Instr :=
  match k with
  | 0 => .bg2y a
  | 1 => .bg3y a

/-- WIN0H and WIN1H. -/
def winhRow (w : Fin 2) (a : Access) : Instr :=
  match w with
  | 0 => .win0h a
  | 1 => .win1h a

/-- WIN0V and WIN1V. -/
def winvRow (w : Fin 2) (a : Access) : Instr :=
  match w with
  | 0 => .win0v a
  | 1 => .win1v a

/-- DMA0SAD to DMA3SAD. -/
def sadRow (c : Chan) (a : Access) : Instr :=
  match c with
  | 0 => .dma0sad a
  | 1 => .dma1sad a
  | 2 => .dma2sad a
  | 3 => .dma3sad a

/-- DMA0DAD to DMA3DAD. -/
def dadRow (c : Chan) (a : Access) : Instr :=
  match c with
  | 0 => .dma0dad a
  | 1 => .dma1dad a
  | 2 => .dma2dad a
  | 3 => .dma3dad a

/-- DMA0CNT_L to DMA3CNT_L. -/
def cntLRow (c : Chan) (a : Access) : Instr :=
  match c with
  | 0 => .dma0cntL a
  | 1 => .dma1cntL a
  | 2 => .dma2cntL a
  | 3 => .dma3cntL a

/-- DMA0CNT_H to DMA3CNT_H. -/
def cntHRow (c : Chan) (a : Access) : Instr :=
  match c with
  | 0 => .dma0cntH a
  | 1 => .dma1cntH a
  | 2 => .dma2cntH a
  | 3 => .dma3cntH a

/-- The write-only scroll and affine-parameter rows (R442). -/
def writeOnlyScrollAffine : List (Access → Instr) :=
  [.bg0hofs, .bg0vofs, .bg1hofs, .bg1vofs, .bg2hofs, .bg2vofs, .bg3hofs, .bg3vofs,
    .bg2pa, .bg2pb, .bg2pc, .bg2pd, .bg3pa, .bg3pb, .bg3pc, .bg3pd]

/-- The other write-only rows of two bytes (R442). -/
def writeOnlyHalves : List (Access → Instr) :=
  [.win0h, .win1h, .win0v, .win1v, .mosaic, .bldy, .dma0cntL, .dma1cntL, .dma2cntL, .dma3cntL]

/-- The write-only rows of four bytes (R442). -/
def writeOnlyWords : List (Access → Instr) :=
  [.bg2x, .bg2y, .bg3x, .bg3y, .dma0sad, .dma0dad, .dma1sad, .dma1dad, .dma2sad, .dma2dad, .dma3sad, .dma3dad]

/-- The read-write registers with their write masks (R442). -/
def readWriteRegs : List (Reg × Half) :=
  [(.dispcnt, 0xFFFF#16), (.dispstat, 0xFF38#16), (.bgcnt 0, 0xFFFF#16), (.bgcnt 1, 0xFFFF#16), (.bgcnt 2, 0xFFFF#16),
    (.bgcnt 3, 0xFFFF#16), (.winin, 0x3F3F#16), (.winout, 0x3F3F#16), (.bldcnt, 0x3FFF#16), (.bldalpha, 0x1F1F#16),
    (.dmaCntH 0, 0xF7E0#16), (.dmaCntH 1, 0xF7E0#16), (.dmaCntH 2, 0xF7E0#16), (.dmaCntH 3, 0xFFE0#16)]

/-! ### Bytes of a register (R87, R131) -/

/-- Byte `o` of a half-word. -/
def halfByte (h : Half) (o : Nat) : Byte := if o = 0 then h.extractLsb' 0 8 else h.extractLsb' 8 8

/-- The half-word with byte `o` replaced. -/
def setHalfByte (h : Half) (o : Nat) (v : Byte) : Half :=
  if o = 0 then h.extractLsb' 8 8 ++ v else v ++ h.extractLsb' 0 8

/-- The word with byte `o` replaced. -/
def setWordByte (w : Word) (o : Nat) (v : Byte) : Word :=
  match o with
  | 0 => w.extractLsb' 8 24 ++ v
  | 1 => w.extractLsb' 16 16 ++ (v ++ w.extractLsb' 0 8)
  | 2 => w.extractLsb' 24 8 ++ (v ++ w.extractLsb' 0 16)
  | _ => v ++ w.extractLsb' 0 24

/-! ### Encodings (R121 to R127, R132) -/

/-- The fields of a command word that are no reserved encoding (R121, R122, R123, R126). -/
def legalFields (op a b : Nat) : Prop :=
  op = 0x01
    ∨ (op ∈ [0x02, 0x05, 0x20] ∧ a = 0)
    ∨ (op ∈ [0x03, 0x04, 0x06, 0x07, 0x11, 0x12, 0x19, 0x1A, 0x1B, 0x21, 0x22, 0x24, 0x3F] ∧ a = 0 ∧ b = 0)
    ∨ (op = 0x10 ∧ a ≤ 4 ∧ b = 0)
    ∨ (op ∈ [0x18, 0x1C, 0x1D] ∧ a ≤ 3 ∧ b = 0)
    ∨ (op = 0x1E ∧ a ≤ 3 ∧ b ≤ 1)
    ∨ (op = 0x30 ∧ a = 0 ∧ b < 2 ^ 32)
    ∨ (op = 0x31 ∧ b < 2 ^ 32)

/-- A 64-bit word that is a command (R121). -/
def legalWord (w : BitVec 64) : Prop := legalFields (w.toNat / 2 ^ 56) (w.toNat / 2 ^ 48 % 2 ^ 8) (w.toNat % 2 ^ 48)

/-- The operation codes of the internal operations (R123). -/
def internalCodes : List Nat := [0x18, 0x19, 0x1A, 0x1B, 0x1C, 0x1D, 0x1E, 0x20, 0x21, 0x24]

/-- The addresses that R131 maps to no register (R132). -/
def unmapped (a : Word) : Prop :=
  a.toNat < 0x04000000 ∨ (0x04000002 ≤ a.toNat ∧ a.toNat ≤ 0x04000003) ∨ (0x0400004E ≤ a.toNat ∧ a.toNat ≤ 0x0400004F)
    ∨ (0x04000056 ≤ a.toNat ∧ a.toNat ≤ 0x040000AF) ∨ 0x040000E0 ≤ a.toNat

/-! ### The scheduler (R24) -/

/-- `e` is `earliest(q)`: the member with the least key `(target, seq)` (R24). -/
def earliest (q : List Event) (e : Event) : Prop :=
  e ∈ q ∧ ∀ x ∈ q, e.target < x.target ∨ (e.target = x.target ∧ e.seq ≤ x.seq)

/-- The cycles by which `e` is late when `SCH.STEP` fires it (R204). -/
def lateness (s : State) (e : Event) : Nat := max s.sched.now e.target - e.target

/-- The state the callback of external event `e` starts in (R204, R207): the event gone, the clock at its target if that lay
ahead, the call logged. -/
def calledState (s : State) (e : Event) : State :=
  { s with
    sched := { s.sched with queue := s.sched.queue.erase e, now := max s.sched.now e.target }
    env := { s.env with extLog := s.env.extLog ++ [⟨e.tag, lateness s e, max s.sched.now e.target⟩] } }

/-- No callback of the environment may issue `i`. -/
def neverIssued (s : State) (i : Instr) : Prop := ∀ row ∈ s.env.callbacks, ∀ r, .issue r ∈ row.acts → decode r ≠ some i

/-! ### Channels and sets (R11, R231, R232, R241) -/

/-- The set with the one member `c`. -/
def bit (c : Chan) : ChanSet := 1#4 <<< c.val

/-- `S[c] <- 0`. -/
def without (S : ChanSet) (c : Chan) : ChanSet := S &&& ~~~bit c

/-- The lowest-numbered member, `none` for the empty set. -/
def firstOf (S : ChanSet) : Option Chan := (List.finRange 4).find? fun c => S.getLsbD c.val

/-- `Align(a, size)` (R232). -/
def aligned (word : Bool) (a : Word) : Word := if word then a &&& 0xFFFFFFFC#32 else a &&& 0xFFFFFFFE#32

/-- `ExpandLen(c, v)` (R232, R32). -/
def expanded (c : Chan) (v : Half) : Nat := if v = 0 then (if c = 3 then 0x10000 else 0x4000) else v.toNat

/-- The table of R231. -/
def tableDelta (word : Bool) (mode : BitVec 2) : Word :=
  match word, mode.toNat with
  | false, 0 => 2
  | false, 1 => -2
  | false, 2 => 0
  | false, _ => 2
  | true, 0 => 4
  | true, 1 => -4
  | true, 2 => 0
  | true, _ => 4

/-- The occasion codes (R124). -/
def occasionCode : Occasion → Byte
  | .hblank => 0
  | .vblank => 1
  | .video => 2
  | .fifoA => 3
  | .fifoB => 4

/-- `S` is the set of the occasion (R235). -/
def occasionSetIs (occ : Occasion) (s : State) (S : ChanSet) : Prop :=
  (occ = .hblank ∧ S = s.dma.hblank) ∨ (occ = .vblank ∧ S = s.dma.vblank) ∨ (occ = .video ∧ S = s.dma.video)

/-- `addr` is the FIFO address of the occasion (R235, R8). -/
def fifoAddressIs (occ : Occasion) (addr : Word) : Prop :=
  (occ = .fifoA ∧ addr = 0x040000A0#32) ∨ (occ = .fifoB ∧ addr = 0x040000A4#32)

/-- Channel `c` is enabled, Special-timed and aimed at `addr` (R235). -/
def fifoMatch (s : State) (addr : Word) (c : Chan) : Prop :=
  s.dma.ch[c].ctrl.getLsbD 15 = true ∧ s.dma.ch[c].ctrl.extractLsb' 12 2 = 3 ∧ s.dma.ch[c].cfgDst = addr

/-- Channel `c` of the state replaced by `x`. -/
def withChan (s : State) (c : Chan) (x : Channel) : State := { s with dma := { s.dma with ch := s.dma.ch.set c x } }

/-- The three occasion sets without `c`. -/
def outOfSets (s : State) (c : Chan) : State :=
  { s with
    dma :=
      { s.dma with
        hblank := without s.dma.hblank c
        vblank := without s.dma.vblank c
        video := without s.dma.video c } }

/-- The three occasion sets with `c` out and then in again by its timing (R232, R241). -/
def rederived (s : State) (c : Chan) : State :=
  let t := s.dma.ch[c].ctrl.extractLsb' 12 2
  { s with
    dma :=
      { s.dma with
        hblank := if t = 2 then s.dma.hblank ||| bit c else without s.dma.hblank c
        vblank := if t = 1 then s.dma.vblank ||| bit c else without s.dma.vblank c
        video := if t = 3 ∧ c = 3 then s.dma.video ||| bit c else without s.dma.video c } }

/-- The channel as it is armed (R241). -/
def armed (c : Chan) (ch : Channel) : Channel :=
  let fifo := decide (ch.ctrl.extractLsb' 12 2 = 3 ∧ (c = 1 ∨ c = 2))
  let word := fifo || ch.ctrl.getLsbD 10
  { ch with
    fifoMode := fifo
    latSrc := aligned word ch.cfgSrc
    latDst := aligned word ch.cfgDst
    latRem := if fifo then 4 else expanded c ch.cfgLen
    srcModeEff :=
      if 0x08000000 ≤ ch.cfgSrc.toNat ∧ ch.cfgSrc.toNat ≤ 0x0DFFFFFF then 0 else ch.ctrl.extractLsb' 7 2 }

/-- The control half-word after a byte of it is written (R472, R442). -/
def controlAfter (c : Chan) (old : Half) (o : Nat) (v : Byte) : Half :=
  setHalfByte old o v &&& (if c = 3 then 0xFFE0#16 else 0xF7E0#16)

/-! ### A transfer that nothing disturbs (R237)

Memory here is the reference environment's (R94, assumption 2: PRESUMED of any other bus). -/

/-- What `Run` fixes at entry (R237). -/
structure UnitShape where
  word : Bool
  srcDelta : Word
  dstDelta : Word

/-- The shape of channel `ch`'s units (R237, R231). -/
def shapeOf (ch : Channel) : UnitShape :=
  let word := ch.fifoMode || ch.ctrl.getLsbD 10
  ⟨word, tableDelta word ch.srcModeEff, if ch.fifoMode then 0 else tableDelta word (ch.ctrl.extractLsb' 5 2)⟩

/-- What a transfer moves along: memory, the open-bus latch, the clock, the two addresses. -/
structure Moving where
  mem : Mem
  openBus : Word
  now : Nat
  src : Word
  dst : Word

/-- The source is readable (R232). -/
def readableAt (a : Word) : Prop := 0x02000000 ≤ a.toNat

/-- The datum of a unit: memory, or the open-bus value (R237, R87). -/
def datum (u : UnitShape) (m : Moving) : Word :=
  if 0x02000000 ≤ m.src.toNat then
    if u.word then m.mem.readWord m.src else (m.mem.readHalf m.src).setWidth 32
  else if u.word then m.openBus
  else (m.openBus.extractLsb' 0 16).setWidth 32

/-- One unit (R237): read or idle, write, both addresses move. -/
def moveOne (cfg : Params) (u : UnitShape) (kind : AccessKind) (m : Moving) : Moving where
  mem := m.mem.writeBytes m.dst (datum u m) (if u.word then 4 else 2)
  openBus :=
    if 0x02000000 ≤ m.src.toNat then
      if u.word then m.mem.readWord m.src else m.mem.readHalf m.src ++ m.mem.readHalf m.src
    else m.openBus
  now :=
    m.now + (if 0x02000000 ≤ m.src.toNat then busCost cfg m.src (if u.word then 32 else 16) kind else cfg.idleCost)
      + busCost cfg m.dst (if u.word then 32 else 16) kind
  src := m.src + u.srcDelta
  dst := m.dst + u.dstDelta

/-- `n` units: the first with access kind `kind`, every later one Seq (R85, R237). -/
def moveUnits (cfg : Params) (u : UnitShape) : AccessKind → Nat → Moving → Moving
  | _, 0, m => m
  | kind, n + 1, m => moveUnits cfg u .seq n (moveOne cfg u kind m)

/-- Before every unit no event is due, no access of a unit goes to a CORE register, and the clock stays in range. Which of
the two an access goes to is decided by its address alone, its first byte's, as R94 words it for ENV0: the model's reading, and
for another bus than ENV0 its choice (assumptions 15 and 2). -/
def Undisturbed (cfg : Params) (u : UnitShape) (q : List Event) : AccessKind → Nat → Moving → Prop
  | _, 0, _ => True
  | kind, n + 1, m =>
    (∀ e ∈ q, m.now < e.target) ∧ (readableAt m.src → unmapped m.src) ∧ unmapped m.dst
      ∧ (moveOne cfg u kind m).now ≤ 2 ^ 64 - 1 ∧ Undisturbed cfg u q .seq n (moveOne cfg u kind m)

/-- Where channel `c`'s transfer starts from. -/
def startOf (s : State) (c : Chan) : Moving :=
  ⟨s.env.mem, s.dma.openBus, s.sched.now, s.dma.ch[c].latSrc, s.dma.ch[c].latDst⟩

/-- Where it ends. -/
def endOf (s : State) (c : Chan) : Moving :=
  moveUnits s.cfg (shapeOf s.dma.ch[c]) .nonSeq s.dma.ch[c].latRem (startOf s c)

/-- Channel `c`'s whole remaining transfer is undisturbed. -/
def Plain (s : State) (c : Chan) : Prop :=
  Undisturbed s.cfg (shapeOf s.dma.ch[c]) s.sched.queue .nonSeq s.dma.ch[c].latRem (startOf s c)

/-- The state when the units have been moved and `Complete` is still to come (R237). -/
def movedState (s : State) (c : Chan) : State :=
  let m := endOf s c
  { s with
    sched := { s.sched with now := m.now }
    dma :=
      { s.dma with
        openBus := m.openBus
        ch := s.dma.ch.set c { s.dma.ch[c] with latSrc := m.src, latDst := m.dst, latRem := 0 } }
    env := { s.env with mem := m.mem } }

/-! ### The phase handler (R291, R293) -/

/-- The next phase event can be added `dur - late` ahead (R201, R573). -/
structure PhaseReady (s : State) (late dur : Nat) : Prop where
  inTime : late ≤ dur
  clock : s.sched.now + dur - late ≤ 2 ^ 64 - 1
  room : s.sched.queue.length ≠ s.cfg.qcap
  handle : s.sched.nextSeq ≠ 2 ^ 48 - 1

/-- What the handler's own updates leave (R293, R294, R525): the new position and flags, the next event, the interrupts in
the order VBlank, HBlank, VCount. -/
structure PhaseResult (s u : State) (late : Nat) (p : Phase) (dur line : Nat) (vb hb irqV irqH : Bool) : Prop where
  timing :
    u.timing =
      { s.timing with
        phase := p
        scanline := line
        vblankFlag := vb
        hblankFlag := hb
        vcountFlag := decide (line = s.timing.vcountTarget.toNat)
        ppuEvent := s.sched.nextSeq }
  queue : u.sched.queue.Perm (⟨s.sched.now + dur - late, s.sched.nextSeq, 0⟩ :: s.sched.queue)
  now : u.sched.now = s.sched.now
  nextSeq : u.sched.nextSeq = s.sched.nextSeq + 1
  env :
    u.env =
      { s.env with
        irqLog :=
          s.env.irqLog
            ++ ((if irqV then [⟨.vblank, 0, s.sched.now⟩] else [])
              ++ ((if irqH then [⟨.hblank, 0, s.sched.now⟩] else [])
                ++ (if line = s.timing.vcountTarget.toNat ∧ s.timing.vcountFlag = false ∧ s.timing.vcountIrqEn = true then
                    [⟨.vcount, 0, s.sched.now⟩]
                  else []))) }
  cfg : u.cfg = s.cfg
  result : u.result = s.result

/-- The handler touched neither the registers nor the framebuffer nor the DMA controller. -/
def RestSame (s u : State) : Prop := u.regs = s.regs ∧ u.fb = s.fb ∧ u.dma = s.dma

/-! ### The compositor (R411, R412, R417) -/

/-- `c` is a candidate at column `x` other than the backdrop (R411). -/
def CandidateAt (w : View) (mask : BitVec 6) (o : ObjPixel) (x : Nat) (c : Candidate) : Prop :=
  (∃ b : Fin 4, mask.getLsbD b.val = true ∧ w.bgPixel b x = some c.color ∧ c.layer = .bg b
      ∧ c.prio = w.regs.bgcnt[b].toNat % 4)
    ∨ (mask.getLsbD 4 = true ∧ o.color = some c.color ∧ c.layer = .obj ∧ c.prio = o.prio)

/-- The rank of R412: 0 for OBJ, `1 + b` for BGb. -/
def rankOf : Layer → Nat
  | .obj => 0
  | .bg b => 1 + b.val
  | .bd => 5

/-- The order of R412. -/
def keyBefore (c d : Candidate) : Prop := c.prio < d.prio ∨ (c.prio = d.prio ∧ rankOf c.layer < rankOf d.layer)

/-! #### The layers' pixels (R330 to R340, R370 to R377), in numbers -/

/-- Byte `off` of `VRAM` (R82, R92). -/
def vramByte (w : View) (off : Nat) : Nat := (w.mem.read (0x06000000 + off)).toNat

/-- The half-word at `off` of `VRAM`. -/
def vramHalf (w : View) (off : Nat) : Nat := vramByte w off + 256 * vramByte w (off + 1)

/-- The half-word at `off` of `OAM`. -/
def oamHalf (w : View) (off : Nat) : Nat :=
  (w.mem.read (0x07000000 + off)).toNat + 256 * (w.mem.read (0x07000000 + (off + 1))).toNat

/-- The colour at offset `off` of `PRAM`: bit 15 of the half-word is ignored (R160, R342). -/
def pramColor (w : View) (off : Nat) : Color :=
  BitVec.ofNat 15 ((w.mem.read (0x05000000 + off)).toNat + 256 * (w.mem.read (0x05000000 + (off + 1))).toNat)

/-- Entry `i` of the palette that begins at `base`; index 0 is transparent. -/
def paletteColor (w : View) (base bank idx : Nat) : Option Color :=
  if idx = 0 then none else some (pramColor w (base + 2 * (bank + idx)))

/-- Four bits of a byte: the left, even pixel in bits 3:0 (R335, R376). -/
def halfOfByte (byte column : Nat) : Nat := if column % 2 = 1 then byte / 16 else byte % 16

/-- Two's complement in `n` bits (R10). -/
def signed (n v : Nat) : Int := if v < 2 ^ (n - 1) then v else (v : Int) - 2 ^ n

/-- The table of R331, a row for each mode. -/
def kindTable : List (List LayerKind) :=
  [[.text, .text, .text, .text], [.text, .text, .affine 0, .none], [.none, .none, .affine 0, .affine 1],
    [.none, .none, .bitmap, .none], [.none, .none, .bitmap, .none], [.none, .none, .bitmap, .none],
    [.none, .none, .none, .none], [.none, .none, .none, .none]]

/-- The kind of layer `b` in the mode of `DISPCNT` (R331, R140). -/
def kindOf (w : View) (b : Fin 4) : LayerKind := (kindTable.getD (w.regs.dispcnt.toNat % 8) []).getD b.val .none

/-- Where layer `b` is sampled (R332, R149). -/
def samplePoint (w : View) (b : Fin 4) (x : Nat) : Nat × Nat :=
  if w.regs.bgcnt[b].getLsbD 6 then
    (x - x % (w.regs.mosaic.toNat % 16 + 1), w.scanline - w.scanline % (w.regs.mosaic.toNat / 16 % 16 + 1))
  else (x, w.scanline)

/-- `ScrollVal` (R333). -/
def scrollBy (interp : ScrollInterp) (v : Nat) : Int :=
  match interp with
  | .unsigned => v
  | .signMagnitude => if 256 ≤ v then -((v % 256 : Nat) : Int) else v

/-- The pixel of a text layer (R334 to R336). -/
def textColor (w : View) (b : Fin 4) (x : Nat) : Option Color :=
  let cnt := w.regs.bgcnt[b].toNat
  let wide := cnt / 0x4000 % 2 = 1
  let sx := ((((samplePoint w b x).1 : Int) + scrollBy w.cfg.scrollInterp w.regs.bghofs[b].toNat)
    % (if wide then 512 else 256)).toNat
  let sy := ((((samplePoint w b x).2 : Int) + scrollBy w.cfg.scrollInterp w.regs.bgvofs[b].toNat)
    % (if cnt / 0x8000 = 1 then 512 else 256)).toNat
  let blk := cnt / 0x100 % 32 + (if 256 ≤ sx then 1 else 0) + (if 256 ≤ sy then (if wide then 2 else 1) else 0)
  let off := blk * 0x800 + (sy % 256 / 8 * 32 + sx % 256 / 8) * 2
  if 0x10000 ≤ off then none
  else
    let e := vramHalf w off
    let tx := if e / 0x400 % 2 = 1 then 7 - sx % 8 else sx % 8
    let ty := if e / 0x800 % 2 = 1 then 7 - sy % 8 else sy % 8
    let base := cnt / 4 % 4 * 0x4000
    if cnt / 0x80 % 2 = 0 then
      let at4 := base + e % 0x400 * 32 + ty * 4 + tx / 2
      if 0x10000 ≤ at4 then none else paletteColor w 0 (e / 0x1000 * 16) (halfOfByte (vramByte w at4) tx)
    else
      let at8 := base + e % 0x400 * 64 + ty * 8 + tx
      if 0x10000 ≤ at8 then none else paletteColor w 0 0 (vramByte w at8)

/-- The pixel of an affine layer with affine set `k` (R337 to R339): `>> 8` is the floor of the division by 256. -/
def affineColor (w : View) (b : Fin 4) (k : Fin 2) (x : Nat) : Option Color :=
  let cnt := w.regs.bgcnt[b].toNat
  let side : Nat := 128 <<< (cnt / 0x4000)
  let xm : Int := (samplePoint w b x).1
  let back : Int := (w.scanline : Int) - (samplePoint w b x).2
  let px := (w.regs.refX[k] - signed 16 w.regs.bgpb[k].toNat * back + signed 16 w.regs.bgpa[k].toNat * xm) / 256
  let py := (w.regs.refY[k] - signed 16 w.regs.bgpd[k].toNat * back + signed 16 w.regs.bgpc[k].toNat * xm) / 256
  if cnt / 0x2000 % 2 = 0 ∧ (px < 0 ∨ px ≥ side ∨ py < 0 ∨ py ≥ side) then none
  else
    let qx := (px % side).toNat
    let qy := (py % side).toNat
    let moff := cnt / 0x100 % 32 * 0x800 + qy / 8 * (side / 8) + qx / 8
    if 0x10000 ≤ moff then none
    else paletteColor w 0 0 (vramByte w (cnt / 4 % 4 * 0x4000 + vramByte w moff * 64 + qy % 8 * 8 + qx % 8))

/-- The pixel of the bitmap layer (R340). -/
def bitmapColor (w : View) (x : Nat) : Option Color :=
  let mode := w.regs.dispcnt.toNat % 8
  let fr := if w.regs.dispcnt.toNat / 16 % 2 = 1 then 0xA000 else 0
  let xm := (samplePoint w 2 x).1
  let ym := (samplePoint w 2 x).2
  if mode = 3 then some (BitVec.ofNat 15 (vramHalf w ((ym * 240 + xm) * 2)))
  else if mode = 4 then paletteColor w 0 0 (vramByte w (fr + ym * 240 + xm))
  else if xm ≥ 160 ∨ ym ≥ 128 then none
  else some (BitVec.ofNat 15 (vramHalf w (fr + (ym * 160 + xm) * 2)))

/-- The table of R373 for shapes 0 to 2. -/
def sizeTable (shape size : Nat) : Nat × Nat :=
  ([[(8, 8), (16, 16), (32, 32), (64, 64)], [(16, 8), (32, 8), (32, 16), (64, 32)],
    [(8, 16), (8, 32), (16, 32), (32, 64)]].getD shape []).getD size (0, 0)

/-- Attribute half-word `k` of entry `i` (R371). -/
def attr (w : View) (i k : Nat) : Nat := oamHalf w (8 * i + 2 * k)

/-- Size of entry `i` (R373). -/
def entrySize (w : View) (i : Nat) : Nat × Nat := sizeTable (attr w i 0 / 0x4000) (attr w i 1 / 0x4000)

/-- How often the sprite fits into its box: twice for an affine sprite with `dbl` (R373). -/
def entryScale (w : View) (i : Nat) : Nat := if attr w i 0 / 0x100 % 2 = 1 ∧ attr w i 0 / 0x200 % 2 = 1 then 2 else 1

/-- The scanline's row inside the box of entry `i` (R374). -/
def entryRow (w : View) (i : Nat) : Nat := (((w.scanline : Int) - (attr w i 0 % 256 : Nat)) % 256).toNat

/-- Entry `i` is not skipped (R374). -/
def entryDrawn (w : View) (i : Nat) : Bool :=
  decide (attr w i 0 / 0x4000 ≠ 3 ∧ attr w i 0 / 0x400 % 4 ≠ 3
    ∧ ¬(attr w i 0 / 0x100 % 2 = 0 ∧ attr w i 0 / 0x200 % 2 = 1) ∧ entryRow w i < entryScale w i * (entrySize w i).2)

/-- The colour of texel `(tx, ty)` of entry `i` (R376). -/
def texelColor (w : View) (i tx ty : Nat) : Option Color :=
  let deep := attr w i 0 / 0x2000 % 2 = 1
  let step := if deep then 2 else 1
  let first := attr w i 2 % 0x400
  let t := (if w.regs.dispcnt.getLsbD 6 then first + (ty / 8 * ((entrySize w i).1 / 8) + tx / 8) * step
    else first + ty / 8 * 32 + tx / 8 * step) % 0x400
  if w.regs.dispcnt.toNat % 8 ∈ [3, 4, 5] ∧ t < 512 then none
  else if deep then paletteColor w 0x200 0 (vramByte w (0x10000 + (t * 32 + ty % 8 * 8 + tx % 8) % 0x8000))
  else
    paletteColor w 0x200 (attr w i 2 / 0x1000 * 16)
      (halfOfByte (vramByte w (0x10000 + (t * 32 + ty % 8 * 4 + tx % 8 / 2) % 0x8000)) tx)

/-- The colour entry `i` has at column `x` (R375, R377, R372). -/
def entryColor (w : View) (i x : Nat) : Option Color :=
  let sw := (entrySize w i).1
  let sh := (entrySize w i).2
  let bw := entryScale w i * sw
  let bh := entryScale w i * sh
  let column := (x : Int) - signed 9 (attr w i 1 % 512)
  if column < 0 ∨ column ≥ bw then none
  else
    let m := w.regs.mosaic.toNat
    let coarse := attr w i 0 / 0x1000 % 2 = 1
    let lx := if coarse then column.toNat - column.toNat % (m / 0x100 % 16 + 1) else column.toNat
    let ly := if coarse then entryRow w i - entryRow w i % (m / 0x1000 + 1) else entryRow w i
    if attr w i 0 / 0x100 % 2 = 1 then
      let g := attr w i 1 / 0x200 % 32
      let dx : Int := (lx : Int) - (bw / 2 : Nat)
      let dy : Int := (ly : Int) - (bh / 2 : Nat)
      let tx := (signed 16 (oamHalf w (32 * g + 6)) * dx + signed 16 (oamHalf w (32 * g + 14)) * dy) / 256 + (sw / 2 : Nat)
      let ty := (signed 16 (oamHalf w (32 * g + 22)) * dx + signed 16 (oamHalf w (32 * g + 30)) * dy) / 256 + (sh / 2 : Nat)
      if tx < 0 ∨ tx ≥ sw ∨ ty < 0 ∨ ty ≥ sh then none else texelColor w i tx.toNat ty.toNat
    else
      texelColor w i (if attr w i 1 / 0x1000 % 2 = 1 then sw - 1 - lx else lx)
        (if attr w i 1 / 0x2000 % 2 = 1 then sh - 1 - ly else ly)

/-! #### Windows, priority and blending (R381, R411, R412, R417) -/

/-- `v` lies in the range whose first edge is the high byte and whose exclusive second edge is the low byte (R381). -/
def insideRange (v : Nat) (edges : Half) : Prop :=
  if edges.toNat / 256 ≤ edges.toNat % 256 then edges.toNat / 256 ≤ v ∧ v < edges.toNat % 256
  else edges.toNat / 256 ≤ v ∨ v < edges.toNat % 256

/-- Channel `i` of a colour: `c[5i+4:5i]` (R160). -/
def shade (c : Color) (i : Nat) : Nat := c.toNat / 32 ^ i % 32

/-- The video memories: `PRAM`, `VRAM`, `OAM` (R82). -/
def videoAddress (a : Nat) : Prop :=
  (0x05000000 ≤ a ∧ a < 0x05000400) ∨ (0x06000000 ≤ a ∧ a < 0x06018000) ∨ (0x07000000 ≤ a ∧ a < 0x07000400)

/-! ### Reset (R71) -/

/-- The table of R71. -/
structure AfterReset (t : State) : Prop where
  now : t.sched.now = 0
  nextSeq : t.sched.nextSeq = 1
  queue : t.sched.queue = [⟨960, 0, 0⟩]
  channels : ∀ c : Chan, t.dma.ch[c] = ⟨0, 0, 0, 0, false, 0, 0, 0, 0⟩
  sets : t.dma.runnable = 0 ∧ t.dma.hblank = 0 ∧ t.dma.vblank = 0 ∧ t.dma.video = 0
  active : t.dma.active = none
  flags : t.dma.earlyExit = false ∧ t.dma.busy = false
  openBus : t.dma.openBus = 0
  timing : t.timing = ⟨.visible, 0, false, false, false, false, false, false, 0, 0⟩
  control : t.regs.dispcnt = 0 ∧ ∀ b : Fin 4, t.regs.bgcnt[b] = 0 ∧ t.regs.bghofs[b] = 0 ∧ t.regs.bgvofs[b] = 0
  affine :
    ∀ k : Fin 2,
      t.regs.bgpa[k] = 0 ∧ t.regs.bgpb[k] = 0 ∧ t.regs.bgpc[k] = 0 ∧ t.regs.bgpd[k] = 0 ∧ t.regs.bgx[k] = 0
        ∧ t.regs.bgy[k] = 0 ∧ t.regs.refX[k] = 0 ∧ t.regs.refY[k] = 0
  windows : (∀ w : Fin 2, t.regs.winh[w] = 0 ∧ t.regs.winv[w] = 0) ∧ t.regs.winin = 0 ∧ t.regs.winout = 0
  effects : t.regs.mosaic = 0 ∧ t.regs.bldcnt = 0 ∧ t.regs.bldalpha = 0 ∧ t.regs.bldy = 0
  fb : t.fb = List.replicate 160 (List.replicate 240 (colorOut t.cfg 0))

end Sys2Proof.Spec

open Sys2Proof Sys2Proof.Machine Sys2Proof.Spec

/-! ### Encoding and the step -/

/-- R121 to R124, R130, R131: the written form of a well-formed instruction, any of the 77, decodes to it. -/
def Obligations.EncodeDecode : Prop := ∀ i : Instr, i.wellFormed = true → decode (encode i) = some i

/-- R121, R126: no bit of a command word is dropped: a word that decodes is the encoding of what it decodes to. -/
def Obligations.CommandWordExact : Prop :=
  ∀ (w : BitVec 64) (i : Instr), decode (.command w) = some i → encode i = .command w

/-- Words written out from the tables of R121 to R124 and R130, one or more for each family. -/
def Obligations.DecodedWords : Prop :=
  decode (.command 0x0107000000000064#64) = some (.schAdd 7 100)
    ∧ decode (.command 0x0200000000000001#64) = some (.schCancel 1)
    ∧ decode (.command 0x0400000000000000#64) = some .schStep
    ∧ decode (.command 0x1004000000000000#64) = some (.dmaRequest .fifoB)
    ∧ decode (.command 0x1E02000000000001#64) = some (.dmaOnwrite 2 true)
    ∧ decode (.command 0x200000000000002E#64) = some (.ppuPhase 46)
    ∧ decode (.command 0x3000000004000006#64) = some (.ioRead 0x04000006#32)
    ∧ decode (.command 0x3184000004000000#64) = some (.ioWrite 0x04000000#32 0x84)
    ∧ decode (.command 0x3F00000000000000#64) = some .sysReset
    ∧ decode (.read 0x04000006#32) = some (.vcount (.read 0))
    ∧ decode (.write 0x0400002B#32 0x0F) = some (.bg2x (.write 3 0x0F))
    ∧ decode (.write 0x040000DF#32 0x84) = some (.dma3cntH (.write 1 0x84))
    ∧ decode (.command 0x0800000000000000#64) = none

/-- R132: an unmapped address is the row of no register, reads 0 through `IO.READ`, and `IO.WRITE` to it does nothing. -/
def Obligations.UnmappedAddress : Prop :=
  ∀ (a : Word) (v : Byte) (s : State), unmapped a →
    decode (.read a) = some (.ioRead a) ∧ decode (.write a v) = some (.ioWrite a v)
      ∧ exec (.ioRead a) s = .next { s with result := .byte 0 }
      ∧ exec (.ioWrite a v) s = .next { s with result := .none }

/-- R131: every other address is byte `o` of exactly the register at `IO_BASE + offset`, as a pair and through `IO.READ` and
`IO.WRITE` alike. -/
def Obligations.MappedAddress : Prop :=
  ∀ a : Word, ¬unmapped a → ∃ (r : Reg) (o : Nat), o < r.width ∧ a.toNat = 0x04000000 + r.offset + o
    ∧ decode (.read a) = some (r.instr (.read o))
    ∧ (∀ v, decode (.write a v) = some (r.instr (.write o v)))
    ∧ (∀ s, exec (.ioRead a) s = exec (r.instr (.read o)) s)
    ∧ ∀ v s, exec (.ioWrite a v) s = exec (r.instr (.write o v)) s

/-- R126: a word outside the tables decodes to nothing and its step is refused; every word inside them decodes. -/
def Obligations.ReservedRefused : Prop :=
  (∀ w : BitVec 64, legalWord w → (decode (.command w)).isSome = true)
    ∧ ∀ (w : BitVec 64) (s : State) (rest : List EnvAct), ¬legalWord w → s.env.requests = .issue (.command w) :: rest →
      decode (.command w) = none ∧ step s = .refused .reservedEncoding

/-- R123: the environment's request of an internal operation is refused (assumption 9). -/
def Obligations.InternalRefused : Prop :=
  ∀ (w : BitVec 64) (s : State) (rest : List EnvAct), legalWord w → w.toNat / 2 ^ 56 ∈ internalCodes →
    s.env.requests = .issue (.command w) :: rest → step s = .refused .internalOperation

/-- R18: a step runs the instruction the next request decodes to, with that request taken off the list; with nothing to do
nothing changes (R565; the list is the model's, assumption 1). -/
def Obligations.StepRunsDecoded : Prop :=
  (∀ (s : State) (r : Request) (rest : List EnvAct) (i : Instr), s.env.requests = .issue r :: rest → decode r = some i →
      i.topLevel = true → step s = exec i { s with env := { s.env with requests := rest } })
    ∧ ∀ s : State, s.env.requests = [] → step s = .next s

/-- R82, R93: a byte the environment's processor stores through the bus: at an address of no CORE register that byte of memory
takes the value and nothing else changes, so that it is what the compositor reads there next; at a register's address it is
`IO.WRITE`. (That the list holds such stores is the model's, assumption 1; that memory keeps them is ENV0's, R94.) -/
def Obligations.EnvironmentStore : Prop :=
  ∀ (s : State) (a : Word) (v : Byte) (rest : List EnvAct), s.env.requests = .store a v :: rest →
    (unmapped a → ∃ m : Mem,
        step s = .next { s with env := { s.env with mem := m, requests := rest }, result := .none }
          ∧ m.read a.toNat = v ∧ (∀ b, b ≠ a.toNat → m.read b = s.env.mem.read b))
      ∧ (¬unmapped a → step s = exec (.ioWrite a v) { s with env := { s.env with requests := rest } })

/-! ### The scheduler -/

/-- R201: `SCH.ADD` gives out the next handle and adds exactly one event, due at `now + delay`; the refusals a command word
can meet, in their order. -/
def Obligations.AddOperation : Prop :=
  (∀ (tag : Byte) (delay : BitVec 48) (s : State), tag ≠ 0 → s.sched.now + delay.toNat ≤ 2 ^ 64 - 1 →
      s.sched.queue.length ≠ s.cfg.qcap → s.sched.nextSeq ≠ 2 ^ 48 - 1 →
      ∃ q : List Event, q.Perm (⟨s.sched.now + delay.toNat, s.sched.nextSeq, tag⟩ :: s.sched.queue)
        ∧ exec (.schAdd tag delay) s =
          .next
            { s with
              sched := { s.sched with queue := q, nextSeq := s.sched.nextSeq + 1 }
              result := .handle s.sched.nextSeq })
    ∧ (∀ (tag : Byte) (delay : BitVec 48) (s : State), 2 ^ 64 - 1 < s.sched.now + delay.toNat →
      exec (.schAdd tag delay) s = .refused .clockOverflow)
    ∧ (∀ (tag : Byte) (delay : BitVec 48) (s : State), s.sched.now + delay.toNat ≤ 2 ^ 64 - 1 →
      s.sched.queue.length = s.cfg.qcap → exec (.schAdd tag delay) s = .refused .queueFull)
    ∧ (∀ (tag : Byte) (delay : BitVec 48) (s : State), s.sched.now + delay.toNat ≤ 2 ^ 64 - 1 →
      s.sched.queue.length ≠ s.cfg.qcap → s.sched.nextSeq = 2 ^ 48 - 1 →
      exec (.schAdd tag delay) s = .refused .handlesExhausted)
    ∧ ∀ (delay : BitVec 48) (s : State), s.sched.now + delay.toNat ≤ 2 ^ 64 - 1 →
      s.sched.queue.length ≠ s.cfg.qcap → s.sched.nextSeq ≠ 2 ^ 48 - 1 →
      exec (.schAdd 0 delay) s = .refused .ppuTagReserved

/-- R202: `SCH.CANCEL` takes the event with that handle out of the queue and changes nothing else; without such an event it
changes nothing. -/
def Obligations.CancelRemoves : Prop :=
  (∀ h : BitVec 48, decode (.command (0x02#8 ++ (0#8 ++ h))) = some (.schCancel h))
    ∧ ∀ (h : BitVec 48) (s : State), ∃ q : List Event, q.Sublist s.sched.queue
      ∧ (∀ e, e ∈ q ↔ e ∈ s.sched.queue ∧ e.seq ≠ h.toNat)
      ∧ exec (.schCancel h) s = .next { s with sched := { s.sched with queue := q }, result := .none }
      ∧ ((∀ e ∈ s.sched.queue, e.seq ≠ h.toNat) → exec (.schCancel h) s = .next { s with result := .none })

/-- R203: `SCH.REMAIN` gives the signed distance to the earliest event, `2^63 - 1` for an empty queue, and changes no state
(the result field is the model's, assumption 11). -/
def Obligations.RemainingCycles : Prop :=
  decode (.command 0x0300000000000000#64) = some .schRemain
    ∧ (∀ s : State, s.sched.queue = [] → exec .schRemain s = .next { s with result := .count (2 ^ 63 - 1) })
    ∧ ∀ (s : State) (e : Event), s.sched.Sound s.cfg.qcap → earliest s.sched.queue e →
      exec .schRemain s = .next { s with result := .count ((e.target : Int) - s.sched.now) }

/-- R205, R206: `SCH.ADVANCE` adds to the clock and does nothing else, or is refused when the clock would leave its width;
`SCH.NOW` gives the clock. -/
def Obligations.ClockOperations : Prop :=
  (∀ n : BitVec 48, decode (.command (0x05#8 ++ (0#8 ++ n))) = some (.schAdvance n))
    ∧ (∀ (n : BitVec 48) (s : State), s.sched.now + n.toNat ≤ 2 ^ 64 - 1 →
      exec (.schAdvance n) s = .next { s with sched := { s.sched with now := s.sched.now + n.toNat }, result := .none })
    ∧ (∀ (n : BitVec 48) (s : State), 2 ^ 64 - 1 < s.sched.now + n.toNat →
      exec (.schAdvance n) s = .refused .clockOverflow)
    ∧ decode (.command 0x0600000000000000#64) = some .schNow
    ∧ ∀ s : State, exec .schNow s = .next { s with result := .clock s.sched.now }

/-- R204, R207: `SCH.STEP` with an empty queue changes nothing; with an external event earliest it takes that event out, moves
the clock to its target if that lies ahead, and calls `EXT_CALLBACK` with its lateness. What the callback then does is the
environment's answer for tag, lateness and its own state (assumption 6): nothing; one of the four resets, which any callback may
issue as it may any top-level operation (R207, assumption 7); a store of a byte. -/
def Obligations.StepExternal : Prop :=
  (∀ s : State, s.sched.queue = [] → exec .schStep s = .next { s with result := .none })
    ∧ ∀ (s : State) (e : Event), s.sched.Sound s.cfg.qcap → earliest s.sched.queue e → e.tag ≠ 0 → 1 < s.cfg.fuel →
      (s.env.response e.tag (lateness s e) = [] → exec .schStep s = .next { calledState s e with result := .none })
        ∧ (∀ i ∈ [Instr.schReset, .dmaReset, .ppuReset, .sysReset],
          s.env.response e.tag (lateness s e) = [.issue (encode i)] → exec .schStep s = exec i (calledState s e))
        ∧ ∀ (a : Word) (v : Byte), s.env.response e.tag (lateness s e) = [.store a v] → unmapped a →
          ∃ m : Mem,
            exec .schStep s =
                .next { calledState s e with env := { (calledState s e).env with mem := m }, result := .none }
              ∧ m.read a.toNat = v ∧ ∀ b, b ≠ a.toNat → m.read b = s.env.mem.read b

/-- R204, R207: `SCH.STEP` with the phase event earliest is `PPU.PHASE` with its lateness, the event taken out and the clock
moved to its target if that lies ahead. -/
def Obligations.StepPhase : Prop :=
  ∀ (s : State) (e : Event), s.sched.Sound s.cfg.qcap → earliest s.sched.queue e → e.tag = 0 →
    max s.sched.now e.target - e.target < 2 ^ 48 →
    exec .schStep s =
      exec (.ppuPhase (BitVec.ofNat 48 (max s.sched.now e.target - e.target)))
        { s with sched := { s.sched with queue := s.sched.queue.erase e, now := max s.sched.now e.target } }

/-- R209: the lateness an external event reports is the time from its `Add` to its firing less its delay. -/
def Obligations.LatenessLaw : Prop :=
  ∀ (s t s' : State) (tag : Byte) (delay : BitVec 48), exec (.schAdd tag delay) s = .next t →
    s'.sched.Sound s'.cfg.qcap → earliest s'.sched.queue ⟨s.sched.now + delay.toNat, s.sched.nextSeq, tag⟩ →
    s'.env.response tag (s'.sched.now - (s.sched.now + delay.toNat)) = [] → 0 < s'.cfg.fuel →
    ∃ (t' : State) (late : Nat), exec .schStep s' = .next t'
      ∧ t'.env.extLog = s'.env.extLog ++ [⟨tag, late, t'.sched.now⟩]
      ∧ (late : Int) = (t'.sched.now : Int) - s.sched.now - delay.toNat

/-- R211, R23: the clock never goes back, whatever a step runs, `SCH.RESET` and `SYS.RESET` apart, issued at top level or by a
callback. R522, R564: no step takes an interrupt or a callback off its log, none changes the parameters or what callbacks do,
and each takes its own act off the list (the logs, the parameters in State, the list and the rows are the model's: assumptions
1, 4, 6, 14). -/
def Obligations.StepMonotone : Prop :=
  (∀ s t : State, step s = .next t →
      (∀ (r : Request) (rest : List EnvAct), s.env.requests = .issue r :: rest →
        decode r ≠ some .schReset ∧ decode r ≠ some .sysReset) →
      neverIssued s .schReset → neverIssued s .sysReset → s.sched.now ≤ t.sched.now)
    ∧ ∀ s t : State, step s = .next t →
      s.env.irqLog <+: t.env.irqLog ∧ s.env.extLog <+: t.env.extLog ∧ t.cfg = s.cfg
        ∧ t.env.requests = s.env.requests.tail ∧ t.env.callbacks = s.env.callbacks

/-- R24, R26 (a) to (c): every step keeps the queue in key order, its handles unique and already given out, its size at most
`QCAP`, and clock, targets and handle counter in their widths. -/
def Obligations.SchedulerInvariant : Prop :=
  ∀ s t : State, s.sched.Sound s.cfg.qcap → step s = .next t → t.sched.Sound t.cfg.qcap

/-! ### The DMA controller -/

/-- R233, R234: `DMA.TRYSTART`: active at once when nothing is runnable; preempting, with the trigger set, an active channel of
lower priority; else queued. `DMA.SELECT` makes the highest-priority runnable channel active, none when there is none. Nothing
else changes, the latches included. -/
def Obligations.ArbitrationSteps : Prop :=
  (∀ c : Chan, decode (.command (0x18#8 ++ (BitVec.ofNat 8 c.val ++ 0#48))) = some (.dmaTrystart c))
    ∧ (∀ (c : Chan) (s : State), s.dma.runnable = 0 →
      exec (.dmaTrystart c) s =
        .next { s with dma := { s.dma with active := some c, runnable := s.dma.runnable ||| bit c }, result := .none })
    ∧ (∀ (c a : Chan) (s : State), s.dma.runnable ≠ 0 → s.dma.active = some a → c < a →
      exec (.dmaTrystart c) s =
        .next
          { s with
            dma := { s.dma with earlyExit := true, active := some c, runnable := s.dma.runnable ||| bit c }
            result := .none })
    ∧ (∀ (c : Chan) (s : State), s.dma.runnable ≠ 0 → (∀ a, s.dma.active = some a → a ≤ c) →
      exec (.dmaTrystart c) s =
        .next { s with dma := { s.dma with runnable := s.dma.runnable ||| bit c }, result := .none })
    ∧ decode (.command 0x1900000000000000#64) = some .dmaSelect
    ∧ (∀ s : State, s.dma.runnable = 0 →
      exec .dmaSelect s = .next { s with dma := { s.dma with active := none }, result := .none })
    ∧ ∀ (s : State) (c : Chan), s.dma.runnable.getLsbD c.val = true → (∀ d, d < c → s.dma.runnable.getLsbD d.val = false) →
      exec .dmaSelect s = .next { s with dma := { s.dma with active := some c }, result := .none }

/-- R235: `DMA.REQUEST` of a set occasion starts the set's highest-priority member, makes the whole set runnable, then serves;
of a FIFO occasion it starts the matching ones of channels 1 and 2, in that order, then serves. (The result field, the
model's own, is set at the end: assumption 11.) -/
def Obligations.RequestArbitrates : Prop :=
  (∀ occ : Occasion, decode (.command (0x10#8 ++ (occasionCode occ ++ 0#48))) = some (.dmaRequest occ))
    ∧ (∀ (occ : Occasion) (s : State) (S : ChanSet), occasionSetIs occ s S →
      (S = 0 → exec (.dmaRequest occ) s = exec .dmaService s)
        ∧ ∀ (c : Chan) (u : State), firstOf S = some c → exec (.dmaTrystart c) s = .next u →
          exec (.dmaRequest occ) s =
            exec .dmaService { u with dma := { u.dma with runnable := u.dma.runnable ||| S }, result := s.result })
    ∧ ∀ (occ : Occasion) (s : State) (addr : Word), fifoAddressIs occ addr →
      (¬fifoMatch s addr 1 → ¬fifoMatch s addr 2 → exec (.dmaRequest occ) s = exec .dmaService s)
        ∧ (∀ u, fifoMatch s addr 1 → ¬fifoMatch s addr 2 → exec (.dmaTrystart 1) s = .next u →
          exec (.dmaRequest occ) s = exec .dmaService { u with result := s.result })
        ∧ (∀ u, ¬fifoMatch s addr 1 → fifoMatch s addr 2 → exec (.dmaTrystart 2) s = .next u →
          exec (.dmaRequest occ) s = exec .dmaService { u with result := s.result })
        ∧ ∀ u v, fifoMatch s addr 1 → fifoMatch s addr 2 → exec (.dmaTrystart 1) s = .next u →
          exec (.dmaTrystart 2) u = .next v → exec (.dmaRequest occ) s = exec .dmaService { v with result := s.result }

/-- R236: `DMA.SERVICE` does nothing while a service loop is on the call stack, and nothing when no channel is active. -/
def Obligations.ServiceGuard : Prop :=
  (∀ s : State, s.dma.busy = true → 0 < s.cfg.fuel → exec .dmaService s = .next { s with result := .none })
    ∧ ∀ s : State, s.dma.busy = false → s.dma.active = none → 1 < s.cfg.fuel →
      exec .dmaService s = .next { s with result := .none }

/-- R237: `DMA.RUN` on a transfer that nothing disturbs moves every remaining unit, one after the other, each read (or
open-bus value) before its write, and then is `DMA.COMPLETE`. That the whole access goes where its first byte's address goes is
the model's choice for a misaligned Word at a register's edge (assumption 15), that memory keeps what is stored ENV0's
(R94, assumption 2). -/
def Obligations.RunTransfers : Prop :=
  ∀ (s : State) (c : Chan), s.dma.active = some c → s.dma.earlyExit = false → Plain s c →
    s.dma.ch[c].latRem < s.cfg.fuel →
    ∃ t : State, exec (.dmaComplete c) (movedState s c) = .next t ∧ exec .dmaRun s = .next t

/-- R237, the frame: such a transfer stores to its destination units and to no other byte of memory, and leaves the queue,
the handle counter, the PPU, the framebuffer and the other channels alone. It rests on the model's choice for a misaligned Word
at a register's edge (assumption 15) and on ENV0's memory (R94, assumption 2). -/
def Obligations.TransferFrame : Prop :=
  ∀ (s t : State) (c : Chan), s.dma.active = some c → s.dma.earlyExit = false → Plain s c →
    s.dma.ch[c].latRem < s.cfg.fuel → exec .dmaRun s = .next t →
    (∀ a : Nat,
        (∀ k, k < s.dma.ch[c].latRem → ∀ i, i < (if (shapeOf s.dma.ch[c]).word then 4 else 2) →
          byteAddr (s.dma.ch[c].latDst + BitVec.ofNat 32 k * (shapeOf s.dma.ch[c]).dstDelta) i ≠ a) →
        t.env.mem.read a = s.env.mem.read a)
      ∧ t.sched.queue = s.sched.queue ∧ t.sched.nextSeq = s.sched.nextSeq ∧ t.timing = s.timing ∧ t.regs = s.regs
      ∧ t.fb = s.fb ∧ (∀ d, d ≠ c → t.dma.ch[d] = s.dma.ch[d]) ∧ t.env.extLog = s.env.extLog

/-- R236, R237, R238: `DMA.SERVICE` with one runnable channel whose transfer nothing disturbs runs it to its completion and
ends with nothing active. `Plain` rests on the model's choice for a misaligned Word at a register's edge (assumption 15), the
moved state on ENV0's memory (R94, assumption 2). -/
def Obligations.ServiceTransfers : Prop :=
  ∀ (s : State) (c : Chan), s.dma.busy = false → s.dma.active = some c → s.dma.runnable = bit c →
    s.dma.earlyExit = false → Plain s c → s.dma.ch[c].latRem + 2 < s.cfg.fuel →
    ∃ t : State,
      exec (.dmaComplete c) (movedState { s with dma := { s.dma with busy := true } } c) = .next t
        ∧ t.dma.active = none
        ∧ exec .dmaService s = .next { t with dma := { t.dma with busy := false } }

/-- R235, R236, R237: `DMA.REQUEST` at top level of an occasion, a set or a FIFO one, with one eligible channel whose transfer
nothing disturbs moves its data before it returns. `Plain` rests on the model's choice for a misaligned Word at a register's
edge (assumption 15), the moved state on ENV0's memory (R94, assumption 2). -/
def Obligations.RequestTransfers : Prop :=
  ∀ (occ : Occasion) (s : State) (c : Chan), s.dma.Quiet → s.dma.earlyExit = false →
    (occasionSetIs occ s (bit c)
      ∨ ∃ addr, fifoAddressIs occ addr ∧ (c = 1 ∨ c = 2) ∧ ∀ d : Chan, d = 1 ∨ d = 2 → (fifoMatch s addr d ↔ d = c)) →
    Plain s c → s.dma.ch[c].latRem + 2 < s.cfg.fuel →
    ∃ t : State,
      exec (.dmaComplete c)
          (movedState { s with dma := { s.dma with active := some c, runnable := bit c, busy := true } } c) = .next t
        ∧ exec (.dmaRequest occ) s = .next { t with dma := { t.dma with busy := false } }

/-- R237, R243: a `Run` that finds the trigger set, no event being due, clears it, selects the highest-priority runnable channel
and ends: every latch is as it was. -/
def Obligations.EarlyExitKeepsLatch : Prop :=
  ∀ (s : State) (c : Chan), s.dma.active = some c → s.dma.ch[c].latRem ≠ 0 → s.dma.earlyExit = true →
    (∀ e ∈ s.sched.queue, s.sched.now < e.target) → 0 < s.cfg.fuel →
    exec .dmaRun s =
      .next { s with dma := { s.dma with earlyExit := false, active := firstOf s.dma.runnable }, result := .none }

/-- R238: `DMA.COMPLETE`: the runnable bit goes, the interrupt is raised if configured, a repeating channel reloads its length
(and its destination in Reload mode, FIFO mode apart), any other is disabled and leaves the occasion sets; then selection. -/
def Obligations.CompleteEffect : Prop :=
  (∀ c : Chan, decode (.command (0x1C#8 ++ (BitVec.ofNat 8 c.val ++ 0#48))) = some (.dmaComplete c))
    ∧ ∀ (s : State) (c : Chan) (ch : Channel) (r : ChanSet) (log : List IrqEntry), ch = s.dma.ch[c] →
      r = without s.dma.runnable c →
      log = s.env.irqLog ++ (if ch.ctrl.getLsbD 14 then [⟨.dma, c.val, s.sched.now⟩] else []) →
      (ch.ctrl.getLsbD 9 = true →
        exec (.dmaComplete c) s =
          .next
            { s with
              dma :=
                { s.dma with
                  runnable := r
                  active := firstOf r
                  ch :=
                    s.dma.ch.set c
                      { ch with
                        latRem := if ch.fifoMode then 4 else expanded c ch.cfgLen
                        latDst :=
                          if ch.fifoMode = false ∧ ch.ctrl.extractLsb' 5 2 = 3 then
                            aligned (ch.ctrl.getLsbD 10) ch.cfgDst
                          else ch.latDst } }
              env := { s.env with irqLog := log }
              result := .none })
        ∧ (ch.ctrl.getLsbD 9 = false →
          exec (.dmaComplete c) s =
            .next
              { s with
                dma :=
                  { s.dma with
                    runnable := r
                    active := firstOf r
                    hblank := without s.dma.hblank c
                    vblank := without s.dma.vblank c
                    video := without s.dma.video c
                    ch := s.dma.ch.set c { ch with ctrl := ch.ctrl &&& 0x7FFF#16 } }
                env := { s.env with irqLog := log }
                result := .none })

/-- R239, R240: `DMA.DISABLE`: the enable bit, the three memberships and the runnable bit go, the trigger is set if the channel
was active, then selection; the latch stays and no interrupt is raised. `DMA.STOPVIDEO` disables channel 3 so when it is enabled
with Special timing, and does nothing otherwise. -/
def Obligations.DisableEffect : Prop :=
  (∀ c : Chan, decode (.command (0x1D#8 ++ (BitVec.ofNat 8 c.val ++ 0#48))) = some (.dmaDisable c))
    ∧ (∀ (s : State) (c : Chan),
      exec (.dmaDisable c) s =
        .next
          { s with
            dma :=
              { s.dma with
                hblank := without s.dma.hblank c
                vblank := without s.dma.vblank c
                video := without s.dma.video c
                runnable := without s.dma.runnable c
                active := firstOf (without s.dma.runnable c)
                earlyExit := if s.dma.active = some c then true else s.dma.earlyExit
                ch := s.dma.ch.set c { s.dma.ch[c] with ctrl := s.dma.ch[c].ctrl &&& 0x7FFF#16 } }
            result := .none })
    ∧ decode (.command 0x1100000000000000#64) = some .dmaStopvideo
    ∧ (∀ s : State, s.dma.ch[(3 : Chan)].ctrl.getLsbD 15 = true → s.dma.ch[(3 : Chan)].ctrl.extractLsb' 12 2 = 3 →
      ∃ t : State, exec (.dmaDisable 3) s = .next t ∧ exec .dmaStopvideo s = .next t)
    ∧ ∀ s : State, ¬(s.dma.ch[(3 : Chan)].ctrl.getLsbD 15 = true ∧ s.dma.ch[(3 : Chan)].ctrl.extractLsb' 12 2 = 3) →
      exec .dmaStopvideo s = .next { s with result := .none }

/-- R241: `DMA.ONWRITE`: membership is cleared; a disabled channel is then disabled in full; an enabled one derives its
membership afresh, and if it was not enabled before it arms, an Immediate one being started and served at once. -/
def Obligations.OnWriteEffect : Prop :=
  (∀ (c : Chan) (was : Bool),
      decode (.command (0x1E#8 ++ (BitVec.ofNat 8 c.val ++ (if was then 1#48 else 0#48)))) = some (.dmaOnwrite c was))
    ∧ ∀ (s : State) (c : Chan) (was : Bool),
      (s.dma.ch[c].ctrl.getLsbD 15 = false →
          ∃ t : State, exec (.dmaDisable c) (outOfSets s c) = .next t ∧ exec (.dmaOnwrite c was) s = .next t)
        ∧ (s.dma.ch[c].ctrl.getLsbD 15 = true → was = true →
          exec (.dmaOnwrite c was) s = .next { rederived s c with result := .none })
        ∧ (s.dma.ch[c].ctrl.getLsbD 15 = true → was = false → s.dma.ch[c].ctrl.extractLsb' 12 2 ≠ 0 →
          exec (.dmaOnwrite c was) s =
            .next { withChan (rederived s c) c (armed c s.dma.ch[c]) with result := .none })
        ∧ ∀ u : State, s.dma.ch[c].ctrl.getLsbD 15 = true → was = false → s.dma.ch[c].ctrl.extractLsb' 12 2 = 0 →
          exec (.dmaTrystart c) (withChan (rederived s c) c (armed c s.dma.ch[c])) = .next u →
          exec (.dmaOnwrite c was) s = exec .dmaService { u with result := s.result }

/-- R472: a write of either byte of a control half-word (DMA0CNT_H to DMA3CNT_H) replaces that byte under the write mask, then
is `DMA.ONWRITE` with the enable bit from before; where that arms without Immediate timing it completes so. -/
def Obligations.ControlWrite : Prop :=
  (∀ (s : State) (c : Chan) (o : Nat) (v : Byte), o < 2 →
      exec (cntHRow c (.write o v)) s =
        exec (.dmaOnwrite c (s.dma.ch[c].ctrl.getLsbD 15))
          (withChan s c { s.dma.ch[c] with ctrl := controlAfter c s.dma.ch[c].ctrl o v }))
    ∧ ∀ (s : State) (c : Chan) (v : Byte) (x : Channel),
      x = { s.dma.ch[c] with ctrl := controlAfter c s.dma.ch[c].ctrl 1 v } → s.dma.ch[c].ctrl.getLsbD 15 = false →
      v.getLsbD 7 = true → v.extractLsb' 4 2 ≠ 0 →
      exec (cntHRow c (.write 1 v)) s =
        .next { withChan (rederived (withChan s c x) c) c (armed c x) with result := .none }

/-- R472, R241, R236 to R238: the write that takes a channel's enable from 0 to 1 with Immediate timing, on a quiet controller
and undisturbed, moves the whole transfer before it returns: memory, clock and open bus are where the units leave them, the
completion interrupt is raised once if configured, a non-repeating channel reads back disabled, and the controller is quiet. The memory's values are ENV0's (R94, assumption 2), and
`Plain` rests on the model's choice for a misaligned Word at a register's edge (assumption 15). -/
def Obligations.ImmediateWriteTransfers : Prop :=
  ∀ (s : State) (c : Chan) (v : Byte) (x : Channel) (m : Moving), s.dma.Quiet → s.dma.earlyExit = false →
    s.dma.ch[c].ctrl.getLsbD 15 = false → v.getLsbD 7 = true → v.extractLsb' 4 2 = 0 →
    x = armed c { s.dma.ch[c] with ctrl := controlAfter c s.dma.ch[c].ctrl 1 v } → m = endOf (withChan s c x) c →
    Plain (withChan s c x) c → x.latRem + 2 < s.cfg.fuel →
    ∃ t : State, exec (cntHRow c (.write 1 v)) s = .next t
      ∧ t.env =
        { s.env with
          mem := m.mem
          irqLog := s.env.irqLog ++ (if x.ctrl.getLsbD 14 then [⟨.dma, c.val, m.now⟩] else []) }
      ∧ t.sched = { s.sched with now := m.now } ∧ t.dma.openBus = m.openBus
      ∧ t.dma.ch[c].ctrl = (if x.ctrl.getLsbD 9 then x.ctrl else x.ctrl &&& 0x7FFF#16)
      ∧ (∀ d, d ≠ c → t.dma.ch[d] = s.dma.ch[d]) ∧ t.dma.Quiet ∧ t.dma.earlyExit = false
      ∧ t.regs = s.regs ∧ t.timing = s.timing ∧ t.fb = s.fb ∧ t.cfg = s.cfg

/-- R470, R471, R244: a write of a byte of DMAcSAD, DMAcDAD or DMAcCNT_L (all channels) stores that byte under the channel's
mask and changes nothing else: no latch, no set, no transfer. -/
def Obligations.AddressLengthWrite : Prop :=
  (∀ (s : State) (c : Chan) (o : Nat) (v : Byte), o < 4 →
      exec (sadRow c (.write o v)) s =
        .next
          { withChan s c
              { s.dma.ch[c] with
                cfgSrc := setWordByte s.dma.ch[c].cfgSrc o v &&& (if c = 0 then 0x07FFFFFF#32 else 0x0FFFFFFF#32) } with
            result := .none })
    ∧ (∀ (s : State) (c : Chan) (o : Nat) (v : Byte), o < 4 →
      exec (dadRow c (.write o v)) s =
        .next
          { withChan s c
              { s.dma.ch[c] with
                cfgDst := setWordByte s.dma.ch[c].cfgDst o v &&& (if c = 3 then 0x0FFFFFFF#32 else 0x07FFFFFF#32) } with
            result := .none })
    ∧ (∀ (s : State) (c : Chan) (o : Nat) (v : Byte), o < 2 →
      exec (cntLRow c (.write o v)) s =
        .next
          { withChan s c
              { s.dma.ch[c] with
                cfgLen := setHalfByte s.dma.ch[c].cfgLen o v &&& (if c = 3 then 0xFFFF#16 else 0x3FFF#16) } with
            result := .none })
    ∧ ∀ (s : State) (c : Chan) (v : Word), ∃ s1 s2 s3 s4 : State,
      exec (sadRow c (.write 0 (v.extractLsb' 0 8))) s = .next s1
        ∧ exec (sadRow c (.write 1 (v.extractLsb' 8 8))) s1 = .next s2
        ∧ exec (sadRow c (.write 2 (v.extractLsb' 16 8))) s2 = .next s3
        ∧ exec (sadRow c (.write 3 (v.extractLsb' 24 8))) s3 = .next s4
        ∧ s4.dma.ch[c].cfgSrc = v &&& (if c = 0 then 0x07FFFFFF#32 else 0x0FFFFFFF#32)

/-- R42 (a) to (f): every step keeps the occasion sets equal to what the control registers say, runnable channels enabled, the
active channel the highest-priority runnable one, and leaves nothing runnable, nothing active, no service loop. -/
def Obligations.DmaInvariant : Prop :=
  ∀ s t : State, s.dma.Sound → s.dma.Quiet → step s = .next t → t.dma.Sound ∧ t.dma.Quiet

/-- R31 to R36, R56, R58, R62, R80: every step keeps the registers masked, no more than 0x10000 units remaining, only channels 1
and 2 in FIFO mode, the framebuffer 160 rows of 240 pixels, and memory in its canonical form (the form is the model's). -/
def Obligations.StorageInvariant : Prop :=
  ∀ s t : State, s.dma.Masked → s.regs.Masked → FbShape s.fb → s.env.mem.wf = true → step s = .next t →
    t.dma.Masked ∧ t.regs.Masked ∧ FbShape t.fb ∧ t.env.mem.wf = true

/-! ### The registers -/

/-- R440, R442: the readable registers: DISPCNT, DISPSTAT, VCOUNT, BG0CNT to BG3CNT, WININ, WINOUT, BLDCNT, BLDALPHA, DMA0CNT_H
to DMA3CNT_H. A read gives the byte and changes nothing (the result field apart, assumption 11). The other 38 registers are
write-only: every byte reads 0 and the read changes nothing. -/
def Obligations.RegisterReads : Prop :=
  (∀ (s : State) (o : Nat), o < 2 →
    exec (.dispcnt (.read o)) s = .next { s with result := .byte (halfByte s.regs.dispcnt o) }
      ∧ exec (.dispstat (.read o)) s =
        .next
          { s with
            result :=
              .byte
                (if o = 0 then
                  0#2 ++ (BitVec.ofBool s.timing.vcountIrqEn ++ (BitVec.ofBool s.timing.hblankIrqEn
                    ++ (BitVec.ofBool s.timing.vblankIrqEn ++ (BitVec.ofBool s.timing.vcountFlag
                      ++ (BitVec.ofBool s.timing.hblankFlag ++ BitVec.ofBool s.timing.vblankFlag)))))
                else s.timing.vcountTarget) }
      ∧ exec (.vcount (.read o)) s =
        .next { s with result := .byte (if o = 0 then BitVec.ofNat 8 s.timing.scanline else 0) }
      ∧ (∀ b, exec (bgcntRow b (.read o)) s = .next { s with result := .byte (halfByte s.regs.bgcnt[b] o) })
      ∧ exec (.winin (.read o)) s = .next { s with result := .byte (halfByte s.regs.winin o) }
      ∧ exec (.winout (.read o)) s = .next { s with result := .byte (halfByte s.regs.winout o) }
      ∧ exec (.bldcnt (.read o)) s = .next { s with result := .byte (halfByte s.regs.bldcnt o) }
      ∧ exec (.bldalpha (.read o)) s = .next { s with result := .byte (halfByte s.regs.bldalpha o) }
      ∧ ∀ c, exec (cntHRow c (.read o)) s = .next { s with result := .byte (halfByte s.dma.ch[c].ctrl o) })
    ∧ (∀ row ∈ writeOnlyScrollAffine, ∀ (o : Nat) (s : State), o < 2 →
      exec (row (.read o)) s = .next { s with result := .byte 0 })
    ∧ (∀ row ∈ writeOnlyHalves, ∀ (o : Nat) (s : State), o < 2 →
      exec (row (.read o)) s = .next { s with result := .byte 0 })
    ∧ ∀ row ∈ writeOnlyWords, ∀ (o : Nat) (s : State), o < 4 →
      exec (row (.read o)) s = .next { s with result := .byte 0 }

/-- R441, R442, R450 to R454, R459 to R462: a write of a byte of a PPU register other than a reference point (DISPCNT, DISPSTAT,
VCOUNT, BG0CNT to BG3CNT, WININ, WINOUT, BLDCNT, BLDALPHA, BG0HOFS to BG3VOFS, BG2PA to BG3PD, WIN0H to WIN1V, MOSAIC, BLDY)
stores it under the write mask and changes nothing else. -/
def Obligations.PpuRegisterWrites : Prop :=
  ∀ (s : State) (o : Nat) (v : Byte), o < 2 →
    exec (.dispcnt (.write o v)) s =
        .next { s with regs := { s.regs with dispcnt := setHalfByte s.regs.dispcnt o v }, result := .none }
      ∧ exec (.dispstat (.write o v)) s =
        .next
          { s with
            timing :=
              if o = 0 then
                { s.timing with
                  vblankIrqEn := v.getLsbD 3
                  hblankIrqEn := v.getLsbD 4
                  vcountIrqEn := v.getLsbD 5 }
              else { s.timing with vcountTarget := v }
            result := .none }
      ∧ exec (.vcount (.write o v)) s = .next { s with result := .none }
      ∧ (∀ b,
        exec (bgcntRow b (.write o v)) s =
          .next
            { s with
              regs := { s.regs with bgcnt := s.regs.bgcnt.set b (setHalfByte s.regs.bgcnt[b] o v) }
              result := .none })
      ∧ exec (.winin (.write o v)) s =
        .next { s with regs := { s.regs with winin := setHalfByte s.regs.winin o v &&& 0x3F3F#16 }, result := .none }
      ∧ exec (.winout (.write o v)) s =
        .next { s with regs := { s.regs with winout := setHalfByte s.regs.winout o v &&& 0x3F3F#16 }, result := .none }
      ∧ exec (.bldcnt (.write o v)) s =
        .next { s with regs := { s.regs with bldcnt := setHalfByte s.regs.bldcnt o v &&& 0x3FFF#16 }, result := .none }
      ∧ exec (.bldalpha (.write o v)) s =
        .next { s with regs := { s.regs with bldalpha := setHalfByte s.regs.bldalpha o v &&& 0x1F1F#16 }, result := .none }
      ∧ (∀ b,
        exec (bghofsRow b (.write o v)) s =
          .next
            { s with
              regs :=
                { s.regs with
                  bghofs :=
                    s.regs.bghofs.set b ((setHalfByte (s.regs.bghofs[b].setWidth 16) o v).extractLsb' 0 9) }
              result := .none })
      ∧ (∀ b,
        exec (bgvofsRow b (.write o v)) s =
          .next
            { s with
              regs :=
                { s.regs with
                  bgvofs :=
                    s.regs.bgvofs.set b ((setHalfByte (s.regs.bgvofs[b].setWidth 16) o v).extractLsb' 0 9) }
              result := .none })
      ∧ (∀ k,
        exec (bgpaRow k (.write o v)) s =
            .next
              { s with regs := { s.regs with bgpa := s.regs.bgpa.set k (setHalfByte s.regs.bgpa[k] o v) }, result := .none }
          ∧ exec (bgpbRow k (.write o v)) s =
            .next
              { s with regs := { s.regs with bgpb := s.regs.bgpb.set k (setHalfByte s.regs.bgpb[k] o v) }, result := .none }
          ∧ exec (bgpcRow k (.write o v)) s =
            .next
              { s with regs := { s.regs with bgpc := s.regs.bgpc.set k (setHalfByte s.regs.bgpc[k] o v) }, result := .none }
          ∧ exec (bgpdRow k (.write o v)) s =
            .next
              { s with regs := { s.regs with bgpd := s.regs.bgpd.set k (setHalfByte s.regs.bgpd[k] o v) }, result := .none }
          ∧ exec (winhRow k (.write o v)) s =
            .next
              { s with regs := { s.regs with winh := s.regs.winh.set k (setHalfByte s.regs.winh[k] o v) }, result := .none }
          ∧ exec (winvRow k (.write o v)) s =
            .next
              { s with regs := { s.regs with winv := s.regs.winv.set k (setHalfByte s.regs.winv[k] o v) }, result := .none })
      ∧ exec (.mosaic (.write o v)) s =
        .next { s with regs := { s.regs with mosaic := setHalfByte s.regs.mosaic o v }, result := .none }
      ∧ exec (.bldy (.write o v)) s =
        .next { s with regs := { s.regs with bldy := if o = 0 then v &&& 0x1F#8 else s.regs.bldy &&& 0x1F#8 }, result := .none }

/-- R458, R54: a write of any byte of BG2X, BG2Y, BG3X or BG3Y stores it (bits 31:28 dropped) and restarts the running reference
point from the register's new value, sign-extended from 28 bits; nothing else changes. -/
def Obligations.ReferencePointWrites : Prop :=
  ∀ (s : State) (k : Fin 2) (o : Nat) (v : Byte), o < 4 →
    (∀ n : BitVec 28, n = (setWordByte (s.regs.bgx[k].setWidth 32) o v).extractLsb' 0 28 →
        exec (bgxRow k (.write o v)) s =
          .next
            { s with
              regs := { s.regs with bgx := s.regs.bgx.set k n, refX := s.regs.refX.set k n.toInt }
              result := .none })
      ∧ ∀ n : BitVec 28, n = (setWordByte (s.regs.bgy[k].setWidth 32) o v).extractLsb' 0 28 →
        exec (bgyRow k (.write o v)) s =
          .next
            { s with
              regs := { s.regs with bgy := s.regs.bgy.set k n, refY := s.regs.refY.set k n.toInt }
              result := .none }

/-- R444: byte 0 then byte 1 of any read-write register written through `IO.WRITE` and read back through `IO.READ` give the
written half-word under the write mask, DISPSTAT's live flags or-ed in; for a DMA control register, when the second write
does not start a transfer. -/
def Obligations.RoundTrip : Prop :=
  ∀ p ∈ readWriteRegs, ∀ (v0 v1 : Byte) (s : State),
    (∀ c, p.1 = .dmaCntH c →
      s.dma.ch[c].ctrl.getLsbD 15 = true ∨ v1.getLsbD 7 = false ∨ v1.extractLsb' 4 2 ≠ 0) →
    ∃ (s1 s2 : State) (b0 b1 : Byte),
      exec (.ioWrite (p.1.addr 0) v0) s = .next s1 ∧ exec (.ioWrite (p.1.addr 1) v1) s1 = .next s2
        ∧ exec (.ioRead (p.1.addr 0)) s2 = .next { s2 with result := .byte b0 }
        ∧ exec (.ioRead (p.1.addr 1)) s2 = .next { s2 with result := .byte b1 }
        ∧ b1 ++ b0 =
          ((v1 ++ v0 : Half) &&& p.2)
            ||| (if p.1 = .dispstat then
                  0#13 ++ (BitVec.ofBool s.timing.vcountFlag
                    ++ (BitVec.ofBool s.timing.hblankFlag ++ BitVec.ofBool s.timing.vblankFlag))
                else 0#16)

/-- R441, R103, R244: the frame of a register write that starts no transfer, for every byte of all 53 registers: no byte of memory
changes, nor the scheduler, the framebuffer, the logs, the parameters, the position in the frame, the status flags, the open-bus
latch and, BG2X to BG3Y apart, the running reference points; every other register and every other byte of the written one is as
before; a PPU register touches nothing of the DMA controller, a DMA register nothing of the PPU, and only its own control
register a channel's latch. -/
def Obligations.RegisterWriteFrame : Prop :=
  ∀ (r : Reg) (o : Nat) (v : Byte) (s t : State), o < r.width →
    (∀ c, r = .dmaCntH c → s.dma.ch[c].ctrl.getLsbD 15 = true ∨ o = 0 ∨ v.getLsbD 7 = false ∨ v.extractLsb' 4 2 ≠ 0) →
    exec (r.instr (.write o v)) s = .next t →
    (∀ a, t.env.mem.read a = s.env.mem.read a) ∧ t.env = s.env ∧ t.sched = s.sched ∧ t.fb = s.fb ∧ t.cfg = s.cfg
      ∧ t.timing.phase = s.timing.phase ∧ t.timing.scanline = s.timing.scanline
      ∧ t.timing.vblankFlag = s.timing.vblankFlag ∧ t.timing.hblankFlag = s.timing.hblankFlag
      ∧ t.timing.vcountFlag = s.timing.vcountFlag ∧ t.timing.ppuEvent = s.timing.ppuEvent
      ∧ t.dma.openBus = s.dma.openBus ∧ t.dma.busy = s.dma.busy
      ∧ (∀ k, r ≠ .bgx k → t.regs.refX[k] = s.regs.refX[k]) ∧ (∀ k, r ≠ .bgy k → t.regs.refY[k] = s.regs.refY[k])
      ∧ (∀ r', r' ≠ r → stored r' t = stored r' s)
      ∧ (∀ p, p < r.width → p ≠ o → byteOf (stored r t) p = byteOf (stored r s &&& writeMask r) p)
      ∧ (r.isDma = false → t.dma = s.dma) ∧ (r.isDma = true → t.regs = s.regs ∧ t.timing = s.timing)
      ∧ ∀ c, r ≠ .dmaCntH c →
        t.dma.ch[c].latSrc = s.dma.ch[c].latSrc ∧ t.dma.ch[c].latDst = s.dma.ch[c].latDst
          ∧ t.dma.ch[c].latRem = s.dma.ch[c].latRem ∧ t.dma.ch[c].srcModeEff = s.dma.ch[c].srcModeEff
          ∧ t.dma.ch[c].fifoMode = s.dma.ch[c].fifoMode

/-! ### The phase machine -/

/-- R294: `PPU.VCOUNT` sets the flag to whether the scanline is the target, and returns whether that is new and enabled. -/
def Obligations.VerticalCounterCheck : Prop :=
  decode (.command 0x2100000000000000#64) = some .ppuVcount
    ∧ ∀ s : State,
      exec .ppuVcount s =
        .next
          { s with
            timing := { s.timing with vcountFlag := decide (s.timing.scanline = s.timing.vcountTarget.toNat) }
            result :=
              .flag
                (decide
                  (s.timing.scanline = s.timing.vcountTarget.toNat ∧ s.timing.vcountFlag = false
                    ∧ s.timing.vcountIrqEn = true)) }

/-- R293, R291: `PPU.PHASE` at the end of Visible renders the row; at the end of Hblank before line 160 it starts the next line.
Neither makes a DMA request. -/
def Obligations.PhaseVisibleLine : Prop :=
  (∀ (s : State) (late : BitVec 48), s.timing.phase = .visible → PhaseReady s late.toNat 46 →
      ∃ u r : State, exec .ppuRender s = .next r
        ∧ PhaseResult s u late.toNat .preHblankWindow 46 s.timing.scanline s.timing.vblankFlag s.timing.hblankFlag false false
        ∧ u.regs = r.regs ∧ u.fb = r.fb ∧ u.dma = s.dma
        ∧ exec (.ppuPhase late) s = .next { u with result := .none })
    ∧ ∀ (s : State) (late : BitVec 48), s.timing.phase = .hblank → s.timing.scanline + 1 ≠ 160 →
      PhaseReady s late.toNat 960 →
      ∃ u : State, PhaseResult s u late.toNat .visible 960 (s.timing.scanline + 1) s.timing.vblankFlag false false false
        ∧ RestSame s u ∧ exec (.ppuPhase late) s = .next { u with result := .none }

/-- R293, R291: `PPU.PHASE` at cycle 1006 sets the horizontal-blank flag and raises its interrupt if enabled; on a visible line it
then requests HBlank and, from `VIDEO_FIRST_LINE` on, Video; on a vertical-blank line HBlank as the policy says. -/
def Obligations.PhaseBlankBegins : Prop :=
  (∀ (s : State) (late : BitVec 48), s.timing.phase = .preHblankWindow → PhaseReady s late.toNat 226 →
      ∃ u : State,
        PhaseResult s u late.toNat .hblank 226 s.timing.scanline s.timing.vblankFlag true false s.timing.hblankIrqEn
          ∧ RestSame s u
          ∧ exec (.ppuPhase late) s =
            finish .none
              (andThen (request (engine s) .hblank u) fun w =>
                if s.cfg.videoFirstLine ≤ s.timing.scanline then request (engine s) .video w else .next w))
    ∧ ∀ (s : State) (late : BitVec 48), s.timing.phase = .vblankVisible → PhaseReady s late.toNat 226 →
      ∃ u : State,
        PhaseResult s u late.toNat .vblankHblank 226 s.timing.scanline s.timing.vblankFlag true false s.timing.hblankIrqEn
          ∧ RestSame s u
          ∧ exec (.ppuPhase late) s =
            if s.cfg.hblankDmaInVblank then exec (.dmaRequest .hblank) u else .next { u with result := .none }

/-- R293, R291: `PPU.PHASE` at the end of line 159 begins vertical blank: flag, interrupt, the reference points reloaded, video
capture stopped, VBlank requested last; at the end of a vertical-blank line it starts the next one, or the next frame. -/
def Obligations.PhaseVblankEdges : Prop :=
  (∀ (s x : State) (late : BitVec 48), s.timing.phase = .hblank → s.timing.scanline + 1 = 160 →
      PhaseReady s late.toNat 1006 → exec .dmaStopvideo s = .next x →
      ∃ u : State, PhaseResult s u late.toNat .vblankVisible 1006 160 true false s.timing.vblankIrqEn false
        ∧ u.regs =
          { s.regs with
            refX := #v[s.regs.bgx[(0 : Fin 2)].toInt, s.regs.bgx[(1 : Fin 2)].toInt]
            refY := #v[s.regs.bgy[(0 : Fin 2)].toInt, s.regs.bgy[(1 : Fin 2)].toInt] }
        ∧ u.fb = s.fb ∧ u.dma = x.dma
        ∧ exec (.ppuPhase late) s = exec (.dmaRequest .vblank) u)
    ∧ (∀ (s : State) (late : BitVec 48), s.timing.phase = .vblankHblank → s.timing.scanline + 1 ≠ 228 →
      PhaseReady s late.toNat 1006 →
      ∃ u : State,
        PhaseResult s u late.toNat .vblankVisible 1006 (s.timing.scanline + 1) s.timing.vblankFlag false false false
          ∧ RestSame s u ∧ exec (.ppuPhase late) s = .next { u with result := .none })
    ∧ ∀ (s : State) (late : BitVec 48), s.timing.phase = .vblankHblank → s.timing.scanline + 1 = 228 →
      PhaseReady s late.toNat 960 →
      ∃ u : State, PhaseResult s u late.toNat .visible 960 0 false false false false
        ∧ RestSame s u ∧ exec (.ppuPhase late) s = .next { u with result := .none }

/-- R573, R201: a phase event later than the next phase lasts is refused. -/
def Obligations.PhaseTooLate : Prop :=
  ∀ (s : State) (late : BitVec 48),
    (s.timing.phase = .visible ∧ 46 < late.toNat)
      ∨ (s.timing.phase = .preHblankWindow ∧ 226 < late.toNat)
      ∨ (s.timing.phase = .hblank ∧ s.timing.scanline + 1 ≠ 160 ∧ 960 < late.toNat)
      ∨ (s.timing.phase = .hblank ∧ s.timing.scanline + 1 = 160 ∧ 1006 < late.toNat)
      ∨ (s.timing.phase = .vblankVisible ∧ 226 < late.toNat)
      ∨ (s.timing.phase = .vblankHblank ∧ s.timing.scanline + 1 ≠ 228 ∧ 1006 < late.toNat)
      ∨ (s.timing.phase = .vblankHblank ∧ s.timing.scanline + 1 = 228 ∧ 960 < late.toNat) →
    exec (.ppuPhase late) s = .refused .negativeDelay

/-- R210, R295: the phase timeline does not drift: a step that fires the phase event, at most 46 cycles late and with no channel
eligible, leaves the next one due exactly the new phase's duration after the old target. -/
def Obligations.TimelineKept : Prop :=
  ∀ (s : State) (e : Event), s.sched.Sound s.cfg.qcap → earliest s.sched.queue e → e.tag = 0 → s.dma.Sound →
    s.dma.Quiet → s.dma.hblank = 0 → s.dma.vblank = 0 → s.dma.video = 0 → s.sched.now ≤ e.target + 46 →
    s.sched.now + 1006 ≤ 2 ^ 64 - 1 → e.target + 1006 ≤ 2 ^ 64 - 1 → s.sched.nextSeq ≠ 2 ^ 48 - 1 → 1 < s.cfg.fuel →
    ∃ (t : State) (n : Event), exec .schStep s = .next t ∧ n ∈ t.sched.queue ∧ n.tag = 0 ∧ n.seq = t.timing.ppuEvent
      ∧ n.target = e.target + t.timing.phase.dur ∧ t.sched.now = max s.sched.now e.target

/-- R46, R297: every step keeps the scanline in 0 to 227, the phase a visible-line phase exactly on lines 0 to 159, the
vertical-blank flag 1 exactly on lines 160 to 227, and the horizontal-blank flag 1 exactly in Hblank and VblankHblank. -/
def Obligations.TimingInvariant : Prop := ∀ s t : State, s.timing.Sound → step s = .next t → t.timing.Sound

/-- R49, R575: a step that is neither `SCH.RESET` nor a `SCH.CANCEL` of the phase event, with callbacks that issue neither, keeps
exactly one phase event pending, the one `ppu_event` names. -/
def Obligations.PhaseEventUnique : Prop :=
  ∀ s t : State, s.sched.Sound s.cfg.qcap → s.PhaseEventOnly → s.PhaseEventPending →
    neverIssued s .schReset → (∀ h : BitVec 48, neverIssued s (.schCancel h)) →
    (∀ (r : Request) (rest : List EnvAct), s.env.requests = .issue r :: rest →
      decode r ≠ some .schReset ∧ ∀ h : BitVec 48, decode r = some (.schCancel h) → h.toNat ≠ s.timing.ppuEvent) →
    step s = .next t → t.PhaseEventOnly ∧ t.PhaseEventPending

/-! ### The compositor -/

/-- R420, R341: `PPU.RENDER` writes one row of 240 pixels at the current scanline, all `COLOR_OUT(BLANK_COLOR)` under forced
blank, else at each column `COLOR_OUT` of the blend of the top two layers under the column's window mask, and adds the
parameters `pb`, `pd` of both affine sets to the running reference points; nothing else changes. (On a line of vertical blank
there is no row to write and only the increment happens: the model's reading, assumption 19.) -/
def Obligations.RenderRow : Prop :=
  ∀ s : State, ∃ (row : List Pixel) (rx ry : Vector Int 2), row.length = 240
    ∧ exec .ppuRender s =
      .next
        { s with
          fb := s.fb.set s.timing.scanline row
          regs := { s.regs with refX := rx, refY := ry }
          result := .none }
    ∧ (∀ k : Fin 2, rx[k] = s.regs.refX[k] + s.regs.bgpb[k].toInt ∧ ry[k] = s.regs.refY[k] + s.regs.bgpd[k].toInt)
    ∧ (s.regs.dispcnt.getLsbD 7 = true → ∀ x, x < 240 → row[x]? = some (colorOut s.cfg s.cfg.blankColor))
    ∧ (s.regs.dispcnt.getLsbD 7 = false → ∀ (x : Nat) (w : View) (o : ObjPixel) (mask : BitVec 6)
        (top : Candidate) (second : Option Candidate), x < 240 → w = ⟨s.cfg, s.regs, s.timing.scanline, s.env.mem⟩ →
        o = w.objPixel w.sprites x → mask = w.winMask o x → (top, second) = topTwo w.backdrop (w.candidates mask o x) →
        row[x]? = some (colorOut s.cfg (blend s.regs mask o.alpha top second)))

/-- R330 to R340, R342: a background's pixel at a column, from the registers and the bytes of the video memories: transparent
where the layer is disabled or has no kind in the mode; else the text, the affine or the bitmap pixel. -/
def Obligations.BackgroundPixels : Prop :=
  ∀ (w : View) (b : Fin 4) (x : Nat),
    (w.regs.dispcnt.getLsbD (8 + b.val) = false ∨ kindOf w b = .none → w.bgPixel b x = none)
      ∧ (w.regs.dispcnt.getLsbD (8 + b.val) = true → kindOf w b = .text → w.bgPixel b x = textColor w b x)
      ∧ (∀ k, w.regs.dispcnt.getLsbD (8 + b.val) = true → kindOf w b = .affine k → w.bgPixel b x = affineColor w b k x)
      ∧ (w.regs.dispcnt.getLsbD (8 + b.val) = true → kindOf w b = .bitmap → w.bgPixel b x = bitmapColor w x)

/-- R370 to R377: the entries evaluated on a scanline are those of the 128 that R374 does not skip, in ascending number, none when
the layer is off; and the colour such an entry has at a column, from the registers and the bytes of the video memories: box,
mosaic, flips or affine transform, tile number, palette. -/
def Obligations.SpritePixels : Prop :=
  (∀ w : View, w.regs.dispcnt.getLsbD 12 = false → w.sprites = [])
    ∧ (∀ w : View, w.regs.dispcnt.getLsbD 12 = true →
      w.sprites = ((List.range 128).filter fun i => entryDrawn w i).map fun i => w.sprite i)
    ∧ ∀ (w : View) (i x : Nat), entryDrawn w i = true → w.spriteColor (w.sprite i) x = entryColor w i x

/-- R422: with forced blank clear, no background and no sprite layer enabled, and no brighten or darken of the backdrop, all
240 pixels of the row are `COLOR_OUT` of the half-word at `PRAM` offset 0, masked to 15 bits. -/
def Obligations.BackdropFill : Prop :=
  ∀ s : State, s.regs.dispcnt.getLsbD 7 = false → s.regs.dispcnt.extractLsb' 8 5 = 0 →
    (s.regs.bldcnt.getLsbD 7 = false ∨ s.regs.bldcnt.getLsbD 5 = false) → s.timing.scanline < s.fb.length →
    ∃ t : State, exec .ppuRender s = .next t
      ∧ t.fb[s.timing.scanline]? =
        some (List.replicate 240 (colorOut s.cfg ((s.env.mem.readHalf 0x05000000#32).extractLsb' 0 15)))

/-- R377: sprite against sprite at one column: of the entries in order, the opaque drawn one with the lowest priority number wins,
the earliest among equals; the window flag is set exactly where a window marker is opaque, and a marker draws nothing. -/
def Obligations.SpriteOrder : Prop :=
  (∀ (w : View) (before after : List Sprite) (e : Sprite) (x : Nat) (col : Color), e.mode ≠ 2 →
      w.spriteColor e x = some col →
      (∀ d ∈ before, d.mode ≠ 2 → w.spriteColor d x ≠ none → e.prio < d.prio) →
      (∀ d ∈ after, d.mode ≠ 2 → w.spriteColor d x ≠ none → e.prio ≤ d.prio) →
      (w.objPixel (before ++ e :: after) x).color = some col
        ∧ (w.objPixel (before ++ e :: after) x).prio = e.prio
        ∧ (w.objPixel (before ++ e :: after) x).alpha = decide (e.mode = 1))
    ∧ ∀ (w : View) (sprites : List Sprite) (x : Nat),
      ((w.objPixel sprites x).window = true ↔ ∃ d ∈ sprites, d.mode = 2 ∧ w.spriteColor d x ≠ none)
        ∧ ((w.objPixel sprites x).color = none ↔ ∀ d ∈ sprites, d.mode ≠ 2 → w.spriteColor d x = none)

/-- R381, R382: the window mask at a column: everything when no window is enabled, else the layer set of the first of window 0,
window 1, the object window that covers it, else the outside set. -/
def Obligations.WindowMasks : Prop :=
  ∀ (w : View) (o : ObjPixel) (x : Nat) (on0 on1 onObj : Prop),
    (on0 ↔ w.regs.dispcnt.getLsbD 13 = true ∧ insideRange x w.regs.winh[(0 : Fin 2)]
      ∧ insideRange w.scanline w.regs.winv[(0 : Fin 2)]) →
    (on1 ↔ w.regs.dispcnt.getLsbD 14 = true ∧ insideRange x w.regs.winh[(1 : Fin 2)]
      ∧ insideRange w.scanline w.regs.winv[(1 : Fin 2)]) →
    (onObj ↔ w.regs.dispcnt.getLsbD 15 = true ∧ o.window = true) →
    (w.regs.dispcnt.extractLsb' 13 3 = 0 → w.winMask o x = 0x3F#6)
      ∧ (w.regs.dispcnt.extractLsb' 13 3 ≠ 0 →
        (on0 → w.winMask o x = w.regs.winin.extractLsb' 0 6)
          ∧ (¬on0 → on1 → w.winMask o x = w.regs.winin.extractLsb' 8 6)
          ∧ (¬on0 → ¬on1 → onObj → w.winMask o x = w.regs.winout.extractLsb' 8 6)
          ∧ (¬on0 → ¬on1 → ¬onObj → w.winMask o x = w.regs.winout.extractLsb' 0 6))

/-- R412, R415, R416: the top layer at a column is the candidate with the least key `(prio, rank)`, the second the next one or the
backdrop, and the backdrop alone has no second. -/
def Obligations.LayerOrder : Prop :=
  ∀ (w : View) (mask : BitVec 6) (o : ObjPixel) (x : Nat),
    ((∀ c, ¬CandidateAt w mask o x c) → topTwo w.backdrop (w.candidates mask o x) = (w.backdrop, none))
      ∧ ∀ c, CandidateAt w mask o x c → (∀ d, CandidateAt w mask o x d → d = c ∨ keyBefore c d) →
        (topTwo w.backdrop (w.candidates mask o x)).1 = c
          ∧ ((∀ d, CandidateAt w mask o x d → d = c) →
            (topTwo w.backdrop (w.candidates mask o x)).2 = some w.backdrop)
          ∧ ∀ d, CandidateAt w mask o x d → d ≠ c →
            (∀ e, CandidateAt w mask o x e → e = c ∨ e = d ∨ keyBefore d e) →
            (topTwo w.backdrop (w.candidates mask o x)).2 = some d

/-- R417: the blend of the top two layers, channel by channel, in the order of the rule's tests. -/
def Obligations.BlendArithmetic : Prop :=
  ∀ (p : PpuRegs) (mask : BitVec 6) (alpha : Bool) (top : Candidate) (second : Option Candidate) (eva evb evy eff : Nat),
    eva = min 16 (p.bldalpha.toNat % 32) → evb = min 16 (p.bldalpha.toNat / 256 % 32) → evy = min 16 (p.bldy.toNat % 32) →
    eff = p.bldcnt.toNat / 64 % 4 →
    (mask.getLsbD 5 = false → blend p mask alpha top second = top.color)
      ∧ (mask.getLsbD 5 = true → ∀ b, second = some b → p.bldcnt.getLsbD (8 + b.layer.number) = true →
        (top.layer = .obj ∧ alpha = true) ∨ (eff = 1 ∧ p.bldcnt.getLsbD top.layer.number = true) →
        ∀ i, i < 3 →
          shade (blend p mask alpha top second) i = min 31 ((shade top.color i * eva + shade b.color i * evb) / 16))
      ∧ (mask.getLsbD 5 = true →
        ¬(top.layer = .obj ∧ alpha = true ∧ ∃ b, second = some b ∧ p.bldcnt.getLsbD (8 + b.layer.number) = true) →
        (eff = 2 → p.bldcnt.getLsbD top.layer.number = true → ∀ i, i < 3 →
            shade (blend p mask alpha top second) i = shade top.color i + (31 - shade top.color i) * evy / 16)
          ∧ (eff = 3 → p.bldcnt.getLsbD top.layer.number = true → ∀ i, i < 3 →
            shade (blend p mask alpha top second) i = shade top.color i - shade top.color i * evy / 16)
          ∧ (eff = 0 ∨ p.bldcnt.getLsbD top.layer.number = false
              ∨ (eff = 1 ∧ ¬∃ b, second = some b ∧ p.bldcnt.getLsbD (8 + b.layer.number) = true) →
            blend p mask alpha top second = top.color))

/-- R344, R383, R576, R92: the row a visible scanline gets depends on the PPU registers, the parameters, the scanline and the bytes
of the three video memories, and on nothing else of the state. -/
def Obligations.RowNoninterference : Prop :=
  ∀ s u s' u' : State, s.regs = u.regs → s.cfg = u.cfg → s.timing.scanline = u.timing.scanline → s.timing.scanline < 160 →
    s.fb.length = 160 → u.fb.length = 160 → (∀ a, videoAddress a → s.env.mem.read a = u.env.mem.read a) →
    exec .ppuRender s = .next s' → exec .ppuRender u = .next u' →
    s'.fb[s.timing.scanline]? = u'.fb[s.timing.scanline]? ∧ s'.regs = u'.regs

/-! ### Reset -/

/-- R560, R561: `SCH.RESET` and `DMA.RESET` set the scheduler and the DMA controller to the stated values and touch nothing else. -/
def Obligations.ComponentResets : Prop :=
  decode (.command 0x0700000000000000#64) = some .schReset
    ∧ (∀ s : State, exec .schReset s = .next { s with sched := ⟨0, [], 0⟩, result := .none })
    ∧ decode (.command 0x1200000000000000#64) = some .dmaReset
    ∧ ∀ s : State,
      exec .dmaReset s =
        .next
          { s with
            dma :=
              { ch := Vector.replicate 4 ⟨0, 0, 0, 0, false, 0, 0, 0, 0⟩
                runnable := 0
                hblank := 0
                vblank := 0
                video := 0
                active := none
                earlyExit := false
                busy := false
                openBus := 0 }
            result := .none }

/-- R562: `PPU.RESET` takes the old phase event out, sets the timing state, the register block and the framebuffer to their reset
values, and adds the first phase event 960 cycles ahead; the DMA controller and the environment stay. -/
def Obligations.PpuResetEffect : Prop :=
  ∀ (s : State) (q : List Event),
    ((∃ e ∈ s.sched.queue, e.seq = s.timing.ppuEvent ∧ e.tag = 0) →
        q = s.sched.queue.filter fun e => e.seq != s.timing.ppuEvent) →
    ((¬∃ e ∈ s.sched.queue, e.seq = s.timing.ppuEvent ∧ e.tag = 0) → q = s.sched.queue) →
    s.sched.now + 960 ≤ 2 ^ 64 - 1 → q.length ≠ s.cfg.qcap → s.sched.nextSeq ≠ 2 ^ 48 - 1 →
    ∃ t : State, exec .ppuReset s = .next t
      ∧ t.sched.queue.Perm (⟨s.sched.now + 960, s.sched.nextSeq, 0⟩ :: q)
      ∧ t.sched.now = s.sched.now ∧ t.sched.nextSeq = s.sched.nextSeq + 1
      ∧ t.timing = ⟨.visible, 0, false, false, false, false, false, false, 0, s.sched.nextSeq⟩
      ∧ t.regs = PpuRegs.reset ∧ t.fb = List.replicate 160 (List.replicate 240 (colorOut s.cfg 0))
      ∧ t.dma = s.dma ∧ t.env = s.env ∧ t.cfg = s.cfg ∧ t.result = .none

/-- R563, R71, R564: `SYS.RESET` leaves the table of R71 whatever the state was, and the environment as it was. -/
def Obligations.SystemReset : Prop :=
  decode (.command 0x3F00000000000000#64) = some .sysReset
    ∧ ∀ s : State, s.cfg.qcap ≠ 0 → ∃ t : State, exec .sysReset s = .next t ∧ AfterReset t ∧ t.env = s.env ∧ t.cfg = s.cfg

/-- R71, R26, R42, R46, R49: the model's reset state is the table of R71, meets every invariant, and has the phase event pending
(its parameters are the defaults of R9: assumption 4). -/
def Obligations.ResetSound : Prop := AfterReset State.reset ∧ State.reset.Sound ∧ State.reset.PhaseEventPending
end

