-- ==== Sys2Proof/Laws/State.lean ====
section
/-! SUPPORT. What each update of the state leaves in each field, by `rfl`, so that no proof unfolds a record update. -/

namespace Sys2Proof.Machine

variable (s : State)

@[simp] theorem State.mapDma_sched (f : Dma → Dma) : (s.mapDma f).sched = s.sched := rfl
@[simp] theorem State.mapDma_dma (f : Dma → Dma) : (s.mapDma f).dma = f s.dma := rfl
@[simp] theorem State.mapDma_timing (f : Dma → Dma) : (s.mapDma f).timing = s.timing := rfl
@[simp] theorem State.mapDma_regs (f : Dma → Dma) : (s.mapDma f).regs = s.regs := rfl
@[simp] theorem State.mapDma_fb (f : Dma → Dma) : (s.mapDma f).fb = s.fb := rfl
@[simp] theorem State.mapDma_env (f : Dma → Dma) : (s.mapDma f).env = s.env := rfl
@[simp] theorem State.mapDma_cfg (f : Dma → Dma) : (s.mapDma f).cfg = s.cfg := rfl
@[simp] theorem State.mapDma_result (f : Dma → Dma) : (s.mapDma f).result = s.result := rfl

@[simp] theorem State.mapTiming_sched (f : Timing → Timing) : (s.mapTiming f).sched = s.sched := rfl
@[simp] theorem State.mapTiming_dma (f : Timing → Timing) : (s.mapTiming f).dma = s.dma := rfl
@[simp] theorem State.mapTiming_timing (f : Timing → Timing) : (s.mapTiming f).timing = f s.timing := rfl
@[simp] theorem State.mapTiming_regs (f : Timing → Timing) : (s.mapTiming f).regs = s.regs := rfl
@[simp] theorem State.mapTiming_fb (f : Timing → Timing) : (s.mapTiming f).fb = s.fb := rfl
@[simp] theorem State.mapTiming_env (f : Timing → Timing) : (s.mapTiming f).env = s.env := rfl
@[simp] theorem State.mapTiming_cfg (f : Timing → Timing) : (s.mapTiming f).cfg = s.cfg := rfl
@[simp] theorem State.mapTiming_result (f : Timing → Timing) : (s.mapTiming f).result = s.result := rfl

@[simp] theorem State.mapRegs_sched (f : PpuRegs → PpuRegs) : (s.mapRegs f).sched = s.sched := rfl
@[simp] theorem State.mapRegs_dma (f : PpuRegs → PpuRegs) : (s.mapRegs f).dma = s.dma := rfl
@[simp] theorem State.mapRegs_timing (f : PpuRegs → PpuRegs) : (s.mapRegs f).timing = s.timing := rfl
@[simp] theorem State.mapRegs_regs (f : PpuRegs → PpuRegs) : (s.mapRegs f).regs = f s.regs := rfl
@[simp] theorem State.mapRegs_fb (f : PpuRegs → PpuRegs) : (s.mapRegs f).fb = s.fb := rfl
@[simp] theorem State.mapRegs_env (f : PpuRegs → PpuRegs) : (s.mapRegs f).env = s.env := rfl
@[simp] theorem State.mapRegs_cfg (f : PpuRegs → PpuRegs) : (s.mapRegs f).cfg = s.cfg := rfl
@[simp] theorem State.mapRegs_result (f : PpuRegs → PpuRegs) : (s.mapRegs f).result = s.result := rfl

@[simp] theorem State.mapEnv_sched (f : Env → Env) : (s.mapEnv f).sched = s.sched := rfl
@[simp] theorem State.mapEnv_dma (f : Env → Env) : (s.mapEnv f).dma = s.dma := rfl
@[simp] theorem State.mapEnv_timing (f : Env → Env) : (s.mapEnv f).timing = s.timing := rfl
@[simp] theorem State.mapEnv_regs (f : Env → Env) : (s.mapEnv f).regs = s.regs := rfl
@[simp] theorem State.mapEnv_fb (f : Env → Env) : (s.mapEnv f).fb = s.fb := rfl
@[simp] theorem State.mapEnv_env (f : Env → Env) : (s.mapEnv f).env = f s.env := rfl
@[simp] theorem State.mapEnv_cfg (f : Env → Env) : (s.mapEnv f).cfg = s.cfg := rfl
@[simp] theorem State.mapEnv_result (f : Env → Env) : (s.mapEnv f).result = s.result := rfl

@[simp] theorem State.mapChan_sched (c : Chan) (f : Channel → Channel) : (s.mapChan c f).sched = s.sched := rfl
@[simp] theorem State.mapChan_dma (c : Chan) (f : Channel → Channel) : (s.mapChan c f).dma = { s.dma with ch := s.dma.ch.set c (f s.dma.ch[c]) } := rfl
@[simp] theorem State.mapChan_timing (c : Chan) (f : Channel → Channel) : (s.mapChan c f).timing = s.timing := rfl
@[simp] theorem State.mapChan_regs (c : Chan) (f : Channel → Channel) : (s.mapChan c f).regs = s.regs := rfl
@[simp] theorem State.mapChan_fb (c : Chan) (f : Channel → Channel) : (s.mapChan c f).fb = s.fb := rfl
@[simp] theorem State.mapChan_env (c : Chan) (f : Channel → Channel) : (s.mapChan c f).env = s.env := rfl
@[simp] theorem State.mapChan_cfg (c : Chan) (f : Channel → Channel) : (s.mapChan c f).cfg = s.cfg := rfl
@[simp] theorem State.mapChan_result (c : Chan) (f : Channel → Channel) : (s.mapChan c f).result = s.result := rfl
/-- The changed channel. -/
@[simp] theorem State.chan_mapChan_same (c : Chan) (f : Channel → Channel) : (s.mapChan c f).chan c = f (s.chan c) := by
  simp [State.chan]

/-- Every other channel. -/
theorem State.chan_mapChan_other {c d : Chan} (f : Channel → Channel) (h : c ≠ d) :
    (s.mapChan c f).chan d = s.chan d := by
  simp [State.chan, Fin.val_inj, h]

/-- Both at once. -/
theorem State.chan_mapChan (c d : Chan) (f : Channel → Channel) :
    (s.mapChan c f).chan d = if c = d then f (s.chan c) else s.chan d := by
  by_cases h : c = d
  · subst h; simp
  · simp [State.chan_mapChan_other s f h, h]

end Sys2Proof.Machine
end

