-- ==== Sys2Proof/Laws/Arbitration.lean ====
section
/-! SUPPORT. Sets of channels and the DMA controller's invariant R42 (a) to (e): every operation that changes the
controller keeps it. -/

namespace Sys2Proof.Machine

/-! ### Sets of channels (R11) -/

theorem hasChan_insertChan : ∀ (S : ChanSet) (c d : Chan), hasChan (insertChan S c) d = (decide (c = d) || hasChan S d) := by
  decide

theorem hasChan_removeChan : ∀ (S : ChanSet) (c d : Chan), hasChan (removeChan S c) d = (!decide (c = d) && hasChan S d) := by
  decide

theorem hasChan_or : ∀ (S T : ChanSet) (d : Chan), hasChan (S ||| T) d = (hasChan S d || hasChan T d) := by decide

@[simp] theorem hasChan_zero : ∀ d : Chan, hasChan 0 d = false := by decide

/-- A set is its members. -/
theorem chanSet_ext : ∀ S T : ChanSet, (∀ c, hasChan S c = hasChan T c) → S = T := by decide

@[simp] theorem lowest_zero : lowest 0 = none := rfl

theorem lowest_eq_none : ∀ S : ChanSet, lowest S = none ↔ S = 0 := by decide

/-- `lowest` is a member, and no smaller channel is. -/
theorem lowest_eq_some : ∀ (S : ChanSet) (c : Chan), lowest S = some c ↔ hasChan S c = true ∧ ∀ d, d < c → hasChan S d = false := by
  decide

/-- `TryStart`'s choice is the highest-priority member of the new set (R233, R242). -/
theorem lowest_insertChan : ∀ (S : ChanSet) (c : Chan),
    lowest (insertChan S c) =
      if S = 0 then some c else match lowest S with
        | some a => if c < a then some c else some a
        | none => none := by
  decide

/-- Uniting the rest of an occasion's set does not change the choice (R235). -/
theorem lowest_unite : ∀ (R S : ChanSet) (c : Chan), lowest S = some c → lowest (insertChan R c ||| S) = lowest (insertChan R c) := by
  decide

/-! ### What each operation leaves (R42) -/

/-- The invariant but for what it says of channel `c`, whose runnable bit asks for `was`. -/
structure Dma.SoundBut (c : Chan) (was : Bool) (d : Dma) : Prop where
  hblank : ∀ e, e ≠ c → hasChan d.hblank e = (ctrlEnable d.ch[e].ctrl && ctrlTiming d.ch[e].ctrl == timingHblank)
  vblank : ∀ e, e ≠ c → hasChan d.vblank e = (ctrlEnable d.ch[e].ctrl && ctrlTiming d.ch[e].ctrl == timingVblank)
  video : ∀ e, e ≠ c →
    hasChan d.video e = (ctrlEnable d.ch[e].ctrl && ctrlTiming d.ch[e].ctrl == timingSpecial && e == 3)
  runnable : ∀ e, e ≠ c → hasChan d.runnable e = true → ctrlEnable d.ch[e].ctrl = true
  was : hasChan d.runnable c = true → was = true
  active : d.active = lowest d.runnable

theorem Dma.Sound.but {d : Dma} (h : d.Sound) (c : Chan) : d.SoundBut c (ctrlEnable d.ch[c].ctrl) :=
  ⟨fun e _ => h.hblank e, fun e _ => h.vblank e, fun e _ => h.video e, fun e _ => h.runnable e, h.runnable c, h.active⟩

/-- Changing channel `c` alone keeps the invariant of the others. -/
theorem Dma.SoundBut.mapChan {c : Chan} {was : Bool} {d : Dma} (h : d.SoundBut c was) (x : Channel) :
    Dma.SoundBut c was { d with ch := d.ch.set c x } := by
  have hne : ∀ e : Chan, e ≠ c → (d.ch.set c x)[e] = d.ch[e] := fun e he => by
    simp [Fin.val_inj, Ne.symm he]
  constructor
  · intro e he; simp only [hne e he]; exact h.hblank e he
  · intro e he; simp only [hne e he]; exact h.vblank e he
  · intro e he; simp only [hne e he]; exact h.video e he
  · intro e he; simp only [hne e he]; exact h.runnable e he
  · exact h.was
  · exact h.active

/-- A change of channel `c` that keeps its control half-word keeps the invariant. -/
theorem Dma.Sound.mapChan {d : Dma} (h : d.Sound) (c : Chan) (x : Channel) (hx : x.ctrl = d.ch[c].ctrl) :
    Dma.Sound { d with ch := d.ch.set c x } := by
  have hc : ∀ e : Chan, (d.ch.set c x)[e].ctrl = d.ch[e].ctrl := fun e => by
    by_cases he : c = e
    · subst he; simp [hx]
    · simp [Fin.val_inj, he]
  constructor
  · intro e; simp only [hc e]; exact h.hblank e
  · intro e; simp only [hc e]; exact h.vblank e
  · intro e; simp only [hc e]; exact h.video e
  · intro e; simp only [hc e]; exact h.runnable e
  · exact h.active

/-- `SelectNextDMA` (R234): the active channel becomes right, whatever it was. -/
theorem selectNext_active (s : State) : (selectNext s).dma.active = lowest (selectNext s).dma.runnable := rfl

theorem Dma.Sound.selectNext {s : State} (h : s.dma.Sound) : (selectNext s).dma.Sound :=
  ⟨h.hblank, h.vblank, h.video, h.runnable, rfl⟩

/-- `TryStart` of an enabled channel (R233). -/
theorem Dma.Sound.tryStart {s : State} (h : s.dma.Sound) (c : Chan) (hc : ctrlEnable (s.chan c).ctrl = true) :
    (tryStart c s).dma.Sound := by
  have hrun : ∀ e, hasChan (insertChan s.dma.runnable c) e = true → ctrlEnable s.dma.ch[e].ctrl = true := by
    intro e he
    rw [hasChan_insertChan, Bool.or_eq_true, decide_eq_true_eq] at he
    rcases he with rfl | he
    · exact hc
    · exact h.runnable e he
  have hact := lowest_insertChan s.dma.runnable c
  have ha := h.active
  simp only [Machine.tryStart, State.mapDma_dma]
  split_ifs with h0
  · exact ⟨h.hblank, h.vblank, h.video, hrun, by rw [hact, if_pos h0]⟩
  · split
    · rename_i a hsa
      split_ifs with hlt
      · exact ⟨h.hblank, h.vblank, h.video, hrun, by rw [hact, if_neg h0, ← ha, hsa]; simp [hlt]⟩
      · exact ⟨h.hblank, h.vblank, h.video, hrun, by rw [hact, if_neg h0, ← ha, hsa]; simp [hlt]⟩
    · rename_i hsn
      rw [ha, lowest_eq_none] at hsn
      exact absurd hsn h0

/-- `TryStart` touches only the active channel, the trigger and the runnable set. -/
theorem tryStart_frame (c : Chan) (s : State) :
    (tryStart c s).dma.runnable = insertChan s.dma.runnable c ∧ (tryStart c s).dma.ch = s.dma.ch
      ∧ (tryStart c s).dma.hblank = s.dma.hblank ∧ (tryStart c s).dma.vblank = s.dma.vblank
      ∧ (tryStart c s).dma.video = s.dma.video ∧ (tryStart c s).dma.busy = s.dma.busy
      ∧ (tryStart c s).dma.openBus = s.dma.openBus := by
  simp only [tryStart, State.mapDma_dma]
  split_ifs
  · simp
  · split
    · split_ifs <;> simp
    · simp

/-- Uniting a set of enabled channels with `runnable` after its highest member was started (R235). -/
theorem Dma.Sound.startSet {s : State} (h : s.dma.Sound) (S : ChanSet)
    (hS : ∀ c, hasChan S c = true → ctrlEnable s.dma.ch[c].ctrl = true) : (startSet S s).dma.Sound := by
  unfold Machine.startSet
  split
  · exact h
  · rename_i c hc
    have hmem := ((lowest_eq_some S c).1 hc).1
    have ht := h.tryStart c (hS c hmem)
    obtain ⟨hr, hch, -⟩ := tryStart_frame c s
    refine ⟨ht.hblank, ht.vblank, ht.video, ?_, ?_⟩
    · intro e he
      simp only [uniteRunnable, State.mapDma_dma, hasChan_or, Bool.or_eq_true] at he
      rcases he with he | he
      · exact ht.runnable e he
      · simp only [uniteRunnable, State.mapDma_dma, hch]; exact hS e he
    · simp only [uniteRunnable, State.mapDma_dma]
      rw [ht.active, hr, lowest_unite _ _ _ hc]

theorem Dma.Sound.tryFifo {s : State} (h : s.dma.Sound) (occ : Occasion) (c : Chan) : (tryFifo occ c s).dma.Sound := by
  unfold Machine.tryFifo
  split
  · rename_i hm
    refine h.tryStart c ?_
    simp only [fifoMatches, Bool.and_eq_true] at hm
    exact hm.1.1
  · exact h

/-- The arbitration part of `Request` (R235). -/
theorem Dma.Sound.arbitrate {s : State} (h : s.dma.Sound) (occ : Occasion) : (arbitrate occ s).dma.Sound := by
  cases occ
  · refine h.startSet _ fun c hc => ?_
    have := h.hblank c
    simp only [occasionSet] at hc
    rw [hc] at this
    exact (Bool.and_eq_true _ _ ▸ this.symm).1
  · refine h.startSet _ fun c hc => ?_
    have := h.vblank c
    simp only [occasionSet] at hc
    rw [hc] at this
    exact (Bool.and_eq_true _ _ ▸ this.symm).1
  · refine h.startSet _ fun c hc => ?_
    have := h.video c
    simp only [occasionSet] at hc
    rw [hc] at this
    simp only [Bool.true_eq, Bool.and_eq_true] at this
    exact this.1.1
  · exact (h.tryFifo .fifoA 1).tryFifo .fifoA 2
  · exact (h.tryFifo .fifoB 1).tryFifo .fifoB 2

/-- Clearing the enable bit leaves the timing. -/
theorem ctrlTiming_clearEnable (h : Half) : ctrlTiming (clearEnable h) = ctrlTiming h := by
  simp only [ctrlTiming, clearEnable]
  apply BitVec.eq_of_getLsbD_eq
  intro i hi
  rcases (by omega : i = 0 ∨ i = 1) with rfl | rfl <;> simp

@[simp] theorem ctrlEnable_clearEnable (h : Half) : ctrlEnable (clearEnable h) = false := by
  simp [ctrlEnable, clearEnable]

/-- A channel that is disabled and in no set, next to sound ones, is sound (R239). -/
theorem Dma.SoundBut.disable {c : Chan} {was : Bool} {s : State} (h : s.dma.SoundBut c was) :
    (disableChannel c s).dma.Sound := by
  have hne : ∀ (e : Chan) (x : Channel), e ≠ c → (s.dma.ch.set c x)[e] = s.dma.ch[e] := fun e x he => by
    simp [Fin.val_inj, Ne.symm he]
  constructor
  · intro e
    by_cases he : e = c
    · subst he
      simp [disableChannel, selectNext, triggerIfActive, leaveRunnable, leaveSets, disableBit, hasChan_removeChan]
    · simpa [disableChannel, selectNext, triggerIfActive, leaveRunnable, leaveSets, disableBit, hasChan_removeChan,
        Fin.val_inj, Ne.symm he] using h.hblank e he
  · intro e
    by_cases he : e = c
    · subst he
      simp [disableChannel, selectNext, triggerIfActive, leaveRunnable, leaveSets, disableBit, hasChan_removeChan]
    · simpa [disableChannel, selectNext, triggerIfActive, leaveRunnable, leaveSets, disableBit, hasChan_removeChan,
        Fin.val_inj, Ne.symm he] using h.vblank e he
  · intro e
    by_cases he : e = c
    · subst he
      simp [disableChannel, selectNext, triggerIfActive, leaveRunnable, leaveSets, disableBit, hasChan_removeChan]
    · simpa [disableChannel, selectNext, triggerIfActive, leaveRunnable, leaveSets, disableBit, hasChan_removeChan,
        Fin.val_inj, Ne.symm he] using h.video e he
  · intro e
    by_cases he : e = c
    · subst he
      simp [disableChannel, selectNext, triggerIfActive, leaveRunnable, leaveSets, disableBit, hasChan_removeChan]
    · simpa [disableChannel, selectNext, triggerIfActive, leaveRunnable, leaveSets, disableBit, hasChan_removeChan,
        Fin.val_inj, Ne.symm he] using h.runnable e he
  · rfl

/-- What `Derive` does, by the timing of the channel (R232). -/
theorem derive_cases (c : Chan) (s : State) :
    (ctrlTiming (s.chan c).ctrl = timingHblank
        ∧ derive c s = s.mapDma fun d => { d with hblank := insertChan d.hblank c })
      ∨ (ctrlTiming (s.chan c).ctrl = timingVblank
        ∧ derive c s = s.mapDma fun d => { d with vblank := insertChan d.vblank c })
      ∨ ((ctrlTiming (s.chan c).ctrl = timingSpecial ∧ c = 3)
        ∧ derive c s = s.mapDma fun d => { d with video := insertChan d.video c })
      ∨ (ctrlTiming (s.chan c).ctrl ≠ timingHblank ∧ ctrlTiming (s.chan c).ctrl ≠ timingVblank
        ∧ ¬(ctrlTiming (s.chan c).ctrl = timingSpecial ∧ c = 3) ∧ derive c s = s) := by
  simp only [derive, State.mapDma, State.chan]
  by_cases h1 : ctrlTiming s.dma.ch[c].ctrl = timingHblank
  · left; exact ⟨h1, by rw [if_pos h1]⟩
  · by_cases h2 : ctrlTiming s.dma.ch[c].ctrl = timingVblank
    · right; left; exact ⟨h2, by rw [if_neg h1, if_pos h2]⟩
    · by_cases h3 : ctrlTiming s.dma.ch[c].ctrl = timingSpecial ∧ c = 3
      · right; right; left; exact ⟨h3, by rw [if_neg h1, if_neg h2, if_pos h3]⟩
      · right; right; right; exact ⟨h1, h2, h3, by rw [if_neg h1, if_neg h2, if_neg h3]⟩

/-- `Derive` leaves every channel as it is. -/
theorem derive_ch (c : Chan) (s : State) : (derive c s).dma.ch = s.dma.ch := by
  rcases derive_cases c s with ⟨-, h⟩ | ⟨-, h⟩ | ⟨-, h⟩ | ⟨-, -, -, h⟩ <;> rw [h] <;> rfl

/-- `Derive` and the rest of the controller. -/
theorem derive_frame (c : Chan) (s : State) :
    (derive c s).dma.runnable = s.dma.runnable ∧ (derive c s).dma.active = s.dma.active := by
  rcases derive_cases c s with ⟨-, h⟩ | ⟨-, h⟩ | ⟨-, h⟩ | ⟨-, -, -, h⟩ <;> rw [h] <;> exact ⟨rfl, rfl⟩

/-- What `Derive` makes of each occasion set (R232). -/
theorem derive_sets (c : Chan) (s : State) :
    (derive c s).dma.hblank = (if ctrlTiming (s.chan c).ctrl = timingHblank then insertChan s.dma.hblank c else s.dma.hblank)
      ∧ (derive c s).dma.vblank =
        (if ctrlTiming (s.chan c).ctrl = timingVblank then insertChan s.dma.vblank c else s.dma.vblank)
      ∧ (derive c s).dma.video =
        (if ctrlTiming (s.chan c).ctrl = timingSpecial ∧ c = 3 then insertChan s.dma.video c else s.dma.video) := by
  rcases derive_cases c s with ⟨h1, h⟩ | ⟨h1, h⟩ | ⟨h1, h⟩ | ⟨h1, h2, h3, h⟩ <;> rw [h]
  · simp [h1, timingHblank, timingVblank, timingSpecial]
  · simp [h1, timingHblank, timingVblank, timingSpecial]
  · obtain ⟨ht, rfl⟩ := h1; simp [ht, timingHblank, timingVblank, timingSpecial]
  · rw [if_neg h1, if_neg h2, if_neg h3]; exact ⟨rfl, rfl, rfl⟩

theorem derive_chan (c : Chan) (s : State) (e : Chan) : (derive c s).chan e = s.chan e := by
  simp [State.chan, derive_ch]

/-- An enabled channel whose membership was cleared and derived afresh is sound (R232). -/
theorem Dma.SoundBut.derive {c : Chan} {was : Bool} {s : State} (h : s.dma.SoundBut c was)
    (hen : ctrlEnable (s.chan c).ctrl = true) : (derive c (leaveSets c s)).dma.Sound := by
  have hch : (Machine.derive c (leaveSets c s)).dma.ch = s.dma.ch := derive_ch c _
  obtain ⟨hru, hac⟩ := derive_frame c (leaveSets c s)
  obtain ⟨hh, hv, hd⟩ := derive_sets c (leaveSets c s)
  have hl : ((leaveSets c s).chan c).ctrl = s.dma.ch[c].ctrl := rfl
  have hen' : ctrlEnable s.dma.ch[c].ctrl = true := hen
  rw [hl] at hh hv hd
  constructor
  · intro e
    rw [hch, hh]
    by_cases he : e = c
    · subst he
      by_cases ht : ctrlTiming s.dma.ch[e].ctrl = timingHblank <;>
        simp_all [leaveSets, hasChan_insertChan, hasChan_removeChan]
    · rw [← h.hblank e he]
      split <;> simp [leaveSets, hasChan_insertChan, hasChan_removeChan, Ne.symm he]
  · intro e
    rw [hch, hv]
    by_cases he : e = c
    · subst he
      by_cases ht : ctrlTiming s.dma.ch[e].ctrl = timingVblank <;>
        simp_all [leaveSets, hasChan_insertChan, hasChan_removeChan]
    · rw [← h.vblank e he]
      split <;> simp [leaveSets, hasChan_insertChan, hasChan_removeChan, Ne.symm he]
  · intro e
    rw [hch, hd]
    by_cases he : e = c
    · subst he
      by_cases ht : ctrlTiming s.dma.ch[e].ctrl = timingSpecial ∧ e = 3
      · obtain ⟨ht, rfl⟩ := ht; rw [if_pos ⟨ht, rfl⟩]; simp only [hasChan_insertChan]; simp; exact ⟨hen', ht⟩
      · rw [if_neg ht]
        simp only [leaveSets, State.mapDma_dma, hasChan_removeChan, hen']
        simp only [not_and] at ht
        simpa using ht
    · rw [← h.video e he]
      split <;> simp [leaveSets, hasChan_insertChan, hasChan_removeChan, Ne.symm he]
  · intro e he
    rw [hru] at he
    rw [hch]
    by_cases hec : e = c
    · subst hec; exact hen
    · exact h.runnable e hec he
  · rw [hac, hru]; exact h.active

/-- The whole of `OnChannelWritten` but the service (R241): channel `c` becomes sound again. -/
theorem Dma.SoundBut.configure {c : Chan} {was : Bool} {s : State} (h : s.dma.SoundBut c was) :
    (configure c was s).dma.Sound := by
  have hl : ((leaveSets c s).chan c).ctrl = (s.chan c).ctrl := rfl
  simp only [Machine.configure, hl]
  split_ifs with hen hw him
  · exact h.derive hen
  · refine Dma.Sound.tryStart ?_ c ?_
    · exact (h.derive hen).mapChan c _ rfl
    · rw [State.chan_mapChan_same]; simp only [armChannel, derive_chan]; exact hen
  · exact (h.derive hen).mapChan c _ rfl
  · exact Dma.SoundBut.disable (was := was) (s := leaveSets c s)
      ⟨fun e he => by simpa [leaveSets, hasChan_removeChan, Ne.symm he] using h.hblank e he,
        fun e he => by simpa [leaveSets, hasChan_removeChan, Ne.symm he] using h.vblank e he,
        fun e he => by simpa [leaveSets, hasChan_removeChan, Ne.symm he] using h.video e he,
        h.runnable, h.was, h.active⟩

/-- `Complete` (R238). -/
theorem Dma.Sound.complete {s : State} (h : s.dma.Sound) (c : Chan) : (complete c s).dma.Sound := by
  have hr : (raiseIf (ctrlIrq ((leaveRunnable c s).chan c).ctrl) .dma c.val (leaveRunnable c s)).dma
      = (leaveRunnable c s).dma := by
    unfold raiseIf; split <;> rfl
  have hrun : ∀ e, hasChan (removeChan s.dma.runnable c) e = true → e ≠ c ∧ ctrlEnable s.dma.ch[e].ctrl = true := by
    intro e he
    rw [hasChan_removeChan, Bool.and_eq_true] at he
    exact ⟨fun hc => by simp [hc] at he, h.runnable e he.2⟩
  simp only [Machine.complete]
  generalize raiseIf _ _ _ _ = s2 at hr ⊢
  have hch : s2.dma.ch = s.dma.ch := by rw [hr]; rfl
  have hrn : s2.dma.runnable = removeChan s.dma.runnable c := by rw [hr]; rfl
  have hh : s2.dma.hblank = s.dma.hblank := by rw [hr]; rfl
  have hv : s2.dma.vblank = s.dma.vblank := by rw [hr]; rfl
  have hd : s2.dma.video = s.dma.video := by rw [hr]; rfl
  split
  · have hc : ∀ e : Chan, (s2.dma.ch.set c (reloadLatch c s2.dma.ch[c]))[e].ctrl = s.dma.ch[e].ctrl := fun e => by
      by_cases he : c = e
      · subst he; simp [reloadLatch, hch]
      · simp [Fin.val_inj, he, hch]
    constructor
    · intro e; simp only [Machine.selectNext, State.mapDma_dma, State.mapChan_dma, hh, hc]; exact h.hblank e
    · intro e; simp only [Machine.selectNext, State.mapDma_dma, State.mapChan_dma, hv, hc]; exact h.vblank e
    · intro e; simp only [Machine.selectNext, State.mapDma_dma, State.mapChan_dma, hd, hc]; exact h.video e
    · intro e he
      simp only [Machine.selectNext, State.mapDma_dma, State.mapChan_dma, hrn] at he
      simp only [Machine.selectNext, State.mapDma_dma, State.mapChan_dma, hc]
      exact (hrun e he).2
    · rfl
  · have hc : ∀ e : Chan, e ≠ c → (s2.dma.ch.set c ({ s2.dma.ch[c] with ctrl := clearEnable s2.dma.ch[c].ctrl }))[e]
        = s.dma.ch[e] := fun e he => by simp [Fin.val_inj, Ne.symm he, hch]
    constructor
    · intro e
      by_cases he : e = c
      · subst he; simp [Machine.selectNext, leaveSets, disableBit, hasChan_removeChan]
      · simp only [Machine.selectNext, leaveSets, disableBit, State.mapDma_dma, State.mapChan_dma, hasChan_removeChan, hh, hc e he]
        simpa [Ne.symm he] using h.hblank e
    · intro e
      by_cases he : e = c
      · subst he; simp [Machine.selectNext, leaveSets, disableBit, hasChan_removeChan]
      · simp only [Machine.selectNext, leaveSets, disableBit, State.mapDma_dma, State.mapChan_dma, hasChan_removeChan, hv, hc e he]
        simpa [Ne.symm he] using h.vblank e
    · intro e
      by_cases he : e = c
      · subst he; simp [Machine.selectNext, leaveSets, disableBit, hasChan_removeChan]
      · simp only [Machine.selectNext, leaveSets, disableBit, State.mapDma_dma, State.mapChan_dma, hasChan_removeChan, hd, hc e he]
        simpa [Ne.symm he] using h.video e
    · intro e he
      simp only [Machine.selectNext, leaveSets, disableBit, State.mapDma_dma, State.mapChan_dma, hrn] at he
      simp only [Machine.selectNext, leaveSets, disableBit, State.mapDma_dma, State.mapChan_dma, hc e (hrun e he).1]
      exact (hrun e he).2
    · rfl

/-- `StopVideoXferDMA` (R240). -/
theorem Dma.Sound.stopVideo {s : State} (h : s.dma.Sound) : (stopVideo s).dma.Sound := by
  unfold Machine.stopVideo
  split
  · exact (h.but 3).disable
  · exact h

end Sys2Proof.Machine
end

