-- ==== Sys2Proof/Laws/Encoding.lean ====
section
/-! SUPPORT. The encoding tables read back: the fields of a command word (R121), the operand codes (R124), the register map
(R130, R131). -/

namespace Sys2Proof

/-! ### Command words (R121) -/

@[simp] theorem cmdOp_cmdWord (op a : Byte) (b : BitVec 48) : cmdOp (cmdWord op a b) = op := by
  apply BitVec.eq_of_getLsbD_eq
  intro i hi
  simp only [cmdOp, cmdWord, BitVec.getLsbD_extractLsb', BitVec.getLsbD_append, hi, decide_true, Bool.true_and]
  rw [if_neg (by omega)]
  congr 1; omega

@[simp] theorem cmdA_cmdWord (op a : Byte) (b : BitVec 48) : cmdA (cmdWord op a b) = a := by
  apply BitVec.eq_of_getLsbD_eq
  intro i hi
  simp only [cmdA, cmdWord, BitVec.getLsbD_extractLsb', BitVec.getLsbD_append, hi, decide_true, Bool.true_and]
  rw [if_pos (by omega), if_neg (by omega)]
  congr 1; omega

@[simp] theorem cmdB_cmdWord (op a : Byte) (b : BitVec 48) : cmdB (cmdWord op a b) = b := by
  apply BitVec.eq_of_getLsbD_eq
  intro i hi
  simp only [cmdB, cmdWord, BitVec.getLsbD_extractLsb', BitVec.getLsbD_append, hi, decide_true, Bool.true_and]
  rw [if_pos (by omega), if_pos (by omega)]
  congr 1; omega

/-- Decoding a command word is decoding its fields. -/
theorem decode_cmdWord (op a : Byte) (b : BitVec 48) : decode (.command (cmdWord op a b)) = decodeFields op a b := by
  simp only [decode, cmdOp_cmdWord, cmdA_cmdWord, cmdB_cmdWord]

/-- A command word is its three fields: nothing else is in it (R121). -/
theorem cmdWord_fields (w : BitVec 64) : cmdWord (cmdOp w) (cmdA w) (cmdB w) = w := by
  apply BitVec.eq_of_getLsbD_eq
  intro i hi
  simp only [cmdWord, cmdOp, cmdA, cmdB, BitVec.getLsbD_append, BitVec.getLsbD_extractLsb']
  by_cases h1 : i < 48
  · rw [if_pos (by omega), if_pos (by omega)]; simp [h1]
  · by_cases h2 : i < 56
    · rw [if_pos (by omega), if_neg (by omega)]
      simp only [show i - 48 < 8 by omega, decide_true, Bool.true_and]; congr 1; omega
    · rw [if_neg (by omega)]
      simp only [show i - (8 + 48) < 8 by omega, decide_true, Bool.true_and]; congr 1; omega

@[simp] theorem occasionOf_code (o : Occasion) : occasionOf o.code = some o := by cases o <;> rfl

@[simp] theorem channelOf_code (c : Chan) : channelOf (channelCode c) = some c := by revert c; decide

@[simp] theorem addressOf_setWidth (a : Word) : addressOf (a.setWidth 48) = some a := by
  have h : (a.setWidth 48).toNat = a.toNat := by simp; omega
  have hlt := a.isLt
  rw [addressOf, if_pos (by rw [h]; exact hlt)]
  simp

/-! ### What an operand check answers -/

theorem onlyB_eq_some {i j : Instr} {a : Byte} (h : onlyB i a = some j) : a = 0 ∧ j = i := by
  unfold onlyB at h
  split at h
  · exact ⟨‹_›, (Option.some.inj h).symm⟩
  · cases h

theorem onlyA_eq_some {i : Option Instr} {j : Instr} {b : BitVec 48} (h : onlyA i b = some j) : b = 0 ∧ i = some j := by
  unfold onlyA at h
  split at h
  · exact ⟨‹_›, h⟩
  · cases h

theorem noOperands_eq_some {i j : Instr} {a : Byte} {b : BitVec 48} (h : noOperands i a b = some j) :
    a = 0 ∧ b = 0 ∧ j = i := by
  unfold noOperands at h
  split at h
  · rename_i hh; exact ⟨hh.1, hh.2, (Option.some.inj h).symm⟩
  · cases h

theorem channelOf_eq_some {a : Byte} {c : Chan} (h : channelOf a = some c) : a = channelCode c := by
  unfold channelOf at h
  split at h
  · cases h; simp [channelCode]
  · cases h

theorem occasionOf_eq_some {a : Byte} {o : Occasion} (h : occasionOf a = some o) : a = o.code := by
  unfold occasionOf at h
  split_ifs at h <;> cases h <;> assumption

theorem addressOf_eq_some {b : BitVec 48} {a : Word} (h : addressOf b = some a) : b = a.setWidth 48 := by
  unfold addressOf at h
  split at h
  · rename_i hb
    cases h
    apply BitVec.eq_of_toNat_eq
    simp
    omega
  · cases h

/-! ### The register map (R130, R131) -/

theorem mem_allRegs (r : Reg) : r ∈ allRegs := by
  cases r
  case bgcnt b => revert b; decide
  case bghofs b => revert b; decide
  case bgvofs b => revert b; decide
  case bgpa k => revert k; decide
  case bgpb k => revert k; decide
  case bgpc k => revert k; decide
  case bgpd k => revert k; decide
  case bgx k => revert k; decide
  case bgy k => revert k; decide
  case winh w => revert w; decide
  case winv w => revert w; decide
  case dmaSad c => revert c; decide
  case dmaDad c => revert c; decide
  case dmaCntL c => revert c; decide
  case dmaCntH c => revert c; decide
  all_goals decide

theorem regAt_all : (allRegs.all fun r => (List.range r.width).all fun o => regAt (r.addr o) == some (r, o)) = true := by
  decide +kernel

/-- Byte `o` of register `r` is at its address, and nowhere is another register. -/
theorem regAt_addr (r : Reg) (o : Nat) (h : o < r.width) : regAt (r.addr o) = some (r, o) := by
  have h1 := List.all_eq_true.1 regAt_all r (mem_allRegs r)
  exact eq_of_beq (List.all_eq_true.1 h1 o (List.mem_range.2 h))

/-- Registers are two or four bytes wide (R130). -/
theorem Reg.width_eq (r : Reg) : r.width = 2 ∨ r.width = 4 := by
  cases r <;> first | exact .inl rfl | exact .inr rfl

/-- An address that decodes gives a byte the register has. -/
theorem regAt_byte {a : Word} {r : Reg} {o : Nat} (h : regAt a = some (r, o)) : o < r.width := by
  unfold regAt at h
  split at h
  · cases h
    rcases r.width_eq with hw | hw <;> rw [hw]
    · have : (a &&& BitVec.ofNat 32 (2 - 1)).toNat ≤ 1 := by rw [BitVec.toNat_and]; exact Nat.and_le_right
      omega
    · have : (a &&& BitVec.ofNat 32 (4 - 1)).toNat ≤ 3 := by rw [BitVec.toNat_and]; exact Nat.and_le_right
      omega
  · cases h

theorem decode_encodeAccess (r : Reg) (a : Access) (h : a.within r.width = true) :
    decode (encodeAccess r a) = some (r.instr a) := by
  cases a with
  | read o => simp only [encodeAccess, decode, regAt_addr r o (of_decide_eq_true h)]
  | write o v => simp only [encodeAccess, decode, regAt_addr r o (of_decide_eq_true h)]

/-- The two views of a register row agree. -/
theorem Reg.regAccess_instr (r : Reg) (a : Access) : (r.instr a).regAccess = some (r, a) := by
  cases r
  case bgcnt b => match b with | 0 => rfl | 1 => rfl | 2 => rfl | 3 => rfl
  case bghofs b => match b with | 0 => rfl | 1 => rfl | 2 => rfl | 3 => rfl
  case bgvofs b => match b with | 0 => rfl | 1 => rfl | 2 => rfl | 3 => rfl
  case bgpa b => match b with | 0 => rfl | 1 => rfl
  case bgpb b => match b with | 0 => rfl | 1 => rfl
  case bgpc b => match b with | 0 => rfl | 1 => rfl
  case bgpd b => match b with | 0 => rfl | 1 => rfl
  case bgx b => match b with | 0 => rfl | 1 => rfl
  case bgy b => match b with | 0 => rfl | 1 => rfl
  case winh b => match b with | 0 => rfl | 1 => rfl
  case winv b => match b with | 0 => rfl | 1 => rfl
  case dmaSad b => match b with | 0 => rfl | 1 => rfl | 2 => rfl | 3 => rfl
  case dmaDad b => match b with | 0 => rfl | 1 => rfl | 2 => rfl | 3 => rfl
  case dmaCntL b => match b with | 0 => rfl | 1 => rfl | 2 => rfl | 3 => rfl
  case dmaCntH b => match b with | 0 => rfl | 1 => rfl | 2 => rfl | 3 => rfl
  all_goals rfl

end Sys2Proof
end

