-- ==== Sys2Proof/Laws/Outcome.lean ====
section
/-! SUPPORT. Sequencing: how an operation built with `andThen`, `doIf` and `finish` answers. -/

namespace Sys2Proof.Machine

@[simp] theorem andThen_next {α β : Type} (a : α) (f : α → Res β) : andThen (.next a) f = f a := rfl

@[simp] theorem andThen_fault {α β : Type} (r : Fault) (f : α → Res β) : andThen (.fault r) f = .fault r := rfl

@[simp] theorem andThen_refused {α β : Type} (r : Refusal) (f : α → Res β) : andThen (.refused r) f = .refused r := rfl

/-- A sequence answers a next state exactly when both of its parts do. -/
theorem andThen_eq_next {α β : Type} {x : Res α} {f : α → Res β} {b : β} :
    andThen x f = .next b ↔ ∃ a, x = .next a ∧ f a = .next b := by
  cases x <;> simp [andThen]

/-- `finish` only sets the result. -/
theorem finish_eq_next {r : Result} {x : Res State} {t : State} :
    finish r x = .next t ↔ ∃ s, x = .next s ∧ t = { s with result := r } := by
  simp only [finish, andThen_eq_next]
  exact ⟨fun ⟨s, h, e⟩ => ⟨s, h, by cases e; rfl⟩, fun ⟨s, h, e⟩ => ⟨s, h, by rw [e]⟩⟩

@[simp] theorem finish_next (r : Result) (s : State) : finish r (.next s) = .next { s with result := r } := rfl

/-- A conditional part either runs or leaves the state alone. -/
theorem doIf_eq_next {b : Bool} {f : State → Res State} {s t : State} :
    doIf b f s = .next t ↔ (b = true ∧ f s = .next t) ∨ (b = false ∧ t = s) := by
  cases b <;> simp [doIf, eq_comm]

@[simp] theorem doIf_true (f : State → Res State) (s : State) : doIf true f s = f s := rfl

@[simp] theorem doIf_false (f : State → Res State) (s : State) : doIf false f s = .next s := rfl

end Sys2Proof.Machine
end

