-- ==== Sys2Proof/Laws/Engine.lean ====
section
/-! SUPPORT. What the recursion can do, said once. `Steady A R` lists the elementary changes the block's operations are made
of, with `A` the instructions the environment's callbacks issue; a relation that holds of each of them holds between the
states before and after every top-level operation in `A`. Invariants are the relations `P s → P t`. -/

namespace Sys2Proof.Machine

/-- Every instruction: what callbacks may issue when nothing is asked of them. -/
def anyInstr (_ : Instr) : Prop := True

theorem callbacksIn_any (e : Env) : e.CallbacksIn anyInstr := fun _ _ _ _ _ _ => trivial

theorem ActsIn.tail {A : Instr → Prop} {act : EnvAct} {rest : List EnvAct} (h : ActsIn A (act :: rest)) : ActsIn A rest :=
  fun r hr => h r (List.mem_cons_of_mem _ hr)

/-- What a callback does is what some row says, or nothing. -/
theorem Env.CallbacksIn.response {A : Instr → Prop} {e : Env} (h : e.CallbacksIn A) (tag : Byte) (late : Nat) :
    ActsIn A (e.response tag late) := by
  unfold Env.response
  split
  · rename_i row hf; exact h row (List.mem_of_find?_eq_some hf)
  · intro r hr; cases hr

/-- The state in which an external callback starts (R207). -/
def enterCallback (e : Event) (rest : List Event) (s : State) : State :=
  let s1 := takeEvent e rest s
  s1.mapEnv fun v => { v with extLog := v.extLog ++ [⟨e.tag, s1.sched.now - e.target, s1.sched.now⟩] }

/-- A relation that holds of every elementary change, where callbacks issue instructions in `A` only. -/
structure Steady (A : Instr → Prop) (R : State → State → Prop) : Prop where
  refl : ∀ s, R s s
  trans : ∀ {a b c}, R a b → R b c → R a c
  allowed : ∀ {s t}, R s t → s.env.CallbacksIn A → t.env.CallbacksIn A
  result : ∀ r s, R s { s with result := r }
  busy : ∀ b s, R s (setBusy b s)
  honour : ∀ s, R s (honourTrigger s)
  complete : ∀ c s, R s (complete c s)
  advance : ∀ n s t, advance n s = .next t → R s t
  openBus : ∀ v s, R s (s.mapDma fun d => { d with openBus := v })
  store : ∀ a v n s, R s (s.mapEnv fun e => { e with mem := e.mem.writeBytes a v n })
  latch : ∀ b s, R s (stepLatch b s)
  register : ∀ r o v s, R s (writeState r o v s)
  arbitrate : ∀ occ s, R s (arbitrate occ s)
  cancel : ∀ h, A (.schCancel h) → ∀ s, R s (cancelEvent h.toNat s)
  stop : ∀ s, R s (stopVideo s)
  add : ∀ d tag s p, addEvent true d tag s = .next p → R s p.2
  phase : ∀ e rest s p, s.sched.queue = e :: rest → e.tag = 0 →
    phaseUpdate ((takeEvent e rest s).sched.now - e.target) (takeEvent e rest s) = .next p → R s p.2
  callback : ∀ e rest s, s.sched.queue = e :: rest → e.tag ≠ 0 → R s (enterCallback e rest s)
  schReset : A .schReset → ∀ s, R s (schedReset s)
  dmaReset : A .dmaReset → ∀ s, R s (dmaReset s)
  ppuReset : A .ppuReset → ∀ s t, ppuReset s = .next t → R s t
  sysReset : A .sysReset → ∀ s t, sysReset s = .next t → R s t

/-- The acts a task still has to do are in `A`. -/
def TaskIn (A : Instr → Prop) (t : Task) : Prop := ∀ acts, t = .callback acts → ActsIn A acts

theorem taskIn_service (A : Instr → Prop) : TaskIn A .service := fun _ h => nomatch h
theorem taskIn_loop (A : Instr → Prop) : TaskIn A .loop := fun _ h => nomatch h
theorem taskIn_units (A : Instr → Prop) (b : Burst) : TaskIn A (.units b) := fun _ h => nomatch h
theorem taskIn_callback {A : Instr → Prop} {acts : List EnvAct} (h : ActsIn A acts) : TaskIn A (.callback acts) := by
  intro x hx; cases hx; exact h

/-- A way of running tasks that answers only related states, where callbacks stay in `A`. -/
def Respects (A : Instr → Prop) (R : State → State → Prop) (self : Runner) : Prop :=
  ∀ t s s', TaskIn A t → s.env.CallbacksIn A → self t s = .next s' → R s s'

variable {A : Instr → Prop} {R : State → State → Prop} (hR : Steady A R)
include hR

theorem Steady.request {self : Runner} (h : Respects A R self) {occ : Occasion} {s t : State} (ha : s.env.CallbacksIn A)
    (e : request self occ s = .next t) : R s t :=
  have k := hR.arbitrate occ s
  hR.trans k (h _ _ _ (taskIn_service A) (hR.allowed k ha) e)

theorem Steady.writeReg {self : Runner} (h : Respects A R self) {r : Reg} {o : Nat} {v : Byte} {s t : State}
    (ha : s.env.CallbacksIn A) (e : writeReg self r o v s = .next t) : R s t := by
  have k := hR.register r o v s
  unfold Machine.writeReg at e
  split at e
  · exact hR.trans k (h _ _ _ (taskIn_service A) (hR.allowed k ha) e)
  · cases e; exact k

theorem Steady.ioWriteByte {self : Runner} (h : Respects A R self) {a : Word} {v : Byte} {s t : State}
    (ha : s.env.CallbacksIn A) (e : ioWriteByte self a v s = .next t) : R s t := by
  unfold Machine.ioWriteByte at e
  split at e
  · exact hR.writeReg h ha e
  · cases e; exact hR.refl s

theorem Steady.ioWriteBytes {self : Runner} (h : Respects A R self) {a v : Word} {n : Nat} {s t : State}
    (ha : s.env.CallbacksIn A) (e : ioWriteBytes self a v n s = .next t) : R s t := by
  induction n generalizing t with
  | zero => cases e; exact hR.refl s
  | succ n ih =>
    obtain ⟨u, h1, h2⟩ := andThen_eq_next.1 e
    exact hR.trans (ih h1) (hR.ioWriteByte h (hR.allowed (ih h1) ha) h2)

theorem Steady.envStore {self : Runner} (h : Respects A R self) {a : Word} {v : Byte} {s t : State}
    (ha : s.env.CallbacksIn A) (e : envStore self a v s = .next t) : R s t := by
  unfold Machine.envStore at e
  split at e
  · exact hR.ioWriteByte h ha e
  · cases e; exact hR.store _ _ _ s

theorem Steady.busWrite {self : Runner} (h : Respects A R self) {b : Burst} {a v : Word} {s t : State}
    (ha : s.env.CallbacksIn A) (e : busWrite self b a v s = .next t) : R s t := by
  obtain ⟨u, h1, h2⟩ := andThen_eq_next.1 e
  refine hR.trans ?_ (hR.advance _ _ _ h2)
  split at h1
  · exact hR.ioWriteBytes h ha h1
  · cases h1; exact hR.store _ _ _ _

theorem Steady.fetchUnit {b : Burst} {s : State} {p : Word × State} (e : fetchUnit b s = .next p) : R s p.2 := by
  simp only [Machine.fetchUnit] at e
  split at e
  · obtain ⟨u, h1, h2⟩ := andThen_eq_next.1 e
    cases h2
    exact hR.trans (hR.advance _ _ _ h1) (hR.openBus _ _)
  · obtain ⟨u, h1, h2⟩ := andThen_eq_next.1 e
    cases h2
    exact hR.advance _ _ _ h1

theorem Steady.moveUnit {self : Runner} (h : Respects A R self) {b : Burst} {s t : State} (ha : s.env.CallbacksIn A)
    (e : moveUnit self b s = .next t) : R s t := by
  obtain ⟨p, h1, h2⟩ := andThen_eq_next.1 e
  obtain ⟨u, h3, h4⟩ := andThen_eq_next.1 h2
  cases h4
  have k := hR.fetchUnit h1
  exact hR.trans k (hR.trans (hR.busWrite h (hR.allowed k ha) h3) (hR.latch b u))

theorem Steady.requests {self : Runner} (h : Respects A R self) {b : Bool} {occ : Occasion} {s t : State}
    (ha : s.env.CallbacksIn A) (e : doIf b (Machine.request self occ) s = .next t) : R s t := by
  rcases doIf_eq_next.1 e with ⟨-, h1⟩ | ⟨-, rfl⟩
  · exact hR.request h ha h1
  · exact hR.refl t

theorem Steady.stepEvent {self : Runner} (h : Respects A R self) {s t : State} (ha : s.env.CallbacksIn A)
    (e : stepEvent self s = .next t) : R s t := by
  unfold Machine.stepEvent at e
  split at e
  · cases e; exact hR.refl s
  · rename_i x rest hq
    simp only [fire] at e
    split at e
    · rename_i htag
      obtain ⟨p, h1, h2⟩ := andThen_eq_next.1 e
      obtain ⟨u, h3, h4⟩ := andThen_eq_next.1 h2
      obtain ⟨w, h5, h6⟩ := andThen_eq_next.1 h4
      have k1 := hR.phase x rest s p hq htag h1
      have k2 := hR.trans k1 (hR.requests h (hR.allowed k1 ha) h3)
      have k3 := hR.trans k2 (hR.requests h (hR.allowed k2 ha) h5)
      exact hR.trans k3 (hR.requests h (hR.allowed k3 ha) h6)
    · rename_i htag
      have k := hR.callback x rest s hq htag
      exact hR.trans k (h _ _ _ (taskIn_callback (Env.CallbacksIn.response (e := (takeEvent x rest s).env) ha _ _))
        (hR.allowed k ha) e)

theorem Steady.issue {self : Runner} (h : Respects A R self) {i : Instr} (hi : A i) {s t : State}
    (ha : s.env.CallbacksIn A) (e : issueInCallback self i s = .next t) : R s t := by
  unfold issueInCallback at e
  split at e
  · unfold accessInCallback at e
    split at e
    · cases e; exact hR.refl s
    · exact hR.writeReg h ha e
  · split at e
    case h_1 =>
      obtain ⟨p, h1, h2⟩ := andThen_eq_next.1 e
      cases h2
      exact hR.add _ _ _ p h1
    case h_2 => cases e; exact hR.cancel _ hi s
    case h_3 => exact hR.stepEvent h ha e
    case h_4 => exact hR.advance _ _ _ e
    all_goals first
      | exact hR.ppuReset hi _ _ e
      | exact hR.sysReset hi _ _ e
      | (cases e; exact hR.refl s)
      | (cases e; exact hR.stop s)
      | (cases e; exact hR.schReset hi s)
      | (cases e; exact hR.dmaReset hi s)
      | (cases e)
      | exact hR.request h ha e
      | exact hR.ioWriteByte h ha e

theorem Steady.taskPass {self : Runner} (h : Respects A R self) : Respects A R (taskPass self) := by
  intro task s t ht ha e
  cases task with
  | service =>
    simp only [Machine.taskPass, servicePass] at e
    split at e
    · cases e; exact hR.refl s
    · have k := hR.busy true s
      exact hR.trans k (h _ _ _ (taskIn_loop A) (hR.allowed k ha) e)
  | loop =>
    simp only [Machine.taskPass, loopPass] at e
    split at e
    · cases e; exact hR.busy false s
    · obtain ⟨u, h1, h2⟩ := andThen_eq_next.1 e
      have k : R s u := by
        unfold run at h1
        split at h1
        · cases h1
        · exact h _ _ _ (taskIn_units A _) ha h1
      exact hR.trans k (h _ _ _ (taskIn_loop A) (hR.allowed k ha) h2)
  | units b =>
    simp only [Machine.taskPass, unitPass] at e
    split at e
    · cases e; exact hR.complete _ s
    · obtain ⟨u, h1, h2⟩ := andThen_eq_next.1 e
      have hu : R s u := by
        rcases doIf_eq_next.1 h1 with ⟨-, h3⟩ | ⟨-, rfl⟩
        · exact hR.stepEvent h ha h3
        · exact hR.refl u
      refine hR.trans hu ?_
      split at h2
      · cases h2; exact hR.honour u
      · obtain ⟨w, h3, h4⟩ := andThen_eq_next.1 h2
        have k := hR.moveUnit h (hR.allowed hu ha) h3
        exact hR.trans k (h _ _ _ (taskIn_units A _) (hR.allowed k (hR.allowed hu ha)) h4)
  | callback acts =>
    have hacts := ht acts rfl
    cases acts with
    | nil => cases e; exact hR.refl s
    | cons act rest =>
      obtain ⟨u, h1, h2⟩ := andThen_eq_next.1 e
      have k : R s u := by
        unfold actInCallback at h1
        split at h1
        · exact hR.envStore h ha h1
        · split at h1
          · cases h1
          · rename_i r _ i hd
            exact hR.issue h (hacts r List.mem_cons_self i hd) ha h1
      exact hR.trans k (h _ _ _ (taskIn_callback hacts.tail) (hR.allowed k ha) h2)

/-- The recursion, whatever its fuel. -/
theorem Steady.go (n : Nat) : Respects A R (go n) := by
  induction n with
  | zero => intro t s s' _ _ e; cases e
  | succ n ih => exact hR.taskPass ih

theorem Steady.finish {r : Result} {x : Res State} {s t : State} (e : finish r x = .next t)
    (h : ∀ u, x = .next u → R s u) : R s t := by
  obtain ⟨u, h1, rfl⟩ := finish_eq_next.1 e
  exact hR.trans (h u h1) (hR.result r u)

theorem Steady.accessReg {r : Reg} {a : Access} {s t : State} (ha : s.env.CallbacksIn A)
    (e : accessReg r a s = .next t) : R s t := by
  unfold Machine.accessReg at e
  split at e
  · split at e
    · exact hR.finish e fun u hu => by cases hu; exact hR.refl s
    · exact hR.finish e fun u hu => hR.writeReg (hR.go _) ha hu
  · cases e

/-- The states before and after a top-level instruction in `A` are related. -/
theorem Steady.exec {i : Instr} (ht : i.topLevel = true) (hi : A i) {s t : State} (ha : s.env.CallbacksIn A)
    (e : exec i s = .next t) : R s t := by
  cases i
  case schAdd tag d =>
    obtain ⟨p, hp, hf⟩ := andThen_eq_next.1 e
    exact hR.trans (hR.add _ _ _ p hp) (hR.finish hf fun u hu => by cases hu; exact hR.refl _)
  case schCancel h => exact Host.Outcome.next.inj e ▸ hR.trans (hR.cancel _ hi s) (hR.result _ _)
  case schRemain => exact Host.Outcome.next.inj e ▸ hR.trans (hR.refl s) (hR.result _ _)
  case schStep => exact hR.finish e fun u hu => hR.stepEvent (hR.go _) ha hu
  case schAdvance n => exact hR.finish e fun u hu => hR.advance _ _ _ hu
  case schNow => exact Host.Outcome.next.inj e ▸ hR.trans (hR.refl s) (hR.result _ _)
  case schReset => exact Host.Outcome.next.inj e ▸ hR.trans (hR.schReset hi s) (hR.result _ _)
  case dmaRequest occ => exact hR.finish e fun u hu => hR.request (hR.go _) ha hu
  case dmaStopvideo =>
    simp only [Machine.exec, execDmaStopvideo, finish_next, Host.Outcome.next.injEq] at e
    exact e ▸ hR.trans (hR.stop s) (hR.result _ _)
  case dmaReset =>
    simp only [Machine.exec, execDmaReset, finish_next, Host.Outcome.next.injEq] at e
    exact e ▸ hR.trans (hR.dmaReset hi s) (hR.result _ _)
  case ppuReset =>
    simp only [Machine.exec, execPpuReset] at e
    exact hR.finish e fun u hu => hR.ppuReset hi s u hu
  case ioRead a =>
    simp only [Machine.exec, execIoRead, finish_next, Host.Outcome.next.injEq] at e
    exact e ▸ hR.trans (hR.refl s) (hR.result _ _)
  case ioWrite a v => exact hR.finish e fun u hu => hR.ioWriteByte (hR.go _) ha hu
  case sysReset =>
    simp only [Machine.exec, execSysReset] at e
    exact hR.finish e fun u hu => hR.sysReset hi s u hu
  all_goals first
    | exact absurd ht Bool.false_ne_true
    | exact hR.accessReg ha e

omit hR in
/-- What a step is: idle, a store of the environment, or the meaning of the decoded instruction, with the act taken off the
list. -/
theorem step_eq_next {s t : State} :
    step s = .next t ↔ (s.env.requests = [] ∧ t = s)
      ∨ (∃ a v rest, s.env.requests = .store a v :: rest
        ∧ Machine.finish .none (Machine.envStore (engine s) a v (s.mapEnv fun e => { e with requests := rest })) = .next t)
      ∨ ∃ r rest i, s.env.requests = .issue r :: rest ∧ decode r = some i ∧ i.topLevel = true
        ∧ Machine.exec i (s.mapEnv fun e => { e with requests := rest }) = .next t := by
  unfold step
  constructor
  · intro h
    split at h
    · rename_i hq
      cases h; exact .inl ⟨hq, rfl⟩
    · rename_i act rest hq
      cases act with
      | store a v => exact .inr (.inl ⟨a, v, rest, hq, h⟩)
      | issue r =>
        dsimp only at h
        split at h
        · cases h
        · rename_i i hd
          split at h
          · rename_i ht; exact .inr (.inr ⟨r, rest, i, hq, hd, ht, h⟩)
          · cases h
  · rintro (⟨hq, rfl⟩ | ⟨a, v, rest, hq, h⟩ | ⟨r, rest, i, hq, hd, ht, h⟩)
    · rw [hq]
    · rw [hq]; exact h
    · rw [hq]; simp only [hd, ht, if_true]; exact h

/-- The states before and after a step are related, up to the act that is taken off the list. -/
theorem Steady.step {s t : State} (ha : s.env.CallbacksIn A)
    (hi : ∀ r rest i, s.env.requests = .issue r :: rest → decode r = some i → A i) (e : step s = .next t) :
    t = s ∨ R (s.mapEnv fun v => { v with requests := s.env.requests.tail }) t := by
  rcases step_eq_next.1 e with ⟨-, rfl⟩ | ⟨a, v, rest, hq, h⟩ | ⟨r, rest, i, hq, hd, ht, h⟩
  · exact .inl rfl
  · right; rw [hq]
    exact hR.finish h fun u hu => hR.envStore (hR.go _) ha hu
  · right; rw [hq]
    exact hR.exec ht (hi r rest i hq hd) ha h

end Sys2Proof.Machine
end

