-- ==== Sys2Proof/Laws/Queue.lean ====
section
/-! SUPPORT. The scheduler: when each operation answers a next state and which one, and that each keeps the queue sound. -/

namespace Sys2Proof.Machine

/-! ### The queue's order -/

theorem Event.before_iff (a b : Event) :
    a.before b = true ↔ a.target < b.target ∨ (a.target = b.target ∧ a.seq < b.seq) := by
  simp [Event.before]

theorem Event.before_trans {a b c : Event} (h1 : a.before b = true) (h2 : b.before c = true) : a.before c = true := by
  rw [Event.before_iff] at *; omega

/-- Of two events with different handles one comes first. -/
theorem Event.before_total {a b : Event} (h : a.seq ≠ b.seq) (hn : ¬a.before b = true) : b.before a = true := by
  rw [Event.before_iff] at hn ⊢; omega

@[simp] theorem mem_insertEvent (e x : Event) (q : List Event) : x ∈ insertEvent e q ↔ x = e ∨ x ∈ q := by
  induction q with
  | nil => simp [insertEvent]
  | cons y q ih =>
    simp only [insertEvent]
    split
    · simp
    · simp only [List.mem_cons, ih]; tauto

@[simp] theorem length_insertEvent (e : Event) (q : List Event) : (insertEvent e q).length = q.length + 1 := by
  induction q with
  | nil => simp [insertEvent]
  | cons y q ih => simp only [insertEvent]; split <;> simp [ih]

/-- Inserting an event is adding it: the queue is a set (R24). -/
theorem perm_insertEvent (e : Event) (q : List Event) : (insertEvent e q).Perm (e :: q) := by
  induction q with
  | nil => exact .refl _
  | cons y q ih =>
    simp only [insertEvent]
    split
    · exact .refl _
    · exact (ih.cons y).trans (.swap e y q)

theorem sorted_insertEvent (e : Event) (q : List Event) (h : q.Pairwise fun a b => a.before b = true)
    (he : ∀ x ∈ q, x.seq ≠ e.seq) : (insertEvent e q).Pairwise fun a b => a.before b = true := by
  induction q with
  | nil => simp [insertEvent]
  | cons y q ih =>
    obtain ⟨h1, h2⟩ := List.pairwise_cons.1 h
    simp only [insertEvent]
    split
    · rename_i hy
      refine List.pairwise_cons.2 ⟨fun x hx => ?_, h⟩
      rcases List.mem_cons.1 hx with rfl | hx
      · exact hy
      · exact Event.before_trans hy (h1 x hx)
    · rename_i hy
      refine List.pairwise_cons.2 ⟨fun x hx => ?_, ih h2 fun x hx => he x (by simp [hx])⟩
      rcases (mem_insertEvent e x q).1 hx with rfl | hx
      · exact Event.before_total (Ne.symm (he y (by simp))) hy
      · exact h1 x hx

/-! ### When the operations answer -/

/-- `Add` answers exactly when none of the six refusals of R201 applies, and then this. -/
theorem addEvent_eq_next {b : Bool} {d : Int} {tag : Byte} {s : State} {p : Nat × State} :
    addEvent b d tag s = .next p ↔
      (0 ≤ d ∧ d ≤ Config.delayMax ∧ s.sched.now + d ≤ Config.nowMax ∧ s.sched.queue.length ≠ s.cfg.qcap
        ∧ s.sched.nextSeq ≠ Config.seqMax ∧ ¬(tag = 0 ∧ b = true))
      ∧ p = (s.sched.nextSeq, { s with sched := s.sched.add d.toNat tag }) := by
  unfold addEvent
  split_ifs with h0 h1 h2 h3 h4 h5
  · exact ⟨nofun, fun h => absurd h.1.1 (by omega)⟩
  · exact ⟨nofun, fun h => absurd h.1.2.1 (by omega)⟩
  · exact ⟨nofun, fun h => absurd h.1.2.2.1 (by omega)⟩
  · exact ⟨nofun, fun h => absurd h3 h.1.2.2.2.1⟩
  · exact ⟨nofun, fun h => absurd h4 h.1.2.2.2.2.1⟩
  · exact ⟨nofun, fun h => absurd h5 h.1.2.2.2.2.2⟩
  · exact ⟨fun h => ⟨⟨by omega, by omega, by omega, h3, h4, h5⟩, by cases h; rfl⟩, fun h => by rw [h.2]⟩

/-- `Add` under conditions on the state and operands alone. -/
theorem addEvent_next {b : Bool} {d : Int} {tag : Byte} {s : State} (h0 : 0 ≤ d) (h1 : d ≤ Config.delayMax)
    (h2 : s.sched.now + d ≤ Config.nowMax) (h3 : s.sched.queue.length ≠ s.cfg.qcap)
    (h4 : s.sched.nextSeq ≠ Config.seqMax) (h5 : ¬(tag = 0 ∧ b = true)) :
    addEvent b d tag s = .next (s.sched.nextSeq, { s with sched := s.sched.add d.toNat tag }) :=
  addEvent_eq_next.2 ⟨⟨h0, h1, h2, h3, h4, h5⟩, rfl⟩

/-- `Advance` answers exactly when the clock stays inside its width. -/
theorem advance_eq_next {n : Nat} {s t : State} :
    advance n s = .next t ↔
      s.sched.now + n ≤ Config.nowMax ∧ t = { s with sched := { s.sched with now := s.sched.now + n } } := by
  unfold advance
  split_ifs with h
  · exact ⟨nofun, fun hn => absurd hn.1 (by omega)⟩
  · exact ⟨fun hn => ⟨by omega, by cases hn; rfl⟩, fun hn => by rw [hn.2]⟩

/-! ### Soundness of the queue -/

theorem Sched.Sound.add {s : Sched} {q d : Nat} (h : s.Sound q) (tag : Byte) (h2 : s.now + d ≤ Config.nowMax)
    (h3 : s.queue.length ≠ q) (h4 : s.nextSeq ≠ Config.seqMax) : (s.add d tag).Sound q where
  sorted := sorted_insertEvent _ _ h.sorted fun x hx => by have := h.issued x hx; simp only; omega
  unique := by
    have hp := (perm_insertEvent ⟨s.now + d, s.nextSeq, tag⟩ s.queue).map fun e => e.seq
    refine hp.nodup_iff.2 ?_
    simp only [List.map_cons, List.nodup_cons]
    refine ⟨fun hm => ?_, h.unique⟩
    obtain ⟨x, hx, he⟩ := List.mem_map.1 hm
    have := h.issued x hx
    omega
  issued := by
    intro e he
    rcases (mem_insertEvent _ _ _).1 he with rfl | he
    · simp [Sched.add]
    · have := h.issued e he; simp only [Sched.add]; omega
  capacity := by have := h.capacity; simp only [Sched.add, length_insertEvent]; omega
  clock := h.clock
  targets := by
    intro e he
    rcases (mem_insertEvent _ _ _).1 he with rfl | he
    · exact h2
    · exact h.targets e he
  counter := by have := h.counter; simp only [Sched.add]; omega

theorem Sched.Sound.filter {s : Sched} {q : Nat} (h : s.Sound q) (p : Event → Bool) :
    Sched.Sound { s with queue := s.queue.filter p } q where
  sorted := h.sorted.filter _
  unique := (List.filter_sublist.map _).nodup h.unique
  issued := fun e he => h.issued e (List.mem_filter.1 he).1
  capacity := le_trans (List.length_filter_le _ _) h.capacity
  clock := h.clock
  targets := fun e he => h.targets e (List.mem_filter.1 he).1
  counter := h.counter

theorem Sched.Sound.withNow {s : Sched} {q n : Nat} (h : s.Sound q) (hn : n ≤ Config.nowMax) :
    Sched.Sound { s with now := n } q where
  sorted := h.sorted
  unique := h.unique
  issued := h.issued
  capacity := h.capacity
  clock := hn
  targets := h.targets
  counter := h.counter

/-- Taking the earliest event keeps the queue sound. -/
theorem Sched.Sound.take {s : Sched} {q : Nat} {e : Event} {rest : List Event} (h : s.Sound q)
    (hq : s.queue = e :: rest) : Sched.Sound { s with queue := rest, now := max s.now e.target } q where
  sorted := (List.pairwise_cons.1 (hq ▸ h.sorted)).2
  unique := by
    have hu := h.unique
    rw [hq, List.map_cons, List.nodup_cons] at hu
    exact hu.2
  issued := fun x hx => h.issued x (by simp [hq, hx])
  capacity := by have := h.capacity; rw [hq, List.length_cons] at this; simp only; omega
  clock := max_le h.clock (h.targets e (by simp [hq]))
  targets := fun x hx => h.targets x (by simp [hq, hx])
  counter := h.counter

/-- The empty queue is sound. -/
theorem Sched.Sound.empty (q : Nat) : Sched.Sound ⟨0, [], 0⟩ q := by
  constructor <;> simp

/-- Another event never has the earliest event's handle. -/
theorem Sched.Sound.rest_seq_ne {s : Sched} {q : Nat} {e : Event} {rest : List Event} (h : s.Sound q)
    (hq : s.queue = e :: rest) : ∀ x ∈ rest, x.seq ≠ e.seq := by
  intro x hx he
  have hu := h.unique
  rw [hq, List.map_cons, List.nodup_cons] at hu
  exact hu.1 (he ▸ List.mem_map.2 ⟨x, hx, rfl⟩)

end Sys2Proof.Machine
end

