-- ==== Sys2Proof/Laws/Frames.lean ====
section
/-! SUPPORT. What each shared operation leaves alone. -/

namespace Sys2Proof.Machine

/-- Only the DMA controller may differ. -/
structure DmaOnly (s t : State) : Prop where
  sched : t.sched = s.sched
  timing : t.timing = s.timing
  regs : t.regs = s.regs
  fb : t.fb = s.fb
  env : t.env = s.env
  cfg : t.cfg = s.cfg
  result : t.result = s.result

theorem DmaOnly.refl (s : State) : DmaOnly s s := ⟨rfl, rfl, rfl, rfl, rfl, rfl, rfl⟩

theorem DmaOnly.trans {s t u : State} (h : DmaOnly s t) (k : DmaOnly t u) : DmaOnly s u :=
  ⟨k.sched.trans h.sched, k.timing.trans h.timing, k.regs.trans h.regs, k.fb.trans h.fb, k.env.trans h.env,
    k.cfg.trans h.cfg, k.result.trans h.result⟩

theorem dmaOnly_mapDma (f : Dma → Dma) (s : State) : DmaOnly s (s.mapDma f) := ⟨rfl, rfl, rfl, rfl, rfl, rfl, rfl⟩

theorem dmaOnly_mapChan (c : Chan) (f : Channel → Channel) (s : State) : DmaOnly s (s.mapChan c f) :=
  ⟨rfl, rfl, rfl, rfl, rfl, rfl, rfl⟩

theorem dmaOnly_selectNext (s : State) : DmaOnly s (selectNext s) := dmaOnly_mapDma _ s

theorem dmaOnly_tryStart (c : Chan) (s : State) : DmaOnly s (tryStart c s) := dmaOnly_mapDma _ s

theorem dmaOnly_startSet (S : ChanSet) (s : State) : DmaOnly s (startSet S s) := by
  unfold startSet
  split
  · exact .refl s
  · exact (dmaOnly_tryStart _ s).trans (dmaOnly_mapDma _ _)

theorem dmaOnly_tryFifo (occ : Occasion) (c : Chan) (s : State) : DmaOnly s (tryFifo occ c s) := by
  unfold tryFifo
  split
  · exact dmaOnly_tryStart c s
  · exact .refl s

theorem dmaOnly_arbitrate (occ : Occasion) (s : State) : DmaOnly s (arbitrate occ s) := by
  cases occ
  · exact dmaOnly_startSet _ s
  · exact dmaOnly_startSet _ s
  · exact dmaOnly_startSet _ s
  · exact (dmaOnly_tryFifo .fifoA 1 s).trans (dmaOnly_tryFifo .fifoA 2 _)
  · exact (dmaOnly_tryFifo .fifoB 1 s).trans (dmaOnly_tryFifo .fifoB 2 _)

theorem dmaOnly_leaveSets (c : Chan) (s : State) : DmaOnly s (leaveSets c s) := dmaOnly_mapDma _ s

theorem dmaOnly_derive (c : Chan) (s : State) : DmaOnly s (derive c s) := dmaOnly_mapDma _ s

theorem dmaOnly_disableChannel (c : Chan) (s : State) : DmaOnly s (disableChannel c s) :=
  ⟨rfl, rfl, rfl, rfl, rfl, rfl, rfl⟩

theorem dmaOnly_stopVideo (s : State) : DmaOnly s (stopVideo s) := by
  unfold stopVideo
  split
  · exact dmaOnly_disableChannel 3 s
  · exact .refl s

theorem dmaOnly_configure (c : Chan) (was : Bool) (s : State) : DmaOnly s (configure c was s) := by
  have h := (dmaOnly_leaveSets c s).trans (dmaOnly_derive c _)
  simp only [configure]
  split_ifs
  · exact h
  · exact (h.trans (dmaOnly_mapChan c _ _)).trans (dmaOnly_tryStart c _)
  · exact h.trans (dmaOnly_mapChan c _ _)
  · exact (dmaOnly_leaveSets c s).trans (dmaOnly_disableChannel c _)

theorem dmaOnly_honourTrigger (s : State) : DmaOnly s (honourTrigger s) := ⟨rfl, rfl, rfl, rfl, rfl, rfl, rfl⟩

theorem dmaOnly_stepLatch (b : Burst) (s : State) : DmaOnly s (stepLatch b s) := dmaOnly_mapChan _ _ s

/-- `Complete` changes the controller and adds at most one interrupt (R238, R245). -/
theorem complete_frame (c : Chan) (s : State) :
    DmaOnly (raiseIf (ctrlIrq (s.chan c).ctrl) .dma c.val s) (complete c s) := by
  have h : raiseIf (ctrlIrq ((leaveRunnable c s).chan c).ctrl) .dma c.val (leaveRunnable c s)
      = leaveRunnable c (raiseIf (ctrlIrq (s.chan c).ctrl) .dma c.val s) := by
    have hc : (leaveRunnable c s).chan c = s.chan c := rfl
    rw [hc]; unfold raiseIf; split <;> rfl
  simp only [complete, h]
  generalize raiseIf _ _ _ _ = s2
  have h2 : DmaOnly s2 (leaveRunnable c s2) := dmaOnly_mapDma _ s2
  split
  · exact (h2.trans (dmaOnly_mapChan c _ _)).trans (dmaOnly_selectNext _)
  · exact ((h2.trans (dmaOnly_mapChan c _ _)).trans (dmaOnly_leaveSets c _)).trans (dmaOnly_selectNext _)

/-- Raising an interrupt appends to the log and does nothing else (R522). -/
theorem raiseIf_frame (b : Bool) (src : IrqSource) (i : Nat) (s : State) :
    raiseIf b src i s = s.mapEnv fun e => { e with irqLog := e.irqLog ++ (if b then [⟨src, i, s.sched.now⟩] else []) } := by
  cases b <;> simp [raiseIf, raise, State.mapEnv]

/-! ### Register writes -/

/-- A register write leaves the scheduler, the framebuffer, the environment, the parameters and the position alone. -/
structure WriteFrame (s t : State) : Prop where
  sched : t.sched = s.sched
  fb : t.fb = s.fb
  env : t.env = s.env
  cfg : t.cfg = s.cfg
  result : t.result = s.result
  phase : t.timing.phase = s.timing.phase
  scanline : t.timing.scanline = s.timing.scanline
  vblankFlag : t.timing.vblankFlag = s.timing.vblankFlag
  hblankFlag : t.timing.hblankFlag = s.timing.hblankFlag
  vcountFlag : t.timing.vcountFlag = s.timing.vcountFlag
  ppuEvent : t.timing.ppuEvent = s.timing.ppuEvent

theorem writeFrame_setStored (r : Reg) (v : Word) (s : State) : WriteFrame s (setStored r v s) := by
  cases r <;> exact ⟨rfl, rfl, rfl, rfl, rfl, rfl, rfl, rfl, rfl, rfl, rfl⟩

theorem WriteFrame.dmaOnly {s t u : State} (h : WriteFrame s t) (k : DmaOnly t u) : WriteFrame s u :=
  ⟨k.sched.trans h.sched, k.fb.trans h.fb, k.env.trans h.env, k.cfg.trans h.cfg, k.result.trans h.result,
    by rw [k.timing, h.phase], by rw [k.timing, h.scanline], by rw [k.timing, h.vblankFlag],
    by rw [k.timing, h.hblankFlag], by rw [k.timing, h.vcountFlag], by rw [k.timing, h.ppuEvent]⟩

theorem writeFrame_writeState (r : Reg) (o : Nat) (v : Byte) (s : State) : WriteFrame s (writeState r o v s) := by
  have h := writeFrame_setStored r (newStored r o v s) s
  cases r
  case dmaCntH c => exact h.dmaOnly (dmaOnly_configure c _ _)
  all_goals exact ⟨h.sched, h.fb, h.env, h.cfg, h.result, h.phase, h.scanline, h.vblankFlag, h.hblankFlag,
    h.vcountFlag, h.ppuEvent⟩

/-- A write of a PPU register leaves the DMA controller alone. -/
theorem writeState_dma_of_ppu (r : Reg) (o : Nat) (v : Byte) (s : State) (h : r.isDma = false) :
    (writeState r o v s).dma = s.dma := by
  cases r <;> first | rfl | cases h

/-- A write of a DMA register leaves the PPU alone. -/
theorem writeState_ppu_of_dma (r : Reg) (o : Nat) (v : Byte) (s : State) (h : r.isDma = true) :
    (writeState r o v s).regs = s.regs ∧ (writeState r o v s).timing = s.timing := by
  cases r
  case dmaCntH c =>
    have k := dmaOnly_configure c (ctrlEnable (s.chan c).ctrl) (storeByte (.dmaCntH c) o v s)
    exact ⟨k.regs, k.timing⟩
  all_goals first | exact ⟨rfl, rfl⟩ | cases h

/-! ### Phase transitions -/

/-- The state updates of the handler leave the scheduler, the DMA controller, the environment and the parameters alone. -/
structure TimingFrame (s t : State) : Prop where
  sched : t.sched = s.sched
  dma : t.dma = s.dma
  env : t.env = s.env
  cfg : t.cfg = s.cfg
  result : t.result = s.result
  ppuEvent : t.timing.ppuEvent = s.timing.ppuEvent

theorem timingFrame_transition (s : State) : TimingFrame s (transition s).1 := by
  simp only [transition]
  split
  · exact ⟨rfl, rfl, rfl, rfl, rfl, rfl⟩
  · exact ⟨rfl, rfl, rfl, rfl, rfl, rfl⟩
  · split <;> exact ⟨rfl, rfl, rfl, rfl, rfl, rfl⟩
  · exact ⟨rfl, rfl, rfl, rfl, rfl, rfl⟩
  · split <;> exact ⟨rfl, rfl, rfl, rfl, rfl, rfl⟩

/-- The interrupts of one handler run, in their order (R525). -/
def phaseRaises (fx : PhaseEffects) (irqC : Bool) (s : State) : State :=
  raiseIf irqC .vcount 0 (raiseIf fx.irqH .hblank 0 (raiseIf fx.irqV .vblank 0 s))

theorem phaseRaises_frame (fx : PhaseEffects) (irqC : Bool) (s : State) :
    ∃ l, phaseRaises fx irqC s = s.mapEnv fun e => { e with irqLog := e.irqLog ++ l } := by
  refine ⟨(if fx.irqV then [⟨.vblank, 0, s.sched.now⟩] else []) ++ (if fx.irqH then [⟨.hblank, 0, s.sched.now⟩] else [])
    ++ (if irqC then [⟨.vcount, 0, s.sched.now⟩] else []), ?_⟩
  simp [phaseRaises, raiseIf_frame, State.mapEnv]

/-- What the state part of the handler answers (R293). -/
theorem phaseUpdate_eq_next {late : Nat} {s : State} {p : PhaseEffects × State} :
    phaseUpdate late s = .next p ↔
      ∃ q, addEvent false (((transition s).1.timing.phase.dur : Int) - late) 0 (setVcountFlag (transition s).1) = .next q
        ∧ p = ((transition s).2,
          let s4 := phaseRaises (transition s).2 (vcountRaises (transition s).1.timing) (setPpuEvent q.1 q.2)
          if (transition s).2.stopVideo then stopVideo s4 else s4) := by
  unfold phaseUpdate
  obtain ⟨s1, fx⟩ := transition s
  simp only [andThen_eq_next, phaseRaises]
  exact ⟨fun ⟨q, h, e⟩ => ⟨q, h, by cases e; rfl⟩, fun ⟨q, h, e⟩ => ⟨q, h, by rw [e]⟩⟩

end Sys2Proof.Machine
end

