-- ==== Sys2Proof/Laws/Memory.lean ====
section
/-! SUPPORT. Memory: a read after a write, and the canonical form every operation keeps. -/

namespace Sys2Proof.Machine

/-! ### One byte -/

@[simp] theorem Mem.read_nil (a : Nat) : Mem.read [] a = unlistedByte := rfl

theorem Mem.read_cons (k : Nat) (v : Byte) (m : Mem) (a : Nat) :
    Mem.read ((k, v) :: m) a = if k = a then v else Mem.read m a := rfl

theorem Mem.read_insert (m : Mem) (a b : Nat) (v : Byte) (h : ∀ c ∈ m, c.1 ≠ a) :
    Mem.read (Mem.insert a v m) b = if a = b then v else Mem.read m b := by
  induction m with
  | nil => simp [Mem.insert, Mem.read_cons]
  | cons c m ih =>
    obtain ⟨k, w⟩ := c
    have hk : k ≠ a := h (k, w) (by simp)
    have hm : ∀ c ∈ m, c.1 ≠ a := fun c hc => h c (by simp [hc])
    simp only [Mem.insert]
    split
    · simp [Mem.read_cons]
    · simp only [Mem.read_cons, ih hm]
      by_cases hab : a = b
      · subst hab; simp [hk]
      · simp [hab]

theorem Mem.read_erase (m : Mem) (a b : Nat) :
    Mem.read (Mem.erase m a) b = if a = b then unlistedByte else Mem.read m b := by
  induction m with
  | nil => simp [Mem.erase]
  | cons c m ih =>
    obtain ⟨k, w⟩ := c
    simp only [Mem.erase] at ih
    simp only [Mem.erase, List.filter_cons]
    by_cases hk : k = a
    · subst hk
      simp only [bne_self_eq_false, Bool.false_eq_true, if_false, ih, Mem.read_cons]
      split <;> simp_all
    · simp only [bne_iff_ne, ne_eq, hk, not_false_eq_true, if_true, Mem.read_cons, ih]
      by_cases hkb : k = b
      · subst hkb; simp [Ne.symm hk]
      · simp [hkb]

theorem Mem.erase_ne (m : Mem) (a : Nat) : ∀ c ∈ Mem.erase m a, c.1 ≠ a := by
  intro c hc
  simpa [Mem.erase] using (List.mem_filter.1 hc).2

/-- A read after a write. -/
theorem Mem.read_write (m : Mem) (a b : Nat) (v : Byte) :
    (m.write a v).read b = if a = b then v else m.read b := by
  unfold Mem.write
  split
  · rename_i h
    rw [Mem.read_erase]; split <;> simp [*]
  · rw [Mem.read_insert _ _ _ _ (Mem.erase_ne m a), Mem.read_erase]
    split <;> simp [*]

@[simp] theorem Mem.read_write_same (m : Mem) (a : Nat) (v : Byte) : (m.write a v).read a = v := by
  simp [Mem.read_write]

theorem Mem.read_write_other (m : Mem) {a b : Nat} (v : Byte) (h : a ≠ b) : (m.write a v).read b = m.read b := by
  simp [Mem.read_write, h]

/-- A store of several bytes leaves every other byte alone. -/
theorem Mem.read_writeBytes_other (m : Mem) (a v : Word) (n b : Nat) (h : ∀ i < n, byteAddr a i ≠ b) :
    (m.writeBytes a v n).read b = m.read b := by
  induction n with
  | zero => rfl
  | succ n ih =>
    rw [Mem.writeBytes, Mem.read_write_other _ _ (h n (by omega))]
    exact ih fun i hi => h i (by omega)

/-- Bytes of one access are at different addresses. -/
theorem byteAddr_inj (a : Word) {i j : Nat} (hi : i < 4) (hj : j < 4) (h : byteAddr a i = byteAddr a j) : i = j := by
  have hi' : (BitVec.ofNat 32 i).toNat = i := by simp; omega
  have hj' : (BitVec.ofNat 32 j).toNat = j := by simp; omega
  have h' : a + BitVec.ofNat 32 i = a + BitVec.ofNat 32 j := BitVec.eq_of_toNat_eq h
  have := congrArg BitVec.toNat ((BitVec.add_right_inj a).1 h')
  omega

/-- A store of at most 4 bytes puts byte `i` of the value at byte `i` of the access. -/
theorem Mem.read_writeBytes (m : Mem) (a v : Word) (n i : Nat) (hn : n ≤ 4) (hi : i < n) :
    (m.writeBytes a v n).read (byteAddr a i) = byteOf v i := by
  induction n with
  | zero => omega
  | succ n ih =>
    rw [Mem.writeBytes, Mem.read_write]
    by_cases h : i = n
    · subst h; simp
    · rw [if_neg fun hc => h (byteAddr_inj a (by omega) (by omega) hc).symm]
      exact ih (by omega) (by omega)

/-! ### The canonical form -/

/-- The form in one line: addresses rising, inside the space, no entry that reads as an unlisted address does. -/
theorem Mem.wf_iff (m : Mem) :
    m.wf = true ↔ m.Pairwise (fun a b => a.1 < b.1) ∧ ∀ c ∈ m, c.1 < 2 ^ 32 ∧ c.2 ≠ unlistedByte := by
  match m with
  | [] => simp [Mem.wf]
  | [(a, v)] => simp [Mem.wf]
  | (a, v) :: (b, w) :: rest =>
    have ih := Mem.wf_iff ((b, w) :: rest)
    simp only [Mem.wf, Bool.and_eq_true, decide_eq_true_eq, bne_iff_ne, ne_eq, ih]
    constructor
    · rintro ⟨⟨hab, hv⟩, hp, hall⟩
      refine ⟨List.pairwise_cons.2 ⟨?_, hp⟩, ?_⟩
      · intro c hc
        rcases List.mem_cons.1 hc with rfl | hc
        · exact hab
        · exact lt_trans hab ((List.pairwise_cons.1 hp).1 c hc)
      · intro c hc
        rcases List.mem_cons.1 hc with rfl | hc
        · exact ⟨lt_trans hab (hall (b, w) (by simp)).1, hv⟩
        · exact hall c hc
    · rintro ⟨hp, hall⟩
      obtain ⟨h1, h2⟩ := List.pairwise_cons.1 hp
      exact ⟨⟨h1 (b, w) (by simp), (hall (a, v) (by simp)).2⟩, h2, fun c hc => hall c (by simp [hc])⟩

theorem Mem.mem_insert (m : Mem) (a : Nat) (v : Byte) (c : Host.Cell) :
    c ∈ Mem.insert a v m ↔ c = (a, v) ∨ c ∈ m := by
  induction m with
  | nil => simp [Mem.insert]
  | cons d m ih =>
    obtain ⟨k, w⟩ := d
    simp only [Mem.insert]
    split
    · simp
    · simp only [List.mem_cons, ih]; tauto

theorem Mem.insert_pairwise (m : Mem) (a : Nat) (v : Byte) (h : m.Pairwise fun a b => a.1 < b.1)
    (ha : ∀ c ∈ m, c.1 ≠ a) : (Mem.insert a v m).Pairwise fun a b => a.1 < b.1 := by
  induction m with
  | nil => simp [Mem.insert]
  | cons d m ih =>
    obtain ⟨k, w⟩ := d
    obtain ⟨h1, h2⟩ := List.pairwise_cons.1 h
    have hk : k ≠ a := ha (k, w) (by simp)
    simp only [Mem.insert]
    split
    · rename_i hlt
      refine List.pairwise_cons.2 ⟨fun c hc => ?_, h⟩
      rcases List.mem_cons.1 hc with rfl | hc
      · exact hlt
      · exact lt_trans hlt (h1 c hc)
    · refine List.pairwise_cons.2 ⟨fun c hc => ?_, ih h2 fun c hc => ha c (by simp [hc])⟩
      rcases (Mem.mem_insert m a v c).1 hc with rfl | hc
      · simp only; omega
      · exact h1 c hc

/-- A write keeps the canonical form. -/
theorem Mem.wf_write (m : Mem) (a : Nat) (v : Byte) (h : m.wf = true) (ha : a < 2 ^ 32) : (m.write a v).wf = true := by
  rw [Mem.wf_iff] at h ⊢
  obtain ⟨hp, hall⟩ := h
  have hpe : (m.erase a).Pairwise fun a b => a.1 < b.1 := hp.filter _
  have halle : ∀ c ∈ m.erase a, c.1 < 2 ^ 32 ∧ c.2 ≠ unlistedByte := fun c hc => hall c (List.mem_filter.1 hc).1
  unfold Mem.write
  split
  · exact ⟨hpe, halle⟩
  · rename_i hv
    refine ⟨Mem.insert_pairwise _ _ _ hpe (Mem.erase_ne m a), fun c hc => ?_⟩
    rcases (Mem.mem_insert _ _ _ _).1 hc with rfl | hc
    · exact ⟨ha, hv⟩
    · exact halle c hc

/-- A store of several bytes keeps the canonical form. -/
theorem Mem.wf_writeBytes (m : Mem) (a v : Word) (n : Nat) (h : m.wf = true) : (m.writeBytes a v n).wf = true := by
  induction n with
  | zero => exact h
  | succ n ih => exact Mem.wf_write _ _ _ ih (BitVec.isLt _)

/-- Memory after reset has the canonical form. -/
theorem Mem.wf_reset : State.reset.env.mem.wf = true := rfl

end Sys2Proof.Machine
end

