-- ==== Sys2Proof/Laws/Invariants.lean ====
section
/-! SUPPORT. The relations every elementary change respects (`Steady`): the clock, the parameters, the logs, and each
invariant of Safety.lean. -/

namespace Sys2Proof.Machine

/-! ### The reset of the PPU, field by field -/

theorem cancelPhaseEvent_eq (s : State) :
    cancelPhaseEvent s = s ∧ (∀ e ∈ s.sched.queue, e.tag = 0 → e.seq ≠ s.timing.ppuEvent)
      ∨ cancelPhaseEvent s = cancelEvent s.timing.ppuEvent s := by
  unfold cancelPhaseEvent
  split
  · exact .inr rfl
  · rename_i h
    refine .inl ⟨rfl, fun e he ht hs => h (List.any_eq_true.2 ⟨e, he, by simp [ht, hs]⟩)⟩

/-- What `PpuReset()` leaves (R562). -/
structure PpuResetFrame (s t : State) : Prop where
  clock : s.sched.now + 960 ≤ Config.nowMax
  room : (cancelPhaseEvent s).sched.queue.length ≠ s.cfg.qcap
  handle : s.sched.nextSeq ≠ Config.seqMax
  sched : t.sched = (cancelPhaseEvent s).sched.add 960 0
  timing : t.timing = Timing.reset s.sched.nextSeq
  regs : t.regs = PpuRegs.reset
  fb : t.fb = blankFb (colorOut s.cfg 0)
  dma : t.dma = s.dma
  env : t.env = s.env
  cfg : t.cfg = s.cfg
  result : t.result = s.result

theorem ppuReset_frame {s t : State} (h : ppuReset s = .next t) : PpuResetFrame s t := by
  obtain ⟨p, hp, ht⟩ := andThen_eq_next.1 h
  cases ht
  obtain ⟨⟨-, -, h2, h3, h4, -⟩, rfl⟩ := addEvent_eq_next.1 hp
  rcases cancelPhaseEvent_eq s with ⟨hc, -⟩ | hc
  · rw [hc] at h2 h3 h4 ⊢
    have h2' : (s.sched.now : Int) + 960 ≤ Config.nowMax := h2
    exact ⟨by omega, by rw [hc]; exact h3, h4, by rw [hc]; rfl, rfl, rfl, rfl, rfl, rfl, rfl, rfl⟩
  · rw [hc] at h2 h3 h4 ⊢
    have h2' : (s.sched.now : Int) + 960 ≤ Config.nowMax := h2
    exact ⟨by omega, by rw [hc]; exact h3, h4, by rw [hc]; rfl, rfl, rfl, rfl, rfl, rfl, rfl, rfl⟩

/-- `SysReset()` is the three resets in order (R563): a relation that holds of each holds of it. -/
theorem sysReset_trans {R : State → State → Prop} (trans : ∀ {a b c}, R a b → R b c → R a c) (sch : ∀ s, R s (schedReset s))
    (dma : ∀ s, R s (dmaReset s)) (ppu : ∀ s t, ppuReset s = .next t → R s t) (s t : State) (h : sysReset s = .next t) :
    R s t :=
  trans (trans (sch s) (dma _)) (ppu _ _ h)

/-! ### The state part of the phase handler, field by field -/

/-- What the state part of the handler leaves, before video capture is stopped (R293): `d` is the delay of the next phase
event. -/
structure PhaseFrame (late d : Nat) (s u : State) : Prop where
  delay : ((transition s).1.timing.phase.dur : Int) - late = d
  clock : s.sched.now + d ≤ Config.nowMax
  room : s.sched.queue.length ≠ s.cfg.qcap
  handle : s.sched.nextSeq ≠ Config.seqMax
  sched : u.sched = s.sched.add d 0
  timing : u.timing = { (setVcountFlag (transition s).1).timing with ppuEvent := s.sched.nextSeq }
  regs : u.regs = (transition s).1.regs
  fb : u.fb = (transition s).1.fb
  cfg : u.cfg = s.cfg
  result : u.result = s.result
  dma : u.dma = s.dma
  env : ∃ l, u.env = { s.env with irqLog := s.env.irqLog ++ l }

theorem phaseUpdate_frame {late : Nat} {s : State} {p : PhaseEffects × State} (h : phaseUpdate late s = .next p) :
    ∃ d u, PhaseFrame late d s u ∧ p = ((transition s).2, if (transition s).2.stopVideo then stopVideo u else u) := by
  obtain ⟨q, hq, rfl⟩ := phaseUpdate_eq_next.1 h
  obtain ⟨⟨h0, -, h2, h3, h4, -⟩, rfl⟩ := addEvent_eq_next.1 hq
  have tf := timingFrame_transition s
  have hs : (setVcountFlag (transition s).1).sched = s.sched := tf.sched
  have hc : (setVcountFlag (transition s).1).cfg = s.cfg := tf.cfg
  obtain ⟨l, hl⟩ := phaseRaises_frame (transition s).2 (vcountRaises (transition s).1.timing)
    (setPpuEvent (setVcountFlag (transition s).1).sched.nextSeq
      { setVcountFlag (transition s).1 with
        sched := (setVcountFlag (transition s).1).sched.add
          (((transition s).1.timing.phase.dur : Int) - late).toNat 0 })
  refine ⟨(((transition s).1.timing.phase.dur : Int) - late).toNat, _, ?_, rfl⟩
  rw [hs] at h2 h3 h4
  rw [hc] at h3
  rw [hl, hs]
  refine ⟨by omega, by omega, h3, h4, rfl, rfl, rfl, rfl, hc, tf.result, tf.dma, l, ?_⟩
  show ({ (transition s).1.env with irqLog := (transition s).1.env.irqLog ++ l } : Env) = _
  rw [tf.env]

/-- Stopping video capture changes the DMA controller alone. -/
theorem dmaOnly_ite_stopVideo (b : Bool) (u : State) : DmaOnly u (if b then stopVideo u else u) := by
  cases b
  · exact .refl u
  · exact dmaOnly_stopVideo u

/-! ### The clock, the parameters, the logs -/

/-- The instruction does not set the clock back (R560, R563). -/
def keepsClock (i : Instr) : Prop := i ≠ .schReset ∧ i ≠ .sysReset

/-- R211: the clock never goes back, where no callback resets it; the callbacks stay the same. -/
theorem steady_clock : Steady keepsClock fun s t => s.sched.now ≤ t.sched.now ∧ t.env.callbacks = s.env.callbacks where
  refl _ := ⟨le_refl _, rfl⟩
  trans h k := ⟨le_trans h.1 k.1, k.2.trans h.2⟩
  allowed h k := by unfold Env.CallbacksIn; rw [h.2]; exact k
  result _ _ := ⟨le_refl _, rfl⟩
  busy _ _ := ⟨le_refl _, rfl⟩
  honour _ := ⟨le_refl _, rfl⟩
  complete c s := by
    have h := complete_frame c s
    rw [h.sched, h.env, raiseIf_frame]; exact ⟨le_refl _, rfl⟩
  advance n s t h := by obtain ⟨-, rfl⟩ := advance_eq_next.1 h; exact ⟨Nat.le_add_right _ _, rfl⟩
  openBus _ _ := ⟨le_refl _, rfl⟩
  store _ _ _ _ := ⟨le_refl _, rfl⟩
  latch _ _ := ⟨le_refl _, rfl⟩
  register r o v s := by
    rw [(writeFrame_writeState r o v s).sched, (writeFrame_writeState r o v s).env]; exact ⟨le_refl _, rfl⟩
  arbitrate occ s := by rw [(dmaOnly_arbitrate occ s).sched, (dmaOnly_arbitrate occ s).env]; exact ⟨le_refl _, rfl⟩
  cancel _ _ _ := ⟨le_refl _, rfl⟩
  stop s := by rw [(dmaOnly_stopVideo s).sched, (dmaOnly_stopVideo s).env]; exact ⟨le_refl _, rfl⟩
  add d tag s p h := by obtain ⟨-, rfl⟩ := addEvent_eq_next.1 h; exact ⟨le_refl _, rfl⟩
  phase e rest s p _ _ h := by
    obtain ⟨d, u, hf, rfl⟩ := phaseUpdate_frame h
    obtain ⟨l, hl⟩ := hf.env
    simp only [(dmaOnly_ite_stopVideo _ u).sched, (dmaOnly_ite_stopVideo _ u).env, hf.sched, hl]
    exact ⟨le_max_left _ _, rfl⟩
  callback e rest s _ _ := ⟨le_max_left _ _, rfl⟩
  schReset h := absurd rfl h.1
  dmaReset _ _ := ⟨le_refl _, rfl⟩
  ppuReset _ s _ h := by
    have hf := ppuReset_frame h
    rw [hf.sched, hf.env]
    rcases cancelPhaseEvent_eq s with ⟨hc, -⟩ | hc <;> rw [hc] <;> exact ⟨le_refl _, rfl⟩
  sysReset h := absurd rfl h.2

/-- No operation writes the parameters (R8, R9). -/
theorem steady_cfg : Steady anyInstr fun s t => t.cfg = s.cfg where
  refl _ := rfl
  allowed _ _ := callbacksIn_any _
  trans h k := k.trans h
  result _ _ := rfl
  busy _ _ := rfl
  honour _ := rfl
  complete c s := by rw [(complete_frame c s).cfg, raiseIf_frame]; rfl
  advance n s t h := by obtain ⟨-, rfl⟩ := advance_eq_next.1 h; rfl
  openBus _ _ := rfl
  store _ _ _ _ := rfl
  latch _ _ := rfl
  register r o v s := (writeFrame_writeState r o v s).cfg
  arbitrate occ s := (dmaOnly_arbitrate occ s).cfg
  cancel _ _ _ := rfl
  stop s := (dmaOnly_stopVideo s).cfg
  add d tag s p h := by obtain ⟨-, rfl⟩ := addEvent_eq_next.1 h; rfl
  phase e rest s p _ _ h := by
    obtain ⟨d, u, hf, rfl⟩ := phaseUpdate_frame h
    simp only [(dmaOnly_ite_stopVideo _ u).cfg, hf.cfg]; rfl
  callback e rest s _ _ := rfl
  schReset _ _ := rfl
  dmaReset _ _ := rfl
  ppuReset _ _ _ h := (ppuReset_frame h).cfg
  sysReset _ := sysReset_trans (fun h k => k.trans h) (fun _ => rfl) (fun _ => rfl) fun _ _ h => (ppuReset_frame h).cfg

/-- The logs only grow (R522, R94), and neither what the environment will do nor its callbacks are the block's to change. -/
theorem steady_logs : Steady anyInstr fun s t =>
    s.env.irqLog <+: t.env.irqLog ∧ s.env.extLog <+: t.env.extLog ∧ t.env.requests = s.env.requests
      ∧ t.env.callbacks = s.env.callbacks where
  refl _ := ⟨List.prefix_refl _, List.prefix_refl _, rfl, rfl⟩
  allowed _ _ := callbacksIn_any _
  trans h k := ⟨h.1.trans k.1, h.2.1.trans k.2.1, k.2.2.1.trans h.2.2.1, k.2.2.2.trans h.2.2.2⟩
  result _ _ := ⟨List.prefix_refl _, List.prefix_refl _, rfl, rfl⟩
  busy _ _ := ⟨List.prefix_refl _, List.prefix_refl _, rfl, rfl⟩
  honour _ := ⟨List.prefix_refl _, List.prefix_refl _, rfl, rfl⟩
  complete c s := by
    rw [(complete_frame c s).env, raiseIf_frame]
    exact ⟨List.prefix_append _ _, List.prefix_refl _, rfl, rfl⟩
  advance n s t h := by
    obtain ⟨-, rfl⟩ := advance_eq_next.1 h
    exact ⟨List.prefix_refl _, List.prefix_refl _, rfl, rfl⟩
  openBus _ _ := ⟨List.prefix_refl _, List.prefix_refl _, rfl, rfl⟩
  store _ _ _ _ := ⟨List.prefix_refl _, List.prefix_refl _, rfl, rfl⟩
  latch _ _ := ⟨List.prefix_refl _, List.prefix_refl _, rfl, rfl⟩
  register r o v s := by
    rw [(writeFrame_writeState r o v s).env]; exact ⟨List.prefix_refl _, List.prefix_refl _, rfl, rfl⟩
  arbitrate occ s := by
    rw [(dmaOnly_arbitrate occ s).env]; exact ⟨List.prefix_refl _, List.prefix_refl _, rfl, rfl⟩
  cancel _ _ _ := ⟨List.prefix_refl _, List.prefix_refl _, rfl, rfl⟩
  stop s := by rw [(dmaOnly_stopVideo s).env]; exact ⟨List.prefix_refl _, List.prefix_refl _, rfl, rfl⟩
  add d tag s p h := by
    obtain ⟨-, rfl⟩ := addEvent_eq_next.1 h; exact ⟨List.prefix_refl _, List.prefix_refl _, rfl, rfl⟩
  phase e rest s p _ _ h := by
    obtain ⟨d, u, hf, rfl⟩ := phaseUpdate_frame h
    obtain ⟨l, hl⟩ := hf.env
    simp only [(dmaOnly_ite_stopVideo _ u).env, hl]
    exact ⟨List.prefix_append _ _, List.prefix_refl _, rfl, rfl⟩
  callback e rest s _ _ := ⟨List.prefix_refl _, List.prefix_append _ _, rfl, rfl⟩
  schReset _ _ := ⟨List.prefix_refl _, List.prefix_refl _, rfl, rfl⟩
  dmaReset _ _ := ⟨List.prefix_refl _, List.prefix_refl _, rfl, rfl⟩
  ppuReset _ _ _ h := by rw [(ppuReset_frame h).env]; exact ⟨List.prefix_refl _, List.prefix_refl _, rfl, rfl⟩
  sysReset _ := sysReset_trans (fun h k => ⟨h.1.trans k.1, h.2.1.trans k.2.1, k.2.2.1.trans h.2.2.1, k.2.2.2.trans h.2.2.2⟩) (fun _ => ⟨List.prefix_refl _, List.prefix_refl _, rfl, rfl⟩) (fun _ => ⟨List.prefix_refl _, List.prefix_refl _, rfl, rfl⟩) fun _ _ h => by rw [(ppuReset_frame h).env]; exact ⟨List.prefix_refl _, List.prefix_refl _, rfl, rfl⟩

/-! ### The scheduler (R26) -/

theorem cancelPhaseEvent_sched {s : State} (h : s.sched.Sound s.cfg.qcap) :
    (cancelPhaseEvent s).sched.Sound s.cfg.qcap ∧ (cancelPhaseEvent s).sched.now = s.sched.now
      ∧ (cancelPhaseEvent s).sched.nextSeq = s.sched.nextSeq := by
  rcases cancelPhaseEvent_eq s with ⟨hc, -⟩ | hc <;> rw [hc]
  · exact ⟨h, rfl, rfl⟩
  · exact ⟨h.filter _, rfl, rfl⟩

theorem ppuReset_sched {s t : State} (h : ppuReset s = .next t) (k : s.sched.Sound s.cfg.qcap) :
    t.sched.Sound t.cfg.qcap := by
  have hf := ppuReset_frame h
  obtain ⟨h1, h2, h3⟩ := cancelPhaseEvent_sched k
  rw [hf.sched, hf.cfg]
  exact h1.add 0 (by rw [h2]; exact hf.clock) hf.room (by rw [h3]; exact hf.handle)

/-- The scheduler stays sound, the parameters stay. -/
theorem steady_sched : Steady anyInstr fun s t => s.sched.Sound s.cfg.qcap → t.sched.Sound t.cfg.qcap where
  refl _ := id
  allowed _ _ := callbacksIn_any _
  trans h k := k ∘ h
  result _ _ := id
  busy _ _ := id
  honour _ h := h
  complete c s h := by
    rw [(complete_frame c s).sched, (complete_frame c s).cfg, raiseIf_frame]; exact h
  advance n s t h k := by
    obtain ⟨hn, rfl⟩ := advance_eq_next.1 h
    exact k.withNow hn
  openBus _ _ := id
  store _ _ _ _ := id
  latch _ _ := id
  register r o v s h := by
    rw [(writeFrame_writeState r o v s).sched, (writeFrame_writeState r o v s).cfg]; exact h
  arbitrate occ s h := by rw [(dmaOnly_arbitrate occ s).sched, (dmaOnly_arbitrate occ s).cfg]; exact h
  cancel _ _ _ h := h.filter _
  stop s h := by rw [(dmaOnly_stopVideo s).sched, (dmaOnly_stopVideo s).cfg]; exact h
  add d tag s p h k := by
    obtain ⟨⟨h0, -, h2, h3, h4, -⟩, rfl⟩ := addEvent_eq_next.1 h
    exact k.add tag (by omega) h3 h4
  phase e rest s p hq _ h k := by
    obtain ⟨d, u, hf, rfl⟩ := phaseUpdate_frame h
    simp only [(dmaOnly_ite_stopVideo _ u).sched, (dmaOnly_ite_stopVideo _ u).cfg, hf.sched, hf.cfg]
    exact Sched.Sound.add (k.take hq) 0 hf.clock hf.room hf.handle
  callback e rest s hq _ k := k.take hq
  schReset _ _ := fun _ => Sched.Sound.empty _
  dmaReset _ _ := id
  ppuReset _ _ _ h := ppuReset_sched h
  sysReset _ := sysReset_trans (fun h k => k ∘ h) (fun _ => fun _ => Sched.Sound.empty _) (fun _ => id) fun _ _ h => ppuReset_sched h

/-! ### The DMA controller (R42) -/

theorem writeState_sound (r : Reg) (o : Nat) (v : Byte) (s : State) (h : s.dma.Sound) : (writeState r o v s).dma.Sound := by
  cases hr : r.isDma with
  | false => rw [writeState_dma_of_ppu r o v s hr]; exact h
  | true =>
    cases r
    case dmaCntH c => exact ((h.but c).mapChan _).configure
    case dmaSad c => exact h.mapChan c _ rfl
    case dmaDad c => exact h.mapChan c _ rfl
    case dmaCntL c => exact h.mapChan c _ rfl
    all_goals cases hr

theorem dmaReset_sound : Dma.reset.Sound := by constructor <;> decide

/-- R42 (a) to (e), nested operations included. -/
theorem steady_dma : Steady anyInstr fun s t => s.dma.Sound → t.dma.Sound where
  refl _ := id
  allowed _ _ := callbacksIn_any _
  trans h k := k ∘ h
  result _ _ := id
  busy _ _ h := ⟨h.hblank, h.vblank, h.video, h.runnable, h.active⟩
  honour _ h := ⟨h.hblank, h.vblank, h.video, h.runnable, rfl⟩
  complete c _ h := h.complete c
  advance n s t h k := by obtain ⟨-, rfl⟩ := advance_eq_next.1 h; exact k
  openBus _ _ h := ⟨h.hblank, h.vblank, h.video, h.runnable, h.active⟩
  store _ _ _ _ := id
  latch b _ h := h.mapChan b.chan _ rfl
  register r o v s := writeState_sound r o v s
  arbitrate occ _ h := h.arbitrate occ
  cancel _ _ _ := id
  stop _ h := h.stopVideo
  add d tag s p h k := by obtain ⟨-, rfl⟩ := addEvent_eq_next.1 h; exact k
  phase e rest s p _ _ h k := by
    obtain ⟨d, u, hf, rfl⟩ := phaseUpdate_frame h
    have hu : u.dma.Sound := by rw [hf.dma]; exact k
    dsimp only
    split
    · exact hu.stopVideo
    · exact hu
  callback e rest s _ _ := id
  schReset _ _ := id
  dmaReset _ _ := fun _ => dmaReset_sound
  ppuReset _ _ _ h := fun k => by rw [(ppuReset_frame h).dma]; exact k
  sysReset _ := sysReset_trans (fun h k => k ∘ h) (fun _ => id) (fun _ => fun _ => dmaReset_sound) fun _ _ h => fun k => by rw [(ppuReset_frame h).dma]; exact k

/-! ### The position in the frame (R46, R297) -/

theorem Timing.Sound.of_eq {t u : Timing} (h : t.Sound) (h1 : u.phase = t.phase) (h2 : u.scanline = t.scanline)
    (h3 : u.vblankFlag = t.vblankFlag) (h4 : u.hblankFlag = t.hblankFlag) : u.Sound :=
  ⟨h2 ▸ h.line, by rw [h1, h2]; exact h.phase, by rw [h2, h3]; exact h.vblank, by rw [h1, h4]; exact h.hblank⟩

/-- The transition table keeps the position and its flags together (R291, R293). -/
theorem transition_sound {s : State} (h : s.timing.Sound) : (transition s).1.timing.Sound := by
  obtain ⟨hl, hp, hv, hh⟩ := h
  simp only [transition]
  split
  · rename_i hph
    rw [hph] at hp hh
    exact ⟨hl, by simpa [setPhase, renderScanline, advanceRefs, advanceRef] using hp, hv, by
      simpa [setPhase, renderScanline, advanceRefs, advanceRef] using hh⟩
  · rename_i hph
    rw [hph] at hp hh
    exact ⟨hl, by simpa [setPhase, setHblankFlag] using hp, hv, by simp [setPhase, setHblankFlag]⟩
  · rename_i hph
    rw [hph] at hp hh
    have hs : s.timing.scanline ≤ 159 := by simpa using hp
    split
    · rename_i hn
      constructor <;> simp [setPhase, reloadRefs, reloadRefX, reloadRefY, setVblankFlag, setScanline, setHblankFlag] <;> omega
    · rename_i hn
      have hv' : s.timing.vblankFlag = false := by
        rw [← Bool.not_eq_true, hv]; omega
      constructor <;> simp [setPhase, setScanline, setHblankFlag, hv'] <;> omega
  · rename_i hph
    rw [hph] at hp hh
    exact ⟨hl, by simpa [setPhase, setHblankFlag] using hp, hv, by simp [setPhase, setHblankFlag]⟩
  · rename_i hph
    rw [hph] at hp hh
    have hs : 160 ≤ s.timing.scanline := by simp at hp; omega
    split
    · rename_i hn
      constructor <;> simp [setPhase, setVblankFlag, setScanline, setHblankFlag]
    · rename_i hn
      have hv' : s.timing.vblankFlag = true := hv.2 hs
      constructor <;> simp [setPhase, setScanline, setHblankFlag, hv'] <;> omega

theorem timingReset_sound (h : Nat) : (Timing.reset h).Sound := by constructor <;> simp [Timing.reset]

theorem steady_timing : Steady anyInstr fun s t => s.timing.Sound → t.timing.Sound where
  refl _ := id
  allowed _ _ := callbacksIn_any _
  trans h k := k ∘ h
  result _ _ := id
  busy _ _ := id
  honour _ h := h
  complete c s h := by rw [(complete_frame c s).timing, raiseIf_frame]; exact h
  advance n s t h k := by obtain ⟨-, rfl⟩ := advance_eq_next.1 h; exact k
  openBus _ _ := id
  store _ _ _ _ := id
  latch _ _ := id
  register r o v s h :=
    have k := writeFrame_writeState r o v s
    h.of_eq k.phase k.scanline k.vblankFlag k.hblankFlag
  arbitrate occ s h := by rw [(dmaOnly_arbitrate occ s).timing]; exact h
  cancel _ _ _ := id
  stop s h := by rw [(dmaOnly_stopVideo s).timing]; exact h
  add d tag s p h k := by obtain ⟨-, rfl⟩ := addEvent_eq_next.1 h; exact k
  phase e rest s p _ _ h k := by
    obtain ⟨d, u, hf, rfl⟩ := phaseUpdate_frame h
    simp only [(dmaOnly_ite_stopVideo _ u).timing, hf.timing]
    exact (transition_sound (s := takeEvent e rest s) k).of_eq rfl rfl rfl rfl
  callback e rest s _ _ := id
  schReset _ _ := id
  dmaReset _ _ := id
  ppuReset _ _ _ h := fun _ => by rw [(ppuReset_frame h).timing]; exact timingReset_sound _
  sysReset _ := sysReset_trans (fun h k => k ∘ h) (fun _ => id) (fun _ => id) fun _ _ h => fun _ => by rw [(ppuReset_frame h).timing]; exact timingReset_sound _

/-! ### The phase event (R49) -/

theorem ppuReset_phaseEvent {s t : State} (h : ppuReset s = .next t) (k : s.sched.Sound s.cfg.qcap ∧ s.PhaseEventOnly) :
    t.sched.Sound t.cfg.qcap ∧ t.PhaseEventOnly := by
  refine ⟨ppuReset_sched h k.1, ?_⟩
  have hf := ppuReset_frame h
  unfold State.PhaseEventOnly
  rw [hf.sched, hf.timing]
  intro x hx ht
  rcases (mem_insertEvent _ _ _).1 hx with rfl | hx
  · exact (cancelPhaseEvent_sched k.1).2.2
  · exfalso
    rcases cancelPhaseEvent_eq s with ⟨hc, hn⟩ | hc
    · rw [hc] at hx
      exact hn x hx ht (k.2 x hx ht)
    · rw [hc] at hx
      obtain ⟨hx, hs⟩ := List.mem_filter.1 hx
      have := k.2 x hx ht
      simp [this] at hs

/-- At most the event `ppu_event` names is a phase event, and the queue is sound. -/
theorem steady_phaseEvent : Steady anyInstr fun s t =>
    s.sched.Sound s.cfg.qcap ∧ s.PhaseEventOnly → t.sched.Sound t.cfg.qcap ∧ t.PhaseEventOnly where
  refl _ := id
  allowed _ _ := callbacksIn_any _
  trans h k := k ∘ h
  result _ _ := id
  busy _ _ := id
  honour _ h := h
  complete c s h := by
    refine ⟨steady_sched.complete c s h.1, ?_⟩
    unfold State.PhaseEventOnly
    rw [(complete_frame c s).timing, (complete_frame c s).sched, raiseIf_frame]
    exact h.2
  advance n s t h k := by
    refine ⟨steady_sched.advance n s t h k.1, ?_⟩
    obtain ⟨-, rfl⟩ := advance_eq_next.1 h
    exact k.2
  openBus _ _ := id
  store _ _ _ _ := id
  latch _ _ := id
  register r o v s h := by
    refine ⟨steady_sched.register r o v s h.1, ?_⟩
    unfold State.PhaseEventOnly
    rw [(writeFrame_writeState r o v s).ppuEvent, (writeFrame_writeState r o v s).sched]
    exact h.2
  arbitrate occ s h := by
    refine ⟨steady_sched.arbitrate occ s h.1, ?_⟩
    unfold State.PhaseEventOnly
    rw [(dmaOnly_arbitrate occ s).timing, (dmaOnly_arbitrate occ s).sched]
    exact h.2
  cancel x _ s h := ⟨steady_sched.cancel x trivial s h.1, fun e he ht => h.2 e (List.mem_filter.1 he).1 ht⟩
  stop s h := by
    refine ⟨steady_sched.stop s h.1, ?_⟩
    unfold State.PhaseEventOnly
    rw [(dmaOnly_stopVideo s).timing, (dmaOnly_stopVideo s).sched]
    exact h.2
  add d tag s p h k := by
    refine ⟨steady_sched.add d tag s p h k.1, ?_⟩
    obtain ⟨⟨-, -, -, -, -, h5⟩, rfl⟩ := addEvent_eq_next.1 h
    intro e he ht
    rcases (mem_insertEvent _ _ _).1 he with rfl | he
    · exact absurd ⟨ht, rfl⟩ h5
    · exact k.2 e he ht
  phase e rest s p hq htag h k := by
    refine ⟨steady_sched.phase e rest s p hq htag h k.1, ?_⟩
    obtain ⟨d, u, hf, rfl⟩ := phaseUpdate_frame h
    unfold State.PhaseEventOnly
    simp only [(dmaOnly_ite_stopVideo _ u).timing, (dmaOnly_ite_stopVideo _ u).sched, hf.sched, hf.timing]
    intro x hx ht
    rcases (mem_insertEvent _ _ _).1 hx with rfl | hx
    · rfl
    · have h1 := k.2 x (by rw [hq]; exact List.mem_cons_of_mem _ hx) ht
      have h2 := k.2 e (by rw [hq]; exact List.mem_cons_self) htag
      exact absurd (h1.trans h2.symm) (k.1.rest_seq_ne hq x hx)
  callback e rest s hq ht k :=
    ⟨steady_sched.callback e rest s hq ht k.1, fun x hx htx => k.2 x (by rw [hq]; exact List.mem_cons_of_mem _ hx) htx⟩
  schReset _ _ := fun _ => ⟨Sched.Sound.empty _, fun _ he => nomatch he⟩
  dmaReset _ _ := id
  ppuReset _ _ _ h := ppuReset_phaseEvent h
  sysReset _ := sysReset_trans (fun h k => k ∘ h) (fun _ => fun _ => ⟨Sched.Sound.empty _, fun _ he => nomatch he⟩) (fun _ => id) fun _ _ h => ppuReset_phaseEvent h

/-- The instruction leaves the phase event pending (R575): neither `SCH.RESET` nor a `SCH.CANCEL`. -/
def keepsPhaseEvent (i : Instr) : Prop := i ≠ .schReset ∧ ∀ h, i ≠ .schCancel h

/-- R49, what is kept: the queue sound, one phase event, the one `ppu_event` names. -/
def State.PhaseEventSound (s : State) : Prop := s.sched.Sound s.cfg.qcap ∧ s.PhaseEventOnly ∧ s.PhaseEventPending

theorem ppuReset_pending {s t : State} (h : ppuReset s = .next t) (k : s.sched.Sound s.cfg.qcap) : t.PhaseEventPending := by
  have hf := ppuReset_frame h
  unfold State.PhaseEventPending
  rw [hf.sched, hf.timing]
  refine ⟨_, (mem_insertEvent _ _ _).2 (.inl rfl), rfl, ?_⟩
  exact (cancelPhaseEvent_sched k).2.2

/-- R49, where no callback issues `SCH.RESET` or `SCH.CANCEL`; the callbacks stay the same. -/
theorem steady_phasePending : Steady keepsPhaseEvent fun s t =>
    (s.PhaseEventSound → t.PhaseEventSound) ∧ t.env.callbacks = s.env.callbacks where
  refl _ := ⟨id, rfl⟩
  trans h k := ⟨k.1 ∘ h.1, k.2.trans h.2⟩
  allowed h k := by unfold Env.CallbacksIn; rw [h.2]; exact k
  result _ _ := ⟨id, rfl⟩
  busy _ _ := ⟨id, rfl⟩
  honour _ := ⟨id, rfl⟩
  complete c s := by
    refine ⟨fun h => ?_, by rw [(complete_frame c s).env, raiseIf_frame]; rfl⟩
    have k := steady_phaseEvent.complete c s ⟨h.1, h.2.1⟩
    refine ⟨k.1, k.2, ?_⟩
    unfold State.PhaseEventPending
    rw [(complete_frame c s).timing, (complete_frame c s).sched, raiseIf_frame]
    exact h.2.2
  advance n s t h := by
    obtain ⟨hn, rfl⟩ := advance_eq_next.1 h
    exact ⟨fun k => ⟨k.1.withNow hn, k.2⟩, rfl⟩
  openBus _ _ := ⟨id, rfl⟩
  store _ _ _ _ := ⟨id, rfl⟩
  latch _ _ := ⟨id, rfl⟩
  register r o v s := by
    refine ⟨fun h => ?_, by rw [(writeFrame_writeState r o v s).env]⟩
    have k := steady_phaseEvent.register r o v s ⟨h.1, h.2.1⟩
    refine ⟨k.1, k.2, ?_⟩
    unfold State.PhaseEventPending
    rw [(writeFrame_writeState r o v s).ppuEvent, (writeFrame_writeState r o v s).sched]
    exact h.2.2
  arbitrate occ s := by
    refine ⟨fun h => ?_, by rw [(dmaOnly_arbitrate occ s).env]⟩
    have k := steady_phaseEvent.arbitrate occ s ⟨h.1, h.2.1⟩
    refine ⟨k.1, k.2, ?_⟩
    unfold State.PhaseEventPending
    rw [(dmaOnly_arbitrate occ s).timing, (dmaOnly_arbitrate occ s).sched]
    exact h.2.2
  cancel x h _ := absurd rfl (h.2 x)
  stop s := by
    refine ⟨fun h => ?_, by rw [(dmaOnly_stopVideo s).env]⟩
    have k := steady_phaseEvent.stop s ⟨h.1, h.2.1⟩
    refine ⟨k.1, k.2, ?_⟩
    unfold State.PhaseEventPending
    rw [(dmaOnly_stopVideo s).timing, (dmaOnly_stopVideo s).sched]
    exact h.2.2
  add d tag s p h := by
    refine ⟨fun k => ?_, by obtain ⟨-, rfl⟩ := addEvent_eq_next.1 h; rfl⟩
    have k' := steady_phaseEvent.add d tag s p h ⟨k.1, k.2.1⟩
    refine ⟨k'.1, k'.2, ?_⟩
    obtain ⟨-, rfl⟩ := addEvent_eq_next.1 h
    obtain ⟨e, he, h1, h2⟩ := k.2.2
    exact ⟨e, (mem_insertEvent _ _ _).2 (.inr he), h1, h2⟩
  phase e rest s p hq htag h := by
    have k := steady_phaseEvent.phase e rest s p hq htag h
    obtain ⟨d, u, hf, rfl⟩ := phaseUpdate_frame h
    obtain ⟨l, hl⟩ := hf.env
    refine ⟨fun x => ⟨(k ⟨x.1, x.2.1⟩).1, (k ⟨x.1, x.2.1⟩).2, ?_⟩, by
      simp only [(dmaOnly_ite_stopVideo _ u).env, hl]; rfl⟩
    unfold State.PhaseEventPending
    simp only [(dmaOnly_ite_stopVideo _ u).timing, (dmaOnly_ite_stopVideo _ u).sched, hf.sched, hf.timing]
    exact ⟨_, (mem_insertEvent _ _ _).2 (.inl rfl), rfl, rfl⟩
  callback e rest s hq ht := by
    refine ⟨fun k => ?_, rfl⟩
    have k' := steady_phaseEvent.callback e rest s hq ht ⟨k.1, k.2.1⟩
    refine ⟨k'.1, k'.2, ?_⟩
    obtain ⟨x, hx, h1, h2⟩ := k.2.2
    rw [hq] at hx
    rcases List.mem_cons.1 hx with rfl | hx
    · exact absurd h1 ht
    · exact ⟨x, hx, h1, h2⟩
  schReset h := absurd rfl h.1
  dmaReset _ _ := ⟨id, rfl⟩
  ppuReset _ _ _ h := by
    refine ⟨fun k => ?_, by rw [(ppuReset_frame h).env]⟩
    have k' := ppuReset_phaseEvent h ⟨k.1, k.2.1⟩
    exact ⟨k'.1, k'.2, ppuReset_pending h k.1⟩
  sysReset _ s _ h := by
    refine ⟨fun _ => ?_, by rw [(ppuReset_frame h).env]; rfl⟩
    have k' := ppuReset_phaseEvent h ⟨Sched.Sound.empty _, fun _ he => nomatch he⟩
    exact ⟨k'.1, k'.2, ppuReset_pending h (Sched.Sound.empty _)⟩

/-! ### The framebuffer (R62) -/

theorem View.length_row (w : View) : w.row.length = 240 := by
  unfold View.row
  split
  · exact List.length_replicate
  · simp only [List.length_map, List.length_range]

theorem fbShape_set {fb : List (List Pixel)} (h : FbShape fb) (n : Nat) (row : List Pixel) (hr : row.length = 240) :
    FbShape (fb.set n row) :=
  ⟨by rw [List.length_set]; exact h.rows, fun x hx => by
    rcases List.mem_or_eq_of_mem_set hx with hx | rfl
    · exact h.columns x hx
    · exact hr⟩

theorem transition_fbShape {s : State} (h : FbShape s.fb) : FbShape (transition s).1.fb := by
  simp only [transition]
  split
  · exact fbShape_set h _ _ (View.length_row _)
  · exact h
  · split <;> exact h
  · exact h
  · split <;> exact h

theorem fbShape_blank (p : Pixel) : FbShape (blankFb p) :=
  ⟨List.length_replicate, fun _ h => by rw [List.eq_of_mem_replicate h]; exact List.length_replicate⟩

theorem steady_fb : Steady anyInstr fun s t => FbShape s.fb → FbShape t.fb where
  refl _ := id
  allowed _ _ := callbacksIn_any _
  trans h k := k ∘ h
  result _ _ := id
  busy _ _ := id
  honour _ h := h
  complete c s h := by rw [(complete_frame c s).fb, raiseIf_frame]; exact h
  advance n s t h k := by obtain ⟨-, rfl⟩ := advance_eq_next.1 h; exact k
  openBus _ _ := id
  store _ _ _ _ := id
  latch _ _ := id
  register r o v s h := by rw [(writeFrame_writeState r o v s).fb]; exact h
  arbitrate occ s h := by rw [(dmaOnly_arbitrate occ s).fb]; exact h
  cancel _ _ _ := id
  stop s h := by rw [(dmaOnly_stopVideo s).fb]; exact h
  add d tag s p h k := by obtain ⟨-, rfl⟩ := addEvent_eq_next.1 h; exact k
  phase e rest s p _ _ h k := by
    obtain ⟨d, u, hf, rfl⟩ := phaseUpdate_frame h
    simp only [(dmaOnly_ite_stopVideo _ u).fb, hf.fb]
    exact transition_fbShape (s := takeEvent e rest s) k
  callback e rest s _ _ := id
  schReset _ _ := id
  dmaReset _ _ := id
  ppuReset _ _ _ h := fun _ => by rw [(ppuReset_frame h).fb]; exact fbShape_blank _
  sysReset _ := sysReset_trans (fun h k => k ∘ h) (fun _ => id) (fun _ => id) fun _ _ h => fun _ => by rw [(ppuReset_frame h).fb]; exact fbShape_blank _

/-! ### Memory (R80) -/

theorem steady_mem : Steady anyInstr fun s t => s.env.mem.wf = true → t.env.mem.wf = true where
  refl _ := id
  allowed _ _ := callbacksIn_any _
  trans h k := k ∘ h
  result _ _ := id
  busy _ _ := id
  honour _ h := h
  complete c s h := by rw [(complete_frame c s).env, raiseIf_frame]; exact h
  advance n s t h k := by obtain ⟨-, rfl⟩ := advance_eq_next.1 h; exact k
  openBus _ _ := id
  store a v n s h := Mem.wf_writeBytes _ a v n h
  latch _ _ := id
  register r o v s h := by rw [(writeFrame_writeState r o v s).env]; exact h
  arbitrate occ s h := by rw [(dmaOnly_arbitrate occ s).env]; exact h
  cancel _ _ _ := id
  stop s h := by rw [(dmaOnly_stopVideo s).env]; exact h
  add d tag s p h k := by obtain ⟨-, rfl⟩ := addEvent_eq_next.1 h; exact k
  phase e rest s p _ _ h k := by
    obtain ⟨d, u, hf, rfl⟩ := phaseUpdate_frame h
    obtain ⟨l, hl⟩ := hf.env
    simp only [(dmaOnly_ite_stopVideo _ u).env, hl]
    exact k
  callback e rest s _ _ := id
  schReset _ _ := id
  dmaReset _ _ := id
  ppuReset _ _ _ h := fun k => by rw [(ppuReset_frame h).env]; exact k
  sysReset _ := sysReset_trans (fun h k => k ∘ h) (fun _ => id) (fun _ => id) fun _ _ h => fun k => by rw [(ppuReset_frame h).env]; exact k

end Sys2Proof.Machine
end

