-- ==== Sys2Proof/Laws/Masks.lean ====
section
/-! SUPPORT. The bits a register does not keep stay 0 (R31, R32, R150, R442). -/

namespace Sys2Proof.Machine

/-- A value masked in 32 bits and cut to a register's width has no bit outside the mask. -/
theorem setWidth_masked (n : Nat) (x m : Word) : ((x &&& m).setWidth n) &&& ~~~(m.setWidth n) = 0 := by
  ext i hi
  simp only [BitVec.getElem_and, BitVec.getElem_not, BitVec.getElem_setWidth, BitVec.getLsbD_and]
  cases x.getLsbD i <;> cases m.getLsbD i <;> simp

theorem masked (x m : Word) : (x &&& m) &&& ~~~m = 0 := by
  ext i hi
  simp only [BitVec.getElem_and, BitVec.getElem_not]
  cases x[i] <;> cases m[i] <;> simp

/-! ### The PPU registers -/

theorem writeState_masked (r : Reg) (o : Nat) (v : Byte) (s : State) (h : s.regs.Masked) :
    (writeState r o v s).regs.Masked := by
  cases hr : r.isDma with
  | true => rw [(writeState_ppu_of_dma r o v s hr).1]; exact h
  | false =>
    cases r
    case winin => exact ⟨setWidth_masked 16 _ 0x3F3F#32, h.winout, h.bldcnt, h.bldalpha, h.bldy⟩
    case winout => exact ⟨h.winin, setWidth_masked 16 _ 0x3F3F#32, h.bldcnt, h.bldalpha, h.bldy⟩
    case bldcnt => exact ⟨h.winin, h.winout, setWidth_masked 16 _ 0x3FFF#32, h.bldalpha, h.bldy⟩
    case bldalpha => exact ⟨h.winin, h.winout, h.bldcnt, setWidth_masked 16 _ 0x1F1F#32, h.bldy⟩
    case bldy => exact ⟨h.winin, h.winout, h.bldcnt, h.bldalpha, setWidth_masked 8 _ 0x1F#32⟩
    all_goals first | exact ⟨h.winin, h.winout, h.bldcnt, h.bldalpha, h.bldy⟩ | cases hr

/-- The running reference points have no say in it. -/
theorem PpuRegs.Masked.refs {p : PpuRegs} (h : p.Masked) (x y : Vector Int 2) :
    PpuRegs.Masked { p with refX := x, refY := y } := ⟨h.winin, h.winout, h.bldcnt, h.bldalpha, h.bldy⟩

theorem transition_masked {s : State} (h : s.regs.Masked) : (transition s).1.regs.Masked := by
  simp only [transition]
  split
  · simp only [setPhase, renderScanline, advanceRefs, advanceRef, State.mapTiming_regs, State.mapRegs_regs]
    exact (h.refs _ _).refs _ _
  · exact h
  · split
    · simp only [setPhase, reloadRefs, reloadRefX, reloadRefY, setVblankFlag, setScanline, setHblankFlag,
        State.mapTiming_regs, State.mapRegs_regs]
      exact ((((h.refs _ _).refs _ _).refs _ _).refs _ _)
    · exact h
  · exact h
  · split <;> exact h

theorem ppuRegsReset_masked : PpuRegs.reset.Masked := by constructor <;> decide

theorem steady_masked : Steady anyInstr fun s t => s.regs.Masked → t.regs.Masked where
  refl _ := id
  allowed _ _ := callbacksIn_any _
  trans h k := k ∘ h
  result _ _ := id
  busy _ _ := id
  honour _ h := h
  complete c s h := by rw [(complete_frame c s).regs, raiseIf_frame]; exact h
  advance n s t h k := by obtain ⟨-, rfl⟩ := advance_eq_next.1 h; exact k
  openBus _ _ := id
  store _ _ _ _ := id
  latch _ _ := id
  register r o v s := writeState_masked r o v s
  arbitrate occ s h := by rw [(dmaOnly_arbitrate occ s).regs]; exact h
  cancel _ _ _ := id
  stop s h := by rw [(dmaOnly_stopVideo s).regs]; exact h
  add d tag s p h k := by obtain ⟨-, rfl⟩ := addEvent_eq_next.1 h; exact k
  phase e rest s p _ _ h k := by
    obtain ⟨d, u, hf, rfl⟩ := phaseUpdate_frame h
    simp only [(dmaOnly_ite_stopVideo _ u).regs, hf.regs]
    exact transition_masked (s := takeEvent e rest s) k
  callback e rest s _ _ := id
  schReset _ _ := id
  dmaReset _ _ := id
  ppuReset _ _ _ h := fun _ => by rw [(ppuReset_frame h).regs]; exact ppuRegsReset_masked
  sysReset _ := sysReset_trans (fun h k => k ∘ h) (fun _ => id) (fun _ => id) fun _ _ h => fun _ => by rw [(ppuReset_frame h).regs]; exact ppuRegsReset_masked

/-! ### The channels -/

/-- Only the controller's sets and flags differ: every channel is the same. -/
theorem arbitrate_ch (occ : Occasion) (s : State) : (arbitrate occ s).dma.ch = s.dma.ch := by
  have hs : ∀ S s, (startSet S s).dma.ch = s.dma.ch := fun S s => by
    unfold startSet
    split
    · rfl
    · exact (tryStart_frame _ s).2.1
  have hf : ∀ c s, (tryFifo occ c s).dma.ch = s.dma.ch := fun c s => by
    unfold tryFifo
    split
    · exact (tryStart_frame _ s).2.1
    · rfl
  cases occ
  · exact hs _ s
  · exact hs _ s
  · exact hs _ s
  · exact (hf 2 _).trans (hf 1 s)
  · exact (hf 2 _).trans (hf 1 s)

/-- Changing one channel into a masked one. -/
theorem Dma.Masked.set {d : Dma} (h : d.Masked) (c : Chan) (x : Channel) (hx : Channel.Masked c x) :
    Dma.Masked { d with ch := d.ch.set c x } := by
  intro e
  by_cases he : c = e
  · subst he; simpa using hx
  · have : (d.ch.set c x)[e] = d.ch[e] := by simp [Fin.val_inj, he]
    simp only [this]; exact h e

theorem Dma.Masked.of_ch {d e : Dma} (h : d.Masked) (hc : e.ch = d.ch) : e.Masked := by
  unfold Dma.Masked; rw [hc]; exact h

theorem expandLen_le (c : Chan) (v : Half) : expandLen c v ≤ 0x10000 := by
  unfold expandLen
  split
  · have := (Config.lenMask c).isLt; omega
  · have := v.isLt; omega

theorem latchLength_le (c : Chan) (ch : Channel) : latchLength c ch ≤ 0x10000 := by
  unfold latchLength
  split
  · decide
  · exact expandLen_le c _

theorem Channel.Masked.clear {c : Chan} {ch : Channel} (h : Channel.Masked c ch) :
    Channel.Masked c { ch with ctrl := clearEnable ch.ctrl } :=
  ⟨h.src, h.dst, h.len, by
    show (ch.ctrl &&& 0x7FFF#16) &&& ~~~Config.ctrlMask c = 0
    rw [BitVec.and_assoc, BitVec.and_comm 0x7FFF#16, ← BitVec.and_assoc, h.ctrl]; rfl, h.fifo, h.rem⟩

theorem isFifo_channel {c : Chan} {h : Half} (k : isFifo c h = true) : c = 1 ∨ c = 2 := by
  simp only [isFifo, Bool.and_eq_true, Bool.or_eq_true, beq_iff_eq] at k
  exact k.2

theorem Channel.Masked.arm {c : Chan} {ch : Channel} (h : Channel.Masked c ch) : Channel.Masked c (armChannel c ch) :=
  ⟨h.src, h.dst, h.len, h.ctrl, isFifo_channel, by
    simp only [armChannel]
    split
    · decide
    · exact expandLen_le c _⟩

theorem Channel.Masked.reload {c : Chan} {ch : Channel} (h : Channel.Masked c ch) : Channel.Masked c (reloadLatch c ch) :=
  ⟨h.src, h.dst, h.len, h.ctrl, h.fifo, latchLength_le c ch⟩

theorem Dma.Masked.disable {s : State} (h : s.dma.Masked) (c : Chan) : (disableChannel c s).dma.Masked :=
  (h.set c _ (h c).clear).of_ch rfl

theorem Dma.Masked.stopVideo {s : State} (h : s.dma.Masked) : (stopVideo s).dma.Masked := by
  unfold Machine.stopVideo
  split
  · exact h.disable 3
  · exact h

theorem Dma.Masked.configure {s : State} (h : s.dma.Masked) (c : Chan) (was : Bool) : (configure c was s).dma.Masked := by
  have hd : (derive c (leaveSets c s)).dma.Masked := h.of_ch (derive_ch c _)
  simp only [Machine.configure]
  split_ifs
  · exact hd
  · exact (hd.set c _ (hd c).arm).of_ch (tryStart_frame _ _).2.1
  · exact hd.set c _ (hd c).arm
  · exact Dma.Masked.disable (s := leaveSets c s) (h.of_ch rfl) c

theorem Dma.Masked.complete {s : State} (h : s.dma.Masked) (c : Chan) : (complete c s).dma.Masked := by
  have h1 : (raiseIf (ctrlIrq ((leaveRunnable c s).chan c).ctrl) .dma c.val (leaveRunnable c s)).dma.Masked := by
    rw [raiseIf_frame]; exact h.of_ch rfl
  simp only [Machine.complete]
  generalize raiseIf _ _ _ _ = s2 at h1 ⊢
  split
  · exact (h1.set c _ (h1 c).reload).of_ch rfl
  · exact (h1.set c _ (h1 c).clear).of_ch rfl

theorem writeState_dmaMasked (r : Reg) (o : Nat) (v : Byte) (s : State) (h : s.dma.Masked) :
    (writeState r o v s).dma.Masked := by
  cases hr : r.isDma with
  | false => rw [writeState_dma_of_ppu r o v s hr]; exact h
  | true =>
    cases r
    case dmaSad c => exact h.set c _ ⟨masked _ _, (h c).dst, (h c).len, (h c).ctrl, (h c).fifo, (h c).rem⟩
    case dmaDad c => exact h.set c _ ⟨(h c).src, masked _ _, (h c).len, (h c).ctrl, (h c).fifo, (h c).rem⟩
    case dmaCntL c =>
      refine h.set c _ ⟨(h c).src, (h c).dst, ?_, (h c).ctrl, (h c).fifo, (h c).rem⟩
      have := setWidth_masked 16 (mergeByte (stored (.dmaCntL c) s) o v) ((Config.lenMask c).setWidth 32)
      rwa [BitVec.setWidth_setWidth_of_le _ (by decide), BitVec.setWidth_eq] at this
    case dmaCntH c =>
      refine Dma.Masked.configure (s := storeByte (.dmaCntH c) o v s) ?_ c _
      refine h.set c _ ⟨(h c).src, (h c).dst, (h c).len, ?_, (h c).fifo, (h c).rem⟩
      have := setWidth_masked 16 (mergeByte (stored (.dmaCntH c) s) o v) ((Config.ctrlMask c).setWidth 32)
      rwa [BitVec.setWidth_setWidth_of_le _ (by decide), BitVec.setWidth_eq] at this
    all_goals cases hr

theorem dmaReset_masked : Dma.reset.Masked := by
  intro c
  have h : Dma.reset.ch[c] = Channel.reset := by show (Vector.replicate 4 Channel.reset)[c] = _; simp
  rw [h]
  constructor <;> simp [Channel.reset]

theorem steady_dmaMasked : Steady anyInstr fun s t => s.dma.Masked → t.dma.Masked where
  refl _ := id
  allowed _ _ := callbacksIn_any _
  trans h k := k ∘ h
  result _ _ := id
  busy _ _ h := h.of_ch rfl
  honour _ h := h.of_ch rfl
  complete c _ h := h.complete c
  advance n s t h k := by obtain ⟨-, rfl⟩ := advance_eq_next.1 h; exact k
  openBus _ _ h := h.of_ch rfl
  store _ _ _ _ := id
  latch b s h := h.set b.chan _ ⟨(h b.chan).src, (h b.chan).dst, (h b.chan).len, (h b.chan).ctrl, (h b.chan).fifo,
    le_trans (Nat.sub_le _ _) (h b.chan).rem⟩
  register r o v s := writeState_dmaMasked r o v s
  arbitrate occ s h := h.of_ch (arbitrate_ch occ s)
  cancel _ _ _ := id
  stop _ h := h.stopVideo
  add d tag s p h k := by obtain ⟨-, rfl⟩ := addEvent_eq_next.1 h; exact k
  phase e rest s p _ _ h k := by
    obtain ⟨d, u, hf, rfl⟩ := phaseUpdate_frame h
    have hu : u.dma.Masked := by rw [hf.dma]; exact k
    dsimp only
    split
    · exact hu.stopVideo
    · exact hu
  callback e rest s _ _ := id
  schReset _ _ := id
  dmaReset _ _ := fun _ => dmaReset_masked
  ppuReset _ _ _ h := fun k => by rw [(ppuReset_frame h).dma]; exact k
  sysReset _ := sysReset_trans (fun h k => k ∘ h) (fun _ => id) (fun _ => fun _ => dmaReset_masked) fun _ _ h => fun k => by rw [(ppuReset_frame h).dma]; exact k

end Sys2Proof.Machine
end

