-- ==== Sys2Proof/Laws/PerInstr.lean ====
section
/-! SUPPORT. Families of statements made per instruction. -/

/-- Encoding: a well-formed instruction is what its written form decodes to (R121, R131). -/
def Sys2Proof.Laws.Encoding.Statement (i : Sys2Proof.Instr) : Prop :=
  i.wellFormed = true → Sys2Proof.decode (Sys2Proof.encode i) = some i

namespace Sys2Proof.Laws.Encoding

/-- A register row. -/
theorem ofReg {i : Instr} (r : Reg) (a : Access) (h1 : encode i = encodeAccess r a) (h2 : r.instr a = i)
    (h3 : i.wellFormed = a.within r.width) : Statement i := fun h => by
  rw [h1, decode_encodeAccess r a (h3 ▸ h), h2]

/-- A command row. -/
theorem ofWord {i : Instr} (op a : Byte) (b : BitVec 48) (h1 : encode i = .command (cmdWord op a b))
    (h2 : decodeFields op a b = some i) : Statement i := fun _ => by rw [h1, decode_cmdWord, h2]

theorem schAdd (tag : Byte) (delay : BitVec 48) : Statement (.schAdd tag delay) :=
  ofWord 0x01 tag delay rfl rfl
theorem schCancel (h : BitVec 48) : Statement (.schCancel h) :=
  ofWord 0x02 0 h rfl rfl
theorem schRemain : Statement .schRemain :=
  ofWord 0x03 0 0 rfl rfl
theorem schStep : Statement .schStep :=
  ofWord 0x04 0 0 rfl rfl
theorem schAdvance (n : BitVec 48) : Statement (.schAdvance n) :=
  ofWord 0x05 0 n rfl rfl
theorem schNow : Statement .schNow :=
  ofWord 0x06 0 0 rfl rfl
theorem schReset : Statement .schReset :=
  ofWord 0x07 0 0 rfl rfl
theorem dmaRequest (occ : Occasion) : Statement (.dmaRequest occ) :=
  ofWord 0x10 occ.code 0 rfl (by simp [decodeFields, onlyA])
theorem dmaStopvideo : Statement .dmaStopvideo :=
  ofWord 0x11 0 0 rfl rfl
theorem dmaReset : Statement .dmaReset :=
  ofWord 0x12 0 0 rfl rfl
theorem ppuReset : Statement .ppuReset :=
  ofWord 0x22 0 0 rfl rfl
theorem ioRead (addr : Word) : Statement (.ioRead addr) :=
  ofWord 0x30 0 (addr.setWidth 48) rfl (by simp [decodeFields])
theorem ioWrite (addr : Word) (v : Byte) : Statement (.ioWrite addr v) :=
  ofWord 0x31 v (addr.setWidth 48) rfl (by simp [decodeFields])
theorem sysReset : Statement .sysReset :=
  ofWord 0x3F 0 0 rfl rfl
theorem dmaTrystart (c : Chan) : Statement (.dmaTrystart c) :=
  ofWord 0x18 (channelCode c) 0 rfl (by simp [decodeFields, onlyA])
theorem dmaSelect : Statement .dmaSelect :=
  ofWord 0x19 0 0 rfl rfl
theorem dmaService : Statement .dmaService :=
  ofWord 0x1A 0 0 rfl rfl
theorem dmaRun : Statement .dmaRun :=
  ofWord 0x1B 0 0 rfl rfl
theorem dmaComplete (c : Chan) : Statement (.dmaComplete c) :=
  ofWord 0x1C (channelCode c) 0 rfl (by simp [decodeFields, onlyA])
theorem dmaDisable (c : Chan) : Statement (.dmaDisable c) :=
  ofWord 0x1D (channelCode c) 0 rfl (by simp [decodeFields, onlyA])
theorem dmaOnwrite (c : Chan) (was : Bool) : Statement (.dmaOnwrite c was) :=
  ofWord 0x1E (channelCode c) (if was then 1 else 0) rfl (by cases was <;> simp [decodeFields])
theorem ppuPhase (late : BitVec 48) : Statement (.ppuPhase late) :=
  ofWord 0x20 0 late rfl rfl
theorem ppuVcount : Statement .ppuVcount :=
  ofWord 0x21 0 0 rfl rfl
theorem ppuRender : Statement .ppuRender :=
  ofWord 0x24 0 0 rfl rfl
theorem dispcnt (a : Access) : Statement (.dispcnt a) := ofReg .dispcnt a rfl rfl rfl
theorem dispstat (a : Access) : Statement (.dispstat a) := ofReg .dispstat a rfl rfl rfl
theorem vcount (a : Access) : Statement (.vcount a) := ofReg .vcount a rfl rfl rfl
theorem bg0cnt (a : Access) : Statement (.bg0cnt a) := ofReg (.bgcnt 0) a rfl rfl rfl
theorem bg1cnt (a : Access) : Statement (.bg1cnt a) := ofReg (.bgcnt 1) a rfl rfl rfl
theorem bg2cnt (a : Access) : Statement (.bg2cnt a) := ofReg (.bgcnt 2) a rfl rfl rfl
theorem bg3cnt (a : Access) : Statement (.bg3cnt a) := ofReg (.bgcnt 3) a rfl rfl rfl
theorem bg0hofs (a : Access) : Statement (.bg0hofs a) := ofReg (.bghofs 0) a rfl rfl rfl
theorem bg0vofs (a : Access) : Statement (.bg0vofs a) := ofReg (.bgvofs 0) a rfl rfl rfl
theorem bg1hofs (a : Access) : Statement (.bg1hofs a) := ofReg (.bghofs 1) a rfl rfl rfl
theorem bg1vofs (a : Access) : Statement (.bg1vofs a) := ofReg (.bgvofs 1) a rfl rfl rfl
theorem bg2hofs (a : Access) : Statement (.bg2hofs a) := ofReg (.bghofs 2) a rfl rfl rfl
theorem bg2vofs (a : Access) : Statement (.bg2vofs a) := ofReg (.bgvofs 2) a rfl rfl rfl
theorem bg3hofs (a : Access) : Statement (.bg3hofs a) := ofReg (.bghofs 3) a rfl rfl rfl
theorem bg3vofs (a : Access) : Statement (.bg3vofs a) := ofReg (.bgvofs 3) a rfl rfl rfl
theorem bg2pa (a : Access) : Statement (.bg2pa a) := ofReg (.bgpa 0) a rfl rfl rfl
theorem bg2pb (a : Access) : Statement (.bg2pb a) := ofReg (.bgpb 0) a rfl rfl rfl
theorem bg2pc (a : Access) : Statement (.bg2pc a) := ofReg (.bgpc 0) a rfl rfl rfl
theorem bg2pd (a : Access) : Statement (.bg2pd a) := ofReg (.bgpd 0) a rfl rfl rfl
theorem bg2x (a : Access) : Statement (.bg2x a) := ofReg (.bgx 0) a rfl rfl rfl
theorem bg2y (a : Access) : Statement (.bg2y a) := ofReg (.bgy 0) a rfl rfl rfl
theorem bg3pa (a : Access) : Statement (.bg3pa a) := ofReg (.bgpa 1) a rfl rfl rfl
theorem bg3pb (a : Access) : Statement (.bg3pb a) := ofReg (.bgpb 1) a rfl rfl rfl
theorem bg3pc (a : Access) : Statement (.bg3pc a) := ofReg (.bgpc 1) a rfl rfl rfl
theorem bg3pd (a : Access) : Statement (.bg3pd a) := ofReg (.bgpd 1) a rfl rfl rfl
theorem bg3x (a : Access) : Statement (.bg3x a) := ofReg (.bgx 1) a rfl rfl rfl
theorem bg3y (a : Access) : Statement (.bg3y a) := ofReg (.bgy 1) a rfl rfl rfl
theorem win0h (a : Access) : Statement (.win0h a) := ofReg (.winh 0) a rfl rfl rfl
theorem win1h (a : Access) : Statement (.win1h a) := ofReg (.winh 1) a rfl rfl rfl
theorem win0v (a : Access) : Statement (.win0v a) := ofReg (.winv 0) a rfl rfl rfl
theorem win1v (a : Access) : Statement (.win1v a) := ofReg (.winv 1) a rfl rfl rfl
theorem winin (a : Access) : Statement (.winin a) := ofReg .winin a rfl rfl rfl
theorem winout (a : Access) : Statement (.winout a) := ofReg .winout a rfl rfl rfl
theorem mosaic (a : Access) : Statement (.mosaic a) := ofReg .mosaic a rfl rfl rfl
theorem bldcnt (a : Access) : Statement (.bldcnt a) := ofReg .bldcnt a rfl rfl rfl
theorem bldalpha (a : Access) : Statement (.bldalpha a) := ofReg .bldalpha a rfl rfl rfl
theorem bldy (a : Access) : Statement (.bldy a) := ofReg .bldy a rfl rfl rfl
theorem dma0sad (a : Access) : Statement (.dma0sad a) := ofReg (.dmaSad 0) a rfl rfl rfl
theorem dma0dad (a : Access) : Statement (.dma0dad a) := ofReg (.dmaDad 0) a rfl rfl rfl
theorem dma0cntL (a : Access) : Statement (.dma0cntL a) := ofReg (.dmaCntL 0) a rfl rfl rfl
theorem dma0cntH (a : Access) : Statement (.dma0cntH a) := ofReg (.dmaCntH 0) a rfl rfl rfl
theorem dma1sad (a : Access) : Statement (.dma1sad a) := ofReg (.dmaSad 1) a rfl rfl rfl
theorem dma1dad (a : Access) : Statement (.dma1dad a) := ofReg (.dmaDad 1) a rfl rfl rfl
theorem dma1cntL (a : Access) : Statement (.dma1cntL a) := ofReg (.dmaCntL 1) a rfl rfl rfl
theorem dma1cntH (a : Access) : Statement (.dma1cntH a) := ofReg (.dmaCntH 1) a rfl rfl rfl
theorem dma2sad (a : Access) : Statement (.dma2sad a) := ofReg (.dmaSad 2) a rfl rfl rfl
theorem dma2dad (a : Access) : Statement (.dma2dad a) := ofReg (.dmaDad 2) a rfl rfl rfl
theorem dma2cntL (a : Access) : Statement (.dma2cntL a) := ofReg (.dmaCntL 2) a rfl rfl rfl
theorem dma2cntH (a : Access) : Statement (.dma2cntH a) := ofReg (.dmaCntH 2) a rfl rfl rfl
theorem dma3sad (a : Access) : Statement (.dma3sad a) := ofReg (.dmaSad 3) a rfl rfl rfl
theorem dma3dad (a : Access) : Statement (.dma3dad a) := ofReg (.dmaDad 3) a rfl rfl rfl
theorem dma3cntL (a : Access) : Statement (.dma3cntL a) := ofReg (.dmaCntL 3) a rfl rfl rfl
theorem dma3cntH (a : Access) : Statement (.dma3cntH a) := ofReg (.dmaCntH 3) a rfl rfl rfl

end Sys2Proof.Laws.Encoding
end

