-- ==== Sys2Proof/Laws/Quiet.lean ====
section
/-! SUPPORT. R42 (f): a service loop always runs to the end, so between top-level operations nothing is runnable, nothing
active, and no loop on the stack. -/

namespace Sys2Proof.Machine

/-- A quiet controller stays quiet. -/
def Calm (s t : State) : Prop := s.dma.Sound → s.dma.Quiet → t.dma.Sound ∧ t.dma.Quiet

theorem Calm.refl (s : State) : Calm s s := fun h k => ⟨h, k⟩

theorem Calm.trans {s t u : State} (h : Calm s t) (k : Calm t u) : Calm s u := fun x y => let ⟨a, b⟩ := h x y; k a b

theorem Calm.of_dma {s t : State} (h : t.dma = s.dma) : Calm s t := fun x y => by rw [h]; exact ⟨x, y⟩

/-- A way of running tasks that keeps the controller sound and runs every loop to its end: a loop ends only with nothing
active, and then nothing is runnable, whatever a nested reset made of `dma_busy` meanwhile. -/
structure Settles (go : Runner) : Prop where
  sound : ∀ {t s s'}, go t s = .next s' → s.dma.Sound → s'.dma.Sound
  service : ∀ {s t}, go .service s = .next t → s.dma.Sound → s.dma.busy = false → t.dma.Quiet
  loop : ∀ {s t}, go .loop s = .next t → s.dma.Sound → t.dma.Quiet
  callback : ∀ {acts s t}, go (.callback acts) s = .next t → Calm s t

/-- Every task may be taken where nothing is asked of callbacks. -/
theorem taskIn_any (t : Task) : TaskIn anyInstr t := fun _ _ _ _ _ _ => trivial

/-! ### What touches neither the loop nor, on a quiet controller, the sets -/

theorem startSet_busy (S : ChanSet) (s : State) : (startSet S s).dma.busy = s.dma.busy := by
  unfold startSet
  split
  · rfl
  · exact (tryStart_frame _ s).2.2.2.2.2.1

theorem arbitrate_busy (occ : Occasion) (s : State) : (arbitrate occ s).dma.busy = s.dma.busy := by
  have hf : ∀ c s, (tryFifo occ c s).dma.busy = s.dma.busy := fun c s => by
    unfold tryFifo
    split
    · exact (tryStart_frame _ s).2.2.2.2.2.1
    · rfl
  cases occ
  · exact startSet_busy _ s
  · exact startSet_busy _ s
  · exact startSet_busy _ s
  · exact (hf 2 _).trans (hf 1 s)
  · exact (hf 2 _).trans (hf 1 s)

theorem derive_busy (c : Chan) (s : State) : (derive c s).dma.busy = s.dma.busy := by
  rcases derive_cases c s with ⟨-, h⟩ | ⟨-, h⟩ | ⟨-, h⟩ | ⟨-, -, -, h⟩ <;> rw [h] <;> rfl

theorem configure_busy (c : Chan) (was : Bool) (s : State) : (configure c was s).dma.busy = s.dma.busy := by
  simp only [configure]
  split_ifs
  · exact derive_busy c _
  · exact ((tryStart_frame _ _).2.2.2.2.2.1).trans (derive_busy c _)
  · exact derive_busy c _
  · rfl

/-- Disabling a channel of a quiet controller leaves it quiet. -/
theorem quiet_disable {s : State} (h : s.dma.Quiet) (c : Chan) : (disableChannel c s).dma.Quiet := by
  have hr : (disableChannel c s).dma.runnable = 0 := by
    show removeChan s.dma.runnable c = 0
    rw [h.runnable]; simp [removeChan]
  refine ⟨hr, ?_, h.busy⟩
  show lowest (disableChannel c s).dma.runnable = none
  rw [hr]; rfl

theorem calm_stopVideo (s : State) : Calm s (stopVideo s) := by
  refine fun h k => ⟨h.stopVideo, ?_⟩
  unfold stopVideo
  split
  · exact quiet_disable k 3
  · exact k

/-- A write that starts nothing leaves a quiet controller quiet. -/
theorem quiet_configure {s : State} (h : s.dma.Quiet) (c : Chan) (was : Bool) (hs : startsNow c was s = false) :
    (configure c was s).dma.Quiet := by
  have hl : ((leaveSets c s).chan c).ctrl = (s.chan c).ctrl := rfl
  obtain ⟨hr, ha⟩ := derive_frame c (leaveSets c s)
  have hd : (derive c (leaveSets c s)).dma.Quiet := ⟨hr.trans h.runnable, ha.trans h.active, (derive_busy c _).trans h.busy⟩
  simp only [configure, hl]
  split_ifs with h1 h2 h3
  · exact hd
  · have : ctrlTiming (s.chan c).ctrl = timingImmediate := by
      rw [State.chan_mapChan_same] at h3; simpa only [armChannel, derive_chan, hl] using h3
    simp [startsNow, h1, h2, this] at hs
  · exact ⟨hd.runnable, hd.active, hd.busy⟩
  · exact quiet_disable (s := leaveSets c s) ⟨h.runnable, h.active, h.busy⟩ c

theorem writeState_busy (r : Reg) (o : Nat) (v : Byte) (s : State) : (writeState r o v s).dma.busy = s.dma.busy := by
  cases r
  case dmaCntH c => exact configure_busy c _ _
  all_goals rfl

theorem quiet_writeState {s : State} (h : s.dma.Quiet) (r : Reg) (o : Nat) (v : Byte)
    (hs : writeStarts r o v s = false) : (writeState r o v s).dma.Quiet := by
  cases r
  case dmaCntH c => exact quiet_configure (s := storeByte (.dmaCntH c) o v s) ⟨h.runnable, h.active, h.busy⟩ c _ hs
  all_goals exact ⟨h.runnable, h.active, h.busy⟩

theorem dmaReset_quiet : Dma.reset.Quiet := ⟨rfl, rfl, rfl⟩

theorem calm_dmaReset (s : State) : Calm s (dmaReset s) := fun _ _ => ⟨dmaReset_sound, dmaReset_quiet⟩

theorem calm_ppuReset {s t : State} (h : ppuReset s = .next t) : Calm s t := .of_dma (ppuReset_frame h).dma

theorem calm_sysReset {s t : State} (h : sysReset s = .next t) : Calm s t :=
  Calm.trans (s := s) (fun _ _ => ⟨dmaReset_sound, dmaReset_quiet⟩) (calm_ppuReset h)

/-! ### The operations -/

variable {self : Runner} (hs : Settles self)
include hs

theorem Settles.served {s t : State} (e : self .service s = .next t)
    (h : s.dma.Sound) (k : s.dma.busy = false) : t.dma.Sound ∧ t.dma.Quiet := ⟨hs.sound e h, hs.service e h k⟩

theorem Settles.request {occ : Occasion} {s t : State} (e : request self occ s = .next t) : Calm s t :=
  fun h k => hs.served e (h := h.arbitrate occ) (k := (arbitrate_busy occ s).trans k.busy)

/-- A request that is made settles the controller, whatever it was. -/
theorem Settles.request_quiet {occ : Occasion} {s t : State} (e : Machine.request self occ s = .next t) (h : s.dma.Sound)
    (k : s.dma.busy = false) : t.dma.Sound ∧ t.dma.Quiet :=
  hs.served e (h := h.arbitrate occ) (k := (arbitrate_busy occ s).trans k)

theorem Settles.writeReg {r : Reg} {o : Nat} {v : Byte} {s t : State} (e : writeReg self r o v s = .next t) :
    Calm s t := by
  unfold Machine.writeReg at e
  split at e
  · exact fun h k => hs.served e (h := writeState_sound r o v s h) (k := (writeState_busy r o v s).trans k.busy)
  · rename_i hn
    cases e
    exact fun h k => ⟨writeState_sound r o v s h, quiet_writeState k r o v (by simpa using hn)⟩

theorem Settles.ioWriteByte {a : Word} {v : Byte} {s t : State} (e : ioWriteByte self a v s = .next t) : Calm s t := by
  unfold Machine.ioWriteByte at e
  split at e
  · exact hs.writeReg e
  · cases e; exact .refl s

theorem Settles.envStore {a : Word} {v : Byte} {s t : State} (e : envStore self a v s = .next t) : Calm s t := by
  unfold Machine.envStore at e
  split at e
  · exact hs.ioWriteByte e
  · cases e; exact .of_dma rfl

theorem Settles.requests {b : Bool} {occ : Occasion} {s t : State} (e : doIf b (Machine.request self occ) s = .next t) :
    Calm s t := by
  rcases doIf_eq_next.1 e with ⟨-, h1⟩ | ⟨-, rfl⟩
  · exact hs.request h1
  · exact .refl t

theorem Settles.phaseComplete {late : Nat} {s t : State} (e : phaseComplete self late s = .next t) : Calm s t := by
  obtain ⟨p, h1, h2⟩ := andThen_eq_next.1 e
  obtain ⟨u, h3, h4⟩ := andThen_eq_next.1 h2
  obtain ⟨w, h5, h6⟩ := andThen_eq_next.1 h4
  have hp : Calm s p.2 := by
    obtain ⟨d, u, hf, rfl⟩ := phaseUpdate_frame h1
    dsimp only
    split
    · exact (Calm.of_dma hf.dma).trans (calm_stopVideo u)
    · exact .of_dma hf.dma
  exact ((hp.trans (hs.requests h3)).trans (hs.requests h5)).trans (hs.requests h6)

theorem Settles.stepEvent {s t : State} (e : stepEvent self s = .next t) : Calm s t := by
  unfold Machine.stepEvent at e
  split at e
  · cases e; exact .refl s
  · rename_i x rest hq
    simp only [fire] at e
    split at e
    · exact (Calm.of_dma (s := s) (t := takeEvent x rest s) rfl).trans (hs.phaseComplete e)
    · exact (Calm.of_dma (s := s) (t := enterCallback x rest s) rfl).trans (hs.callback e)

theorem Settles.issue {i : Instr} {s t : State} (e : issueInCallback self i s = .next t) : Calm s t := by
  unfold issueInCallback at e
  split at e
  · unfold accessInCallback at e
    split at e
    · cases e; exact .refl s
    · exact hs.writeReg e
  · split at e
    case h_1 =>
      obtain ⟨p, h1, h2⟩ := andThen_eq_next.1 e
      cases h2
      obtain ⟨-, rfl⟩ := addEvent_eq_next.1 h1
      exact .of_dma rfl
    case h_2 => cases e; exact .of_dma rfl
    case h_3 => exact hs.stepEvent e
    case h_4 => obtain ⟨-, rfl⟩ := advance_eq_next.1 e; exact .of_dma rfl
    case h_10 => exact calm_ppuReset e
    case h_11 => exact calm_sysReset e
    all_goals first
      | (cases e; exact .refl s)
      | (cases e; exact calm_stopVideo s)
      | (cases e; exact calm_dmaReset s)
      | (cases e)
      | exact hs.request e
      | exact hs.ioWriteByte e

theorem Settles.taskPass : Settles (taskPass self) := by
  refine ⟨fun {t s s'} e => steady_dma.taskPass (fun _ _ _ _ _ e => hs.sound e) t s s' (taskIn_any t) (callbacksIn_any _) e,
    ?_, ?_, ?_⟩
  · intro s t e h k
    simp only [Machine.taskPass, servicePass, k] at e
    exact hs.loop e ⟨h.hblank, h.vblank, h.video, h.runnable, h.active⟩
  · intro s t e h
    simp only [Machine.taskPass, loopPass] at e
    split at e
    · rename_i ha
      cases e
      exact ⟨(lowest_eq_none _).1 (h.active.symm.trans ha), ha, rfl⟩
    · rename_i c ha
      obtain ⟨u, h1, h2⟩ := andThen_eq_next.1 e
      simp only [run, ha] at h1
      exact hs.loop h2 (hs.sound h1 h)
  · intro acts s t e
    simp only [Machine.taskPass, runCallback] at e
    split at e
    · cases e; exact .refl s
    · obtain ⟨u, h1, h2⟩ := andThen_eq_next.1 e
      refine Calm.trans ?_ (hs.callback h2)
      unfold actInCallback at h1
      split at h1
      · exact hs.envStore h1
      · split at h1
        · cases h1
        · exact hs.issue h1

omit hs in
/-- The recursion settles the controller, whatever its fuel. -/
theorem settles_go (n : Nat) : Settles (go n) := by
  induction n with
  | zero =>
    exact ⟨fun {_ _ _} e => (nomatch e), fun {_ _} e => (nomatch e), fun {_ _} e => (nomatch e), fun {_ _ _} e => (nomatch e)⟩
  | succ n ih => exact ih.taskPass

end Sys2Proof.Machine
end

