-- ==== Sys2Proof/Laws/Vocabulary.lean ====
section
/-! SUPPORT. The statements' vocabulary and the model's operations say the same: bytes of a register, sets of channels, the
channel as it is armed, the earliest event, the rows by index. -/

namespace Sys2Proof.Spec

open Sys2Proof.Machine

/-! ### Sets of channels -/

theorem firstOf_eq : ∀ S, firstOf S = lowest S := by decide

theorem insertChan_eq : ∀ S c, insertChan S c = S ||| bit c := by decide

theorem removeChan_eq : ∀ S c, removeChan S c = without S c := by decide

theorem without_or_bit : ∀ S c, without S c ||| bit c = S ||| bit c := by decide

theorem firstOf_bit : ∀ c, firstOf (bit c) = some c := by decide

theorem without_bit : ∀ c, without (bit c) c = 0 := by decide

/-! ### Bytes of a register -/

/-- A merged value, bit by bit. -/
theorem mergeByte_bit (w : Word) (o : Nat) (v : Byte) (i : Nat) (ho : o < 4) :
    (mergeByte w o v).getLsbD i = if i / 8 = o then v.getLsbD (i % 8) else w.getLsbD i := by
  unfold mergeByte
  simp only [BitVec.getLsbD_or, BitVec.getLsbD_and, BitVec.getLsbD_not, BitVec.getLsbD_shiftLeft, BitVec.getLsbD_setWidth]
  have hff : ∀ j, (0xFF#32).getLsbD j = decide (j < 8) := by
    intro j
    by_cases hj : j < 8
    · simp only [hj, decide_true]; interval_cases j <;> rfl
    · simp only [hj, decide_false]
      by_cases h32 : j < 32
      · interval_cases j <;> first | omega | rfl
      · exact BitVec.getLsbD_of_ge _ _ (by omega)
  rw [hff]
  split
  · rename_i h
    have h1 : i < 32 := by omega
    have h2 : ¬i < 8 * o := by omega
    have h3 : i - 8 * o = i % 8 := by omega
    have h4 : i % 8 < 8 := Nat.mod_lt _ (by decide)
    have h5 : i % 8 < 32 := by omega
    simp [h1, h2, h3, h4, h5]
  · rename_i h
    by_cases h2 : i < 8 * o
    · by_cases h1 : i < 32
      · simp [h1, h2]
      · omega
    · have h3 : ¬i - 8 * o < 8 := by omega
      have h4 : v.getLsbD (i - 8 * o) = false := BitVec.getLsbD_of_ge _ _ (by omega)
      by_cases h1 : i < 32
      · simp [h1, h2, h3, h4]
      · simp [h1, h4, BitVec.getLsbD_of_ge w i (by omega)]

theorem setHalfByte_bit (h : Half) (o : Nat) (v : Byte) (i : Nat) (ho : o < 2) :
    (setHalfByte h o v).getLsbD i = if i / 8 = o then v.getLsbD (i % 8) else h.getLsbD i := by
  have : o = 0 ∨ o = 1 := by omega
  rcases this with rfl | rfl
  · simp only [setHalfByte, if_true, BitVec.getLsbD_append, BitVec.getLsbD_extractLsb']
    by_cases h8 : i < 8
    · have h1 : i / 8 = 0 := by omega
      have h2 : i % 8 = i := by omega
      simp [h8, h1, h2]
    · have h1 : i / 8 ≠ 0 := by omega
      simp only [h8, if_false, h1]
      by_cases hi : i - 8 < 8
      · simp [hi]; congr 1; omega
      · simp [hi, BitVec.getLsbD_of_ge h i (by omega)]
  · simp only [setHalfByte, Nat.one_ne_zero, if_false, BitVec.getLsbD_append, BitVec.getLsbD_extractLsb']
    by_cases h8 : i < 8
    · have h1 : i / 8 ≠ 1 := by omega
      simp [h8, h1]
    · simp only [h8, if_false]
      by_cases hi : i < 16
      · have h1 : i / 8 = 1 := by omega
        have h2 : i % 8 = i - 8 := by omega
        simp [h1, h2]
      · have h1 : i / 8 ≠ 1 := by omega
        simp only [h1, if_false]
        rw [BitVec.getLsbD_of_ge h i (by omega), BitVec.getLsbD_of_ge v _ (by omega)]

/-- What a masked byte write leaves in a half-word register. -/
theorem half_write (h m : Half) (o : Nat) (v : Byte) (ho : o < 2) :
    (mergeByte (h.setWidth 32) o v &&& m.setWidth 32).setWidth 16 = setHalfByte h o v &&& m := by
  apply BitVec.eq_of_getLsbD_eq
  intro i hi
  simp only [BitVec.getLsbD_setWidth, BitVec.getLsbD_and, mergeByte_bit _ _ _ _ (show o < 4 by omega),
    setHalfByte_bit _ _ _ _ ho, hi, decide_true, Bool.true_and, show i < 32 by omega]

/-- What a masked byte write leaves in a register of at most 9, 16 or 28 stored bits. -/
theorem narrow_write (n : Nat) (w m : Word) (o : Nat) (v : Byte) (ho : o < 4) (i : Nat) (hi : i < n) :
    ((mergeByte w o v &&& m).setWidth n).getLsbD i
      = (m.getLsbD i && if i / 8 = o then v.getLsbD (i % 8) else w.getLsbD i) := by
  simp only [BitVec.getLsbD_setWidth, BitVec.getLsbD_and, mergeByte_bit _ _ _ _ ho, hi, decide_true, Bool.true_and]
  exact Bool.and_comm _ _

theorem setWordByte_eq (w : Word) (o : Nat) (v : Byte) (ho : o < 4) : setWordByte w o v = mergeByte w o v := by
  apply BitVec.eq_of_getLsbD_eq
  intro i hi
  rw [mergeByte_bit _ _ _ _ ho]
  have : o = 0 ∨ o = 1 ∨ o = 2 ∨ o = 3 := by omega
  rcases this with rfl | rfl | rfl | rfl <;>
    simp only [setWordByte, BitVec.getLsbD_append, BitVec.getLsbD_extractLsb'] <;>
    split_ifs <;>
    first
      | omega
      | (congr 1; omega)
      | (rw [decide_eq_true (by omega), Bool.true_and]; congr 1; omega)

/-- A byte of a half-word. -/
theorem halfByte_eq (h : Half) (o : Nat) (ho : o < 2) : byteOf (h.setWidth 32) o = halfByte h o := by
  have : o = 0 ∨ o = 1 := by omega
  rcases this with rfl | rfl <;>
  · apply BitVec.eq_of_getLsbD_eq
    intro i hi
    simp [byteOf, halfByte, hi]
    try omega

/-! ### Channels -/

theorem aligned_eq (w : Bool) (a : Word) : aligned w a = align w a := rfl

theorem expanded_eq (c : Chan) (v : Half) : expanded c v = expandLen c v := by
  unfold expanded expandLen Config.lenMask
  by_cases hc : c = 3 <;> simp [hc]

theorem rederived_eq (s : State) (c : Chan) : rederived s c = derive c (leaveSets c s) := by
  rcases derive_cases c (leaveSets c s) with ⟨h1, h⟩ | ⟨h1, h⟩ | ⟨h1, h⟩ | ⟨h1, h2, h3, h⟩ <;> rw [h]
  · have h1 : s.dma.ch[c].ctrl.extractLsb' 12 2 = 2 := h1
    unfold rederived
    generalize s.dma.ch[c].ctrl.extractLsb' 12 2 = t at h1
    subst h1
    simp [leaveSets, State.mapDma, insertChan_eq, removeChan_eq, without_or_bit]
  · have h1 : s.dma.ch[c].ctrl.extractLsb' 12 2 = 1 := h1
    unfold rederived
    generalize s.dma.ch[c].ctrl.extractLsb' 12 2 = t at h1
    subst h1
    simp [leaveSets, State.mapDma, insertChan_eq, removeChan_eq, without_or_bit]
  · obtain ⟨h1, rfl⟩ := h1
    have h1 : s.dma.ch[(3 : Chan)].ctrl.extractLsb' 12 2 = 3 := h1
    unfold rederived
    generalize s.dma.ch[(3 : Chan)].ctrl.extractLsb' 12 2 = t at h1
    subst h1
    simp [leaveSets, State.mapDma, insertChan_eq, removeChan_eq, without_or_bit]
  · have a1 : s.dma.ch[c].ctrl.extractLsb' 12 2 ≠ 2 := h1
    have a2 : s.dma.ch[c].ctrl.extractLsb' 12 2 ≠ 1 := h2
    have a3 : ¬(s.dma.ch[c].ctrl.extractLsb' 12 2 = 3 ∧ c = 3) := h3
    simp only [rederived, if_neg a1, if_neg a2, if_neg a3, leaveSets, State.mapDma, removeChan_eq]

theorem outOfSets_eq (s : State) (c : Chan) : outOfSets s c = leaveSets c s := by
  simp only [outOfSets, leaveSets, State.mapDma, removeChan_eq]

theorem armed_eq (c : Chan) (ch : Channel) : armed c ch = armChannel c ch := by
  have hf : decide (ch.ctrl.extractLsb' 12 2 = 3 ∧ (c = 1 ∨ c = 2)) = isFifo c ch.ctrl := by
    unfold isFifo ctrlTiming timingSpecial
    rw [Bool.eq_iff_iff]; simp
  have hr : isRom ch.cfgSrc = decide (0x08000000 ≤ ch.cfgSrc.toNat ∧ ch.cfgSrc.toNat ≤ 0x0DFFFFFF) := by
    unfold isRom Config.romLo Config.romHi
    simp only [BitVec.le_def]; rfl
  unfold armed armChannel
  simp only [hf, hr, expanded_eq]
  congr 1
  simp [modeIncrement, ctrlSrcMode]

/-- The table of R231. -/
theorem tableDelta_eq : ∀ (word : Bool) (mode : BitVec 2), tableDelta word mode = delta word mode := by decide

/-- What `Run` fixes at entry. -/
theorem shapeOf_eq (c : Chan) (ch : Channel) :
    shapeOf ch = ⟨(burstOf c ch).word, (burstOf c ch).srcDelta, (burstOf c ch).dstDelta⟩ := by
  simp only [shapeOf, burstOf, tableDelta_eq]; rfl

/-! ### The earliest event -/

/-- The queue's first event is the earliest, and taking it out leaves the rest. -/
theorem earliest_head {s : Sched} {q : Nat} {e : Event} (h : s.Sound q) (he : earliest s.queue e) :
    ∃ rest, s.queue = e :: rest ∧ s.queue.erase e = rest := by
  obtain ⟨hm, hl⟩ := he
  match hq : s.queue with
  | [] => rw [hq] at hm; cases hm
  | x :: rest =>
    rw [hq] at hm hl
    have hx := hl x (by simp)
    have hs := h.sorted
    rw [hq] at hs
    obtain ⟨h1, h2⟩ := List.pairwise_cons.1 hs
    have hxe : x = e := by
      rcases List.mem_cons.1 hm with rfl | hm
      · rfl
      · have := (Event.before_iff _ _).1 (h1 e hm)
        omega
    subst hxe
    exact ⟨rest, rfl, by simp⟩

/-! ### The rows by index -/

/-- A register row is an access to its register. -/
theorem exec_instr (r : Reg) (a : Access) (s : State) : exec (r.instr a) s = accessReg r a s := by
  cases r
  case bgcnt b => match b with | 0 => rfl | 1 => rfl | 2 => rfl | 3 => rfl
  case bghofs b => match b with | 0 => rfl | 1 => rfl | 2 => rfl | 3 => rfl
  case bgvofs b => match b with | 0 => rfl | 1 => rfl | 2 => rfl | 3 => rfl
  case bgpa b => match b with | 0 => rfl | 1 => rfl
  case bgpb b => match b with | 0 => rfl | 1 => rfl
  case bgpc b => match b with | 0 => rfl | 1 => rfl
  case bgpd b => match b with | 0 => rfl | 1 => rfl
  case bgx b => match b with | 0 => rfl | 1 => rfl
  case bgy b => match b with | 0 => rfl | 1 => rfl
  case winh b => match b with | 0 => rfl | 1 => rfl
  case winv b => match b with | 0 => rfl | 1 => rfl
  case dmaSad b => match b with | 0 => rfl | 1 => rfl | 2 => rfl | 3 => rfl
  case dmaDad b => match b with | 0 => rfl | 1 => rfl | 2 => rfl | 3 => rfl
  case dmaCntL b => match b with | 0 => rfl | 1 => rfl | 2 => rfl | 3 => rfl
  case dmaCntH b => match b with | 0 => rfl | 1 => rfl | 2 => rfl | 3 => rfl
  all_goals rfl

theorem exec_cntHRow (c : Chan) (a : Access) (s : State) : exec (cntHRow c a) s = accessReg (.dmaCntH c) a s := by
  match c with | 0 => rfl | 1 => rfl | 2 => rfl | 3 => rfl

/-- A read of a byte the register has. -/
theorem accessReg_read {r : Reg} {o : Nat} (s : State) (h : o < r.width) :
    accessReg r (.read o) s = .next { s with result := .byte (byteOf (readValue r s) o) } := by
  have hw : (Access.read o).within r.width = true := decide_eq_true h
  unfold accessReg
  rw [if_pos hw]; rfl

/-- A write of a byte the register has, where it starts no transfer. -/
theorem accessReg_write {r : Reg} {o : Nat} {v : Byte} {s : State} (h : o < r.width) (hs : writeStarts r o v s = false) :
    accessReg r (.write o v) s = .next { writeState r o v s with result := .none } := by
  have hw : (Access.write o v).within r.width = true := decide_eq_true h
  unfold accessReg writeReg
  rw [if_pos hw]
  simp only [hs, Bool.false_eq_true, if_false, finish_next]

end Sys2Proof.Spec
end

