-- ==== Sys2Proof/Laws/RegisterMap.lean ====
section
/-! SUPPORT. The register map as intervals: an address decodes to the register whose bytes it lies in, and the addresses of
no register are those of `Spec.unmapped` (R131, R132). -/

namespace Sys2Proof

open Sys2Proof.Machine Sys2Proof.Spec

/-- An address in two parts: the low `k` bits and the rest. -/
theorem split_low (a : Word) (k : Nat) (hk : k ≤ 32) :
    a.toNat = (a &&& ~~~(BitVec.ofNat 32 (2 ^ k - 1))).toNat + (a &&& BitVec.ofNat 32 (2 ^ k - 1)).toNat := by
  have h : a = (a &&& ~~~(BitVec.ofNat 32 (2 ^ k - 1))) + (a &&& BitVec.ofNat 32 (2 ^ k - 1)) := by
    rw [BitVec.add_eq_or_of_and_eq_zero]
    · ext i hi
      simp only [BitVec.getElem_or, BitVec.getElem_and, BitVec.getElem_not]
      cases a[i] <;> cases (BitVec.ofNat 32 (2 ^ k - 1))[i] <;> rfl
    · ext i hi
      simp only [BitVec.getElem_and, BitVec.getElem_not]
      cases a[i] <;> cases (BitVec.ofNat 32 (2 ^ k - 1))[i] <;> simp
  have hle : (a &&& BitVec.ofNat 32 (2 ^ k - 1)).toNat = a.toNat % 2 ^ k := by
    rw [BitVec.toNat_and, BitVec.toNat_ofNat]
    have : (2 ^ k - 1) % 2 ^ 32 = 2 ^ k - 1 :=
      Nat.mod_eq_of_lt (by
        have := Nat.pow_le_pow_right (show 0 < 2 by decide) hk
        have := Nat.two_pow_pos k
        omega)
    rw [this, Nat.and_two_pow_sub_one_eq_mod]
  have hlt : (a &&& ~~~(BitVec.ofNat 32 (2 ^ k - 1))).toNat ≤ a.toNat := by
    rw [BitVec.toNat_and]; exact Nat.and_le_left
  have h2 := congrArg BitVec.toNat h
  rw [BitVec.toNat_add] at h2
  have ha := a.isLt
  have hm := Nat.mod_lt a.toNat (Nat.two_pow_pos k)
  have hml := Nat.mod_le a.toNat (2 ^ k)
  omega

/-- The offsets of R130 end below 0xE0. -/
theorem Reg.offset_lt (r : Reg) : r.offset + r.width ≤ 0xE0 := by
  cases r <;> simp only [Reg.offset, Reg.width] <;> omega

/-- The address that decodes to byte `o` of `r` (R131). -/
theorem regAt_toNat {a : Word} {r : Reg} {o : Nat} (h : regAt a = some (r, o)) :
    a.toNat = 0x04000000 + r.offset + o := by
  have ho := regAt_byte h
  unfold regAt at h
  split at h
  · rename_i x hx
    have hs := List.find?_some hx
    cases h
    have hs := of_decide_eq_true hs
    have hlt := Reg.offset_lt r
    have h0 : (r.addr 0).toNat = 0x04000000 + r.offset := by
      simp only [Reg.addr, BitVec.toNat_ofNat, Config.ioBase]
      have := r.width_eq
      omega
    rcases r.width_eq with hw | hw <;> rw [hw] at hs ⊢
    · have := split_low a 1 (by decide)
      simp only [Nat.pow_one, hs, h0] at this
      exact this
    · have := split_low a 2 (by decide)
      simp only [hs, h0, show 2 ^ 2 - 1 = 4 - 1 from rfl] at this
      exact this
  · cases h

/-- The bytes of the window, one by one. -/
theorem regAt_window : ((List.range 0xE0).all fun n =>
    (regAt (BitVec.ofNat 32 (0x04000000 + n))).isSome
      == !(decide (n = 2 ∨ n = 3 ∨ n = 0x4E ∨ n = 0x4F ∨ (0x56 ≤ n ∧ n ≤ 0xAF)))) = true := by
  decide +kernel

theorem regAt_eq_none_iff (a : Word) : regAt a = none ↔ unmapped a := by
  by_cases h : 0x04000000 ≤ a.toNat ∧ a.toNat < 0x040000E0
  · have hw := List.all_eq_true.1 regAt_window (a.toNat - 0x04000000) (List.mem_range.2 (by omega))
    rw [show BitVec.ofNat 32 (0x04000000 + (a.toNat - 0x04000000)) = a by
      rw [show 0x04000000 + (a.toNat - 0x04000000) = a.toNat by omega]; simp] at hw
    have hw := eq_of_beq hw
    unfold unmapped
    cases hr : regAt a with
    | none =>
      rw [hr] at hw
      simp only [Option.isSome_none, Bool.false_eq, Bool.not_eq_false', decide_eq_true_eq] at hw
      exact ⟨fun _ => by omega, fun _ => rfl⟩
    | some p =>
      rw [hr] at hw
      simp only [Option.isSome_some, Bool.true_eq, Bool.not_eq_true', decide_eq_false_iff_not] at hw
      exact ⟨nofun, fun h => by omega⟩
  · refine ⟨fun _ => by unfold unmapped; omega, fun _ => ?_⟩
    cases hr : regAt a with
    | none => rfl
    | some p =>
      obtain ⟨r, o⟩ := p
      have h1 := regAt_toNat hr
      have h2 := regAt_byte hr
      have h3 := r.offset_lt
      omega

/-- A store of the environment at an address of no register is a write of that byte of memory (R82). -/
theorem envStore_unmapped {self : Runner} {a : Word} (h : unmapped a) (v : Byte) (s : State) :
    envStore self a v s = .next (s.mapEnv fun e => { e with mem := e.mem.write a.toNat v }) := by
  have hb : byteAddr a 0 = a.toNat := by simp [byteAddr]
  have hv : byteOf (v.setWidth 32) 0 = v := by
    apply BitVec.eq_of_toNat_eq
    simpa [byteOf] using v.isLt
  simp only [envStore, (regAt_eq_none_iff a).2 h, Option.isSome_none, Bool.false_eq_true, if_false, Mem.writeBytes, hb, hv]

/-- At an address of a register it is a byte write of that register (R93). -/
theorem envStore_mapped {self : Runner} {a : Word} (h : ¬unmapped a) (v : Byte) (s : State) :
    envStore self a v s = ioWriteByte self a v s := by
  have hr : (regAt a).isSome = true := by
    rw [Option.isSome_iff_ne_none]
    exact fun hn => h ((regAt_eq_none_iff a).1 hn)
  simp only [envStore, hr, if_true]

end Sys2Proof
end

