-- ==== Sys2Proof/Laws/Transfer.lean ====
section
/-! SUPPORT. A transfer that nothing disturbs, unit by unit (R237): what one unit does, what all the remaining ones do, and
what the service loop around them does (R236). -/

namespace Sys2Proof.Spec

open Sys2Proof.Machine

/-- What channel `c`'s transfer moves along, read off the state. -/
def movingOf (s : State) (c : Chan) : Moving :=
  ⟨s.env.mem, s.dma.openBus, s.sched.now, s.dma.ch[c].latSrc, s.dma.ch[c].latDst⟩

/-- The state with `m` put back and `r` units remaining. -/
def putMoving (s : State) (c : Chan) (m : Moving) (r : Nat) : State :=
  { s with
    sched := { s.sched with now := m.now }
    dma :=
      { s.dma with
        openBus := m.openBus
        ch := s.dma.ch.set c { s.dma.ch[c] with latSrc := m.src, latDst := m.dst, latRem := r } }
    env := { s.env with mem := m.mem } }

/-- The pass of `Run`'s loop that moves units of shape `u` on channel `c`. -/
def burst (c : Chan) (u : UnitShape) (kind : AccessKind) : Burst := ⟨c, u.word, u.srcDelta, u.dstDelta, kind⟩

theorem burst_eq (c : Chan) (ch : Channel) : burstOf c ch = burst c (shapeOf ch) .nonSeq := by
  rw [shapeOf_eq c ch]; rfl

@[simp] theorem movingOf_put (s : State) (c : Chan) (m : Moving) (r : Nat) : movingOf (putMoving s c m r) c = m := by
  simp [movingOf, putMoving]

@[simp] theorem putMoving_put (s : State) (c : Chan) (m m' : Moving) (r r' : Nat) :
    putMoving (putMoving s c m r) c m' r' = putMoving s c m' r' := by
  simp [putMoving]

theorem putMoving_self (s : State) (c : Chan) : putMoving s c (movingOf s c) s.dma.ch[c].latRem = s := by
  show { s with dma := { s.dma with ch := s.dma.ch.set c s.dma.ch[c] } } = s
  rw [show s.dma.ch.set c s.dma.ch[c] = s.dma.ch from Vector.set_getElem_self c.isLt]

theorem movedState_eq (s : State) (c : Chan) : movedState s c = putMoving s c (endOf s c) 0 := rfl

/-! ### One unit -/

theorem duplicateHalf_append (h : Half) : duplicateHalf (h.setWidth 32) = h ++ h := by
  apply BitVec.eq_of_getLsbD_eq
  intro i hi
  simp only [duplicateHalf, BitVec.getLsbD_or, BitVec.getLsbD_and, BitVec.getLsbD_shiftLeft, BitVec.getLsbD_setWidth,
    BitVec.getLsbD_append]
  have hf : (0xFFFF#32).getLsbD i = decide (i < 16) := by revert i; decide
  rw [hf]
  by_cases h16 : i < 16
  · simp [h16, hi]
  · have h1 : i - 16 < 32 := by omega
    simp [h16, hi, h1]

theorem low_half (w : Word) : w &&& 0xFFFF#32 = (w.extractLsb' 0 16).setWidth 32 := by
  apply BitVec.eq_of_getLsbD_eq
  intro i hi
  have hf : (0xFFFF#32).getLsbD i = decide (i < 16) := by revert i; decide
  simp only [BitVec.getLsbD_and, hf, BitVec.getLsbD_setWidth, BitVec.getLsbD_extractLsb']
  by_cases h16 : i < 16 <;> simp [h16, hi]

theorem readWord_low (m : Mem) (a : Word) : m.readWord a &&& 0xFFFF#32 = (m.readHalf a).setWidth 32 := by
  rw [low_half]
  congr 1
  apply BitVec.eq_of_getLsbD_eq
  intro i hi
  simp only [Mem.readWord, Mem.readHalf, BitVec.getLsbD_extractLsb', BitVec.getLsbD_append]
  by_cases h8 : i < 8
  · simp [h8, hi, show i < 24 by omega]
  · have h1 : i - 8 < 8 := by omega
    simp [h8, h1, hi, show i < 24 by omega]

/-- A read from memory, not from a register (R237, R93). -/
theorem busRead_unmapped {word : Bool} {a : Word} {s : State} (h : unmapped a) :
    busRead word a s = if word then s.env.mem.readWord a else (s.env.mem.readHalf a).setWidth 32 := by
  simp only [busRead, (regAt_eq_none_iff a).2 h, Option.isSome_none, Bool.false_eq_true, if_false, readWord_low]

theorem srcReadable_iff (a : Word) : srcReadable a = true ↔ 0x02000000 ≤ a.toNat := by
  simp [srcReadable, Config.srcReadableLo, BitVec.le_def]

theorem advance_to {n : Nat} {s : State} (h : s.sched.now + n ≤ 2 ^ 64 - 1) :
    advance n s = .next { s with sched := { s.sched with now := s.sched.now + n } } :=
  advance_eq_next.2 ⟨h, rfl⟩

/-- The source half: the datum, with the latch and the clock moved on. -/
theorem fetchUnit_plain {c : Chan} {u : UnitShape} {kind : AccessKind} {s : State}
    (hr : readableAt s.dma.ch[c].latSrc → unmapped s.dma.ch[c].latSrc)
    (hn : (moveOne s.cfg u kind (movingOf s c)).now ≤ 2 ^ 64 - 1) :
    fetchUnit (burst c u kind) s =
      .next (datum u (movingOf s c),
        { s with
          sched :=
            { s.sched with
              now :=
                s.sched.now
                  + if 0x02000000 ≤ s.dma.ch[c].latSrc.toNat then
                      busCost s.cfg s.dma.ch[c].latSrc (if u.word then 32 else 16) kind
                    else s.cfg.idleCost }
          dma := { s.dma with openBus := (moveOne s.cfg u kind (movingOf s c)).openBus } }) := by
  have hb : 8 * unitBytes u.word = if u.word then 32 else 16 := by cases u.word <;> rfl
  simp only [fetchUnit, burst, hb, State.chan]
  simp only [moveOne, movingOf] at hn ⊢
  by_cases h : 0x02000000 ≤ s.dma.ch[c].latSrc.toNat
  · simp only [h, if_true] at hn ⊢
    rw [if_pos ((srcReadable_iff _).2 h), advance_to (by omega), busRead_unmapped (hr h)]
    simp only [andThen_next, datum, h, if_true, State.mapDma, Host.Outcome.next.injEq]
    cases u.word <;> simp [openBusAfter, duplicateHalf_append]
  · simp only [h, if_false] at hn ⊢
    rw [if_neg (mt (srcReadable_iff _).1 h), advance_to (by omega)]
    simp only [andThen_next, datum, h, if_false]
    cases u.word <;> simp [openBusValue, low_half]

/-- One unit (R237). -/
theorem moveUnit_plain {self : Runner} {c : Chan} {u : UnitShape} {kind : AccessKind} {s : State}
    (hr : readableAt s.dma.ch[c].latSrc → unmapped s.dma.ch[c].latSrc) (hw : unmapped s.dma.ch[c].latDst)
    (hn : (moveOne s.cfg u kind (movingOf s c)).now ≤ 2 ^ 64 - 1) :
    moveUnit self (burst c u kind) s =
      .next (putMoving s c (moveOne s.cfg u kind (movingOf s c)) (s.dma.ch[c].latRem - 1)) := by
  have hb : 8 * unitBytes u.word = if u.word then 32 else 16 := by cases u.word <;> rfl
  have hb2 : unitBytes u.word = if u.word then 4 else 2 := rfl
  simp only [moveUnit]
  rw [fetchUnit_plain hr hn]
  simp only [andThen_next, busWrite, State.chan, burst, (regAt_eq_none_iff _).2 hw, Option.isSome_none,
    Bool.false_eq_true, if_false, State.mapEnv, hb]
  rw [advance_to (by exact hn)]
  simp only [andThen_next, stepLatch, State.mapChan, putMoving, moveOne, movingOf, hb2]
  rfl

/-! ### All the remaining units -/

/-- No event is due: `Run` does not step the scheduler (R237). -/
theorem remaining_pos {s : Sched} (h : ∀ e ∈ s.queue, s.now < e.target) : ¬remaining s ≤ 0 := by
  unfold remaining
  split
  · decide
  · rename_i e rest hq
    have := h e (by rw [hq]; exact List.mem_cons_self)
    omega

/-- `n` undisturbed units and then `Complete`, the trigger being clear (R237). -/
theorem go_units (k : Nat) (c : Chan) (u : UnitShape) : ∀ (n : Nat) (kind : AccessKind) (s : State),
    s.dma.ch[c].latRem = n → s.dma.earlyExit = false →
    Undisturbed s.cfg u s.sched.queue kind n (movingOf s c) →
    go (n + 1 + k) (.units (burst c u kind)) s =
      .next (complete c (putMoving s c (moveUnits s.cfg u kind n (movingOf s c)) 0)) := by
  intro n
  induction n with
  | zero =>
    intro kind s hrem _ _
    have hs := putMoving_self s c
    rw [hrem] at hs
    rw [show 0 + 1 + k = k + 1 by omega]
    simp only [go, taskPass, unitPass, burst, State.chan, hrem, if_true, moveUnits, hs]
  | succ n ih =>
    intro kind s hrem hearly hu
    obtain ⟨hq, hr, hw, hn, hu⟩ := hu
    rw [show n + 1 + 1 + k = (n + 1 + k) + 1 by omega]
    simp only [go, taskPass, unitPass]
    rw [show (s.chan (burst c u kind).chan).latRem = n + 1 from hrem, if_neg (Nat.succ_ne_zero n),
      decide_eq_false (remaining_pos hq), doIf_false, andThen_next, hearly, if_neg Bool.false_ne_true,
      moveUnit_plain hr hw hn, andThen_next]
    have hb : (burst c u kind).continued = burst c u .seq := rfl
    rw [hb, ih .seq]
    · rw [movingOf_put, putMoving_put]; rfl
    · simp only [putMoving]
      rw [show (s.dma.ch.set c _)[c] = _ from Vector.getElem_set_self c.isLt, hrem]; rfl
    · exact hearly
    · rw [movingOf_put]; exact hu

/-- `Run` on the active channel (R237). -/
theorem run_plain {n : Nat} {s : State} {c : Chan} (ha : s.dma.active = some c) (he : s.dma.earlyExit = false)
    (hp : Plain s c) (hf : s.dma.ch[c].latRem < n) : run (go n) s = .next (complete c (movedState s c)) := by
  obtain ⟨k, rfl⟩ := Nat.exists_eq_add_of_lt hf
  simp only [run, ha, State.chan, burst_eq]
  rw [show s.dma.ch[c].latRem + k + 1 = s.dma.ch[c].latRem + 1 + k by omega]
  exact go_units k c _ _ _ s rfl he hp

/-- What `Complete` leaves active (R238). -/
theorem complete_active (c : Chan) (s : State) : (complete c s).dma.active = lowest (removeChan s.dma.runnable c) := by
  have h1 : (raiseIf (ctrlIrq ((leaveRunnable c s).chan c).ctrl) .dma c.val (leaveRunnable c s)).dma.runnable
      = removeChan s.dma.runnable c := by rw [raiseIf_frame]; rfl
  simp only [complete]
  generalize raiseIf _ _ _ _ = s2 at h1 ⊢
  split <;> exact congrArg lowest h1

/-- `Service` with one runnable channel (R236). -/
theorem service_plain {n : Nat} {s : State} {c : Chan} (hb : s.dma.busy = false) (ha : s.dma.active = some c)
    (hr : s.dma.runnable = bit c) (he : s.dma.earlyExit = false) (hp : Plain s c) (hf : s.dma.ch[c].latRem + 2 < n) :
    go n .service s = .next (setBusy false (complete c (movedState (setBusy true s) c))) := by
  obtain ⟨k, rfl⟩ := Nat.exists_eq_add_of_lt hf
  have h1 : run (go (s.dma.ch[c].latRem + 1 + k)) (setBusy true s)
      = .next (complete c (movedState (setBusy true s) c)) :=
    run_plain (s := setBusy true s) ha he hp (show s.dma.ch[c].latRem < _ by omega)
  have h2 : (complete c (movedState (setBusy true s) c)).dma.active = none := by
    rw [complete_active]
    show lowest (removeChan s.dma.runnable c) = none
    rw [hr, removeChan_eq, without_bit]; rfl
  rw [show s.dma.ch[c].latRem + 2 + k + 1 = (s.dma.ch[c].latRem + 1 + k) + 1 + 1 by omega]
  rw [go, taskPass, servicePass, hb, if_neg Bool.false_ne_true, go, taskPass, loopPass]
  rw [show (setBusy true s).dma.active = some c from ha]
  dsimp only
  rw [h1, andThen_next]
  rw [show s.dma.ch[c].latRem + 1 + k = (s.dma.ch[c].latRem + k) + 1 by omega, go, taskPass, loopPass, h2]

end Sys2Proof.Spec
end

