-- ==== Sys2Proof/Laws/Phase.lean ====
section
/-! SUPPORT. The phase handler under conditions on the state alone (R293): when the next phase event can be added, the state
part answers, and this is what it leaves. -/

namespace Sys2Proof.Spec

open Sys2Proof.Machine

theorem phaseUpdate_ready {s : State} {late dur line : Nat} {p : Phase} {vb hb : Bool}
    (ht : (transition s).1.timing =
      { s.timing with phase := p, scanline := line, vblankFlag := vb, hblankFlag := hb })
    (hd : p.dur = dur) (h : PhaseReady s late dur) :
    ∃ u, phaseUpdate late s = .next ((transition s).2, if (transition s).2.stopVideo then stopVideo u else u)
      ∧ PhaseResult s u late p dur line vb hb (transition s).2.irqV (transition s).2.irqH
      ∧ u.regs = (transition s).1.regs ∧ u.fb = (transition s).1.fb ∧ u.dma = s.dma := by
  have tf := timingFrame_transition s
  obtain ⟨h1, h2, h3, h4⟩ := h
  have hdur : (transition s).1.timing.phase.dur = dur := by rw [ht]; exact hd
  have hd' : dur ≤ 1006 := by subst hd; cases p <;> decide
  have hsched : (setVcountFlag (transition s).1).sched = s.sched := tf.sched
  have hcfg : (setVcountFlag (transition s).1).cfg = s.cfg := tf.cfg
  have hadd : addEvent false (((transition s).1.timing.phase.dur : Int) - late) 0 (setVcountFlag (transition s).1)
      = .next (s.sched.nextSeq,
        { setVcountFlag (transition s).1 with sched := s.sched.add (dur - late) 0 }) := by
    rw [addEvent_next (by omega) (by simp only [Config.delayMax]; omega)
      (by rw [hsched]; simp only [Config.nowMax]; omega) (by rw [hsched, hcfg]; exact h3) (by rw [hsched]; exact h4)
      (by simp), hsched]
    rw [show (((transition s).1.timing.phase.dur : Int) - late).toNat = dur - late by omega]
  refine ⟨_, phaseUpdate_eq_next.2 ⟨_, hadd, rfl⟩, ⟨?_, ?_, ?_, ?_, ?_, ?_, ?_⟩, ?_, ?_, ?_⟩
  all_goals simp only [phaseRaises, raiseIf_frame, setPpuEvent, setVcountFlag, State.mapTiming, State.mapEnv, vcountRaises,
    vcountMatches, ht, tf.env, tf.cfg, tf.result, tf.dma]
  · simp only [Sched.add]
    rw [show s.sched.now + (dur - late) = s.sched.now + dur - late by omega]
    exact perm_insertEvent _ _
  · rfl
  · rfl
  · simp only [Sched.add, List.append_assoc]
    congr 5
    simp [and_assoc]

end Sys2Proof.Spec
end

