-- ==== Sys2Proof/Laws/Pixels.lean ====
section
/-! SUPPORT. The compositor's fields, bytes and palettes as the numbers the statements are written in: what each small read
of the model is in `Spec`'s vocabulary (R330 to R342, R371 to R374). -/

namespace Sys2Proof.Spec

open Sys2Proof.Machine

/-- A field is a quotient and a remainder (R10). -/
theorem field_eq_div_mod {n : Nat} (v : BitVec n) (lo len : Nat) : field v lo len = v.toNat / 2^lo % 2^len := by
  simp [field, BitVec.extractLsb'_toNat, Nat.shiftRight_eq_div_pow]

/-- So is one bit. -/
theorem getLsbD_eq_decide {n : Nat} (v : BitVec n) (i : Nat) : v.getLsbD i = decide (v.toNat / 2^i % 2 = 1) := by
  rw [BitVec.getLsbD, Nat.testBit_eq_decide_div_mod_eq]

/-- A little-endian half-word (R87). -/
theorem toNat_half (a b : Byte) : ((a ++ b : Half)).toNat = b.toNat + 256 * a.toNat := by
  rw [BitVec.toNat_append, Nat.shiftLeft_eq, ← Nat.mul_comm]
  rw [← Nat.two_pow_add_eq_or_of_lt b.isLt]
  omega

theorem toNat_vram16 (w : View) (o : Nat) : (w.vram16 o).toNat = vramHalf w o := by
  simp only [View.vram16, toNat_half]; rfl

theorem toNat_oam16 (w : View) (o : Nat) : (w.oam16 o).toNat = oamHalf w o := by
  simp only [View.oam16, toNat_half, oamHalf, Config.oamBase]; rfl

/-- Bit 15 of a colour half-word is dropped (R160). -/
theorem color_of_half (h : Half) (n : Nat) (e : h.toNat = n) : h.setWidth 15 = BitVec.ofNat 15 n := by
  apply BitVec.eq_of_toNat_eq; simp [e]

theorem bgPal_eq_pramColor (w : View) (i : Nat) : w.bgPal i = pramColor w (2*i) := by
  apply color_of_half
  simp only [View.pram16, toNat_half, Config.pramBase]; rfl

theorem objPal_eq_pramColor (w : View) (i : Nat) : w.objPal i = pramColor w (0x200 + 2*i) := by
  apply color_of_half
  simp only [View.pram16, toNat_half, Config.pramBase]; rfl

theorem toInt_eq_signed (h : Half) : h.toInt = signed 16 h.toNat := by
  have := h.isLt
  simp only [signed, BitVec.toInt_eq_toNat_cond]; split <;> split <;> omega

theorem toInt_field_eq_signed (h : Half) : (h.extractLsb' 0 9).toInt = signed 9 (h.toNat % 512) := by
  have h2 : (h.extractLsb' 0 9).toNat = h.toNat % 512 := by simp [BitVec.extractLsb'_toNat]
  have := Nat.mod_lt h.toNat (show 512 > 0 by decide)
  simp only [signed, BitVec.toInt_eq_toNat_cond, h2]; split <;> split <;> omega

theorem bgSample_eq_samplePoint (w : View) (b : Fin 4) (x : Nat) : w.bgSample b x = samplePoint w b x := by
  simp only [View.bgSample, samplePoint, cntMosaic, snap, field_eq_div_mod, pow_zero, Nat.div_one]
  rfl

theorem scrollVal_eq_scrollBy (i : ScrollInterp) (v : BitVec 9) : scrollVal i v = scrollBy i v.toNat := by
  have := v.isLt
  cases i
  · rfl
  · simp only [scrollVal, scrollBy, field_eq_div_mod, getLsbD_eq_decide]
    by_cases h : 256 ≤ v.toNat
    · have : v.toNat / 2^8 % 2 = 1 := by omega
      simp only [this, h, if_true, decide_true]
      congr 2; omega
    · have h2 : ¬ v.toNat / 2^8 % 2 = 1 := by omega
      simp only [h2, h, if_false, decide_false, Bool.false_eq_true]
      omega

theorem nibble_eq_halfOfByte (b : Byte) (x : Nat) : nibble b x = halfOfByte b.toNat x := by
  have := b.isLt
  simp only [nibble, halfOfByte, field_eq_div_mod]; split <;> omega

theorem layerKind_eq_kindOf (w : View) (b : Fin 4) : layerKind (bgMode w.regs.dispcnt) b = kindOf w b := by
  simp only [kindOf, bgMode, field_eq_div_mod, pow_zero, Nat.div_one]
  have : w.regs.dispcnt.toNat % 2^3 < 8 := by omega
  rw [show w.regs.dispcnt.toNat % 8 = w.regs.dispcnt.toNat % 2^3 from rfl]
  generalize w.regs.dispcnt.toNat % 2^3 = m at *
  interval_cases m <;> revert b <;> decide

theorem spriteSize_eq_sizeTable : ∀ a b : Nat, a < 4 → b < 4 → spriteSize a b = sizeTable a b := by
  intro a b ha hb; interval_cases a <;> interval_cases b <;> rfl

theorem toNat_attr0 (w : View) (i : Nat) : (w.oam16 (8*i)).toNat = attr w i 0 := toNat_oam16 w _

theorem toNat_attr1 (w : View) (i : Nat) : (w.oam16 (8*i+2)).toNat = attr w i 1 := toNat_oam16 w _

theorem toNat_attr2 (w : View) (i : Nat) : (w.oam16 (8*i+4)).toNat = attr w i 2 := toNat_oam16 w _

theorem attr0_lt (w : View) (i : Nat) : attr w i 0 < 65536 := by rw [← toNat_attr0]; exact (w.oam16 (8*i)).isLt

theorem attr1_lt (w : View) (i : Nat) : attr w i 1 < 65536 := by rw [← toNat_attr1]; exact (w.oam16 (8*i+2)).isLt

theorem attr2_lt (w : View) (i : Nat) : attr w i 2 < 65536 := by rw [← toNat_attr2]; exact (w.oam16 (8*i+4)).isLt

theorem sprite_shape (w : View) (i : Nat) : (w.sprite i).shape = attr w i 0 / 0x4000 := by
  have := attr0_lt w i
  simp only [View.sprite, spriteOf, field_eq_div_mod, toNat_attr0]; omega

theorem sprite_size (w : View) (i : Nat) : (w.sprite i).size = attr w i 1 / 0x4000 := by
  have := attr1_lt w i
  simp only [View.sprite, spriteOf, field_eq_div_mod, toNat_attr1]; omega

theorem spriteSize_sprite (w : View) (i : Nat) : spriteSize (w.sprite i).shape (w.sprite i).size = entrySize w i := by
  have := attr0_lt w i; have := attr1_lt w i
  rw [sprite_shape, sprite_size, spriteSize_eq_sizeTable _ _ (by omega) (by omega)]; rfl

theorem width_sprite (w : View) (i : Nat) : (w.sprite i).width = (entrySize w i).1 := by simp only [Sprite.width, spriteSize_sprite]

theorem height_sprite (w : View) (i : Nat) : (w.sprite i).height = (entrySize w i).2 := by simp only [Sprite.height, spriteSize_sprite]

theorem sprite_affine (w : View) (i : Nat) : (w.sprite i).affine = decide (attr w i 0 / 0x100 % 2 = 1) := by
  simp only [View.sprite, spriteOf, getLsbD_eq_decide, toNat_attr0]; rfl

theorem sprite_dbl (w : View) (i : Nat) : (w.sprite i).dbl = decide (attr w i 0 / 0x200 % 2 = 1) := by
  simp only [View.sprite, spriteOf, getLsbD_eq_decide, toNat_attr0]; rfl

theorem boxScale_sprite (w : View) (i : Nat) : (w.sprite i).boxScale = entryScale w i := by
  simp [Sprite.boxScale, sprite_affine, sprite_dbl, entryScale]

theorem row_sprite (w : View) (i n : Nat) (h : w.scanline = n) : (w.sprite i).row n = entryRow w i := by
  subst h
  simp only [Sprite.row, View.sprite, spriteOf, field_eq_div_mod, toNat_attr0, entryRow, pow_zero, Nat.div_one, Nat.reducePow]

theorem sprite_mode (w : View) (i : Nat) : (w.sprite i).mode = attr w i 0 / 0x400 % 4 := by
  simp only [View.sprite, spriteOf, field_eq_div_mod, toNat_attr0]; rfl

end Sys2Proof.Spec
end

