-- ==== Sys2Proof/Tests/Slice0.lean ====
section
/-! SUPPORT. Tests. Every expected value is written from the spec's tables and worked examples, which each test names, never
from the model's own answer. After them, for every statement with hypotheses, a witness that meets them, clause by clause. -/

namespace Sys2Proof.Tests

open Sys2Proof.Machine Sys2Proof.Spec

/-- A field of the state an instruction answers. -/
def after {α : Type} (f : State → α) (i : Instr) (s : State) : Option α :=
  match exec i s with
  | .next t => some (f t)
  | .fault _ => none
  | .refused _ => none

/-- The same of a step that takes one request. -/
def afterStep {α : Type} (f : State → α) (r : Request) (s : State) : Option α :=
  match step { s with env := { s.env with requests := [.issue r] } } with
  | .next t => some (f t)
  | .fault _ => none
  | .refused _ => none

/-- Why an instruction is refused. -/
def refusal (i : Instr) (s : State) : Option Refusal :=
  match exec i s with
  | .next _ => none
  | .fault _ => none
  | .refused r => some r

/-- The reset state with a changed scheduler. -/
def withSched (now : Nat) (queue : List Event) (nextSeq : Nat) : State :=
  { State.reset with sched := ⟨now, queue, nextSeq⟩ }

/-- The reset state with one DMA channel replaced. -/
def withChannel (c : Chan) (x : Channel) : State := withChan State.reset c x

/-- A channel armed with `n` units from `src` to `dst`, under the control half-word `ctrl`. -/
def latched (ctrl : Half) (src dst : Word) (n : Nat) : Channel := ⟨src, dst, BitVec.ofNat 16 n, ctrl, false, 0, src, dst, n⟩

/-! ### Well-formed terms -/

/-- The byte after the last one of each of the 53 registers, read or written, is refused by the check (R131). -/
theorem test_illformed_access : ∀ r ∈ allRegs,
    (r.instr (.read r.width)).wellFormed = false ∧ (r.instr (.write r.width 0x12)).wellFormed = false := by
  decide +kernel

/-- A byte index of 2 is outside a register of two bytes and inside one of four (R130, R131). -/
theorem test_illformed_widths :
    (Instr.dispcnt (.read 2)).wellFormed = false ∧ (Instr.bg2x (.read 2)).wellFormed = true
      ∧ (Instr.bg2x (.write 4 0)).wellFormed = false ∧ (Instr.dma0sad (.read 4)).wellFormed = false
      ∧ (Instr.dma3cntH (.write 2 0x80)).wellFormed = false := by
  decide

/-! ### Decoding -/

/-- Source: the tables of R122 and R124, the fields of R121. -/
theorem test_decode_commands :
    decode (.command 0x0107000000000064#64) = some (.schAdd 7 100)
      ∧ decode (.command 0x0200000000000001#64) = some (.schCancel 1)
      ∧ decode (.command 0x0300000000000000#64) = some .schRemain
      ∧ decode (.command 0x0400000000000000#64) = some .schStep
      ∧ decode (.command 0x05000000000003E8#64) = some (.schAdvance 1000)
      ∧ decode (.command 0x0600000000000000#64) = some .schNow
      ∧ decode (.command 0x0700000000000000#64) = some .schReset
      ∧ decode (.command 0x1001000000000000#64) = some (.dmaRequest .vblank)
      ∧ decode (.command 0x1100000000000000#64) = some .dmaStopvideo
      ∧ decode (.command 0x1200000000000000#64) = some .dmaReset
      ∧ decode (.command 0x2200000000000000#64) = some .ppuReset
      ∧ decode (.command 0x3000000004000006#64) = some (.ioRead 0x04000006#32)
      ∧ decode (.command 0x3180000004000000#64) = some (.ioWrite 0x04000000#32 0x80)
      ∧ decode (.command 0x3F00000000000000#64) = some .sysReset := by
  decide

/-- Source: the table of R123, the fields of R121. -/
theorem test_decode_internal :
    decode (.command 0x1803000000000000#64) = some (.dmaTrystart 3)
      ∧ decode (.command 0x1900000000000000#64) = some .dmaSelect
      ∧ decode (.command 0x1A00000000000000#64) = some .dmaService
      ∧ decode (.command 0x1B00000000000000#64) = some .dmaRun
      ∧ decode (.command 0x1C00000000000000#64) = some (.dmaComplete 0)
      ∧ decode (.command 0x1D02000000000000#64) = some (.dmaDisable 2)
      ∧ decode (.command 0x1E01000000000000#64) = some (.dmaOnwrite 1 false)
      ∧ decode (.command 0x1E03000000000001#64) = some (.dmaOnwrite 3 true)
      ∧ decode (.command 0x2000000000000028#64) = some (.ppuPhase 40)
      ∧ decode (.command 0x2100000000000000#64) = some .ppuVcount
      ∧ decode (.command 0x2400000000000000#64) = some .ppuRender := by
  decide

/-- Source: R121 and R126. A code outside the tables, a channel of 4, an occasion of 5, an address above 32 bits, a `b` of 2
for `was_enabled`, and a non-zero unused field. -/
theorem test_decode_reserved :
    decode (.command 0x0000000000000000#64) = none ∧ decode (.command 0x2300000000000000#64) = none
      ∧ decode (.command 0x1804000000000000#64) = none ∧ decode (.command 0x1005000000000000#64) = none
      ∧ decode (.command 0x3000000100000000#64) = none ∧ decode (.command 0x1E00000000000002#64) = none
      ∧ decode (.command 0x0401000000000000#64) = none ∧ decode (.command 0x0600000000000001#64) = none := by
  decide

/-- Source: R132. The gaps, both edges of each, are the plain operations. -/
theorem test_decode_gaps :
    decode (.read 0x03FFFFFF#32) = some (.ioRead 0x03FFFFFF#32)
      ∧ decode (.read 0x04000002#32) = some (.ioRead 0x04000002#32)
      ∧ decode (.write 0x04000003#32 1) = some (.ioWrite 0x04000003#32 1)
      ∧ decode (.read 0x0400004E#32) = some (.ioRead 0x0400004E#32)
      ∧ decode (.read 0x04000056#32) = some (.ioRead 0x04000056#32)
      ∧ decode (.write 0x040000AF#32 1) = some (.ioWrite 0x040000AF#32 1)
      ∧ decode (.read 0x040000E0#32) = some (.ioRead 0x040000E0#32)
      ∧ decode (.read 0xFFFFFFFF#32) = some (.ioRead 0xFFFFFFFF#32) := by
  decide +kernel

/-- Source: the table of R130. The last byte of each register, read, and its first byte, written. -/
theorem test_decode_registers_control :
    decode (.read 0x04000001#32) = some (.dispcnt (.read 1))
      ∧ decode (.write 0x04000000#32 0x5A) = some (.dispcnt (.write 0 0x5A))
      ∧ decode (.read 0x04000005#32) = some (.dispstat (.read 1))
      ∧ decode (.write 0x04000004#32 0x5A) = some (.dispstat (.write 0 0x5A))
      ∧ decode (.read 0x04000007#32) = some (.vcount (.read 1))
      ∧ decode (.write 0x04000006#32 0x5A) = some (.vcount (.write 0 0x5A))
      ∧ decode (.read 0x04000009#32) = some (.bg0cnt (.read 1))
      ∧ decode (.write 0x04000008#32 0x5A) = some (.bg0cnt (.write 0 0x5A))
      ∧ decode (.read 0x0400000B#32) = some (.bg1cnt (.read 1))
      ∧ decode (.write 0x0400000A#32 0x5A) = some (.bg1cnt (.write 0 0x5A))
      ∧ decode (.read 0x0400000D#32) = some (.bg2cnt (.read 1))
      ∧ decode (.write 0x0400000C#32 0x5A) = some (.bg2cnt (.write 0 0x5A))
      ∧ decode (.read 0x0400000F#32) = some (.bg3cnt (.read 1))
      ∧ decode (.write 0x0400000E#32 0x5A) = some (.bg3cnt (.write 0 0x5A))
      ∧ decode (.read 0x04000011#32) = some (.bg0hofs (.read 1))
      ∧ decode (.write 0x04000010#32 0x5A) = some (.bg0hofs (.write 0 0x5A))
      ∧ decode (.read 0x04000013#32) = some (.bg0vofs (.read 1))
      ∧ decode (.write 0x04000012#32 0x5A) = some (.bg0vofs (.write 0 0x5A))
      ∧ decode (.read 0x04000015#32) = some (.bg1hofs (.read 1))
      ∧ decode (.write 0x04000014#32 0x5A) = some (.bg1hofs (.write 0 0x5A))
      ∧ decode (.read 0x04000017#32) = some (.bg1vofs (.read 1))
      ∧ decode (.write 0x04000016#32 0x5A) = some (.bg1vofs (.write 0 0x5A))
      ∧ decode (.read 0x04000019#32) = some (.bg2hofs (.read 1))
      ∧ decode (.write 0x04000018#32 0x5A) = some (.bg2hofs (.write 0 0x5A))
      ∧ decode (.read 0x0400001B#32) = some (.bg2vofs (.read 1))
      ∧ decode (.write 0x0400001A#32 0x5A) = some (.bg2vofs (.write 0 0x5A))
      ∧ decode (.read 0x0400001D#32) = some (.bg3hofs (.read 1))
      ∧ decode (.write 0x0400001C#32 0x5A) = some (.bg3hofs (.write 0 0x5A))
      ∧ decode (.read 0x0400001F#32) = some (.bg3vofs (.read 1))
      ∧ decode (.write 0x0400001E#32 0x5A) = some (.bg3vofs (.write 0 0x5A)) := by decide +kernel

/-- Source: the table of R130. The last byte of each register, read, and its first byte, written. -/
theorem test_decode_registers_affine :
    decode (.read 0x04000021#32) = some (.bg2pa (.read 1))
      ∧ decode (.write 0x04000020#32 0x5A) = some (.bg2pa (.write 0 0x5A))
      ∧ decode (.read 0x04000023#32) = some (.bg2pb (.read 1))
      ∧ decode (.write 0x04000022#32 0x5A) = some (.bg2pb (.write 0 0x5A))
      ∧ decode (.read 0x04000025#32) = some (.bg2pc (.read 1))
      ∧ decode (.write 0x04000024#32 0x5A) = some (.bg2pc (.write 0 0x5A))
      ∧ decode (.read 0x04000027#32) = some (.bg2pd (.read 1))
      ∧ decode (.write 0x04000026#32 0x5A) = some (.bg2pd (.write 0 0x5A))
      ∧ decode (.read 0x0400002B#32) = some (.bg2x (.read 3))
      ∧ decode (.write 0x04000028#32 0x5A) = some (.bg2x (.write 0 0x5A))
      ∧ decode (.read 0x0400002F#32) = some (.bg2y (.read 3))
      ∧ decode (.write 0x0400002C#32 0x5A) = some (.bg2y (.write 0 0x5A))
      ∧ decode (.read 0x04000031#32) = some (.bg3pa (.read 1))
      ∧ decode (.write 0x04000030#32 0x5A) = some (.bg3pa (.write 0 0x5A))
      ∧ decode (.read 0x04000033#32) = some (.bg3pb (.read 1))
      ∧ decode (.write 0x04000032#32 0x5A) = some (.bg3pb (.write 0 0x5A))
      ∧ decode (.read 0x04000035#32) = some (.bg3pc (.read 1))
      ∧ decode (.write 0x04000034#32 0x5A) = some (.bg3pc (.write 0 0x5A))
      ∧ decode (.read 0x04000037#32) = some (.bg3pd (.read 1))
      ∧ decode (.write 0x04000036#32 0x5A) = some (.bg3pd (.write 0 0x5A))
      ∧ decode (.read 0x0400003B#32) = some (.bg3x (.read 3))
      ∧ decode (.write 0x04000038#32 0x5A) = some (.bg3x (.write 0 0x5A))
      ∧ decode (.read 0x0400003F#32) = some (.bg3y (.read 3))
      ∧ decode (.write 0x0400003C#32 0x5A) = some (.bg3y (.write 0 0x5A)) := by decide +kernel

/-- Source: the table of R130. The last byte of each register, read, and its first byte, written. -/
theorem test_decode_registers_windows :
    decode (.read 0x04000041#32) = some (.win0h (.read 1))
      ∧ decode (.write 0x04000040#32 0x5A) = some (.win0h (.write 0 0x5A))
      ∧ decode (.read 0x04000043#32) = some (.win1h (.read 1))
      ∧ decode (.write 0x04000042#32 0x5A) = some (.win1h (.write 0 0x5A))
      ∧ decode (.read 0x04000045#32) = some (.win0v (.read 1))
      ∧ decode (.write 0x04000044#32 0x5A) = some (.win0v (.write 0 0x5A))
      ∧ decode (.read 0x04000047#32) = some (.win1v (.read 1))
      ∧ decode (.write 0x04000046#32 0x5A) = some (.win1v (.write 0 0x5A))
      ∧ decode (.read 0x04000049#32) = some (.winin (.read 1))
      ∧ decode (.write 0x04000048#32 0x5A) = some (.winin (.write 0 0x5A))
      ∧ decode (.read 0x0400004B#32) = some (.winout (.read 1))
      ∧ decode (.write 0x0400004A#32 0x5A) = some (.winout (.write 0 0x5A))
      ∧ decode (.read 0x0400004D#32) = some (.mosaic (.read 1))
      ∧ decode (.write 0x0400004C#32 0x5A) = some (.mosaic (.write 0 0x5A))
      ∧ decode (.read 0x04000051#32) = some (.bldcnt (.read 1))
      ∧ decode (.write 0x04000050#32 0x5A) = some (.bldcnt (.write 0 0x5A))
      ∧ decode (.read 0x04000053#32) = some (.bldalpha (.read 1))
      ∧ decode (.write 0x04000052#32 0x5A) = some (.bldalpha (.write 0 0x5A))
      ∧ decode (.read 0x04000055#32) = some (.bldy (.read 1))
      ∧ decode (.write 0x04000054#32 0x5A) = some (.bldy (.write 0 0x5A)) := by decide +kernel

/-- Source: the table of R130. The last byte of each register, read, and its first byte, written. -/
theorem test_decode_registers_dma01 :
    decode (.read 0x040000B3#32) = some (.dma0sad (.read 3))
      ∧ decode (.write 0x040000B0#32 0x5A) = some (.dma0sad (.write 0 0x5A))
      ∧ decode (.read 0x040000B7#32) = some (.dma0dad (.read 3))
      ∧ decode (.write 0x040000B4#32 0x5A) = some (.dma0dad (.write 0 0x5A))
      ∧ decode (.read 0x040000B9#32) = some (.dma0cntL (.read 1))
      ∧ decode (.write 0x040000B8#32 0x5A) = some (.dma0cntL (.write 0 0x5A))
      ∧ decode (.read 0x040000BB#32) = some (.dma0cntH (.read 1))
      ∧ decode (.write 0x040000BA#32 0x5A) = some (.dma0cntH (.write 0 0x5A))
      ∧ decode (.read 0x040000BF#32) = some (.dma1sad (.read 3))
      ∧ decode (.write 0x040000BC#32 0x5A) = some (.dma1sad (.write 0 0x5A))
      ∧ decode (.read 0x040000C3#32) = some (.dma1dad (.read 3))
      ∧ decode (.write 0x040000C0#32 0x5A) = some (.dma1dad (.write 0 0x5A))
      ∧ decode (.read 0x040000C5#32) = some (.dma1cntL (.read 1))
      ∧ decode (.write 0x040000C4#32 0x5A) = some (.dma1cntL (.write 0 0x5A))
      ∧ decode (.read 0x040000C7#32) = some (.dma1cntH (.read 1))
      ∧ decode (.write 0x040000C6#32 0x5A) = some (.dma1cntH (.write 0 0x5A)) := by decide +kernel

/-- Source: the table of R130. The last byte of each register, read, and its first byte, written. -/
theorem test_decode_registers_dma23 :
    decode (.read 0x040000CB#32) = some (.dma2sad (.read 3))
      ∧ decode (.write 0x040000C8#32 0x5A) = some (.dma2sad (.write 0 0x5A))
      ∧ decode (.read 0x040000CF#32) = some (.dma2dad (.read 3))
      ∧ decode (.write 0x040000CC#32 0x5A) = some (.dma2dad (.write 0 0x5A))
      ∧ decode (.read 0x040000D1#32) = some (.dma2cntL (.read 1))
      ∧ decode (.write 0x040000D0#32 0x5A) = some (.dma2cntL (.write 0 0x5A))
      ∧ decode (.read 0x040000D3#32) = some (.dma2cntH (.read 1))
      ∧ decode (.write 0x040000D2#32 0x5A) = some (.dma2cntH (.write 0 0x5A))
      ∧ decode (.read 0x040000D7#32) = some (.dma3sad (.read 3))
      ∧ decode (.write 0x040000D4#32 0x5A) = some (.dma3sad (.write 0 0x5A))
      ∧ decode (.read 0x040000DB#32) = some (.dma3dad (.read 3))
      ∧ decode (.write 0x040000D8#32 0x5A) = some (.dma3dad (.write 0 0x5A))
      ∧ decode (.read 0x040000DD#32) = some (.dma3cntL (.read 1))
      ∧ decode (.write 0x040000DC#32 0x5A) = some (.dma3cntL (.write 0 0x5A))
      ∧ decode (.read 0x040000DF#32) = some (.dma3cntH (.read 1))
      ∧ decode (.write 0x040000DE#32 0x5A) = some (.dma3cntH (.write 0 0x5A)) := by decide +kernel

/-! ### The scheduler -/

/-- Source: the example of R201. -/
theorem test_add : after (fun t => (t.sched.queue, t.result)) (.schAdd 7 100) State.reset
    = some ([⟨100, 1, 7⟩, ⟨960, 0, 0⟩], .handle 1) := by decide

/-- Source: R201, R127. Tag 0 is the PPU's. -/
theorem test_add_tag_zero : refusal (.schAdd 0 100) State.reset = some .ppuTagReserved := by decide

/-- Source: the example of R202. -/
theorem test_cancel : after (fun t => t.sched.queue) (.schCancel 1) (withSched 0 [⟨100, 1, 7⟩, ⟨960, 0, 0⟩] 2)
    = some [⟨960, 0, 0⟩] := by decide

/-- Source: the example of R203. -/
theorem test_remain : after (fun t => t.result) .schRemain State.reset = some (.count 960) := by decide

/-- Source: the example of R203, after an advance of 1000. -/
theorem test_remain_overdue : after (fun t => t.result) .schRemain (withSched 1000 [⟨960, 0, 0⟩] 1) = some (.count (-40)) := by
  decide

/-- Source: R204, R207, R94. An overdue external event reports its overshoot and the clock stays. -/
theorem test_step_external : after (fun t => (t.sched.now, t.env.extLog)) .schStep
    (withSched 130 [⟨100, 1, 7⟩, ⟨960, 0, 0⟩] 2) = some (130, [⟨7, 30, 130⟩]) := by decide +kernel

/-- Source: the third step of the example of R293. -/
theorem test_step_phase : after (fun t => (t.sched.now, t.timing.scanline, t.timing.phase, t.sched.queue)) .schStep
    { withSched 1006 [⟨1232, 2, 0⟩] 3 with timing := ⟨.hblank, 0, false, true, true, false, false, false, 0, 2⟩ }
    = some (1232, 1, .visible, [⟨2192, 3, 0⟩]) := by decide +kernel

/-- Source: the example of R205. -/
theorem test_advance : after (fun t => (t.sched.now, t.sched.queue)) (.schAdvance 1000) State.reset
    = some (1000, [⟨960, 0, 0⟩]) := by decide

/-- Source: the example of R206. -/
theorem test_now : after (fun t => t.result) .schNow (withSched 77 [] 5) = some (.clock 77) := by decide

/-! ### The DMA controller -/

/-- Source: the example of R233. -/
theorem test_trystart : after (fun t => (t.dma.runnable, t.dma.active, t.dma.earlyExit)) (.dmaTrystart 0)
    { State.reset with dma := { Dma.reset with runnable := 0b0010, active := some 1 } }
    = some (0b0011, some 0, true) := by decide

/-- Source: the example of R234. -/
theorem test_select : after (fun t => t.dma.active) .dmaSelect
    { State.reset with dma := { Dma.reset with runnable := 0b1010 } } = some (some 1) := by decide

/-- Source: the example of R237, one word: read NonSeq, write NonSeq, cost 1 each, open bus the word. -/
theorem test_run :
    after (fun t => (t.env.mem, t.sched.now, t.dma.openBus, t.dma.ch[(3 : Chan)].latSrc)) .dmaRun
      { withChannel 3 (latched 0x8400 0x02000000 0x02000100 1) with
        dma := { (withChannel 3 (latched 0x8400 0x02000000 0x02000100 1)).dma with runnable := 0b1000, active := some 3 }
        env := { Env.reset with mem := [(0x02000000, 0x11), (0x02000003, 0x44)] } }
      = some ([(0x02000000, 0x11), (0x02000003, 0x44), (0x02000100, 0x11), (0x02000103, 0x44)], 2, 0x44000011#32,
        0x02000004#32) := by decide +kernel

/-- Source: R237. Below `SRC_READABLE_LO` a half-word unit stores the low half of the open-bus value. -/
theorem test_run_open_bus :
    after (fun t => (t.env.mem, t.dma.openBus)) .dmaRun
      { withChannel 0 (latched 0x8000 0x00000000 0x02000100 1) with
        dma :=
          { (withChannel 0 (latched 0x8000 0x00000000 0x02000100 1)).dma with
            runnable := 0b0001
            active := some 0
            openBus := 0x12345678#32 } }
      = some ([(0x02000100, 0x78), (0x02000101, 0x56)], 0x12345678#32) := by decide +kernel

/-- Source: R236. The guard: a loop on the call stack. -/
theorem test_service_busy : after (fun t => (t.dma.active, t.dma.busy)) .dmaService
    { State.reset with dma := { Dma.reset with runnable := 0b0001, active := some 0, busy := true } }
    = some (some 0, true) := by decide +kernel

/-- Source: the example of R235 in one unit each: channels 0 and 2 on VBlank, both run, none is dropped. -/
theorem test_request_vblank :
    after (fun t => (t.env.mem, t.dma.runnable, t.dma.active, t.dma.vblank)) (.dmaRequest .vblank)
      { State.reset with
        dma :=
          { Dma.reset with
            vblank := 0b0101
            ch :=
              (Dma.reset.ch.set 0 (latched 0x9000 0x02000000 0x02000100 1)).set 2
                (latched 0x9000 0x02000002 0x02000200 1) }
        env := { Env.reset with mem := [(0x02000000, 0xAA), (0x02000002, 0xBB)] } }
      = some ([(0x02000000, 0xAA), (0x02000002, 0xBB), (0x02000100, 0xAA), (0x02000200, 0xBB)], 0, none, 0) := by
  decide +kernel

/-- Source: R235. A FIFO occasion starts the channel whose destination is the FIFO address and no other. -/
theorem test_request_fifo :
    after (fun t => (t.dma.ch[(1 : Chan)].latRem, t.dma.ch[(2 : Chan)].latRem)) (.dmaRequest .fifoA)
      { State.reset with
        dma :=
          { Dma.reset with
            ch :=
              (Dma.reset.ch.set 1 ⟨0x02000000, 0x040000A0, 0, 0xB000, true, 0, 0x02000000, 0x040000A0, 1⟩).set 2
                ⟨0x02000000, 0x040000A4, 0, 0xB000, true, 0, 0x02000000, 0x040000A4, 1⟩ } }
      = some (0, 1) := by decide +kernel

/-- Source: the example of R238. -/
theorem test_complete :
    after (fun t => (t.dma.ch[(0 : Chan)].ctrl, t.dma.vblank, t.env.irqLog)) (.dmaComplete 0)
      { State.reset with dma := { Dma.reset with vblank := 0b0001, ch := Dma.reset.ch.set 0 (latched 0xD000 0 0 0) } }
      = some (0x5000, 0, [⟨.dma, 0, 0⟩]) := by decide

/-- Source: R238. A repeating channel in Reload mode: length and destination again, source where it stopped. -/
theorem test_complete_repeat :
    after (fun t => (t.dma.ch[(0 : Chan)].latRem, t.dma.ch[(0 : Chan)].latDst, t.dma.ch[(0 : Chan)].latSrc)) (.dmaComplete 0)
      (withChannel 0 ⟨0x02000000, 0x02000102, 3, 0x9660, false, 0, 0x02000010, 0x02000110, 0⟩)
      = some (3, 0x02000100, 0x02000010) := by decide

/-- Source: the example of R239. -/
theorem test_disable :
    after (fun t => (t.dma.runnable, t.dma.active, t.dma.earlyExit, t.dma.ch[(3 : Chan)].ctrl)) (.dmaDisable 3)
      { withChannel 3 (latched 0x8400 0 0 1) with
        dma := { (withChannel 3 (latched 0x8400 0 0 1)).dma with runnable := 0b1000, active := some 3 } }
      = some (0, none, true, 0x0400) := by decide

/-- Source: the example of R240. -/
theorem test_stopvideo :
    after (fun t => (t.dma.ch[(3 : Chan)].ctrl, t.dma.video)) .dmaStopvideo
      { withChannel 3 (latched 0xB600 0 0 1) with
        dma := { (withChannel 3 (latched 0xB600 0 0 1)).dma with video := 0b1000 } }
      = some (0x3600, 0) := by decide

/-- Source: the example of R241 with VBlank timing, so that it arms and waits. -/
theorem test_onwrite :
    after (fun t => (t.dma.ch[(3 : Chan)].latSrc, t.dma.ch[(3 : Chan)].latDst, t.dma.ch[(3 : Chan)].latRem, t.dma.vblank))
      (.dmaOnwrite 3 false) (withChannel 3 ⟨0x02000002, 0x06000000, 0, 0x9400, false, 0, 0, 0, 0⟩)
      = some (0x02000000, 0x06000000, 0x10000, 0b1000) := by decide +kernel

/-- Source: R241, R32. FIFO mode forces words and 4 units; a cartridge ROM source forces Increment. -/
theorem test_onwrite_fifo :
    after (fun t => (t.dma.ch[(1 : Chan)].fifoMode, t.dma.ch[(1 : Chan)].latRem, t.dma.ch[(1 : Chan)].srcModeEff))
      (.dmaOnwrite 1 false) (withChannel 1 ⟨0x08000000, 0x040000A0, 9, 0xB100, false, 0, 0, 0, 0⟩)
      = some (true, 4, 0) := by decide +kernel

/-! ### The phase machine and the compositor -/

/-- Source: the second step of the example of R293. -/
theorem test_phase : after (fun t => (t.timing.phase, t.timing.hblankFlag, t.sched.queue)) (.ppuPhase 0)
    { withSched 1006 [] 2 with timing := ⟨.preHblankWindow, 0, false, false, true, false, false, false, 0, 1⟩ }
    = some (.hblank, true, [⟨1232, 2, 0⟩]) := by decide +kernel

/-- Source: R293, R524, R525. Line 160 begins: VBlank and then VCount are raised, the flag is set. -/
theorem test_phase_vblank : after (fun t => (t.timing.scanline, t.timing.vblankFlag, t.env.irqLog)) (.ppuPhase 5)
    { withSched 1000 [] 2 with timing := ⟨.hblank, 159, false, true, false, true, false, true, 160, 1⟩ }
    = some (160, true, [⟨.vblank, 0, 1000⟩, ⟨.vcount, 0, 1000⟩]) := by decide +kernel

/-- Source: the example of R294. -/
theorem test_vcount : after (fun t => (t.timing.vcountFlag, t.result)) .ppuVcount
    { State.reset with timing := ⟨.visible, 100, false, false, false, false, false, true, 100, 0⟩ }
    = some (true, .flag true) := by decide

/-- Source: the example of R420: row 0 is 240 pixels of `COLOR_OUT(0)`, which is 0xFF000000 (R419). Forced blank is white and
the reference points still advance (R341). -/
theorem test_render :
    (after (fun t => t.fb[0]?) .ppuRender { State.reset with fb := blankFb 0 }
    = some (some (List.replicate 240 0xFF000000#32)))
      ∧ (after (fun t => ((t.fb[0]?).map fun row => row.take 2, t.regs.refX[(0 : Fin 2)])) .ppuRender
      { State.reset with regs := { PpuRegs.reset with dispcnt := 0x0080, bgpb := #v[0xFFFF, 0] } }
      = some (some [0xFFFFFFFF#32, 0xFFFFFFFF#32], -1)) := by decide +kernel

/-- Source: the examples of R336, R339, R340, R377, R382, R417 and the worked column of R424, in this order. -/
theorem test_compositor :
    (View.textPixel
      { cfg := Params.t0
        regs := { PpuRegs.reset with bgcnt := #v[0x0100, 0, 0, 0], bghofs := #v[4, 0, 0, 0] }
        scanline := 0
        mem := [(0x05000024, 0x34), (0x05000025, 0x12), (0x06000020, 0x21), (0x06000802, 0x01), (0x06000803, 0x10)] } 0 5
      = some 0x1234#15)
      ∧ (View.affineBgPixel
        { cfg := Params.t0
          regs :=
            { PpuRegs.reset with
              bgpa := #v[0x0100, 0]
              bgpd := #v[0x0100, 0]
              refX := #v[0x800, 0]
              refY := #v[0x300, 0] }
          scanline := 3
          mem := [(0x05000012, 0x77), (0x06000002, 5), (0x0600015A, 9)] } 2 0 10
        = some 0x77#15)
      ∧ (View.bitmapPixel
        { cfg := Params.t0
          regs := { PpuRegs.reset with dispcnt := 0x0403 }
          scanline := 2
          mem := [(0x060003CE, 0x21), (0x060003CF, 0x84)] } 7
        = some 0x0421#15)
      ∧ (let w : View :=
        { cfg := Params.t0
          regs := { PpuRegs.reset with dispcnt := 0x1040 }
          scanline := 20
          mem :=
            [(0x05000206, 0x55), (0x060100B0, 0x30), (0x07000000, 0x10), (0x07000002, 0x20), (0x07000003, 0x40),
              (0x07000004, 0x04)] }
      w.objPixel [w.sprite 0] 41) = ⟨some 0x55#15, 0, false, false⟩
      ∧ (let w : View :=
        { cfg := Params.t0
          regs :=
            { PpuRegs.reset with
              dispcnt := 0x2000
              winh := #v[0x1050, 0]
              winv := #v[0x0A32, 0]
              winin := 0x0011
              winout := 0x003F }
          scanline := 10
          mem := [] }
      [15, 16, 79, 80].map (w.winMask ObjPixel.empty)) = [0x3F, 0x11, 0x11, 0x3F]
      ∧ blend { PpuRegs.reset with bldcnt := 0x0241, bldalpha := 0x0808 } 0x3F false ⟨.bg 0, 0x001F, 0⟩
          (some ⟨.bg 1, 0x7C00, 0⟩) = 0x3C0F
        ∧ blend { PpuRegs.reset with bldcnt := 0x0081, bldy := 8 } 0x3F false ⟨.bg 0, 0x0000, 0⟩ none = 0x3DEF
        ∧ blend { PpuRegs.reset with bldcnt := 0x00C1, bldy := 4 } 0x3F false ⟨.bg 0, 0x7FFF, 0⟩ none = 0x6318
      ∧ (topTwo ⟨.bd, 0, 4⟩ ([⟨.obj, 0x111, 1⟩, ⟨.bg 0, 0x222, 1⟩, ⟨.bg 1, 0x333, 1⟩].foldr insertCandidate [])
        = (⟨.obj, 0x111, 1⟩, some ⟨.bg 0, 0x222, 1⟩)) := by
  decide +kernel

/-! ### Register access -/

/-- Source: the example of R440, with `scanline` 1. -/
theorem test_read_vcount : after (fun t => t.result) (.ioRead 0x04000006#32)
    { State.reset with timing := { Timing.reset 0 with scanline := 1 } } = some (.byte 1) := by decide +kernel

/-- Source: the example of R441. -/
theorem test_write_dispcnt : after (fun t => t.regs.dispcnt) (.ioWrite 0x04000001#32 0x01)
    { State.reset with regs := { PpuRegs.reset with dispcnt := 0x0003 } } = some 0x0103 := by decide +kernel

/-- Source: the example of R451. -/
theorem test_dispstat :
    after (fun t => t.result) (.dispstat (.read 0))
        { State.reset with timing := ⟨.hblank, 0, false, true, true, true, true, true, 0, 0⟩ } = some (.byte 0x3E)
      ∧ after (fun t => (t.timing.hblankFlag, t.timing.vblankIrqEn, t.timing.vblankFlag)) (.dispstat (.write 0 0xFF))
        { State.reset with timing := ⟨.hblank, 0, false, true, true, false, false, false, 0, 0⟩ }
        = some (true, true, false) := by decide +kernel

/-- Source: the example of R452. -/
theorem test_bgcnt : after (fun t => t.regs.bgcnt[(1 : Fin 4)]) (.bg1cnt (.write 1 0x5F))
    { State.reset with regs := { PpuRegs.reset with bgcnt := #v[0, 0x0083, 0, 0] } } = some 0x5F83 := by decide +kernel

/-- Source: the example of R453. -/
theorem test_scroll : after (fun t => t.regs.bghofs[(0 : Fin 4)]) (.bg0hofs (.write 1 0xFF))
    { State.reset with regs := { PpuRegs.reset with bghofs := #v[0x34, 0, 0, 0] } } = some 0x134 := by decide +kernel

/-- Source: the example of R454. -/
theorem test_affine_parameter : after (fun t => t.regs.bgpa[(0 : Fin 2)]) (.bg2pa (.write 1 0x01)) State.reset
    = some 0x0100 := by decide +kernel

/-- Source: the example of R458, its last byte. -/
theorem test_reference_point : after (fun t => (t.regs.bgx[(0 : Fin 2)], t.regs.refX[(0 : Fin 2)])) (.bg2x (.write 3 0x0F))
    { State.reset with regs := { PpuRegs.reset with bgx := #v[0x0FFFF00, 0] } } = some (0xFFFFF00, -256) := by decide +kernel

/-- Source: the example of R460 and R462. -/
theorem test_masked_bytes :
    after (fun t => t.regs.winin) (.winin (.write 0 0xFF)) State.reset = some 0x003F
      ∧ after (fun t => t.regs.bldcnt) (.bldcnt (.write 1 0xFF)) State.reset = some 0x3F00
      ∧ after (fun t => t.regs.bldalpha) (.bldalpha (.write 1 0xFF)) State.reset = some 0x1F00
      ∧ after (fun t => t.regs.bldy) (.bldy (.write 1 0xFF)) State.reset = some 0
      ∧ after (fun t => t.regs.mosaic) (.mosaic (.write 1 0xFF)) State.reset = some 0xFF00 := by decide +kernel

/-- Source: the example of R470, its last byte. -/
theorem test_source_mask :
    after (fun t => t.dma.ch[(0 : Chan)].cfgSrc) (.dma0sad (.write 3 0xFF))
        (withChannel 0 { Channel.reset with cfgSrc := 0x00FFFFFF }) = some 0x07FFFFFF#32
      ∧ after (fun t => t.dma.ch[(1 : Chan)].cfgSrc) (.dma1sad (.write 3 0xFF))
        (withChannel 1 { Channel.reset with cfgSrc := 0x00FFFFFF }) = some 0x0FFFFFFF#32 := by decide +kernel

/-- Source: the example of R471, its last byte. -/
theorem test_length_mask :
    after (fun t => t.dma.ch[(0 : Chan)].cfgLen) (.dma0cntL (.write 1 0xFF))
        (withChannel 0 { Channel.reset with cfgLen := 0x00FF }) = some 0x3FFF
      ∧ after (fun t => t.dma.ch[(3 : Chan)].cfgLen) (.dma3cntL (.write 1 0xFF))
        (withChannel 3 { Channel.reset with cfgLen := 0x00FF }) = some 0xFFFF := by decide +kernel

/-- Source: the example of R472, its last write: two words move before the write returns, and byte 1 reads 0x04 after it. -/
theorem test_control_write :
    afterStep (fun t => (t.env.mem, t.dma.ch[(3 : Chan)].ctrl, t.sched.now)) (.write 0x040000DF#32 0x84)
      { withChannel 3 ⟨0x02000000, 0x02000100, 2, 0x0000, false, 0, 0, 0, 0⟩ with
        env := { Env.reset with mem := [(0x02000000, 0x11), (0x02000007, 0x88)] } }
      = some ([(0x02000000, 0x11), (0x02000007, 0x88), (0x02000100, 0x11), (0x02000107, 0x88)], 0x0400, 4) := by
  decide +kernel

/-! ### Reset and the step -/

/-- Source: the example of R562. -/
theorem test_ppu_reset : after (fun t => (t.sched.queue, t.timing.ppuEvent, t.sched.nextSeq)) .ppuReset
    (withSched 100 [⟨960, 0, 0⟩] 1) = some ([⟨1060, 1, 0⟩], 1, 2) := by decide +kernel

/-- Source: the example of R561. -/
theorem test_dma_reset : after (fun t => (t.dma.vblank, t.dma.ch[(0 : Chan)].ctrl)) .dmaReset
    { withChannel 0 (latched 0x9000 0 0 1) with
      dma := { (withChannel 0 (latched 0x9000 0 0 1)).dma with vblank := 0b0001 } } = some (0, 0) := by decide

/-- Source: the examples of R560 and R563. -/
theorem test_resets :
    after (fun t => t.sched.queue) .schReset (withSched 5 [⟨960, 0, 0⟩] 1) = some []
      ∧ after (fun t => (t.sched.now, t.sched.queue)) .sysReset (withSched 5 [⟨7, 3, 9⟩] 4)
        = some (0, [⟨960, 0, 0⟩]) := by decide +kernel

/-- Source: R207 and the table of R561: an external callback may issue DMA.RESET. -/
theorem test_callback_reset :
    after (fun t => (t.dma.vblank, t.dma.ch[(0 : Chan)].ctrl, t.sched.queue)) .schStep
      { withChannel 0 (latched 0x9000 0 0 1) with
        sched := ⟨130, [⟨100, 1, 7⟩], 2⟩
        dma := { (withChannel 0 (latched 0x9000 0 0 1)).dma with vblank := 0b0001 }
        env :=
          { Env.reset with
            callbacks := [⟨7, none, none, none, [], [.issue (.command 0x1200000000000000#64)]⟩] } }
      = some (0, 0, []) := by decide +kernel

/-- Source: R82 and R441: a store of the processor reaches palette memory, or the register at its address. -/
theorem test_environment_store :
    (match step { State.reset with env := { Env.reset with requests := [.store 0x05000001#32 0x7C] } } with
      | .next t => t.env.mem == [(0x05000001, 0x7C)]
      | .fault _ => false
      | .refused _ => false) = true
      ∧ (match step { State.reset with env := { Env.reset with requests := [.store 0x04000001#32 0x04] } } with
        | .next t => t.regs.dispcnt == 0x0400 && t.env.mem == []
        | .fault _ => false
        | .refused _ => false) = true := by decide +kernel

/-- Source: R123. The environment may not issue an internal operation. -/
theorem test_internal_refused : afterStep (fun t => t.result) (.command 0x1A00000000000000#64) State.reset = none := by
  decide +kernel

/-- The word of an opcode-table row runs as the first instruction after reset (assumption 10). -/
theorem test_fetch :
    (match step (State.reset.withFetchWord 64 0x0600000000000000) with
    | .next t => decide (t = { State.reset with result := .clock 0 })
    | .fault _ => false
    | .refused _ => false) = true := by
  decide +kernel

/-! ### Witnesses: states and operands that meet the hypotheses of each statement, clause by clause

The statements without hypotheses (`DecodedWords`, `VerticalCounterCheck`, `ComponentResets`, `ResetSound`) need none. -/

/-- `State.reset` with what the environment does next. -/
def asked (rs : List Request) : State := { State.reset with env := { Env.reset with requests := rs.map .issue } }

/-- Two events: an external one due at 100 and the phase event due at 960. -/
def twoEvents (now : Nat) : State := withSched now [⟨100, 1, 7⟩, ⟨960, 0, 0⟩] 2

/-- The scheduler of `twoEvents` is sound. -/
theorem twoEvents_sound (now : Nat) (h : now ≤ Config.nowMax) : (twoEvents now).sched.Sound (twoEvents now).cfg.qcap where
  sorted := by simp [twoEvents, withSched, Event.before]
  unique := by simp [twoEvents, withSched]
  issued := by simp [twoEvents, withSched]
  capacity := by show 2 ≤ 64; decide
  clock := h
  targets := by simp [twoEvents, withSched, Config.nowMax]
  counter := by show 2 ≤ Config.seqMax; decide

/-- The reset scheduler with the phase event alone, at any time. -/
theorem onePhase_sound (now : Nat) (h : now ≤ Config.nowMax) :
    (withSched now [⟨960, 0, 0⟩] 1).sched.Sound (withSched now [⟨960, 0, 0⟩] 1).cfg.qcap where
  sorted := by simp [withSched]
  unique := by simp [withSched]
  issued := by simp [withSched]
  capacity := by show 1 ≤ 64; decide
  clock := h
  targets := by simp [withSched, Config.nowMax]
  counter := by show 1 ≤ Config.seqMax; decide

theorem reset_dma_sound : Dma.reset.Sound := by
  constructor <;> decide

theorem reset_dma_quiet : Dma.reset.Quiet := ⟨rfl, rfl, rfl⟩

/-! #### Encoding and the step -/

theorem witness_EncodeDecode : (Instr.bg2x (.write 3 0x0F)).wellFormed = true := by decide

theorem witness_CommandWordExact : decode (.command 0x0200FFFFFFFFFFFF#64) = some (.schCancel 0xFFFFFFFFFFFF#48) := by decide

theorem witness_UnmappedAddress :
    ∀ a ∈ [0x00000000#32, 0x03FFFFFF#32, 0x04000002#32, 0x04000003#32, 0x0400004E#32, 0x0400004F#32, 0x04000056#32,
      0x040000AF#32, 0x040000E0#32, 0xFFFFFFFF#32], unmapped a := by
  simp [unmapped]

theorem witness_MappedAddress :
    ∀ a ∈ [0x04000000#32, 0x04000001#32, 0x04000004#32, 0x0400004D#32, 0x04000050#32, 0x04000055#32, 0x040000B0#32,
      0x040000DF#32], ¬unmapped a := by
  simp [unmapped]

theorem witness_ReservedRefused :
    (∀ w ∈ [0x01FFFFFFFFFFFFFF#64, 0x1004000000000000#64, 0x1803000000000000#64, 0x1E03000000000001#64,
        0x30000000FFFFFFFF#64, 0x31FF0000FFFFFFFF#64], legalWord w)
      ∧ (∀ w ∈ [0x0000000000000000#64, 0x1005000000000000#64, 0x1804000000000000#64, 0x1E03000000000002#64,
        0x3000000100000000#64, 0xFF00000000000000#64], ¬legalWord w)
      ∧ (asked [.command 0x1005000000000000#64]).env.requests = .issue (.command 0x1005000000000000#64) :: [] := by
  refine ⟨?_, ?_, rfl⟩ <;> simp [legalWord, legalFields]

theorem witness_InternalRefused :
    legalWord 0x1B00000000000000#64 ∧ (0x1B00000000000000#64).toNat / 2 ^ 56 ∈ internalCodes
      ∧ (asked [.command 0x1B00000000000000#64]).env.requests = .issue (.command 0x1B00000000000000#64) :: [] := by
  refine ⟨?_, by decide, rfl⟩
  simp [legalWord, legalFields]

theorem witness_StepRunsDecoded :
    (asked [.read 0x04000006#32]).env.requests = .issue (.read 0x04000006#32) :: []
      ∧ decode (.read 0x04000006#32) = some (.vcount (.read 0)) ∧ (Instr.vcount (.read 0)).topLevel = true
      ∧ State.reset.env.requests = [] := by decide +kernel

/-! #### The scheduler -/

theorem witness_AddOperation :
    ((7 : Byte) ≠ 0 ∧ State.reset.sched.now + (0xFFFFFFFFFFFF#48).toNat ≤ 2 ^ 64 - 1
        ∧ State.reset.sched.queue.length ≠ State.reset.cfg.qcap ∧ State.reset.sched.nextSeq ≠ 2 ^ 48 - 1)
      ∧ 2 ^ 64 - 1 < (withSched (2 ^ 64 - 1) [] 0).sched.now + (1#48).toNat
      ∧ ((withSched (2 ^ 64 - 1) [⟨960, 0, 0⟩] 1).sched.now + (0#48).toNat ≤ 2 ^ 64 - 1
        ∧ ({ State.reset with cfg := { Params.t0 with qcap := 1 } } : State).sched.queue.length = 1)
      ∧ (withSched 0 [] (2 ^ 48 - 1)).sched.nextSeq = 2 ^ 48 - 1 := by decide

theorem witness_CancelRemoves : ∀ e ∈ State.reset.sched.queue, e.seq ≠ (5#48).toNat := by decide

theorem witness_RemainingCycles :
    (withSched 5 [] 3).sched.queue = [] ∧ (twoEvents 130).sched.Sound (twoEvents 130).cfg.qcap
      ∧ earliest (twoEvents 130).sched.queue ⟨100, 1, 7⟩ :=
  ⟨rfl, twoEvents_sound 130 (by decide), by unfold earliest; decide⟩

theorem witness_ClockOperations :
    (withSched 1 [] 0).sched.now + (0xFFFFFFFFFFFF#48).toNat ≤ 2 ^ 64 - 1
      ∧ (withSched (2 ^ 64 - 6) [] 0).sched.now + (5#48).toNat ≤ 2 ^ 64 - 1
      ∧ 2 ^ 64 - 1 < (withSched (2 ^ 64 - 5) [] 0).sched.now + (5#48).toNat := by decide

/-- `twoEvents`, with a callback for tag 7. -/
def calling (acts : List EnvAct) : State :=
  { twoEvents 130 with env := { Env.reset with callbacks := [⟨7, some 30, some 0, none, [(0x02000000, 0)], acts⟩] } }

theorem witness_StepExternal :
    (withSched 5 [] 3).sched.queue = [] ∧ (twoEvents 130).sched.Sound (twoEvents 130).cfg.qcap
      ∧ earliest (twoEvents 130).sched.queue ⟨100, 1, 7⟩ ∧ (7 : Byte) ≠ 0 ∧ 1 < (twoEvents 130).cfg.fuel
      ∧ (twoEvents 130).env.response 7 (lateness (twoEvents 130) ⟨100, 1, 7⟩) = []
      ∧ (∀ i ∈ [Instr.schReset, .dmaReset, .ppuReset, .sysReset],
        (calling [.issue (encode i)]).env.response 7 (lateness (calling [.issue (encode i)]) ⟨100, 1, 7⟩)
          = [.issue (encode i)])
      ∧ (calling [.store 0x05000000#32 0x1F]).env.response 7
          (lateness (calling [.store 0x05000000#32 0x1F]) ⟨100, 1, 7⟩) = [.store 0x05000000#32 0x1F]
      ∧ unmapped 0x05000000#32 :=
  ⟨rfl, twoEvents_sound 130 (by decide), by unfold earliest; decide, by decide, by decide, rfl, by decide +kernel,
    by decide +kernel, by simp [unmapped]⟩

theorem witness_EnvironmentStore :
    (∃ rest, ({ State.reset with env := { Env.reset with requests := [.store 0x06000000#32 7] } } : State).env.requests
        = .store 0x06000000#32 7 :: rest)
      ∧ unmapped 0x06000000#32 ∧ unmapped 0x040000E0#32 ∧ ¬unmapped 0x040000DF#32 :=
  ⟨⟨[], rfl⟩, by simp [unmapped], by simp [unmapped], by simp [unmapped]⟩

theorem witness_StepPhase :
    (withSched 1000 [⟨960, 0, 0⟩] 1).sched.Sound (withSched 1000 [⟨960, 0, 0⟩] 1).cfg.qcap
      ∧ earliest (withSched 1000 [⟨960, 0, 0⟩] 1).sched.queue ⟨960, 0, 0⟩
      ∧ max (withSched 1000 [⟨960, 0, 0⟩] 1).sched.now 960 - 960 < 2 ^ 48 :=
  ⟨onePhase_sound 1000 (by decide), by unfold earliest; decide, by decide⟩

theorem witness_LatenessLaw :
    (∃ t, exec (.schAdd 7 100) State.reset = .next t) ∧ (twoEvents 130).sched.Sound (twoEvents 130).cfg.qcap
      ∧ earliest (twoEvents 130).sched.queue ⟨State.reset.sched.now + (100#48).toNat, State.reset.sched.nextSeq, 7⟩
      ∧ (twoEvents 130).env.response 7 ((twoEvents 130).sched.now - (State.reset.sched.now + (100#48).toNat)) = []
      ∧ 0 < (twoEvents 130).cfg.fuel :=
  ⟨⟨_, rfl⟩, twoEvents_sound 130 (by decide), by unfold earliest; decide, rfl, by decide⟩

/-- One step that meets the premises of every statement over steps. -/
theorem step_advance :
    step (asked [.command 0x0500000000000007#64]) =
      .next { State.reset with sched := { State.reset.sched with now := 7 } } := by
  rfl

theorem witness_StepMonotone : (∃ t, step (asked [.command 0x0500000000000007#64]) = .next t)
    ∧ (∀ (r : Request) (rest : List EnvAct), (asked [.command 0x0500000000000007#64]).env.requests = .issue r :: rest →
      decode r ≠ some .schReset ∧ decode r ≠ some .sysReset)
    ∧ neverIssued (calling [.issue (.command 0x1200000000000000#64)]) .schReset
    ∧ neverIssued (asked [.command 0x0500000000000007#64]) .schReset
    ∧ neverIssued (asked [.command 0x0500000000000007#64]) .sysReset := by
  refine ⟨⟨_, step_advance⟩, fun r rest h => ?_, fun row hr r h => ?_, (by intro row h; cases h),
    (by intro row h; cases h)⟩
  · cases h
    decide
  · rw [List.mem_singleton.1 hr, List.mem_singleton] at h
    cases h
    decide

theorem witness_SchedulerInvariant : (asked [.command 0x0500000000000007#64]).sched.Sound 64
    ∧ ∃ t, step (asked [.command 0x0500000000000007#64]) = .next t :=
  ⟨onePhase_sound 0 (by decide), _, step_advance⟩

/-! #### The DMA controller -/

/-- The reset controller with sets and an active channel. -/
def arbitrating (runnable : ChanSet) (active : Option Chan) : State :=
  { State.reset with dma := { Dma.reset with runnable := runnable, active := active } }

theorem witness_ArbitrationSteps :
    (arbitrating 0 none).dma.runnable = 0
      ∧ ((arbitrating 0b0010 (some 1)).dma.runnable ≠ 0 ∧ (arbitrating 0b0010 (some 1)).dma.active = some 1
        ∧ (0 : Chan) < 1)
      ∧ (∀ a, (arbitrating 0b0010 (some 1)).dma.active = some a → a ≤ (1 : Chan))
      ∧ (arbitrating 0b1010 none).dma.runnable.getLsbD (1 : Chan).val = true
      ∧ ∀ d, d < (1 : Chan) → (arbitrating 0b1010 none).dma.runnable.getLsbD d.val = false := by decide

/-- FIFO channels 1 and 2 aimed at the addresses given. -/
def fifos (a b : Word) : State :=
  { State.reset with
    dma :=
      { Dma.reset with
        ch :=
          (Dma.reset.ch.set 1 ⟨0x02000000, a, 0, 0xB000, true, 0, 0x02000000, a, 4⟩).set 2
            ⟨0x02000000, b, 0, 0xB000, true, 0, 0x02000000, b, 4⟩ } }

theorem witness_RequestArbitrates :
    (occasionSetIs .hblank State.reset 0
        ∧ occasionSetIs .video { State.reset with dma := { Dma.reset with video := 0b1000 } } 0b1000
        ∧ firstOf 0b1000 = some 3)
      ∧ (fifoAddressIs .fifoA 0x040000A0#32 ∧ fifoAddressIs .fifoB 0x040000A4#32)
      ∧ (¬fifoMatch (fifos 0 0) 0x040000A0#32 1 ∧ ¬fifoMatch (fifos 0 0) 0x040000A0#32 2)
      ∧ (fifoMatch (fifos 0x040000A0 0) 0x040000A0#32 1 ∧ ¬fifoMatch (fifos 0x040000A0 0) 0x040000A0#32 2)
      ∧ (¬fifoMatch (fifos 0 0x040000A0) 0x040000A0#32 1 ∧ fifoMatch (fifos 0 0x040000A0) 0x040000A0#32 2)
      ∧ (fifoMatch (fifos 0x040000A0 0x040000A0) 0x040000A0#32 1
        ∧ fifoMatch (fifos 0x040000A0 0x040000A0) 0x040000A0#32 2) := by
  unfold occasionSetIs fifoAddressIs fifoMatch; decide

theorem witness_RequestArbitrates_trystart :
    (∃ u, exec (.dmaTrystart 3) { State.reset with dma := { Dma.reset with video := 0b1000 } } = .next u)
      ∧ ∃ u v, exec (.dmaTrystart 1) (fifos 0x040000A0 0x040000A0) = .next u ∧ exec (.dmaTrystart 2) u = .next v :=
  ⟨⟨_, rfl⟩, _, _, rfl, rfl⟩

theorem witness_ServiceGuard :
    ({ State.reset with dma := { Dma.reset with busy := true } } : State).dma.busy = true
      ∧ State.reset.dma.busy = false ∧ State.reset.dma.active = none ∧ 1 < State.reset.cfg.fuel := by decide

/-- Two words on channel 3, alone and active. -/
def twoWords (trigger : Bool) : State :=
  { withChannel 3 (latched 0x8400 0x02000000 0x02000100 2) with
    dma :=
      { (withChannel 3 (latched 0x8400 0x02000000 0x02000100 2)).dma with
        runnable := 0b1000
        active := some 3
        earlyExit := trigger } }

theorem plain_twoWords : Plain (twoWords false) 3 := by
  show Undisturbed _ _ _ _ 2 _
  simp only [Undisturbed, unmapped, readableAt]
  decide +kernel

theorem witness_RunTransfers :
    (twoWords false).dma.active = some 3 ∧ (twoWords false).dma.earlyExit = false ∧ Plain (twoWords false) 3
      ∧ (twoWords false).dma.ch[(3 : Chan)].latRem < (twoWords false).cfg.fuel :=
  ⟨rfl, rfl, plain_twoWords, by decide⟩

/-- The premises of `RunTransfers`, a run that answers, and for the clause on memory the two addresses next to the bytes stored. -/
theorem witness_TransferFrame :
    after (fun _ => ()) .dmaRun (twoWords false) = some ()
      ∧ ∀ a ∈ [0x020000FF, 0x02000108], ∀ k, k < 2 → ∀ i,
        i < (if (shapeOf (twoWords false).dma.ch[(3 : Chan)]).word then 4 else 2) →
          byteAddr ((twoWords false).dma.ch[(3 : Chan)].latDst
            + BitVec.ofNat 32 k * (shapeOf (twoWords false).dma.ch[(3 : Chan)]).dstDelta) i ≠ a :=
  ⟨by decide +kernel, by decide +kernel⟩

theorem witness_ServiceTransfers :
    (twoWords false).dma.busy = false ∧ (twoWords false).dma.active = some 3 ∧ (twoWords false).dma.runnable = bit 3
      ∧ (twoWords false).dma.earlyExit = false ∧ Plain (twoWords false) 3
      ∧ (twoWords false).dma.ch[(3 : Chan)].latRem + 2 < (twoWords false).cfg.fuel :=
  ⟨rfl, rfl, rfl, rfl, plain_twoWords, by decide⟩

/-- Channel 3 waits for VBlank; channel 1 waits for FIFO A. -/
def waiting : State :=
  { State.reset with
    dma :=
      { Dma.reset with
        vblank := 0b1000
        ch :=
          (Dma.reset.ch.set 3 (latched 0x9400 0x02000000 0x02000100 2)).set 1
            ⟨0x02000000, 0x040000A0, 0, 0xB000, true, 0, 0x02000000, 0x040000A0, 2⟩ } }

theorem witness_RequestTransfers :
    waiting.dma.Quiet ∧ waiting.dma.earlyExit = false ∧ occasionSetIs .vblank waiting (bit 3) ∧ Plain waiting 3
      ∧ waiting.dma.ch[(3 : Chan)].latRem + 2 < waiting.cfg.fuel := by
  refine ⟨⟨rfl, rfl, rfl⟩, rfl, by unfold occasionSetIs; decide, ?_, by decide⟩
  show Undisturbed _ _ _ _ 2 _
  simp only [Undisturbed, unmapped, readableAt]
  decide +kernel

theorem witness_RequestTransfers_fifo :
    (fifoAddressIs .fifoA 0x040000A0#32 ∧ ∀ d : Chan, d = 1 ∨ d = 2 → (fifoMatch waiting 0x040000A0#32 d ↔ d = 1))
      ∧ Plain waiting 1 ∧ waiting.dma.ch[(1 : Chan)].latRem + 2 < waiting.cfg.fuel := by
  refine ⟨by unfold fifoAddressIs fifoMatch; decide, ?_, by decide⟩
  show Undisturbed _ _ _ _ 2 _
  simp only [Undisturbed, unmapped, readableAt]
  decide +kernel

theorem witness_EarlyExitKeepsLatch :
    (twoWords true).dma.active = some 3 ∧ (twoWords true).dma.ch[(3 : Chan)].latRem ≠ 0
      ∧ (twoWords true).dma.earlyExit = true ∧ (∀ e ∈ (twoWords true).sched.queue, (twoWords true).sched.now < e.target)
      ∧ 0 < (twoWords true).cfg.fuel := by decide

theorem witness_CompleteEffect :
    (latched 0x9660 0 0 0).ctrl.getLsbD 9 = true ∧ (latched 0x9400 0 0 0).ctrl.getLsbD 9 = false := by decide

theorem witness_DisableEffect :
    ((withChannel 3 (latched 0xB600 0 0 1)).dma.ch[(3 : Chan)].ctrl.getLsbD 15 = true
        ∧ (withChannel 3 (latched 0xB600 0 0 1)).dma.ch[(3 : Chan)].ctrl.extractLsb' 12 2 = 3)
      ∧ ¬(State.reset.dma.ch[(3 : Chan)].ctrl.getLsbD 15 = true
        ∧ State.reset.dma.ch[(3 : Chan)].ctrl.extractLsb' 12 2 = 3) := by decide

theorem witness_OnWriteEffect :
    State.reset.dma.ch[(0 : Chan)].ctrl.getLsbD 15 = false
      ∧ ((withChannel 0 (latched 0x9400 0 0 1)).dma.ch[(0 : Chan)].ctrl.getLsbD 15 = true
        ∧ (withChannel 0 (latched 0x9400 0 0 1)).dma.ch[(0 : Chan)].ctrl.extractLsb' 12 2 ≠ 0)
      ∧ ((withChannel 0 (latched 0x8400 0 0 1)).dma.ch[(0 : Chan)].ctrl.getLsbD 15 = true
        ∧ (withChannel 0 (latched 0x8400 0 0 1)).dma.ch[(0 : Chan)].ctrl.extractLsb' 12 2 = 0) := by decide

theorem witness_OnWriteEffect_trystart :
    ∃ u, exec (.dmaTrystart 0) (withChan (rederived (withChannel 0 (latched 0x8400 0 0 1)) 0) 0
      (armed 0 (latched 0x8400 0 0 1))) = .next u := ⟨_, rfl⟩

theorem witness_ControlWrite :
    (0 < 2 ∧ 1 < 2) ∧ State.reset.dma.ch[(2 : Chan)].ctrl.getLsbD 15 = false ∧ (0x94 : Byte).getLsbD 7 = true
      ∧ (0x94 : Byte).extractLsb' 4 2 ≠ 0 := by decide

/-- Channel 3 programmed for two words, not yet enabled. -/
def programmed : State := withChannel 3 ⟨0x02000000, 0x02000100, 2, 0x0000, false, 0, 0, 0, 0⟩

theorem witness_ImmediateWriteTransfers :
    programmed.dma.Quiet ∧ programmed.dma.earlyExit = false ∧ programmed.dma.ch[(3 : Chan)].ctrl.getLsbD 15 = false
      ∧ (0x84 : Byte).getLsbD 7 = true ∧ (0x84 : Byte).extractLsb' 4 2 = 0
      ∧ Plain (withChan programmed 3
          (armed 3 { programmed.dma.ch[(3 : Chan)] with ctrl := controlAfter 3 programmed.dma.ch[(3 : Chan)].ctrl 1 0x84 })) 3
      ∧ (armed 3 { programmed.dma.ch[(3 : Chan)] with
          ctrl := controlAfter 3 programmed.dma.ch[(3 : Chan)].ctrl 1 0x84 }).latRem + 2 < programmed.cfg.fuel := by
  refine ⟨⟨rfl, rfl, rfl⟩, rfl, rfl, by decide, by decide, ?_, by decide +kernel⟩
  show Undisturbed _ _ _ _ 2 _
  simp only [Undisturbed, unmapped, readableAt]
  decide +kernel

theorem witness_AddressLengthWrite : (0 < 4 ∧ 3 < 4) ∧ (0 < 2 ∧ 1 < 2) := by decide

theorem witness_DmaInvariant :
    (asked [.command 0x0500000000000007#64]).dma.Sound ∧ (asked [.command 0x0500000000000007#64]).dma.Quiet
      ∧ ∃ t, step (asked [.command 0x0500000000000007#64]) = .next t :=
  ⟨reset_dma_sound, reset_dma_quiet, _, step_advance⟩

theorem witness_StorageInvariant :
    (asked [.command 0x0500000000000007#64]).dma.Masked ∧ (asked [.command 0x0500000000000007#64]).regs.Masked
      ∧ FbShape (asked [.command 0x0500000000000007#64]).fb
      ∧ (asked [.command 0x0500000000000007#64]).env.mem.wf = true
      ∧ ∃ t, step (asked [.command 0x0500000000000007#64]) = .next t := by
  refine ⟨fun c => ?_, by constructor <;> decide, ⟨rfl, fun row h => ?_⟩, rfl, _, step_advance⟩
  · have h : (asked [.command 0x0500000000000007#64]).dma.ch[c] = Channel.reset := by
      show (Vector.replicate 4 Channel.reset)[c] = _
      simp
    rw [h]
    constructor <;> simp [Channel.reset]
  · rw [List.eq_of_mem_replicate h]; exact List.length_replicate

/-! #### The registers -/

theorem witness_RegisterReads :
    (∃ row ∈ writeOnlyScrollAffine, row = Instr.bg3pd) ∧ (∃ row ∈ writeOnlyHalves, row = Instr.bldy)
      ∧ (∃ row ∈ writeOnlyWords, row = Instr.dma3dad) ∧ 1 < 2 ∧ 3 < 4 := by
  simp [writeOnlyScrollAffine, writeOnlyHalves, writeOnlyWords]

theorem witness_PpuRegisterWrites : 0 < 2 ∧ 1 < 2 := by decide

theorem witness_ReferencePointWrites : 0 < 4 ∧ 3 < 4 := by decide

theorem witness_RoundTrip :
    ((Reg.dispstat, 0xFF38#16) ∈ readWriteRegs ∧ ∀ c, Reg.dispstat ≠ .dmaCntH c)
      ∧ ((Reg.dmaCntH 3, 0xFFE0#16) ∈ readWriteRegs
        ∧ ∀ c, Reg.dmaCntH 3 = .dmaCntH c →
          State.reset.dma.ch[c].ctrl.getLsbD 15 = true ∨ (0x94 : Byte).getLsbD 7 = false
            ∨ (0x94 : Byte).extractLsb' 4 2 ≠ 0) := by
  refine ⟨⟨by decide, fun c h => by cases h⟩, by decide, fun c _ => .inr (.inr (by decide))⟩

theorem witness_RegisterWriteFrame :
    (3 < (Reg.bgx 0).width ∧ (∀ c, Reg.bgx 0 ≠ .dmaCntH c)
        ∧ ∃ t, exec ((Reg.bgx 0).instr (.write 3 0x0F)) State.reset = .next t)
      ∧ (1 < (Reg.dmaCntH 3).width ∧ (0x94 : Byte).extractLsb' 4 2 ≠ 0
        ∧ (after (fun t => t.dma.ch[(3 : Chan)].ctrl) ((Reg.dmaCntH 3).instr (.write 1 0x94)) State.reset).isSome
          = true) :=
  ⟨⟨by decide, fun c h => (nomatch h), _, rfl⟩, by decide, by decide, by decide +kernel⟩

/-! #### The phase machine -/

/-- Line `n` in phase `p` at time 1000, nothing pending. -/
def inPhase (p : Phase) (n : Nat) : State :=
  { withSched 1000 [] 2 with timing := ⟨p, n, false, false, false, false, false, false, 0, 1⟩ }

theorem witness_phaseReady (p : Phase) (n late dur : Nat) (h : late ≤ dur) (hd : dur ≤ 1006) :
    PhaseReady (inPhase p n) late dur :=
  ⟨h, by show 1000 + dur - late ≤ _; omega, by show 0 ≠ 64; decide, by show 2 ≠ 2 ^ 48 - 1; decide⟩

theorem witness_PhaseVisibleLine :
    ((inPhase .visible 7).timing.phase = .visible ∧ PhaseReady (inPhase .visible 7) (46#48).toNat 46)
      ∧ ((inPhase .hblank 158).timing.phase = .hblank ∧ (inPhase .hblank 158).timing.scanline + 1 ≠ 160
        ∧ PhaseReady (inPhase .hblank 158) (0#48).toNat 960) :=
  ⟨⟨rfl, witness_phaseReady _ _ _ _ (by decide) (by decide)⟩, rfl, by decide,
    witness_phaseReady _ _ _ _ (by decide) (by decide)⟩

theorem witness_PhaseBlankBegins :
    ((inPhase .preHblankWindow 2).timing.phase = .preHblankWindow ∧ PhaseReady (inPhase .preHblankWindow 2) (226#48).toNat 226)
      ∧ ((inPhase .vblankVisible 160).timing.phase = .vblankVisible
        ∧ PhaseReady (inPhase .vblankVisible 160) (0#48).toNat 226) :=
  ⟨⟨rfl, witness_phaseReady _ _ _ _ (by decide) (by decide)⟩, rfl, witness_phaseReady _ _ _ _ (by decide) (by decide)⟩

theorem witness_PhaseVblankEdges :
    ((inPhase .hblank 159).timing.phase = .hblank ∧ (inPhase .hblank 159).timing.scanline + 1 = 160
        ∧ PhaseReady (inPhase .hblank 159) (5#48).toNat 1006 ∧ ∃ x, exec .dmaStopvideo (inPhase .hblank 159) = .next x)
      ∧ ((inPhase .vblankHblank 226).timing.phase = .vblankHblank
        ∧ (inPhase .vblankHblank 226).timing.scanline + 1 ≠ 228
        ∧ PhaseReady (inPhase .vblankHblank 226) (5#48).toNat 1006)
      ∧ ((inPhase .vblankHblank 227).timing.scanline + 1 = 228
        ∧ PhaseReady (inPhase .vblankHblank 227) (5#48).toNat 960) :=
  ⟨⟨rfl, rfl, witness_phaseReady _ _ _ _ (by decide) (by decide), _, rfl⟩,
    ⟨rfl, by decide, witness_phaseReady _ _ _ _ (by decide) (by decide)⟩, rfl,
    witness_phaseReady _ _ _ _ (by decide) (by decide)⟩

theorem witness_PhaseTooLate :
    46 < (47#48).toNat ∧ 226 < (227#48).toNat ∧ 960 < (961#48).toNat ∧ 1006 < (1007#48).toNat
      ∧ (inPhase .visible 7).timing.phase = .visible ∧ (inPhase .hblank 158).timing.scanline + 1 ≠ 160
      ∧ (inPhase .hblank 159).timing.scanline + 1 = 160 ∧ (inPhase .vblankHblank 226).timing.scanline + 1 ≠ 228
      ∧ (inPhase .vblankHblank 227).timing.scanline + 1 = 228 := by decide

theorem witness_TimelineKept :
    (withSched 1006 [⟨960, 0, 0⟩] 1).sched.Sound (withSched 1006 [⟨960, 0, 0⟩] 1).cfg.qcap
      ∧ earliest (withSched 1006 [⟨960, 0, 0⟩] 1).sched.queue ⟨960, 0, 0⟩
      ∧ (withSched 1006 [⟨960, 0, 0⟩] 1).dma.Sound ∧ (withSched 1006 [⟨960, 0, 0⟩] 1).dma.Quiet
      ∧ (withSched 1006 [⟨960, 0, 0⟩] 1).dma.hblank = 0 ∧ (withSched 1006 [⟨960, 0, 0⟩] 1).sched.now ≤ 960 + 46
      ∧ 1 < (withSched 1006 [⟨960, 0, 0⟩] 1).cfg.fuel :=
  ⟨onePhase_sound 1006 (by decide), by unfold earliest; decide, reset_dma_sound, reset_dma_quiet, rfl, by decide, by decide⟩

theorem witness_TimingInvariant : (asked [.command 0x0500000000000007#64]).timing.Sound
    ∧ ∃ t, step (asked [.command 0x0500000000000007#64]) = .next t :=
  ⟨by constructor <;> decide, _, step_advance⟩

theorem witness_PhaseEventUnique :
    (asked [.command 0x0500000000000007#64]).sched.Sound 64 ∧ (asked [.command 0x0500000000000007#64]).PhaseEventOnly
      ∧ (asked [.command 0x0500000000000007#64]).PhaseEventPending
      ∧ neverIssued (asked [.command 0x0500000000000007#64]) .schReset
      ∧ (∀ h, neverIssued (asked [.command 0x0500000000000007#64]) (.schCancel h))
      ∧ (∀ (r : Request) (rest : List EnvAct), (asked [.command 0x0500000000000007#64]).env.requests = .issue r :: rest →
        decode r ≠ some .schReset
          ∧ ∀ h : BitVec 48, decode r = some (.schCancel h) →
            h.toNat ≠ (asked [.command 0x0500000000000007#64]).timing.ppuEvent)
      ∧ ∃ t, step (asked [.command 0x0500000000000007#64]) = .next t := by
  refine ⟨onePhase_sound 0 (by decide), by unfold State.PhaseEventOnly; decide, by unfold State.PhaseEventPending; decide,
    (by intro row h; cases h), (by intro x row h; cases h), fun r rest h => ?_, _, step_advance⟩
  cases h
  have hd : decode (.command 0x0500000000000007#64) = some (.schAdvance 7) := by decide
  rw [hd]
  exact ⟨by decide, fun h e => by cases e⟩

/-! #### The compositor -/

theorem witness_RenderRow :
    State.reset.regs.dispcnt.getLsbD 7 = false ∧ (0x0080#16).getLsbD 7 = true ∧ 0 < 240 ∧ 239 < 240 := by decide

theorem witness_BackdropFill :
    State.reset.regs.dispcnt.getLsbD 7 = false ∧ State.reset.regs.dispcnt.extractLsb' 8 5 = 0
      ∧ (State.reset.regs.bldcnt.getLsbD 7 = false ∨ State.reset.regs.bldcnt.getLsbD 5 = false)
      ∧ State.reset.timing.scanline < State.reset.fb.length :=
  ⟨by decide, by decide, by decide, by simp [State.reset, blankFb, Timing.reset]⟩

/-- The view of the example of R336, layer 0 enabled. -/
def textView : View where
  cfg := Params.t0
  regs := { PpuRegs.reset with dispcnt := 0x0100, bgcnt := #v[0x0100, 0, 0, 0], bghofs := #v[4, 0, 0, 0] }
  scanline := 0
  mem := [(0x05000024, 0x55), (0x06000020, 0x21), (0x06000802, 0x01), (0x06000803, 0x10)]

/-- The view of the example of R339, layer 2 enabled in mode 1. -/
def affineView : View where
  cfg := Params.t0
  regs :=
    { PpuRegs.reset with
      dispcnt := 0x0401, bgpa := #v[0x0100, 0], bgpd := #v[0x0100, 0], refX := #v[0x800, 0], refY := #v[0x300, 0] }
  scanline := 3
  mem := [(0x05000012, 0x55), (0x06000002, 5), (0x0600015A, 9)]

/-- Every clause of `BackgroundPixels` is met, by the examples of R336, R339 and R340. -/
theorem witness_BackgroundPixels :
    (textView.regs.dispcnt.getLsbD 9 = false ∧ kindOf affineView 3 = .none)
      ∧ (textView.regs.dispcnt.getLsbD 8 = true ∧ kindOf textView 0 = .text ∧ textView.bgPixel 0 5 = some 0x55)
      ∧ (affineView.regs.dispcnt.getLsbD 10 = true ∧ kindOf affineView 2 = .affine 0
        ∧ affineView.bgPixel 2 10 = some 0x55)
      ∧ ((0x0403#16).getLsbD 10 = true ∧ kindOf { textView with regs := { PpuRegs.reset with dispcnt := 0x0403 } } 2 = .bitmap) := by
  decide +kernel

/-- The view of the example of R377. -/
def spriteView : View where
  cfg := Params.t0
  regs := { PpuRegs.reset with dispcnt := 0x1040 }
  scanline := 20
  mem := [(0x05000206, 0x55), (0x060100B0, 0x30), (0x07000000, 0x10), (0x07000002, 0x20), (0x07000003, 0x40), (0x07000004, 0x04)]

theorem witness_SpritePixels :
    spriteView.regs.dispcnt.getLsbD 12 = true ∧ textView.regs.dispcnt.getLsbD 12 = false
      ∧ entryDrawn spriteView 0 = true ∧ entryDrawn { spriteView with scanline := 32 } 0 = false
      ∧ spriteView.spriteColor (spriteView.sprite 0) 41 = some 0x55 := by decide +kernel

theorem witness_SpriteOrder :
    (spriteView.sprite 0).mode ≠ 2 ∧ spriteView.spriteColor (spriteView.sprite 0) 41 = some 0x55#15
      ∧ (∀ d ∈ [{ spriteView.sprite 0 with prio := 2 }], d.mode ≠ 2 → spriteView.spriteColor d 41 ≠ none →
        (spriteView.sprite 0).prio < d.prio)
      ∧ (∀ d ∈ [{ spriteView.sprite 0 with palbank := 1 }], d.mode ≠ 2 → spriteView.spriteColor d 41 ≠ none →
        (spriteView.sprite 0).prio ≤ d.prio) := by decide +kernel

theorem witness_WindowMasks :
    (True ↔ (0x2000#16).getLsbD 13 = true ∧ insideRange 16 0x1050#16 ∧ insideRange 10 0x0A32#16)
      ∧ (False ↔ (0x2000#16).getLsbD 14 = true ∧ insideRange 16 0#16 ∧ insideRange 10 0#16)
      ∧ ¬insideRange 80 0x1050#16 ∧ insideRange 79 0x1050#16 ∧ insideRange 200 0x5010#16 ∧ ¬insideRange 16 0x5010#16
      ∧ (0x1FFF#16).extractLsb' 13 3 = 0 ∧ (0x2000#16).extractLsb' 13 3 ≠ 0 := by
  unfold insideRange; decide

/-- Bitmap mode with one opaque column and no sprite layer. -/
def bitmapView : View where
  cfg := Params.t0
  regs := { PpuRegs.reset with dispcnt := 0x0403 }
  scanline := 0
  mem := []

theorem bitmapView_bg (b : Fin 4) : bitmapView.bgPixel b 0 = if b = 2 then some 0 else none := by
  revert b; decide +kernel

theorem witness_LayerOrder :
    (∀ c, ¬CandidateAt bitmapView 0 ObjPixel.empty 0 c)
      ∧ CandidateAt bitmapView 0x3F ⟨some 5, 0, false, false⟩ 0 ⟨.obj, 5, 0⟩
      ∧ CandidateAt bitmapView 0x3F ⟨some 5, 0, false, false⟩ 0 ⟨.bg 2, 0, 0⟩
      ∧ (∀ d, CandidateAt bitmapView 0x3F ⟨some 5, 0, false, false⟩ 0 d → d = ⟨.obj, 5, 0⟩ ∨ keyBefore ⟨.obj, 5, 0⟩ d)
      ∧ ∀ e, CandidateAt bitmapView 0x3F ⟨some 5, 0, false, false⟩ 0 e →
        e = ⟨.obj, 5, 0⟩ ∨ e = ⟨.bg 2, 0, 0⟩ ∨ keyBefore ⟨.bg 2, 0, 0⟩ e := by
  have key : ∀ d, CandidateAt bitmapView 0x3F ⟨some 5, 0, false, false⟩ 0 d → d = ⟨.obj, 5, 0⟩ ∨ d = ⟨.bg 2, 0, 0⟩ := by
    rintro ⟨l, c, p⟩ (⟨b, -, h2, rfl, h4⟩ | ⟨-, h2, h3, h4⟩)
    · rw [bitmapView_bg] at h2
      split at h2
      · rename_i hb; subst hb; cases h2; cases h4; exact .inr rfl
      · cases h2
    · cases h2; cases h3; cases h4; exact .inl rfl
  refine ⟨?_, .inr ⟨by decide, rfl, rfl, rfl⟩, .inl ⟨2, by decide, bitmapView_bg 2, rfl, rfl⟩, fun d hd => ?_, fun e he => ?_⟩
  · rintro c (⟨b, h, -⟩ | ⟨h, -⟩)
    · simp at h
    · simp at h
  · rcases key d hd with rfl | rfl
    · exact .inl rfl
    · exact .inr (.inr ⟨rfl, by decide⟩)
  · rcases key e he with h | h
    · exact .inl h
    · exact .inr (.inl h)

theorem witness_BlendArithmetic :
    (0x1F#6).getLsbD 5 = false ∧ (0x3F#6).getLsbD 5 = true
      ∧ ((0x0241#16).toNat / 64 % 4 = 1 ∧ (0x0241#16).getLsbD (8 + (Layer.bg 1).number) = true
        ∧ (0x0241#16).getLsbD (Layer.bg 0).number = true)
      ∧ ((0x0081#16).toNat / 64 % 4 = 2 ∧ (0x0081#16).getLsbD (Layer.bg 0).number = true)
      ∧ ((0x00C1#16).toNat / 64 % 4 = 3 ∧ (0x00C1#16).getLsbD (Layer.bg 0).number = true)
      ∧ (0x0000#16).toNat / 64 % 4 = 0 ∧ Layer.bg 0 ≠ .obj := by decide

theorem witness_RowNoninterference :
    ∃ s u s' u' : State, s.regs = u.regs ∧ s.cfg = u.cfg ∧ s.timing.scanline = u.timing.scanline ∧ s.timing.scanline < 160
      ∧ s.fb.length = 160 ∧ u.fb.length = 160 ∧ (∀ a, videoAddress a → s.env.mem.read a = u.env.mem.read a)
      ∧ exec .ppuRender s = .next s' ∧ exec .ppuRender u = .next u' ∧ s.env.mem ≠ u.env.mem ∧ s.sched ≠ u.sched := by
  refine ⟨State.reset, { withSched 5 [] 9 with env := { Env.reset with mem := [(0x02000000, 7)] } }, _, _, rfl, rfl, rfl,
    by decide, List.length_replicate, List.length_replicate, fun a ha => ?_, rfl, rfl, by decide, by decide⟩
  unfold videoAddress at ha
  show unlistedByte = (if 0x02000000 = a then 7 else unlistedByte)
  rw [if_neg (by omega)]

/-! #### Reset -/

theorem witness_PpuResetEffect :
    ((∃ e ∈ State.reset.sched.queue, e.seq = State.reset.timing.ppuEvent ∧ e.tag = 0)
        ∧ ([] : List Event) = State.reset.sched.queue.filter fun e => e.seq != State.reset.timing.ppuEvent)
      ∧ (¬∃ e ∈ (withSched 5 [⟨9, 3, 7⟩] 4).sched.queue, e.seq = (withSched 5 [⟨9, 3, 7⟩] 4).timing.ppuEvent ∧ e.tag = 0)
      ∧ State.reset.sched.now + 960 ≤ 2 ^ 64 - 1 ∧ ([] : List Event).length ≠ State.reset.cfg.qcap
      ∧ State.reset.sched.nextSeq ≠ 2 ^ 48 - 1 := by decide

theorem witness_SystemReset : State.reset.cfg.qcap ≠ 0 := by decide

end Sys2Proof.Tests
end

/-! ### The step (R18, R565) -/

namespace Sys2Proof.Proofs

open Sys2Proof.Machine

/-- R565: the block does nothing by itself. -/
theorem step_eq_next_self_of_requests_nil {s : State} (hq : s.env.requests = []) : step s = .next s := by
  unfold step
  rw [hq]

/-- R18: the model's `step`, on an operation the environment may issue. -/
theorem step_eq_exec_of_decode {s : State} {r : Request} {rest : List EnvAct} {i : Instr}
    (hq : s.env.requests = .issue r :: rest) (hd : decode r = some i) (ht : i.topLevel = true) :
    step s = exec i (s.mapEnv fun e => { e with requests := rest }) := by
  unfold step
  rw [hq]
  simp only [hd, ht, if_true]

/-- Settles O8: one equation of the step for an issued operation, one for the empty list. -/
theorem stepRunsDecoded : Obligations.StepRunsDecoded := by
  unfold Obligations.StepRunsDecoded
  constructor
  · intro s r rest i hq hd ht
    exact step_eq_exec_of_decode hq hd ht
  · intro s hq
    exact step_eq_next_self_of_requests_nil hq

end Sys2Proof.Proofs

/-! ### What every step keeps (R26, R31 to R36, R42, R46, R49, R62, R71) -/

namespace Sys2Proof.Proofs

open Sys2Proof.Machine Sys2Proof.Spec

/-! #### From an elementary change to a step -/

/-- A property that every elementary change keeps, and that does not look at what the environment will do next, is kept by
every step. -/
theorem step_keeps {P : State → Prop} (hP : Steady anyInstr fun s t => P s → P t)
    (hreq : ∀ s rs, P s → P (s.mapEnv fun v => { v with requests := rs })) {s t : State} (h : P s)
    (e : step s = .next t) : P t := by
  rcases hP.step (callbacksIn_any _) (fun _ _ _ _ _ => trivial) e with rfl | hk
  · exact h
  · exact hk (hreq s _ h)

/-! #### The scheduler and the position in the frame -/

/-- Settles O18: `Sched.Sound` through every elementary change (`steady_sched`). -/
theorem schedulerInvariant : Obligations.SchedulerInvariant := by
  unfold Obligations.SchedulerInvariant
  intro s t h e
  exact step_keeps steady_sched (fun _ _ => id) h e

/-- Settles O46: `Timing.Sound` through every elementary change (`steady_timing`). -/
theorem timingInvariant : Obligations.TimingInvariant := by
  unfold Obligations.TimingInvariant
  intro s t h e
  exact step_keeps steady_timing (fun _ _ => id) h e

/-! #### Registers, framebuffer, memory -/

/-- Settles O34: each of the four storage invariants through every elementary change. -/
theorem storageInvariant : Obligations.StorageInvariant := by
  unfold Obligations.StorageInvariant
  intro s t hdma hregs hfb hmem e
  have hdma' : t.dma.Masked := step_keeps steady_dmaMasked (fun _ _ => id) hdma e
  have hregs' : t.regs.Masked := step_keeps steady_masked (fun _ _ => id) hregs e
  have hfb' : FbShape t.fb := step_keeps steady_fb (fun _ _ => id) hfb e
  have hmem' : t.env.mem.wf = true := step_keeps steady_mem (fun _ _ => id) hmem e
  exact ⟨hdma', hregs', hfb', hmem'⟩

/-! #### The DMA controller between operations -/

/-- A register access at top level is the same access in a callback, with its result kept (R125). -/
theorem accessInCallback_of_accessReg {r : Reg} {a : Access} {s t : State} (e : accessReg r a s = .next t) :
    ∃ res u, accessInCallback (engine s) r a s = .next u ∧ t = { u with result := res } := by
  unfold accessReg at e
  split at e
  · cases a <;> exact ⟨_, finish_eq_next.1 e⟩
  · cases e

/-- A top-level operation is the same operation issued in a callback, with its result kept (R125, R207). -/
theorem issueInCallback_of_exec {i : Instr} (ht : i.topLevel = true) {s t : State} (e : exec i s = .next t) :
    ∃ res u, issueInCallback (engine s) i s = .next u ∧ t = { u with result := res } := by
  cases i
  case schAdd tag d =>
    obtain ⟨p, hp, hf⟩ := andThen_eq_next.1 e
    refine ⟨.handle p.1, p.2, andThen_eq_next.2 ⟨p, hp, rfl⟩, ?_⟩
    exact (Host.Outcome.next.inj hf).symm
  case ppuReset =>
    simp only [exec, execPpuReset] at e
    exact ⟨.none, finish_eq_next.1 e⟩
  case sysReset =>
    simp only [exec, execSysReset] at e
    exact ⟨.none, finish_eq_next.1 e⟩
  case schCancel | schRemain | schStep | schAdvance | schNow | schReset | dmaRequest | dmaStopvideo | dmaReset | ioRead
      | ioWrite =>
    exact ⟨_, finish_eq_next.1 e⟩
  case dmaTrystart | dmaSelect | dmaService | dmaRun | dmaComplete | dmaDisable | dmaOnwrite | ppuPhase | ppuVcount
      | ppuRender =>
    exact absurd ht Bool.false_ne_true
  all_goals exact accessInCallback_of_accessReg e

/-- Setting the result touches no controller. -/
theorem calm_result {s u : State} (h : Calm s u) (res : Result) : Calm s { u with result := res } :=
  h.trans (.of_dma rfl)

/-- R42: a step leaves a quiet controller sound and quiet. -/
theorem calm_step {s t : State} (e : step s = .next t) : Calm s t := by
  rcases step_eq_next.1 e with ⟨-, rfl⟩ | ⟨a, v, rest, -, h⟩ | ⟨r, rest, i, -, -, ht, h⟩
  · exact .refl t
  · obtain ⟨u, hu, rfl⟩ := finish_eq_next.1 h
    have k : Calm (s.mapEnv fun v => { v with requests := rest }) u := (settles_go _).envStore hu
    exact calm_result k .none
  · obtain ⟨res, u, hu, rfl⟩ := issueInCallback_of_exec ht h
    have k : Calm (s.mapEnv fun v => { v with requests := rest }) u := (settles_go _).issue hu
    exact calm_result k res

/-- Settles O33: every service loop runs to its end, at top level as in a callback (`settles_go`). -/
theorem dmaInvariant : Obligations.DmaInvariant := by
  unfold Obligations.DmaInvariant
  intro s t hsound hquiet e
  exact calm_step e hsound hquiet

/-! #### The phase event -/

/-- Callbacks that issue neither `SCH.RESET` nor a `SCH.CANCEL`. -/
theorem callbacksIn_keepsPhaseEvent {s : State} (hr : neverIssued s .schReset)
    (hc : ∀ h : BitVec 48, neverIssued s (.schCancel h)) : s.env.CallbacksIn keepsPhaseEvent := by
  intro row hrow r hm i hd
  constructor
  · rintro rfl
    exact hr row hrow r hm hd
  · rintro h rfl
    exact hc h row hrow r hm hd

/-- R202, R49: cancelling another handle leaves the phase event as it is. -/
theorem phaseEvent_cancelEvent_other {s : State} {h : Nat} (hne : h ≠ s.timing.ppuEvent) (honly : s.PhaseEventOnly)
    (hpend : s.PhaseEventPending) : (cancelEvent h s).PhaseEventOnly ∧ (cancelEvent h s).PhaseEventPending := by
  obtain ⟨e, he, htag, hseq⟩ := hpend
  constructor
  · intro x hx
    exact honly x (List.mem_filter.1 hx).1
  · refine ⟨e, List.mem_filter.2 ⟨he, ?_⟩, htag, hseq⟩
    rw [bne_iff_ne, hseq]
    exact hne.symm

/-- Settles O47: a `SCH.CANCEL` of another handle by itself, every other step through its elementary changes
(`steady_phasePending`). -/
theorem phaseEventUnique : Obligations.PhaseEventUnique := by
  unfold Obligations.PhaseEventUnique
  intro s t hsched honly hpend hreset hcancel hreq e
  by_cases hc : ∃ r rest h, s.env.requests = .issue r :: rest ∧ decode r = some (.schCancel h)
  · obtain ⟨r, rest, h, hq, hd⟩ := hc
    have hne := (hreq r rest hq).2 h hd
    rw [step_eq_exec_of_decode hq hd rfl] at e
    cases e
    exact phaseEvent_cancelEvent_other (s := s.mapEnv fun v => { v with requests := rest }) hne honly hpend
  · have hallowed : ∀ r rest i, s.env.requests = .issue r :: rest → decode r = some i → keepsPhaseEvent i := by
      intro r rest i hq hd
      constructor
      · rintro rfl
        exact (hreq r rest hq).1 hd
      · rintro h rfl
        exact hc ⟨r, rest, h, hq, hd⟩
    rcases steady_phasePending.step (callbacksIn_keepsPhaseEvent hreset hcancel) hallowed e with rfl | ⟨hk, -⟩
    · exact ⟨honly, hpend⟩
    · exact (hk ⟨hsched, honly, hpend⟩).2

/-! #### The reset state -/

/-- R71: a state made of the reset components has every entry of the table. -/
theorem afterReset_of_components {t : State} (hsched : t.sched = ⟨0, [⟨960, 0, 0⟩], 1⟩) (hdma : t.dma = Dma.reset)
    (htiming : t.timing = Timing.reset 0) (hregs : t.regs = PpuRegs.reset) (hfb : t.fb = blankFb (colorOut t.cfg 0)) :
    AfterReset t := by
  constructor
  case now => rw [hsched]
  case nextSeq => rw [hsched]
  case queue => rw [hsched]
  case channels => simp [hdma, Dma.reset, Channel.reset]
  case sets => rw [hdma]; exact ⟨rfl, rfl, rfl, rfl⟩
  case active => rw [hdma]; rfl
  case flags => rw [hdma]; exact ⟨rfl, rfl⟩
  case openBus => rw [hdma]; rfl
  case timing => exact htiming
  case control => simp [hregs, PpuRegs.reset]
  case affine => simp [hregs, PpuRegs.reset]
  case windows => simp [hregs, PpuRegs.reset]
  case effects => simp [hregs, PpuRegs.reset]
  case fb => exact hfb

/-- R26: the queue after reset is the empty one with the first phase event added. -/
theorem reset_sched_sound : State.reset.sched.Sound State.reset.cfg.qcap :=
  (Sched.Sound.empty 64).add (d := 960) 0 (by decide) (by decide) (by decide)

/-- R49: the first phase event is the only one. -/
theorem reset_phaseEventOnly : State.reset.PhaseEventOnly := by
  intro e he _
  rw [List.mem_singleton.1 he]
  rfl

/-- R49: it is pending. -/
theorem reset_phaseEventPending : State.reset.PhaseEventPending :=
  ⟨⟨960, 0, 0⟩, List.mem_singleton.2 rfl, rfl, rfl⟩

/-- The reset state meets every invariant of the step lemmas. -/
theorem reset_sound : State.reset.Sound where
  sched := reset_sched_sound
  phaseEvent := reset_phaseEventOnly
  dma := dmaReset_sound
  masked := dmaReset_masked
  quiet := dmaReset_quiet
  timing := timingReset_sound 0
  regs := ppuRegsReset_masked
  fb := fbShape_blank _
  mem := Mem.wf_reset

/-- Settles O60: the table entry by entry, the invariants one by one. -/
theorem resetSound : Obligations.ResetSound := by
  unfold Obligations.ResetSound
  exact ⟨afterReset_of_components rfl rfl rfl rfl rfl, reset_sound, reset_phaseEventPending⟩

end Sys2Proof.Proofs

/-! ### A byte the environment's processor stores (R82, R93, R94) -/

namespace Sys2Proof.Proofs

open Sys2Proof.Machine Sys2Proof.Spec

/-- R82: the model's `step`, on a byte store of the environment. -/
theorem step_eq_envStore {s : State} {a : Word} {v : Byte} {rest : List EnvAct}
    (hq : s.env.requests = .store a v :: rest) :
    step s = finish .none
      (envStore (engine (s.mapEnv fun e => { e with requests := rest })) a v
        (s.mapEnv fun e => { e with requests := rest })) := by
  unfold step
  rw [hq]

/-- R94: at an address of no register, the store is a write of one byte of memory. -/
theorem step_store_unmapped {s : State} {a : Word} {v : Byte} {rest : List EnvAct}
    (hq : s.env.requests = .store a v :: rest) (ha : unmapped a) :
    step s = .next { s with
      env := { s.env with mem := s.env.mem.write a.toNat v, requests := rest }, result := .none } := by
  rw [step_eq_envStore hq, envStore_unmapped ha, finish_next]
  rfl

/-- R93: at a register's address, the store is the environment's own `IO.WRITE`. -/
theorem step_store_mapped {s : State} {a : Word} {v : Byte} {rest : List EnvAct}
    (hq : s.env.requests = .store a v :: rest) (ha : ¬unmapped a) :
    step s = exec (.ioWrite a v) (s.mapEnv fun e => { e with requests := rest }) := by
  rw [step_eq_envStore hq, envStore_mapped ha]
  rfl

/-- Settles O9: the step's equation on either side of the register map, and what a byte written to memory reads as. -/
theorem environmentStore : Obligations.EnvironmentStore := by
  unfold Obligations.EnvironmentStore
  intro s a v rest hq
  constructor
  · intro ha
    exact ⟨s.env.mem.write a.toNat v, step_store_unmapped hq ha, Mem.read_write_same _ _ v,
      fun b hb => Mem.read_write_other _ v hb.symm⟩
  · intro ha
    exact step_store_mapped hq ha

end Sys2Proof.Proofs

/-! ### The written forms of an operation (R120 to R126, R130 to R132) -/

namespace Sys2Proof.Proofs

open Sys2Proof.Machine Sys2Proof.Spec

/-! #### Encoding, then decoding -/

/-- Settles O1, row by row: a command row by its fields, a register row by its address (`Laws.Encoding`). -/
theorem encodeDecode : Obligations.EncodeDecode := by
  unfold Obligations.EncodeDecode
  intro i
  cases i with
  | schAdd tag delay => exact Laws.Encoding.schAdd tag delay
  | schCancel h => exact Laws.Encoding.schCancel h
  | schRemain => exact Laws.Encoding.schRemain
  | schStep => exact Laws.Encoding.schStep
  | schAdvance n => exact Laws.Encoding.schAdvance n
  | schNow => exact Laws.Encoding.schNow
  | schReset => exact Laws.Encoding.schReset
  | dmaRequest occ => exact Laws.Encoding.dmaRequest occ
  | dmaStopvideo => exact Laws.Encoding.dmaStopvideo
  | dmaReset => exact Laws.Encoding.dmaReset
  | ppuReset => exact Laws.Encoding.ppuReset
  | ioRead addr => exact Laws.Encoding.ioRead addr
  | ioWrite addr v => exact Laws.Encoding.ioWrite addr v
  | sysReset => exact Laws.Encoding.sysReset
  | dmaTrystart c => exact Laws.Encoding.dmaTrystart c
  | dmaSelect => exact Laws.Encoding.dmaSelect
  | dmaService => exact Laws.Encoding.dmaService
  | dmaRun => exact Laws.Encoding.dmaRun
  | dmaComplete c => exact Laws.Encoding.dmaComplete c
  | dmaDisable c => exact Laws.Encoding.dmaDisable c
  | dmaOnwrite c was => exact Laws.Encoding.dmaOnwrite c was
  | ppuPhase late => exact Laws.Encoding.ppuPhase late
  | ppuVcount => exact Laws.Encoding.ppuVcount
  | ppuRender => exact Laws.Encoding.ppuRender
  | dispcnt a => exact Laws.Encoding.dispcnt a
  | dispstat a => exact Laws.Encoding.dispstat a
  | vcount a => exact Laws.Encoding.vcount a
  | bg0cnt a => exact Laws.Encoding.bg0cnt a
  | bg1cnt a => exact Laws.Encoding.bg1cnt a
  | bg2cnt a => exact Laws.Encoding.bg2cnt a
  | bg3cnt a => exact Laws.Encoding.bg3cnt a
  | bg0hofs a => exact Laws.Encoding.bg0hofs a
  | bg0vofs a => exact Laws.Encoding.bg0vofs a
  | bg1hofs a => exact Laws.Encoding.bg1hofs a
  | bg1vofs a => exact Laws.Encoding.bg1vofs a
  | bg2hofs a => exact Laws.Encoding.bg2hofs a
  | bg2vofs a => exact Laws.Encoding.bg2vofs a
  | bg3hofs a => exact Laws.Encoding.bg3hofs a
  | bg3vofs a => exact Laws.Encoding.bg3vofs a
  | bg2pa a => exact Laws.Encoding.bg2pa a
  | bg2pb a => exact Laws.Encoding.bg2pb a
  | bg2pc a => exact Laws.Encoding.bg2pc a
  | bg2pd a => exact Laws.Encoding.bg2pd a
  | bg2x a => exact Laws.Encoding.bg2x a
  | bg2y a => exact Laws.Encoding.bg2y a
  | bg3pa a => exact Laws.Encoding.bg3pa a
  | bg3pb a => exact Laws.Encoding.bg3pb a
  | bg3pc a => exact Laws.Encoding.bg3pc a
  | bg3pd a => exact Laws.Encoding.bg3pd a
  | bg3x a => exact Laws.Encoding.bg3x a
  | bg3y a => exact Laws.Encoding.bg3y a
  | win0h a => exact Laws.Encoding.win0h a
  | win1h a => exact Laws.Encoding.win1h a
  | win0v a => exact Laws.Encoding.win0v a
  | win1v a => exact Laws.Encoding.win1v a
  | winin a => exact Laws.Encoding.winin a
  | winout a => exact Laws.Encoding.winout a
  | mosaic a => exact Laws.Encoding.mosaic a
  | bldcnt a => exact Laws.Encoding.bldcnt a
  | bldalpha a => exact Laws.Encoding.bldalpha a
  | bldy a => exact Laws.Encoding.bldy a
  | dma0sad a => exact Laws.Encoding.dma0sad a
  | dma0dad a => exact Laws.Encoding.dma0dad a
  | dma0cntL a => exact Laws.Encoding.dma0cntL a
  | dma0cntH a => exact Laws.Encoding.dma0cntH a
  | dma1sad a => exact Laws.Encoding.dma1sad a
  | dma1dad a => exact Laws.Encoding.dma1dad a
  | dma1cntL a => exact Laws.Encoding.dma1cntL a
  | dma1cntH a => exact Laws.Encoding.dma1cntH a
  | dma2sad a => exact Laws.Encoding.dma2sad a
  | dma2dad a => exact Laws.Encoding.dma2dad a
  | dma2cntL a => exact Laws.Encoding.dma2cntL a
  | dma2cntH a => exact Laws.Encoding.dma2cntH a
  | dma3sad a => exact Laws.Encoding.dma3sad a
  | dma3dad a => exact Laws.Encoding.dma3dad a
  | dma3cntL a => exact Laws.Encoding.dma3cntL a
  | dma3cntH a => exact Laws.Encoding.dma3cntH a

/-- The decoder reads an operation back from its written form. -/
theorem decode_of_encode_eq {i : Instr} {r : Request} (he : encode i = r) (hw : i.wellFormed = true) :
    decode r = some i := by
  rw [← he]
  exact encodeDecode i hw

/-! #### The rows of the command tables -/

/-- The rows of R122 and R123: the fields a command word may have and the operation they name. -/
inductive CommandRow : Byte → Byte → BitVec 48 → Instr → Prop where
  | schAdd (tag : Byte) (delay : BitVec 48) : CommandRow 0x01 tag delay (.schAdd tag delay)
  | schCancel (h : BitVec 48) : CommandRow 0x02 0 h (.schCancel h)
  | schRemain : CommandRow 0x03 0 0 .schRemain
  | schStep : CommandRow 0x04 0 0 .schStep
  | schAdvance (n : BitVec 48) : CommandRow 0x05 0 n (.schAdvance n)
  | schNow : CommandRow 0x06 0 0 .schNow
  | schReset : CommandRow 0x07 0 0 .schReset
  | dmaRequest (occ : Occasion) : CommandRow 0x10 occ.code 0 (.dmaRequest occ)
  | dmaStopvideo : CommandRow 0x11 0 0 .dmaStopvideo
  | dmaReset : CommandRow 0x12 0 0 .dmaReset
  | dmaTrystart (c : Chan) : CommandRow 0x18 (channelCode c) 0 (.dmaTrystart c)
  | dmaSelect : CommandRow 0x19 0 0 .dmaSelect
  | dmaService : CommandRow 0x1A 0 0 .dmaService
  | dmaRun : CommandRow 0x1B 0 0 .dmaRun
  | dmaComplete (c : Chan) : CommandRow 0x1C (channelCode c) 0 (.dmaComplete c)
  | dmaDisable (c : Chan) : CommandRow 0x1D (channelCode c) 0 (.dmaDisable c)
  | dmaOnwrite (c : Chan) (was : Bool) : CommandRow 0x1E (channelCode c) (if was then 1 else 0) (.dmaOnwrite c was)
  | ppuPhase (late : BitVec 48) : CommandRow 0x20 0 late (.ppuPhase late)
  | ppuVcount : CommandRow 0x21 0 0 .ppuVcount
  | ppuReset : CommandRow 0x22 0 0 .ppuReset
  | ppuRender : CommandRow 0x24 0 0 .ppuRender
  | ioRead (addr : Word) : CommandRow 0x30 0 (addr.setWidth 48) (.ioRead addr)
  | ioWrite (addr : Word) (v : Byte) : CommandRow 0x31 v (addr.setWidth 48) (.ioWrite addr v)
  | sysReset : CommandRow 0x3F 0 0 .sysReset

section
variable {op a : Byte} {b : BitVec 48} {i j : Instr}

/-- The encoder writes an operation by its row. -/
theorem CommandRow.encode_eq (h : CommandRow op a b i) : encode i = .command (cmdWord op a b) := by cases h <;> rfl

/-- Every operand that fits its field is well formed (R121). -/
theorem CommandRow.wellFormed (h : CommandRow op a b i) : i.wellFormed = true := by cases h <;> rfl

/-- The environment may issue the rows of R122 and not those of R123. -/
theorem CommandRow.topLevel_eq (h : CommandRow op a b i) : i.topLevel = !decide (op.toNat ∈ internalCodes) := by
  cases h <;> rfl

/-- A row's fields decode to its operation: encoding, then decoding. -/
theorem CommandRow.decodeFields_eq (h : CommandRow op a b i) : decodeFields op a b = some i := by
  rw [← decode_cmdWord]
  exact decode_of_encode_eq h.encode_eq h.wellFormed

/-- An operation without operands: both fields are 0. -/
theorem CommandRow.of_noOperands (h : noOperands i a b = some j) (row : CommandRow op 0 0 i) : CommandRow op a b j := by
  obtain ⟨rfl, rfl, rfl⟩ := noOperands_eq_some h
  exact row

/-- An operation with the operand `b` alone: `a` is 0. -/
theorem CommandRow.of_onlyB (h : onlyB i a = some j) (row : CommandRow op 0 b i) : CommandRow op a b j := by
  obtain ⟨rfl, rfl⟩ := onlyB_eq_some h
  exact row

/-- An operation on a channel: `a` is its code. -/
theorem CommandRow.of_channelOf {f : Chan → Instr} (h : (channelOf a).map f = some j)
    (row : ∀ c, CommandRow op (channelCode c) b (f c)) : CommandRow op a b j := by
  obtain ⟨c, hc, rfl⟩ := Option.map_eq_some_iff.1 h
  rw [channelOf_eq_some hc]
  exact row c

/-- An operation on a channel alone: `b` is 0. -/
theorem CommandRow.of_onlyA_channelOf {f : Chan → Instr} (h : onlyA ((channelOf a).map f) b = some j)
    (row : ∀ c, CommandRow op (channelCode c) 0 (f c)) : CommandRow op a b j := by
  obtain ⟨rfl, h⟩ := onlyA_eq_some h
  exact .of_channelOf h row

/-- An operation on an address: `b` is the address, zero-extended. -/
theorem CommandRow.of_addressOf {f : Word → Instr} (h : (addressOf b).map f = some j)
    (row : ∀ addr : Word, CommandRow op a (addr.setWidth 48) (f addr)) : CommandRow op a b j := by
  obtain ⟨addr, ha, rfl⟩ := Option.map_eq_some_iff.1 h
  rw [addressOf_eq_some ha]
  exact row addr

/-- One test of the decoder's chain: the operation code is `k`, or the rest of the chain answers. -/
theorem CommandRow.of_opTest {k : Byte} {x y : Option Instr} (h : (if op = k then x else y) = some i)
    (hx : x = some i → CommandRow k a b i) (hy : y = some i → CommandRow op a b i) : CommandRow op a b i := by
  by_cases hop : op = k
  · rw [if_pos hop] at h
    rw [hop]
    exact hx h
  · rw [if_neg hop] at h
    exact hy h

/-- R124: an operation on an occasion. -/
theorem CommandRow.of_occasionOf (h : onlyA ((occasionOf a).map .dmaRequest) b = some i) : CommandRow 0x10 a b i := by
  obtain ⟨rfl, h⟩ := onlyA_eq_some h
  obtain ⟨occ, ho, rfl⟩ := Option.map_eq_some_iff.1 h
  rw [occasionOf_eq_some ho]
  exact .dmaRequest occ

/-- `DMA.ONWRITE`: `b` is the previous enable bit. -/
theorem CommandRow.of_onwrite
    (h : (if b = 0 then (channelOf a).map (fun c => .dmaOnwrite c false)
      else if b = 1 then (channelOf a).map (fun c => .dmaOnwrite c true) else none) = some i) :
    CommandRow 0x1E a b i := by
  split_ifs at h with h0 h1
  · subst h0
    exact .of_channelOf h fun c => .dmaOnwrite c false
  · subst h1
    exact .of_channelOf h fun c => .dmaOnwrite c true

/-- `IO.READ`: `a` is 0 and `b` an address. -/
theorem CommandRow.of_ioRead (h : (if a = 0 then (addressOf b).map .ioRead else none) = some i) :
    CommandRow 0x30 a b i := by
  split_ifs at h with h0
  subst h0
  exact .of_addressOf h .ioRead

/-- Fields that decode are a row of the tables: the decoder's tests one by one. -/
theorem CommandRow.of_decodeFields (h : decodeFields op a b = some i) : CommandRow op a b i := by
  unfold decodeFields at h
  refine .of_opTest h (fun h => Option.some.inj h ▸ .schAdd a b) fun h => ?_
  refine .of_opTest h (.of_onlyB · (.schCancel b)) fun h => ?_
  refine .of_opTest h (.of_noOperands · .schRemain) fun h => ?_
  refine .of_opTest h (.of_noOperands · .schStep) fun h => ?_
  refine .of_opTest h (.of_onlyB · (.schAdvance b)) fun h => ?_
  refine .of_opTest h (.of_noOperands · .schNow) fun h => ?_
  refine .of_opTest h (.of_noOperands · .schReset) fun h => ?_
  refine .of_opTest h .of_occasionOf fun h => ?_
  refine .of_opTest h (.of_noOperands · .dmaStopvideo) fun h => ?_
  refine .of_opTest h (.of_noOperands · .dmaReset) fun h => ?_
  refine .of_opTest h (.of_onlyA_channelOf · .dmaTrystart) fun h => ?_
  refine .of_opTest h (.of_noOperands · .dmaSelect) fun h => ?_
  refine .of_opTest h (.of_noOperands · .dmaService) fun h => ?_
  refine .of_opTest h (.of_noOperands · .dmaRun) fun h => ?_
  refine .of_opTest h (.of_onlyA_channelOf · .dmaComplete) fun h => ?_
  refine .of_opTest h (.of_onlyA_channelOf · .dmaDisable) fun h => ?_
  refine .of_opTest h .of_onwrite fun h => ?_
  refine .of_opTest h (.of_onlyB · (.ppuPhase b)) fun h => ?_
  refine .of_opTest h (.of_noOperands · .ppuVcount) fun h => ?_
  refine .of_opTest h (.of_noOperands · .ppuReset) fun h => ?_
  refine .of_opTest h (.of_noOperands · .ppuRender) fun h => ?_
  refine .of_opTest h .of_ioRead fun h => ?_
  refine .of_opTest h (.of_addressOf · fun addr => .ioWrite addr a) fun h => ?_
  exact .of_opTest h (.of_noOperands · .sysReset) nofun

/-- The decoder of a command word is the tables of R122 and R123, read from the fields. -/
theorem decodeFields_eq_some_iff : decodeFields op a b = some i ↔ CommandRow op a b i :=
  ⟨.of_decodeFields, CommandRow.decodeFields_eq⟩

end

/-- Settles O2: what decodes is a row, a row is encoded by its fields, and the fields are the whole word. -/
theorem commandWordExact : Obligations.CommandWordExact := by
  unfold Obligations.CommandWordExact
  intro w i h
  have row : CommandRow (cmdOp w) (cmdA w) (cmdB w) i := decodeFields_eq_some_iff.1 h
  rw [row.encode_eq, cmdWord_fields]

/-! #### Reserved encodings -/

/-- R121: `op` is the top byte of the word. -/
theorem toNat_cmdOp (w : BitVec 64) : (cmdOp w).toNat = w.toNat / 2 ^ 56 := by
  rw [cmdOp, BitVec.extractLsb'_toNat, Nat.shiftRight_eq_div_pow]
  omega

/-- The fields of a command word in numbers (R121). -/
theorem legalWord_iff_legalFields (w : BitVec 64) :
    legalWord w ↔ legalFields (cmdOp w).toNat (cmdA w).toNat (cmdB w).toNat := by
  have ha : (cmdA w).toNat = w.toNat / 2 ^ 48 % 2 ^ 8 := by
    rw [cmdA, BitVec.extractLsb'_toNat, Nat.shiftRight_eq_div_pow]
  have hb : (cmdB w).toNat = w.toNat % 2 ^ 48 := by
    rw [cmdB, BitVec.extractLsb'_toNat, Nat.shiftRight_zero]
  rw [legalWord, toNat_cmdOp, ha, hb]

theorem toNat_channelCode_le (c : Chan) : (channelCode c).toNat ≤ 3 := by revert c; decide

theorem toNat_occasionCode_le (occ : Occasion) : occ.code.toNat ≤ 4 := by cases occ <;> decide

theorem toNat_setWidth_lt (addr : Word) : (addr.setWidth 48).toNat < 2 ^ 32 := by
  rw [BitVec.toNat_setWidth]
  omega

section
variable {op a : Byte} {b : BitVec 48} {i : Instr}

/-- Every row keeps the bounds of R121. -/
theorem CommandRow.legal (h : CommandRow op a b i) : legalFields op.toNat a.toNat b.toNat := by
  cases h
  case dmaRequest occ => simp [legalFields, toNat_occasionCode_le]
  case dmaTrystart c => simp [legalFields, toNat_channelCode_le]
  case dmaComplete c => simp [legalFields, toNat_channelCode_le]
  case dmaDisable c => simp [legalFields, toNat_channelCode_le]
  case dmaOnwrite c was => cases was <;> simp [legalFields, toNat_channelCode_le]
  case ioRead addr => exact .inr (.inr (.inr (.inr (.inr (.inr (.inl ⟨rfl, rfl, toNat_setWidth_lt addr⟩))))))
  case ioWrite addr => exact .inr (.inr (.inr (.inr (.inr (.inr (.inr ⟨rfl, toNat_setWidth_lt addr⟩))))))
  all_goals simp [legalFields]

/-- The thirteen operations without operands. -/
theorem exists_row_noOperands : ∀ n ∈ [0x03, 0x04, 0x06, 0x07, 0x11, 0x12, 0x19, 0x1A, 0x1B, 0x21, 0x22, 0x24, 0x3F],
    ∃ i, CommandRow (BitVec.ofNat 8 n) 0 0 i := by
  simp only [List.forall_mem_cons]
  exact ⟨⟨_, .schRemain⟩, ⟨_, .schStep⟩, ⟨_, .schNow⟩, ⟨_, .schReset⟩, ⟨_, .dmaStopvideo⟩, ⟨_, .dmaReset⟩, ⟨_, .dmaSelect⟩,
    ⟨_, .dmaService⟩, ⟨_, .dmaRun⟩, ⟨_, .ppuVcount⟩, ⟨_, .ppuReset⟩, ⟨_, .ppuRender⟩, ⟨_, .sysReset⟩, nofun⟩

/-- The three operations with the operand `b` alone. -/
theorem exists_row_onlyB (b : BitVec 48) : ∀ n ∈ [0x02, 0x05, 0x20], ∃ i, CommandRow (BitVec.ofNat 8 n) 0 b i := by
  simp only [List.forall_mem_cons]
  exact ⟨⟨_, .schCancel b⟩, ⟨_, .schAdvance b⟩, ⟨_, .ppuPhase b⟩, nofun⟩

/-- The three operations on a channel alone. -/
theorem exists_row_channel (c : Chan) :
    ∀ n ∈ [0x18, 0x1C, 0x1D], ∃ i, CommandRow (BitVec.ofNat 8 n) (channelCode c) 0 i := by
  simp only [List.forall_mem_cons]
  exact ⟨⟨_, .dmaTrystart c⟩, ⟨_, .dmaComplete c⟩, ⟨_, .dmaDisable c⟩, nofun⟩

/-- R124: a code up to 4 is an occasion's. -/
theorem exists_code_eq (h : a.toNat ≤ 4) : ∃ occ : Occasion, a = occ.code := by
  interval_cases hcode : a.toNat
  · exact ⟨.hblank, BitVec.eq_of_toNat_eq hcode⟩
  · exact ⟨.vblank, BitVec.eq_of_toNat_eq hcode⟩
  · exact ⟨.video, BitVec.eq_of_toNat_eq hcode⟩
  · exact ⟨.fifoA, BitVec.eq_of_toNat_eq hcode⟩
  · exact ⟨.fifoB, BitVec.eq_of_toNat_eq hcode⟩

/-- R121: an operand up to 3 is a channel's code. -/
theorem exists_channelCode_eq (h : a.toNat ≤ 3) : ∃ c : Chan, a = channelCode c :=
  ⟨⟨a.toNat, by omega⟩, by simp [channelCode]⟩

/-- R121: an operand below 2^32 is an address. -/
theorem exists_setWidth_eq (h : b.toNat < 2 ^ 32) : ∃ addr : Word, b = addr.setWidth 48 :=
  ⟨_, addressOf_eq_some (if_pos h)⟩

/-- A row whose operation code is given as a number. -/
theorem CommandRow.of_ofNat_toNat (h : ∃ i, CommandRow (BitVec.ofNat 8 op.toNat) a b i) : ∃ i, CommandRow op a b i := by
  rwa [BitVec.ofNat_toNat, BitVec.setWidth_eq] at h

/-- Fields inside the bounds are a row of the tables. -/
theorem exists_row_of_legal (h : legalFields op.toNat a.toNat b.toNat) : ∃ i, CommandRow op a b i := by
  apply CommandRow.of_ofNat_toNat
  rcases h with hop | ⟨hop, ha⟩ | ⟨hop, ha, hb⟩ | ⟨hop, ha, hb⟩ | ⟨hop, ha, hb⟩ | ⟨hop, ha, hb⟩ | ⟨hop, ha, hb⟩ | ⟨hop, hb⟩
  · rw [hop]
    exact ⟨_, .schAdd a b⟩
  · obtain rfl : a = 0 := BitVec.eq_of_toNat_eq ha
    exact exists_row_onlyB b _ hop
  · obtain rfl : a = 0 := BitVec.eq_of_toNat_eq ha
    obtain rfl : b = 0 := BitVec.eq_of_toNat_eq hb
    exact exists_row_noOperands _ hop
  · obtain ⟨occ, rfl⟩ := exists_code_eq ha
    obtain rfl : b = 0 := BitVec.eq_of_toNat_eq hb
    rw [hop]
    exact ⟨_, .dmaRequest occ⟩
  · obtain ⟨c, rfl⟩ := exists_channelCode_eq ha
    obtain rfl : b = 0 := BitVec.eq_of_toNat_eq hb
    exact exists_row_channel c _ hop
  · obtain ⟨c, rfl⟩ := exists_channelCode_eq ha
    rw [hop]
    obtain rfl | rfl : b = 0 ∨ b = 1 := by bv_omega
    · exact ⟨_, .dmaOnwrite c false⟩
    · exact ⟨_, .dmaOnwrite c true⟩
  · obtain ⟨addr, rfl⟩ := exists_setWidth_eq hb
    obtain rfl : a = 0 := BitVec.eq_of_toNat_eq ha
    rw [hop]
    exact ⟨_, .ioRead addr⟩
  · obtain ⟨addr, rfl⟩ := exists_setWidth_eq hb
    rw [hop]
    exact ⟨_, .ioWrite addr a⟩

end

/-- R126: a word decodes exactly when its fields are inside the tables. -/
theorem isSome_decode_command_iff (w : BitVec 64) : (decode (.command w)).isSome = true ↔ legalWord w := by
  rw [legalWord_iff_legalFields, Option.isSome_iff_exists]
  constructor
  · rintro ⟨i, h⟩
    exact (decodeFields_eq_some_iff.1 h).legal
  · intro h
    obtain ⟨i, row⟩ := exists_row_of_legal h
    exact ⟨i, row.decodeFields_eq⟩

/-- R126: a word outside the tables decodes to nothing. -/
theorem decode_command_eq_none {w : BitVec 64} (h : ¬legalWord w) : decode (.command w) = none :=
  Option.not_isSome_iff_eq_none.1 (mt (isSome_decode_command_iff w).1 h)

/-- R126: the model's `step`, on a request that decodes to nothing. -/
theorem step_eq_refused_of_decode_none {s : State} {r : Request} {rest : List EnvAct}
    (hq : s.env.requests = .issue r :: rest) (hd : decode r = none) : step s = .refused .reservedEncoding := by
  unfold step
  rw [hq]
  simp only [hd]

/-- R123: the model's `step`, on an operation the environment may not issue. -/
theorem step_eq_refused_of_internal {s : State} {r : Request} {rest : List EnvAct} {i : Instr}
    (hq : s.env.requests = .issue r :: rest) (hd : decode r = some i) (ht : i.topLevel = false) :
    step s = .refused .internalOperation := by
  unfold step
  rw [hq]
  simp only [hd, ht, Bool.false_eq_true, if_false]

/-- Settles O6: the decoder answers exactly on the tables (`isSome_decode_command_iff`). -/
theorem reservedRefused : Obligations.ReservedRefused := by
  unfold Obligations.ReservedRefused
  constructor
  · intro w h
    exact (isSome_decode_command_iff w).2 h
  · intro w s rest h hq
    have hd := decode_command_eq_none h
    exact ⟨hd, step_eq_refused_of_decode_none hq hd⟩

/-- Settles O7: the row of an internal operation code is no top-level one (`CommandRow.topLevel_eq`). -/
theorem internalRefused : Obligations.InternalRefused := by
  unfold Obligations.InternalRefused
  intro w s rest hw hcode hq
  obtain ⟨i, hd⟩ := Option.isSome_iff_exists.1 ((isSome_decode_command_iff w).2 hw)
  have row : CommandRow (cmdOp w) (cmdA w) (cmdB w) i := decodeFields_eq_some_iff.1 hd
  rw [← toNat_cmdOp] at hcode
  have ht : i.topLevel = false := by rw [row.topLevel_eq, decide_eq_true hcode, Bool.not_true]
  exact step_eq_refused_of_internal hq hd ht

/-- Settles O3: a word of the tables is the written form of its operation, and operation code 0x08 is in no table. -/
theorem decodedWords : Obligations.DecodedWords := by
  unfold Obligations.DecodedWords
  refine ⟨decode_of_encode_eq ?_ rfl, decode_of_encode_eq ?_ rfl, decode_of_encode_eq ?_ rfl, decode_of_encode_eq ?_ rfl,
    decode_of_encode_eq ?_ rfl, decode_of_encode_eq ?_ rfl, decode_of_encode_eq ?_ rfl, decode_of_encode_eq ?_ rfl,
    decode_of_encode_eq ?_ rfl, decode_of_encode_eq ?_ rfl, decode_of_encode_eq ?_ rfl, decode_of_encode_eq ?_ rfl,
    decode_command_eq_none ?_⟩
  case refine_13 => simp [legalWord, legalFields]
  all_goals decide

/-! #### Addresses -/

/-- R132: a pair at an address of no register is the plain `IO.READ`. -/
theorem decode_read_unmapped {a : Word} (h : unmapped a) : decode (.read a) = some (.ioRead a) := by
  simp only [decode, (regAt_eq_none_iff a).2 h]

/-- R132: a pair at an address of no register is the plain `IO.WRITE`. -/
theorem decode_write_unmapped {a : Word} (v : Byte) (h : unmapped a) : decode (.write a v) = some (.ioWrite a v) := by
  simp only [decode, (regAt_eq_none_iff a).2 h]

/-- R132: an address of no register reads 0. -/
theorem exec_ioRead_unmapped {a : Word} (s : State) (h : unmapped a) :
    exec (.ioRead a) s = .next { s with result := .byte 0 } := by
  have hr : ioReadByte a s = 0 := by simp only [ioReadByte, (regAt_eq_none_iff a).2 h]
  rw [← hr]
  rfl

/-- R132: a write at an address of no register does nothing. -/
theorem exec_ioWrite_unmapped {a : Word} (v : Byte) (s : State) (h : unmapped a) :
    exec (.ioWrite a v) s = .next { s with result := .none } := by
  have hw : ioWriteByte (engine s) a v s = .next s := by simp only [ioWriteByte, (regAt_eq_none_iff a).2 h]
  change finish .none (ioWriteByte (engine s) a v s) = _
  rw [hw, finish_next]

/-- Settles O4: the register map answers nothing (`regAt_eq_none_iff`). -/
theorem unmappedAddress : Obligations.UnmappedAddress := by
  unfold Obligations.UnmappedAddress
  intro a v s h
  exact ⟨decode_read_unmapped h, decode_write_unmapped v h, exec_ioRead_unmapped s h, exec_ioWrite_unmapped v s h⟩

/-- R440: `IO.READ` at a byte of a register is the read of that byte. -/
theorem exec_ioRead_of_regAt {a : Word} {r : Reg} {o : Nat} (h : regAt a = some (r, o)) (s : State) :
    exec (.ioRead a) s = exec (r.instr (.read o)) s := by
  have hr : ioReadByte a s = byteOf (readValue r s) o := by simp only [ioReadByte, h]
  rw [exec_instr, accessReg_read s (regAt_byte h), ← hr]
  rfl

/-- R441: `IO.WRITE` at a byte of a register is the write of that byte. -/
theorem exec_ioWrite_of_regAt {a : Word} {r : Reg} {o : Nat} (h : regAt a = some (r, o)) (v : Byte) (s : State) :
    exec (.ioWrite a v) s = exec (r.instr (.write o v)) s := by
  have hw : ioWriteByte (engine s) a v s = writeReg (engine s) r o v s := by simp only [ioWriteByte, h]
  have hin : (Access.write o v).within r.width = true := decide_eq_true (regAt_byte h)
  change finish .none (ioWriteByte (engine s) a v s) = _
  rw [exec_instr, accessReg, if_pos hin, hw]

/-- Settles O5: the register map answers a register and a byte of it, which fix the address (`regAt_toNat`). -/
theorem mappedAddress : Obligations.MappedAddress := by
  unfold Obligations.MappedAddress
  intro a ha
  obtain ⟨⟨r, o⟩, h⟩ := Option.ne_none_iff_exists'.1 (mt (regAt_eq_none_iff a).1 ha)
  have hread : decode (.read a) = some (r.instr (.read o)) := by simp only [decode, h]
  have hwrite (v : Byte) : decode (.write a v) = some (r.instr (.write o v)) := by simp only [decode, h]
  exact ⟨r, o, regAt_byte h, regAt_toNat h, hread, hwrite, exec_ioRead_of_regAt h, exec_ioWrite_of_regAt h⟩

end Sys2Proof.Proofs

/-! ### The scheduler's operations (R201 to R206) -/

namespace Sys2Proof.Proofs

open Sys2Proof.Machine Sys2Proof.Spec

/-- R201: an unsigned 48-bit delay is never negative and never too large, so a command word meets the other four refusals
alone. -/
theorem addEvent_command (tag : Byte) (delay : BitVec 48) (s : State) :
    addEvent true delay.toNat tag s =
      if 2 ^ 64 - 1 < s.sched.now + delay.toNat then .refused .clockOverflow
      else if s.sched.queue.length = s.cfg.qcap then .refused .queueFull
      else if s.sched.nextSeq = 2 ^ 48 - 1 then .refused .handlesExhausted
      else if tag = 0 then .refused .ppuTagReserved
      else .next (s.sched.nextSeq, { s with sched := s.sched.add delay.toNat tag }) := by
  have hneg : ¬(delay.toNat : Int) < 0 := by omega
  have hlarge : ¬(delay.toNat : Int) > Config.delayMax := by
    have := delay.isLt
    simp only [Config.delayMax]
    omega
  have hclock : (s.sched.now + delay.toNat : Int) > Config.nowMax ↔ 2 ^ 64 - 1 < s.sched.now + delay.toNat := by
    simp only [Config.nowMax]
    omega
  simp only [addEvent, if_neg hneg, if_neg hlarge, hclock, Int.toNat_natCast, and_true, Config.seqMax]

/-- R201: `SCH.ADD` is `Add` by the environment, with the handle as result. -/
theorem exec_schAdd (tag : Byte) (delay : BitVec 48) (s : State) :
    exec (.schAdd tag delay) s =
      andThen (addEvent true delay.toNat tag s) fun p => .next { p.2 with result := .handle p.1 } := rfl

/-- Settles O10: the five answers are the branches of `addEvent_command` in their order. -/
theorem addOperation : Obligations.AddOperation := by
  unfold Obligations.AddOperation
  refine ⟨fun tag delay s htag hclock hroom hhandle => ?_, fun tag delay s hclock => ?_,
    fun tag delay s hclock hfull => ?_, fun tag delay s hclock hroom hlast => ?_,
    fun delay s hclock hroom hhandle => ?_⟩
  all_goals rw [exec_schAdd, addEvent_command]
  · rw [if_neg (Nat.not_lt.2 hclock), if_neg hroom, if_neg hhandle, if_neg htag]
    exact ⟨_, perm_insertEvent _ _, rfl⟩
  · rw [if_pos hclock, andThen_refused]
  · rw [if_neg (Nat.not_lt.2 hclock), if_pos hfull, andThen_refused]
  · rw [if_neg (Nat.not_lt.2 hclock), if_neg hroom, if_pos hlast, andThen_refused]
  · rw [if_neg (Nat.not_lt.2 hclock), if_neg hroom, if_neg hhandle, if_pos rfl, andThen_refused]

/-- R202: cancelling a handle that no event has changes nothing. -/
theorem cancelEvent_of_absent {h : Nat} {s : State} (hs : ∀ e ∈ s.sched.queue, e.seq ≠ h) : cancelEvent h s = s := by
  have hq : (s.sched.queue.filter fun e => e.seq != h) = s.sched.queue :=
    List.filter_eq_self.2 fun e he => bne_iff_ne.2 (hs e he)
  unfold cancelEvent
  rw [hq]

/-- R202: `SCH.CANCEL` is `Cancel` by the environment. -/
theorem exec_schCancel (h : BitVec 48) (s : State) :
    exec (.schCancel h) s = .next { cancelEvent h.toNat s with result := .none } := rfl

/-- Settles O11: the queue that is left is the filtered one (`cancelEvent`). -/
theorem cancelRemoves : Obligations.CancelRemoves := by
  unfold Obligations.CancelRemoves
  refine ⟨fun h => decode_of_encode_eq rfl rfl, fun h s => ?_⟩
  refine ⟨s.sched.queue.filter fun e => e.seq != h.toNat, List.filter_sublist, fun e => ?_,
    exec_schCancel h s, fun hs => ?_⟩
  · rw [List.mem_filter, bne_iff_ne]
  · rw [exec_schCancel, cancelEvent_of_absent hs]

/-- R203: `SCH.REMAIN` gives the signed count. -/
theorem exec_schRemain (s : State) : exec .schRemain s = .next { s with result := .count (remaining s.sched) } := rfl

/-- R203: the distance to the earliest event. -/
theorem remaining_of_earliest {s : Sched} {q : Nat} {e : Event} (h : s.Sound q) (he : earliest s.queue e) :
    remaining s = (e.target : Int) - s.now := by
  obtain ⟨rest, hq, -⟩ := earliest_head h he
  simp only [remaining, hq]

/-- Settles O12: the earliest event of a sound queue is the one `remaining` looks at. -/
theorem remainingCycles : Obligations.RemainingCycles := by
  unfold Obligations.RemainingCycles
  refine ⟨decode_of_encode_eq (by decide) rfl, fun s hq => ?_, fun s e h he => ?_⟩
  · have hr : remaining s.sched = 2 ^ 63 - 1 := by simp only [remaining, hq]
    rw [exec_schRemain, hr]
  · rw [exec_schRemain, remaining_of_earliest h he]

/-- R205: `Advance` inside the clock's width. -/
theorem advance_of_le {n : Nat} {s : State} (h : s.sched.now + n ≤ 2 ^ 64 - 1) :
    advance n s = .next { s with sched := { s.sched with now := s.sched.now + n } } :=
  advance_eq_next.2 ⟨h, rfl⟩

/-- R205: `Advance` past the clock's width. -/
theorem advance_of_lt {n : Nat} {s : State} (h : 2 ^ 64 - 1 < s.sched.now + n) : advance n s = .refused .clockOverflow :=
  if_pos h

/-- R205: `SCH.ADVANCE` is `Advance`. -/
theorem exec_schAdvance (n : BitVec 48) (s : State) : exec (.schAdvance n) s = finish .none (advance n.toNat s) := rfl

/-- Settles O13: `Advance` on either side of the clock's width. -/
theorem clockOperations : Obligations.ClockOperations := by
  unfold Obligations.ClockOperations
  refine ⟨fun n => decode_of_encode_eq rfl rfl, fun n s h => ?_, fun n s h => ?_,
    decode_of_encode_eq (by decide) rfl, fun s => rfl⟩
  · rw [exec_schAdvance, advance_of_le h, finish_next]
  · rw [exec_schAdvance, advance_of_lt h]
    rfl

end Sys2Proof.Proofs

/-! ### Firing an event (R204, R207, R209) -/

namespace Sys2Proof.Proofs

open Sys2Proof.Machine Sys2Proof.Spec

/-! #### Which event fires, and in which state -/

/-- R204: `SCH.STEP` is `Step`. -/
theorem exec_schStep (s : State) : exec .schStep s = finish .none (stepEvent (engine s) s) := rfl

/-- R204: with no event pending nothing fires. -/
theorem stepEvent_of_nil {self : Runner} {s : State} (hq : s.sched.queue = []) : stepEvent self s = .next s := by
  simp only [stepEvent, hq]

section
variable {self : Runner} {s : State} {q : Nat} {e : Event} (h : s.sched.Sound q) (he : earliest s.sched.queue e)
include h he

/-- R204: of a sound queue the earliest event fires, with its lateness. -/
theorem stepEvent_of_earliest :
    stepEvent self s = fire self e.tag (lateness s e) (takeEvent e (s.sched.queue.erase e) s) := by
  obtain ⟨rest, hq, hrest⟩ := earliest_head h he
  rw [hrest]
  simp only [stepEvent, hq]
  rfl

/-- R207: the phase event runs the phase handler. -/
theorem stepEvent_phase (htag : e.tag = 0) :
    stepEvent self s = phaseComplete self (lateness s e) (takeEvent e (s.sched.queue.erase e) s) := by
  rw [stepEvent_of_earliest h he]
  exact if_pos htag

/-- R207: any other event runs what the environment's function answers, from the state that logs the call. -/
theorem stepEvent_external (htag : e.tag ≠ 0) :
    stepEvent self s = self (.callback (s.env.response e.tag (lateness s e))) (calledState s e) := by
  rw [stepEvent_of_earliest h he]
  exact if_neg htag

/-- R204, R207: `SCH.STEP` with an external event earliest, where the environment answers `acts`. -/
theorem exec_schStep_external {acts : List EnvAct} (htag : e.tag ≠ 0)
    (hresp : s.env.response e.tag (lateness s e) = acts) :
    exec .schStep s = finish .none (go s.cfg.fuel (.callback acts) (calledState s e)) := by
  rw [exec_schStep, stepEvent_external h he htag, hresp, engine]

end

/-! #### What a short callback does -/

/-- A callback with nothing to do. -/
theorem go_callback_nil {n : Nat} (hn : 0 < n) (s : State) : go n (.callback []) s = .next s := by
  obtain ⟨k, rfl⟩ := Nat.exists_eq_add_of_lt hn
  rfl

/-- A callback with one act is that act. -/
theorem go_callback_single {n : Nat} (hn : 1 < n) (act : EnvAct) (s : State) :
    go n (.callback [act]) s = actInCallback (go (n - 1)) act s := by
  obtain ⟨k, rfl⟩ := Nat.exists_eq_add_of_lt hn
  have hk : 1 + k + 1 - 1 = 1 + k := rfl
  rw [go, taskPass, runCallback, hk]
  cases actInCallback (go (1 + k)) act s with
  | next t => exact go_callback_nil (by omega) t
  | fault r => rfl
  | refused r => rfl

/-- R207, R560 to R563: a reset issued in a callback is the reset of the top level (assumption 7). -/
theorem actInCallback_reset {i : Instr} (hi : i ∈ [Instr.schReset, .dmaReset, .ppuReset, .sysReset]) (self : Runner)
    (s : State) : finish .none (actInCallback self (.issue (encode i)) s) = exec i s := by
  have hissue (hw : i.wellFormed = true) : actInCallback self (.issue (encode i)) s = issueInCallback self i s := by
    simp only [actInCallback, encodeDecode i hw]
  simp only [List.mem_cons, List.not_mem_nil, or_false] at hi
  rcases hi with rfl | rfl | rfl | rfl <;> rw [hissue rfl] <;> rfl

/-- Settles O14: the earliest event's callback, run from `calledState`, for each of the three answers. -/
theorem stepExternal : Obligations.StepExternal := by
  unfold Obligations.StepExternal
  refine ⟨fun s hq => ?_, fun s e h he htag hfuel => ⟨fun hresp => ?_, fun i hi hresp => ?_, fun a v hresp ha => ?_⟩⟩
  · rw [exec_schStep, stepEvent_of_nil hq, finish_next]
  · rw [exec_schStep_external h he htag hresp, go_callback_nil (by omega), finish_next]
  · rw [exec_schStep_external h he htag hresp, go_callback_single hfuel, actInCallback_reset hi]
  · refine ⟨s.env.mem.write a.toNat v, ?_, Mem.read_write_same _ _ v, fun b hb => Mem.read_write_other _ v hb.symm⟩
    rw [exec_schStep_external h he htag hresp, go_callback_single hfuel, actInCallback, envStore_unmapped ha, finish_next]
    rfl

/-- R293: `PPU.PHASE` with a lateness that fits its operand. -/
theorem exec_ppuPhase_ofNat {n : Nat} (h : n < 2 ^ 48) (s : State) :
    exec (.ppuPhase (BitVec.ofNat 48 n)) s = finish .none (phaseComplete (engine s) n s) := by
  have hn : (BitVec.ofNat 48 n).toNat = n := by rw [BitVec.toNat_ofNat, Nat.mod_eq_of_lt h]
  change finish .none (phaseComplete (engine s) (BitVec.ofNat 48 n).toNat s) = _
  rw [hn]

/-- Settles O15: the phase event runs the handler of `PPU.PHASE` from the state in which it has left the queue. -/
theorem stepPhase : Obligations.StepPhase := by
  unfold Obligations.StepPhase
  intro s e h he htag hlate
  rw [exec_schStep, stepEvent_phase h he htag]
  exact (exec_ppuPhase_ofNat hlate (takeEvent e (s.sched.queue.erase e) s)).symm

/-- Settles O16: the event `Add` gave is due at the clock of the `Add` plus the delay, and the callback is logged with what
the clock is past that. -/
theorem latenessLaw : Obligations.LatenessLaw := by
  unfold Obligations.LatenessLaw
  intro s t s' tag delay hadd h he hresp hfuel
  obtain ⟨p, hp, -⟩ := andThen_eq_next.1 hadd
  obtain ⟨⟨-, -, -, -, -, htag⟩, -⟩ := addEvent_eq_next.1 hp
  have htag : tag ≠ 0 := fun h0 => htag ⟨h0, rfl⟩
  generalize hev : (⟨s.sched.now + delay.toNat, s.sched.nextSeq, tag⟩ : Event) = e at he
  have hlate : lateness s' e = s'.sched.now - (s.sched.now + delay.toNat) := by
    subst hev
    simp only [lateness]
    omega
  have hetag : e.tag = tag := by rw [← hev]
  have hstep : exec .schStep s' = .next { calledState s' e with result := .none } := by
    rw [exec_schStep_external h he (hetag ▸ htag) (by rw [hetag, hlate, hresp]), go_callback_nil hfuel, finish_next]
  refine ⟨_, lateness s' e, hstep, by rw [← hetag]; rfl, ?_⟩
  subst hev
  simp only [lateness, calledState]
  omega

end Sys2Proof.Proofs

/-! ### What no step loses (R23, R211, R522) -/

namespace Sys2Proof.Proofs

open Sys2Proof.Machine Sys2Proof.Spec

/-- The state before a step, its act taken off the list, and the state after it are related; an idle step takes nothing. -/
theorem steady_step_taken {A : Instr → Prop} {R : State → State → Prop} (hR : Steady A R) {s t : State}
    (ha : s.env.CallbacksIn A) (hi : ∀ r rest i, s.env.requests = .issue r :: rest → decode r = some i → A i)
    (e : step s = .next t) : R (s.mapEnv fun v => { v with requests := s.env.requests.tail }) t := by
  rcases step_eq_next.1 e with ⟨hq, rfl⟩ | ⟨a, v, rest, hq, h⟩ | ⟨r, rest, i, hq, hd, ht, h⟩
  · have hidle : (t.mapEnv fun v => { v with requests := t.env.requests.tail }) = t := by
      rw [hq, List.tail_nil, ← hq]
      rfl
    rw [hidle]
    exact hR.refl t
  · rw [hq]
    exact hR.finish h fun u hu => hR.envStore (hR.go _) ha hu
  · rw [hq]
    exact hR.exec ht (hi r rest i hq hd) ha h

/-- Callbacks that issue neither `SCH.RESET` nor `SYS.RESET`. -/
theorem callbacksIn_keepsClock {s : State} (hsch : neverIssued s .schReset) (hsys : neverIssued s .sysReset) :
    s.env.CallbacksIn keepsClock := by
  intro row hrow r hm i hd
  constructor
  · rintro rfl
    exact hsch row hrow r hm hd
  · rintro rfl
    exact hsys row hrow r hm hd

/-- Settles O17: the clock, the parameters and the logs through every elementary change (`steady_clock`, `steady_cfg`,
`steady_logs`). -/
theorem stepMonotone : Obligations.StepMonotone := by
  unfold Obligations.StepMonotone
  constructor
  · intro s t e hreq hsch hsys
    have hallowed : ∀ r rest i, s.env.requests = .issue r :: rest → decode r = some i → keepsClock i := by
      intro r rest i hq hd
      obtain ⟨h1, h2⟩ := hreq r rest hq
      exact ⟨fun hi => h1 (hi ▸ hd), fun hi => h2 (hi ▸ hd)⟩
    exact (steady_step_taken steady_clock (callbacksIn_keepsClock hsch hsys) hallowed e).1
  · intro s t e
    obtain ⟨hirq, hext, hrequests, hcallbacks⟩ :=
      steady_step_taken steady_logs (callbacksIn_any _) (fun _ _ _ _ _ => trivial) e
    have hcfg := steady_step_taken steady_cfg (callbacksIn_any _) (fun _ _ _ _ _ => trivial) e
    exact ⟨hirq, hext, hcfg, hrequests, hcallbacks⟩

end Sys2Proof.Proofs

/-! ### The phase timeline (R210, R295) -/

namespace Sys2Proof.Proofs

open Sys2Proof.Machine Sys2Proof.Spec

/-! #### Requests with no channel eligible -/

/-- R42, R235: nothing runs, and no occasion has a channel to start. -/
structure Idle (d : Dma) : Prop extends d.Quiet where
  hblank : d.hblank = 0
  vblank : d.vblank = 0
  video : d.video = 0

/-- R236: `Service` of a quiet controller does nothing. -/
theorem service_of_quiet {n : Nat} {s : State} (hn : 1 < n) (h : s.dma.Quiet) : go n .service s = .next s := by
  obtain ⟨k, rfl⟩ := Nat.exists_eq_add_of_lt hn
  have hactive : (setBusy true s).dma.active = none := h.active
  have hbusy : setBusy s.dma.busy (setBusy true s) = s := rfl
  rw [h.busy] at hbusy
  rw [go, taskPass, servicePass, h.busy, if_neg Bool.false_ne_true, Nat.add_comm 1 k, go, taskPass, loopPass, hactive]
  exact congrArg _ hbusy

/-- R235: an empty set starts nothing. -/
theorem request_of_empty {n : Nat} {s : State} {occ : Occasion} (hn : 1 < n) (h : s.dma.Quiet)
    (ha : arbitrate occ s = startSet 0 s) : request (go n) occ s = .next s := by
  have hstart : startSet 0 s = s := rfl
  rw [request, ha, hstart, service_of_quiet hn h]

/-- A conditional part that does nothing when it runs does nothing. -/
theorem doIf_of_self {f : State → Res State} {s : State} (b : Bool) (h : f s = .next s) : doIf b f s = .next s := by
  cases b
  · rfl
  · exact h

/-- R293: the requests of a handler that leaves the controller idle change nothing. -/
theorem phaseComplete_of_idle {n late : Nat} {s u : State} {fx : PhaseEffects} (hn : 1 < n) (h : Idle u.dma)
    (e : phaseUpdate late s = .next (fx, u)) : phaseComplete (go n) late s = .next u := by
  have hv := request_of_empty (occ := .vblank) hn h.toQuiet (congrArg (startSet · u) h.vblank)
  have hh := request_of_empty (occ := .hblank) hn h.toQuiet (congrArg (startSet · u) h.hblank)
  have hd := request_of_empty (occ := .video) hn h.toQuiet (congrArg (startSet · u) h.video)
  rw [phaseComplete, e, andThen_next]
  rw [doIf_of_self _ hv, andThen_next, doIf_of_self _ hh, andThen_next, doIf_of_self _ hd]

/-- R240, R42: with no channel set for video capture there is none to stop. -/
theorem stopVideo_of_video_empty {s : State} (h : s.dma.Sound) (hv : s.dma.video = 0) : stopVideo s = s := by
  have h3 : (ctrlEnable (s.chan 3).ctrl && ctrlTiming (s.chan 3).ctrl == timingSpecial) = false := by
    have h3 := h.video 3
    rw [hv, hasChan_zero, beq_self_eq_true, Bool.and_true] at h3
    exact h3.symm
  rw [stopVideo, h3, if_neg Bool.false_ne_true]

/-! #### The next phase event -/

/-- R293: a transition sets the phase, the line and two of the flags, and nothing else of the timing state. -/
theorem transition_timing (s : State) :
    (transition s).1.timing =
      { s.timing with
        phase := (transition s).1.timing.phase
        scanline := (transition s).1.timing.scanline
        vblankFlag := (transition s).1.timing.vblankFlag
        hblankFlag := (transition s).1.timing.hblankFlag } := by
  unfold transition
  split
  · rfl
  · rfl
  · dsimp only
    split <;> rfl
  · rfl
  · dsimp only
    split <;> rfl

/-- R45: a phase lasts 46 to 1006 cycles. -/
theorem dur_bounds (p : Phase) : 46 ≤ p.dur ∧ p.dur ≤ 1006 := by cases p <;> decide

/-- R201, R573: an event fired at most 46 cycles late leaves room, a handle and time for the next one. -/
theorem phaseReady_takeEvent {s : State} {e : Event} {rest : List Event} (h : s.sched.Sound s.cfg.qcap)
    (hq : s.sched.queue = e :: rest) (hlate : s.sched.now ≤ e.target + 46) (hclock : e.target + 1006 ≤ 2 ^ 64 - 1)
    (hhandle : s.sched.nextSeq ≠ 2 ^ 48 - 1) (p : Phase) :
    PhaseReady (takeEvent e rest s) (lateness s e) p.dur := by
  obtain ⟨hlo, hhi⟩ := dur_bounds p
  have hcap : rest.length + 1 ≤ s.cfg.qcap := by simpa [hq] using h.capacity
  constructor
  case inTime => simp only [lateness]; omega
  case clock => simp only [lateness, takeEvent]; omega
  case room => simp only [takeEvent]; omega
  case handle => exact hhandle

/-- Settles O45: the handler adds the next event at the new phase's duration less the lateness, which is the new phase's
duration after the old target; its requests find no channel. -/
theorem timelineKept : Obligations.TimelineKept := by
  unfold Obligations.TimelineKept
  intro s e h he htag hdma hquiet hhblank hvblank hvideo hlate _ hclock hhandle hfuel
  obtain ⟨rest, hq, hrest⟩ := earliest_head h he
  have hready := phaseReady_takeEvent h hq hlate hclock hhandle (transition (takeEvent e rest s)).1.timing.phase
  obtain ⟨u, hupdate, hu, -, -, hudma⟩ := phaseUpdate_ready (transition_timing (takeEvent e rest s)) rfl hready
  have hudma : u.dma = s.dma := hudma
  have hstop : (if (transition (takeEvent e rest s)).2.stopVideo then stopVideo u else u) = u := by
    rw [stopVideo_of_video_empty (hudma ▸ hdma) (hudma ▸ hvideo), ite_self]
  rw [hstop] at hupdate
  have hidle : Idle u.dma := hudma ▸ ⟨hquiet, hhblank, hvblank, hvideo⟩
  have hstep : exec .schStep s = .next { u with result := .none } := by
    rw [exec_schStep, stepEvent_phase h he htag, hrest, engine, phaseComplete_of_idle hfuel hidle hupdate, finish_next]
  refine ⟨_, _, hstep, hu.queue.symm.subset List.mem_cons_self, rfl, ?_, ?_, hu.now⟩
  · rw [hu.timing]
  · rw [hu.timing]
    simp only [lateness, takeEvent]
    omega

end Sys2Proof.Proofs

/-! ### The DMA controller's operations (R233 to R241, R243) -/

namespace Sys2Proof.Proofs

open Sys2Proof.Machine Sys2Proof.Spec

/-! #### The operations as instructions -/

/-- R233: `DMA.TRYSTART` is `TryStart`. -/
theorem exec_dmaTrystart (c : Chan) (s : State) : exec (.dmaTrystart c) s = .next { tryStart c s with result := .none } := rfl

/-- R234: `DMA.SELECT` is `SelectNextDMA`. -/
theorem exec_dmaSelect (s : State) : exec .dmaSelect s = .next { selectNext s with result := .none } := rfl

/-- R236: `DMA.SERVICE` is `Service`. -/
theorem exec_dmaService (s : State) : exec .dmaService s = finish .none (go s.cfg.fuel .service s) := rfl

/-- R237: `DMA.RUN` is `Run`. -/
theorem exec_dmaRun (s : State) : exec .dmaRun s = finish .none (run (go s.cfg.fuel) s) := rfl

/-- R238: `DMA.COMPLETE` is `Complete`. -/
theorem exec_dmaComplete (c : Chan) (s : State) : exec (.dmaComplete c) s = .next { complete c s with result := .none } := rfl

/-- R239: `DMA.DISABLE` is `DisableChannel`. -/
theorem exec_dmaDisable (c : Chan) (s : State) :
    exec (.dmaDisable c) s = .next { disableChannel c s with result := .none } := rfl

/-- R240: `DMA.STOPVIDEO` is `StopVideoXferDMA`. -/
theorem exec_dmaStopvideo (s : State) : exec .dmaStopvideo s = .next { stopVideo s with result := .none } := rfl

/-- A service run with the fuel of a state of the same parameters is `DMA.SERVICE`. -/
theorem finish_service_eq_exec {s t : State} (h : t.cfg = s.cfg) :
    finish .none (engine s .service t) = exec .dmaService t := by
  rw [exec_dmaService, engine, h]

/-- R235: `DMA.REQUEST` is its arbitration and then `DMA.SERVICE`. -/
theorem exec_dmaRequest (occ : Occasion) (s : State) : exec (.dmaRequest occ) s = exec .dmaService (arbitrate occ s) :=
  finish_service_eq_exec (dmaOnly_arbitrate occ s).cfg

/-- R241: `DMA.ONWRITE` that does not go on to a service. -/
theorem exec_dmaOnwrite_of_not_starts {c : Chan} {was : Bool} {s : State} (h : ¬startsNow c was s = true) :
    exec (.dmaOnwrite c was) s = .next { configure c was s with result := .none } := by
  change finish .none (onChannelWritten (engine s) c was s) = _
  rw [onChannelWritten, if_neg h, finish_next]

/-- R241: `DMA.ONWRITE` that goes on to `DMA.SERVICE`. -/
theorem exec_dmaOnwrite_of_starts {c : Chan} {was : Bool} {s : State} (h : startsNow c was s = true) :
    exec (.dmaOnwrite c was) s = exec .dmaService (configure c was s) := by
  change finish .none (onChannelWritten (engine s) c was s) = _
  rw [onChannelWritten, if_pos h]
  exact finish_service_eq_exec (dmaOnly_configure c was s).cfg

/-! #### Arbitration (R233 to R235) -/

/-- R233: with nothing runnable the requester is active at once. -/
theorem tryStart_of_idle {c : Chan} {s : State} (h : s.dma.runnable = 0) :
    tryStart c s = { s with dma := { s.dma with active := some c, runnable := s.dma.runnable ||| bit c } } := by
  simp only [tryStart, State.mapDma, if_pos h, insertChan_eq]

/-- R233: an active channel of lower priority is preempted. -/
theorem tryStart_of_lt {c a : Chan} {s : State} (h : s.dma.runnable ≠ 0) (ha : s.dma.active = some a) (hlt : c < a) :
    tryStart c s =
      { s with dma := { s.dma with earlyExit := true, active := some c, runnable := s.dma.runnable ||| bit c } } := by
  simp only [tryStart, State.mapDma, if_neg h, ha, if_pos hlt, insertChan_eq]

/-- R233: a requester that preempts nothing is queued. -/
theorem tryStart_of_le {c : Chan} {s : State} (h : s.dma.runnable ≠ 0) (ha : ∀ a, s.dma.active = some a → a ≤ c) :
    tryStart c s = { s with dma := { s.dma with runnable := s.dma.runnable ||| bit c } } := by
  simp only [tryStart, State.mapDma, if_neg h, insertChan_eq]
  cases hactive : s.dma.active with
  | none => rfl
  | some a => simp only [if_neg (not_lt.2 (ha a hactive))]

/-- R234: the choice of `SelectNextDMA`. -/
theorem selectNext_of_lowest {s : State} {o : Option Chan} (h : lowest s.dma.runnable = o) :
    selectNext s = { s with dma := { s.dma with active := o } } := by
  rw [← h]
  rfl

/-- Settles O19: one equation of `TryStart` per case, and `SelectNextDMA` by the member it takes. -/
theorem arbitrationSteps : Obligations.ArbitrationSteps := by
  unfold Obligations.ArbitrationSteps
  refine ⟨fun c => decode_of_encode_eq rfl rfl, fun c s h => ?_, fun c a s h ha hlt => ?_, fun c s h ha => ?_,
    decode_of_encode_eq (by decide) rfl, fun s h => ?_, fun s c hc hlow => ?_⟩
  · rw [exec_dmaTrystart, tryStart_of_idle h]
  · rw [exec_dmaTrystart, tryStart_of_lt h ha hlt]
  · rw [exec_dmaTrystart, tryStart_of_le h ha]
  · rw [exec_dmaSelect, selectNext_of_lowest ((lowest_eq_none _).2 h)]
  · rw [exec_dmaSelect, selectNext_of_lowest ((lowest_eq_some _ c).2 ⟨hc, hlow⟩)]

/-- R235: a set occasion starts its own set. -/
theorem arbitrate_of_set {occ : Occasion} {s : State} {S : ChanSet} (h : occasionSetIs occ s S) :
    arbitrate occ s = startSet S s := by
  rcases h with ⟨rfl, rfl⟩ | ⟨rfl, rfl⟩ | ⟨rfl, rfl⟩ <;> rfl

/-- R235: the set's highest-priority member starts, and the whole set becomes runnable. -/
theorem startSet_of_first {S : ChanSet} {c : Chan} {s : State} (h : firstOf S = some c) :
    startSet S s = uniteRunnable S (tryStart c s) := by
  rw [firstOf_eq] at h
  simp only [startSet, h]

/-- R235: a FIFO occasion tries channel 1 and then channel 2. -/
theorem arbitrate_of_fifo {occ : Occasion} {addr : Word} (h : fifoAddressIs occ addr) (s : State) :
    arbitrate occ s = tryFifo occ 2 (tryFifo occ 1 s) := by
  rcases h with ⟨rfl, -⟩ | ⟨rfl, -⟩ <;> rfl

/-- R235: the model's match is the statements'. -/
theorem fifoMatches_iff {occ : Occasion} {addr : Word} (h : fifoAddressIs occ addr) (c : Chan) (s : State) :
    fifoMatches occ c s = true ↔ fifoMatch s addr c := by
  have haddr : fifoAddr occ = addr := by rcases h with ⟨rfl, rfl⟩ | ⟨rfl, rfl⟩ <;> rfl
  simp only [fifoMatches, haddr, Bool.and_eq_true, beq_iff_eq, and_assoc]
  rfl

/-- R235: a matching channel starts. -/
theorem tryFifo_of_match {occ : Occasion} {addr : Word} {c : Chan} {s : State} (h : fifoAddressIs occ addr)
    (hc : fifoMatch s addr c) : tryFifo occ c s = tryStart c s := if_pos ((fifoMatches_iff h c s).2 hc)

/-- R235: any other channel does not. -/
theorem tryFifo_of_not_match {occ : Occasion} {addr : Word} {c : Chan} {s : State} (h : fifoAddressIs occ addr)
    (hc : ¬fifoMatch s addr c) : tryFifo occ c s = s := if_neg (mt (fifoMatches_iff h c s).1 hc)

/-- `TryStart` changes no register, so it changes no match. -/
theorem fifoMatch_tryStart (c d : Chan) (addr : Word) (s : State) :
    fifoMatch (tryStart c s) addr d ↔ fifoMatch s addr d := by
  obtain ⟨-, hch, -⟩ := tryStart_frame c s
  simp only [fifoMatch, hch]

/-- `DMA.TRYSTART` with its result undone is `TryStart` (R125). -/
theorem tryStart_of_exec {c : Chan} {s u : State} (h : exec (.dmaTrystart c) s = .next u) :
    u = { tryStart c s with result := .none } := (Host.Outcome.next.inj h).symm

/-- Settles O20: the arbitration of each kind of occasion, in front of the one `DMA.SERVICE` (`exec_dmaRequest`). -/
theorem requestArbitrates : Obligations.RequestArbitrates := by
  unfold Obligations.RequestArbitrates
  refine ⟨fun occ => ?_, fun occ s S hS => ⟨fun h0 => ?_, fun c u hc hu => ?_⟩, fun occ s addr haddr =>
    ⟨fun h1 h2 => ?_, fun u h1 h2 hu => ?_, fun u h1 h2 hu => ?_, fun u v h1 h2 hu hv => ?_⟩⟩
  · exact decode_of_encode_eq (i := .dmaRequest occ) (by cases occ <;> rfl) rfl
  · subst h0
    rw [exec_dmaRequest, arbitrate_of_set hS]
    rfl
  · obtain rfl := tryStart_of_exec hu
    rw [exec_dmaRequest, arbitrate_of_set hS, startSet_of_first hc]
    rfl
  all_goals rw [exec_dmaRequest, arbitrate_of_fifo haddr]
  · rw [tryFifo_of_not_match haddr h1, tryFifo_of_not_match haddr h2]
  · obtain rfl := tryStart_of_exec hu
    rw [tryFifo_of_match haddr h1, tryFifo_of_not_match haddr (mt (fifoMatch_tryStart 1 2 addr s).1 h2)]
    rfl
  · obtain rfl := tryStart_of_exec hu
    rw [tryFifo_of_not_match haddr h1, tryFifo_of_match haddr h2]
    rfl
  · obtain rfl := tryStart_of_exec hu
    obtain rfl := tryStart_of_exec hv
    rw [tryFifo_of_match haddr h1, tryFifo_of_match haddr ((fifoMatch_tryStart 1 2 addr s).2 h2)]
    rfl

/-! #### The service loop's guards (R236, R237, R243) -/

/-- R236: `Service` does nothing while a loop is on the call stack. -/
theorem go_service_of_busy {n : Nat} {s : State} (hn : 0 < n) (h : s.dma.busy = true) : go n .service s = .next s := by
  obtain ⟨k, rfl⟩ := Nat.exists_eq_add_of_lt hn
  rw [go, taskPass, servicePass, if_pos h]

/-- R236: `Service` does nothing with no active channel. -/
theorem go_service_of_inactive {n : Nat} {s : State} (hn : 1 < n) (hb : s.dma.busy = false) (ha : s.dma.active = none) :
    go n .service s = .next s := by
  obtain ⟨k, rfl⟩ := Nat.exists_eq_add_of_lt hn
  have hactive : (setBusy true s).dma.active = none := ha
  have hbusy : setBusy s.dma.busy (setBusy true s) = s := rfl
  rw [hb] at hbusy
  rw [go, taskPass, servicePass, hb, if_neg Bool.false_ne_true, Nat.add_comm 1 k, go, taskPass, loopPass, hactive]
  exact congrArg _ hbusy

/-- Settles O21: the guard of `Service` and the guard of its loop. -/
theorem serviceGuard : Obligations.ServiceGuard := by
  unfold Obligations.ServiceGuard
  refine ⟨fun s hb hf => ?_, fun s hb ha hf => ?_⟩
  · rw [exec_dmaService, go_service_of_busy hf hb, finish_next]
  · rw [exec_dmaService, go_service_of_inactive hf hb ha, finish_next]

/-- R237, R243: a pass that finds the trigger set, with units left and no event due, honours it. -/
theorem go_units_of_trigger {n : Nat} {b : Burst} {s : State} (hn : 0 < n) (hrem : (s.chan b.chan).latRem ≠ 0)
    (he : s.dma.earlyExit = true) (hq : ∀ e ∈ s.sched.queue, s.sched.now < e.target) :
    go n (.units b) s = .next (honourTrigger s) := by
  obtain ⟨k, rfl⟩ := Nat.exists_eq_add_of_lt hn
  rw [go, taskPass, unitPass, if_neg hrem, decide_eq_false (remaining_pos hq), doIf_false, andThen_next, if_pos he]

/-- Settles O26: the first pass of `Run` honours the trigger, which touches no latch. -/
theorem earlyExitKeepsLatch : Obligations.EarlyExitKeepsLatch := by
  unfold Obligations.EarlyExitKeepsLatch
  intro s c ha hrem he hq hf
  have hrun : run (go s.cfg.fuel) s = .next (honourTrigger s) := by
    simp only [run, ha]
    exact go_units_of_trigger hf hrem he hq
  rw [exec_dmaRun, hrun, finish_next, firstOf_eq]
  rfl

/-! #### Completion and disabling (R238 to R240) -/

/-- R238: the part of `Complete` before the repeat bit is asked: the runnable bit and the interrupt. -/
theorem complete_eq (c : Chan) (s : State) :
    complete c s =
      selectNext
        (let t := (leaveRunnable c s).mapEnv fun e =>
            { e with irqLog := e.irqLog ++ if ctrlIrq (s.chan c).ctrl then [⟨.dma, c.val, s.sched.now⟩] else [] }
          if ctrlRepeat (s.chan c).ctrl then t.mapChan c (reloadLatch c) else leaveSets c (disableBit c t)) := by
  simp only [complete, raiseIf_frame]
  rfl

/-- R238: the repeat reload in the statements' words. -/
theorem reloadLatch_eq (c : Chan) (ch : Channel) :
    reloadLatch c ch =
      { ch with
        latRem := if ch.fifoMode then 4 else expanded c ch.cfgLen
        latDst :=
          if ch.fifoMode = false ∧ ch.ctrl.extractLsb' 5 2 = 3 then aligned (ch.ctrl.getLsbD 10) ch.cfgDst
          else ch.latDst } := by
  have hreload : (!ch.fifoMode && ctrlDstMode ch.ctrl == modeReload) = true
      ↔ ch.fifoMode = false ∧ ch.ctrl.extractLsb' 5 2 = 3 := by
    simp [ctrlDstMode, modeReload]
  simp only [reloadLatch, latchLength, hreload, expanded_eq]
  rfl

/-- Settles O27: `complete_eq`, its branch taken by the repeat bit. -/
theorem completeEffect : Obligations.CompleteEffect := by
  unfold Obligations.CompleteEffect
  refine ⟨fun c => decode_of_encode_eq rfl rfl, fun s c ch r log hch hr hlog => ⟨fun hrep => ?_, fun hrep => ?_⟩⟩
  all_goals
    subst hch hr hlog
    rw [exec_dmaComplete, complete_eq]
    simp only [← removeChan_eq, firstOf_eq, ← reloadLatch_eq]
  · rw [if_pos (show ctrlRepeat (s.chan c).ctrl = true from hrep)]
    rfl
  · rw [if_neg (show ¬ctrlRepeat (s.chan c).ctrl = true from Bool.eq_false_iff.1 hrep)]
    rfl

/-- R239: disabling in the statements' words. -/
theorem disableChannel_eq (c : Chan) (s : State) :
    disableChannel c s =
      { s with
        dma :=
          { s.dma with
            hblank := without s.dma.hblank c
            vblank := without s.dma.vblank c
            video := without s.dma.video c
            runnable := without s.dma.runnable c
            active := firstOf (without s.dma.runnable c)
            earlyExit := if s.dma.active = some c then true else s.dma.earlyExit
            ch := s.dma.ch.set c { s.dma.ch[c] with ctrl := s.dma.ch[c].ctrl &&& 0x7FFF#16 } } } := by
  have htrigger : (if s.dma.active = some c then true else s.dma.earlyExit)
      = (s.dma.earlyExit || decide (s.dma.active = some c)) := by
    by_cases h : s.dma.active = some c <;> simp [h]
  rw [htrigger]
  simp only [← removeChan_eq, firstOf_eq]
  rfl

/-- R240: channel 3 captures video when it is enabled with Special timing. -/
theorem stopVideo_eq (s : State) :
    stopVideo s =
      if s.dma.ch[(3 : Chan)].ctrl.getLsbD 15 = true ∧ s.dma.ch[(3 : Chan)].ctrl.extractLsb' 12 2 = 3
      then disableChannel 3 s else s := by
  simp only [stopVideo, Bool.and_eq_true, beq_iff_eq]
  rfl

/-- Settles O28: `disableChannel_eq`, and `stopVideo_eq` on either side of its test. -/
theorem disableEffect : Obligations.DisableEffect := by
  unfold Obligations.DisableEffect
  refine ⟨fun c => decode_of_encode_eq rfl rfl, fun s c => ?_, decode_of_encode_eq (by decide) rfl,
    fun s hen hspecial => ⟨_, exec_dmaDisable 3 s, ?_⟩, fun s h => ?_⟩
  · rw [exec_dmaDisable, disableChannel_eq]
  · rw [exec_dmaStopvideo, stopVideo_eq, if_pos ⟨hen, hspecial⟩]
  · rw [exec_dmaStopvideo, stopVideo_eq, if_neg h]

/-! #### A channel that was written (R241) -/

section
variable {c : Chan} {s : State}

/-- R241: a transfer starts where the channel has just been enabled with Immediate timing. -/
theorem startsNow_iff {was : Bool} :
    startsNow c was s = true
      ↔ s.dma.ch[c].ctrl.getLsbD 15 = true ∧ was = false ∧ s.dma.ch[c].ctrl.extractLsb' 12 2 = 0 := by
  simp only [startsNow, Bool.and_eq_true, Bool.not_eq_true', beq_iff_eq, and_assoc]
  rfl

/-- R241: a disabled channel is disabled in full. -/
theorem configure_of_disabled {was : Bool} (h : s.dma.ch[c].ctrl.getLsbD 15 = false) :
    configure c was s = disableChannel c (outOfSets s c) := by
  rw [outOfSets_eq]
  exact if_neg (Bool.eq_false_iff.1 h)

/-- R241: a channel that stays enabled derives its membership afresh. -/
theorem configure_of_enabled (h : s.dma.ch[c].ctrl.getLsbD 15 = true) : configure c true s = rederived s c := by
  rw [rederived_eq]
  exact if_pos h

/-- R241: arming is a change of the channel's own record after its membership is derived. -/
theorem mapChan_armChannel_derive :
    (derive c (leaveSets c s)).mapChan c (armChannel c) = withChan (rederived s c) c (armed c s.dma.ch[c]) := by
  have hown : (derive c (leaveSets c s)).chan c = s.dma.ch[c] := derive_chan c _ c
  rw [rederived_eq, armed_eq, ← hown]
  rfl

/-- R241: a channel that becomes enabled arms, and an Immediate one starts. -/
theorem configure_of_armed (h : s.dma.ch[c].ctrl.getLsbD 15 = true) :
    configure c false s =
      if s.dma.ch[c].ctrl.extractLsb' 12 2 = 0 then tryStart c (withChan (rederived s c) c (armed c s.dma.ch[c]))
      else withChan (rederived s c) c (armed c s.dma.ch[c]) := by
  have hen : ctrlEnable ((leaveSets c s).chan c).ctrl = true := h
  have htiming : ctrlTiming (((derive c (leaveSets c s)).mapChan c (armChannel c)).chan c).ctrl
      = s.dma.ch[c].ctrl.extractLsb' 12 2 := by
    rw [State.chan_mapChan_same, derive_chan]
    rfl
  unfold configure
  dsimp only
  rw [if_pos hen, if_neg Bool.false_ne_true, htiming, mapChan_armChannel_derive]
  rfl

end

/-- Settles O29: what is configured in each case, with `DMA.SERVICE` behind it where an Immediate channel has armed. -/
theorem onWriteEffect : Obligations.OnWriteEffect := by
  unfold Obligations.OnWriteEffect
  refine ⟨fun c was => ?_, fun s c was => ⟨fun hen => ⟨_, exec_dmaDisable c _, ?_⟩, fun hen hwas => ?_,
    fun hen hwas ht => ?_, fun u hen hwas ht hu => ?_⟩⟩
  · exact decode_of_encode_eq (i := .dmaOnwrite c was) (by cases was <;> rfl) rfl
  · have hstart : ¬startsNow c was s = true := fun h => Bool.eq_false_iff.1 hen (startsNow_iff.1 h).1
    rw [exec_dmaOnwrite_of_not_starts hstart, configure_of_disabled hen]
  all_goals subst hwas
  · have hstart : ¬startsNow c true s = true := fun h => Bool.noConfusion (startsNow_iff.1 h).2.1
    rw [exec_dmaOnwrite_of_not_starts hstart, configure_of_enabled hen]
  · have hstart : ¬startsNow c false s = true := fun h => ht (startsNow_iff.1 h).2.2
    rw [exec_dmaOnwrite_of_not_starts hstart, configure_of_armed hen, if_neg ht]
  · obtain rfl := tryStart_of_exec hu
    rw [exec_dmaOnwrite_of_starts (startsNow_iff.2 ⟨hen, rfl, ht⟩), configure_of_armed hen, if_pos ht]
    rfl

/-! #### An undisturbed transfer (R235 to R238) -/

/-- R237: `DMA.RUN` on an undisturbed transfer. -/
theorem exec_dmaRun_plain {s : State} {c : Chan} (ha : s.dma.active = some c) (he : s.dma.earlyExit = false)
    (hp : Plain s c) (hf : s.dma.ch[c].latRem < s.cfg.fuel) :
    exec .dmaRun s = .next { complete c (movedState s c) with result := .none } := by
  rw [exec_dmaRun, run_plain ha he hp hf, finish_next]

/-- Settles O22: both sides are `Complete` of the moved state. -/
theorem runTransfers : Obligations.RunTransfers := by
  unfold Obligations.RunTransfers
  intro s c ha he hp hf
  exact ⟨_, exec_dmaComplete c _, exec_dmaRun_plain ha he hp hf⟩

/-- R237: units store to their own destinations alone. -/
theorem read_mem_moveUnits_other (cfg : Params) (u : UnitShape) (a : Nat) : ∀ (n : Nat) (kind : AccessKind) (m : Moving),
    (∀ k, k < n → ∀ i, i < (if u.word then 4 else 2) → byteAddr (m.dst + BitVec.ofNat 32 k * u.dstDelta) i ≠ a) →
    (moveUnits cfg u kind n m).mem.read a = m.mem.read a := by
  intro n
  induction n with
  | zero => intro kind m _; rfl
  | succ n ih =>
    intro kind m h
    have hfirst : (moveOne cfg u kind m).mem.read a = m.mem.read a := by
      refine Mem.read_writeBytes_other _ _ _ _ _ fun i hi => ?_
      simpa using h 0 (Nat.succ_pos n) i hi
    rw [moveUnits, ih, hfirst]
    intro k hk i hi
    have hdst : (moveOne cfg u kind m).dst + BitVec.ofNat 32 k * u.dstDelta
        = m.dst + BitVec.ofNat 32 (k + 1) * u.dstDelta := by
      have hsucc : BitVec.ofNat 32 (k + 1) = BitVec.ofNat 32 k + 1 := BitVec.ofNat_add k 1
      rw [moveOne, hsucc]
      ring
    rw [hdst]
    exact h (k + 1) (Nat.succ_lt_succ hk) i hi

/-- Replacing one channel leaves every other one as it is. -/
theorem getElem_set_of_ne {c d : Chan} (v : Vector Channel 4) (x : Channel) (h : d ≠ c) : (v.set c x)[d] = v[d] :=
  Vector.getElem_set_ne c.isLt d.isLt fun hv => h (Fin.val_injective hv.symm)

/-- R238: completing a channel leaves every other one as it is. -/
theorem complete_ch_other {c d : Chan} (s : State) (h : d ≠ c) : (complete c s).dma.ch[d] = s.dma.ch[d] := by
  rw [complete_eq]
  dsimp only
  split
  · exact getElem_set_of_ne s.dma.ch _ h
  · exact getElem_set_of_ne s.dma.ch _ h

/-- Settles O23: what the units store, and what `Complete` leaves alone. -/
theorem transferFrame : Obligations.TransferFrame := by
  unfold Obligations.TransferFrame
  intro s t c ha he hp hf ht
  rw [exec_dmaRun_plain ha he hp hf] at ht
  obtain rfl := (Host.Outcome.next.inj ht).symm
  have hframe := complete_frame c (movedState s c)
  rw [raiseIf_frame] at hframe
  refine ⟨fun a hother => ?_, ?_, ?_, hframe.timing, hframe.regs, hframe.fb, fun d hd => ?_, ?_⟩
  · have hmem : (complete c (movedState s c)).env.mem = (endOf s c).mem := congrArg Env.mem hframe.env
    simp only [hmem]
    exact read_mem_moveUnits_other _ _ a _ _ _ hother
  · exact (congrArg Sched.queue hframe.sched :)
  · exact (congrArg Sched.nextSeq hframe.sched :)
  · exact (complete_ch_other _ hd).trans (getElem_set_of_ne s.dma.ch _ hd)
  · exact (congrArg Env.extLog hframe.env :)

/-- R236: `DMA.SERVICE` with one runnable channel, undisturbed. -/
theorem exec_dmaService_plain {s : State} {c : Chan} (hb : s.dma.busy = false) (ha : s.dma.active = some c)
    (hr : s.dma.runnable = bit c) (he : s.dma.earlyExit = false) (hp : Plain s c)
    (hf : s.dma.ch[c].latRem + 2 < s.cfg.fuel) :
    exec .dmaService s = .next { setBusy false (complete c (movedState (setBusy true s) c)) with result := .none } := by
  rw [exec_dmaService, service_plain hb ha hr he hp hf, finish_next]

/-- Settles O24: the one runnable channel completes, and none is left to be selected. -/
theorem serviceTransfers : Obligations.ServiceTransfers := by
  unfold Obligations.ServiceTransfers
  intro s c hb ha hr he hp hf
  refine ⟨_, exec_dmaComplete c _, ?_, exec_dmaService_plain hb ha hr he hp hf⟩
  have hleft : lowest (removeChan s.dma.runnable c) = none := by rw [hr, removeChan_eq, without_bit, lowest_zero]
  exact (complete_active c _).trans hleft

/-- R233: on a quiet controller the requester becomes the one runnable channel. -/
theorem tryStart_of_quiet {c : Chan} {s : State} (h : s.dma.Quiet) :
    tryStart c s = { s with dma := { s.dma with active := some c, runnable := bit c } } := by
  have hunion : (0 : ChanSet) ||| bit c = bit c := BitVec.zero_or
  rw [tryStart_of_idle h.runnable, h.runnable, hunion]

/-- R235: on a quiet controller the one eligible channel becomes the one runnable channel. -/
theorem arbitrate_of_eligible {occ : Occasion} {s : State} {c : Chan} (hquiet : s.dma.Quiet)
    (h : occasionSetIs occ s (bit c)
      ∨ ∃ addr, fifoAddressIs occ addr ∧ (c = 1 ∨ c = 2) ∧ ∀ d : Chan, d = 1 ∨ d = 2 → (fifoMatch s addr d ↔ d = c)) :
    arbitrate occ s = { s with dma := { s.dma with active := some c, runnable := bit c } } := by
  rcases h with hS | ⟨addr, haddr, hc, hmatch⟩
  · rw [arbitrate_of_set hS, startSet_of_first (firstOf_bit c), tryStart_of_quiet hquiet]
    simp only [uniteRunnable, State.mapDma, BitVec.or_self]
  · rw [arbitrate_of_fifo haddr]
    have h1 := hmatch 1 (.inl rfl)
    have h2 := hmatch 2 (.inr rfl)
    rcases hc with rfl | rfl
    · have hother : ¬fifoMatch (tryStart 1 s) addr 2 := by
        rw [fifoMatch_tryStart, h2]
        decide
      rw [tryFifo_of_match haddr (h1.2 rfl), tryFifo_of_not_match haddr hother, tryStart_of_quiet hquiet]
    · have hother : ¬fifoMatch s addr 1 := by
        rw [h1]
        decide
      rw [tryFifo_of_not_match haddr hother, tryFifo_of_match haddr (h2.2 rfl), tryStart_of_quiet hquiet]

/-- Settles O25: the arbitration makes the channel the one runnable (`arbitrate_of_eligible`), and the service runs it. -/
theorem requestTransfers : Obligations.RequestTransfers := by
  unfold Obligations.RequestTransfers
  intro occ s c hquiet he heligible hp hf
  refine ⟨_, exec_dmaComplete c _, ?_⟩
  rw [exec_dmaRequest, arbitrate_of_eligible hquiet heligible]
  exact exec_dmaService_plain hquiet.busy rfl rfl he hp hf

end Sys2Proof.Proofs

/-! ### The phase machine's operations (R293, R294) -/

namespace Sys2Proof.Proofs

open Sys2Proof.Machine Sys2Proof.Spec

/-! #### The vertical-counter check -/

/-- R294: the check raises in the statement's words. -/
theorem vcountRaises_eq (t : Timing) :
    vcountRaises t = decide (t.scanline = t.vcountTarget.toNat ∧ t.vcountFlag = false ∧ t.vcountIrqEn = true) := by
  rw [Bool.eq_iff_iff]
  simp only [vcountRaises, vcountMatches, Bool.and_eq_true, Bool.not_eq_true', decide_eq_true_eq, and_assoc]

/-- R294: `PPU.VCOUNT` sets the flag and returns whether the interrupt is to be raised. -/
theorem exec_ppuVcount (s : State) :
    exec .ppuVcount s = .next { setVcountFlag s with result := .flag (vcountRaises s.timing) } := rfl

/-- Settles O40: the check of `exec_ppuVcount`, its answer by `vcountRaises_eq`. -/
theorem verticalCounterCheck : Obligations.VerticalCounterCheck := by
  unfold Obligations.VerticalCounterCheck
  refine ⟨decode_of_encode_eq (by decide) rfl, fun s => ?_⟩
  rw [exec_ppuVcount, vcountRaises_eq]
  rfl

/-! #### What each transition updates and asks for (R293) -/

section
variable {s : State}

theorem transition_of_visible (h : s.timing.phase = .visible) :
    transition s = (setPhase .preHblankWindow (renderScanline s), {}) := by
  simp only [transition, h]

theorem transition_of_preHblankWindow (h : s.timing.phase = .preHblankWindow) :
    transition s =
      (setPhase .hblank (setHblankFlag true s),
        { irqH := s.timing.hblankIrqEn, reqH := true, reqVideo := decide (s.cfg.videoFirstLine ≤ s.timing.scanline) }) := by
  simp only [transition, h]

/-- R293: the end of a visible line other than the last. -/
theorem transition_of_hblank (h : s.timing.phase = .hblank) (hn : s.timing.scanline + 1 ≠ 160) :
    transition s = (setPhase .visible (setScanline (s.timing.scanline + 1) (setHblankFlag false s)), {}) := by
  simp only [transition, h, if_neg hn]

/-- R293: the end of the last visible line. -/
theorem transition_of_lastVisible (h : s.timing.phase = .hblank) (hn : s.timing.scanline + 1 = 160) :
    transition s =
      (setPhase .vblankVisible (reloadRefs (setVblankFlag true (setScanline 160 (setHblankFlag false s)))),
        { irqV := s.timing.vblankIrqEn, reqV := true, stopVideo := true }) := by
  simp only [transition, h, hn, if_true]

theorem transition_of_vblankVisible (h : s.timing.phase = .vblankVisible) :
    transition s =
      (setPhase .vblankHblank (setHblankFlag true s),
        { irqH := s.timing.hblankIrqEn, reqH := s.cfg.hblankDmaInVblank }) := by
  simp only [transition, h]

/-- R293: the end of a line of vertical blank other than the last. -/
theorem transition_of_vblankHblank (h : s.timing.phase = .vblankHblank) (hn : s.timing.scanline + 1 ≠ 228) :
    transition s = (setPhase .vblankVisible (setScanline (s.timing.scanline + 1) (setHblankFlag false s)), {}) := by
  simp only [transition, h, if_neg hn]

/-- R293: the end of the frame. -/
theorem transition_of_lastLine (h : s.timing.phase = .vblankHblank) (hn : s.timing.scanline + 1 = 228) :
    transition s =
      (setPhase .visible (setVblankFlag false (setScanline 0 (setScanline 228 (setHblankFlag false s)))), {}) := by
  simp only [transition, h, hn, if_true]

end

/-! #### From a transition to the handler -/

/-- R293: the requests the handler makes after its state part, in their order. -/
def phaseRequests (self : Runner) (fx : PhaseEffects) (s : State) : Res State :=
  andThen (doIf fx.reqV (request self .vblank) s) fun s1 =>
    andThen (doIf fx.reqH (request self .hblank) s1) fun s2 => doIf fx.reqVideo (request self .video) s2

/-- R293: `PPU.PHASE` is its state part and then its requests. -/
theorem exec_ppuPhase_of_update {s u : State} {late : BitVec 48} {fx : PhaseEffects}
    (h : phaseUpdate late.toNat s = .next (fx, u)) :
    exec (.ppuPhase late) s = finish .none (phaseRequests (engine s) fx u) := by
  change finish .none (phaseComplete (engine s) late.toNat s) = _
  rw [phaseComplete, h, andThen_next, phaseRequests]

section
variable {s t : State} {late : BitVec 48} {fx : PhaseEffects} {p : Phase} {dur line : Nat} {vb hb : Bool}
  (htr : transition s = (t, fx))
  (ht : t.timing = { s.timing with phase := p, scanline := line, vblankFlag := vb, hblankFlag := hb })
  (hd : p.dur = dur) (h : PhaseReady s late.toNat dur)
include htr ht hd h

/-- R293: the handler of a transition whose next phase event can be added. -/
theorem exec_ppuPhase_of_transition :
    ∃ u, PhaseResult s u late.toNat p dur line vb hb fx.irqV fx.irqH ∧ u.regs = t.regs ∧ u.fb = t.fb ∧ u.dma = s.dma
      ∧ exec (.ppuPhase late) s =
        finish .none (phaseRequests (engine s) fx (if fx.stopVideo then stopVideo u else u)) := by
  have hready := phaseUpdate_ready (by rw [htr]; exact ht) hd h
  rw [htr] at hready
  obtain ⟨u, hupdate, hu, hregs, hfb, hdma⟩ := hready
  exact ⟨u, hu, hregs, hfb, hdma, exec_ppuPhase_of_update hupdate⟩

/-- R293: a transition that asks for nothing completes with its state part. -/
theorem exec_ppuPhase_of_no_effects (hfx : fx = {}) :
    ∃ u, PhaseResult s u late.toNat p dur line vb hb false false ∧ u.regs = t.regs ∧ u.fb = t.fb ∧ u.dma = s.dma
      ∧ exec (.ppuPhase late) s = .next { u with result := .none } := by
  subst hfx
  exact exec_ppuPhase_of_transition htr ht hd h

end

/-- Ending after `x` is `x`. -/
theorem andThen_next_right {α : Type} (x : Res α) : andThen x .next = x := by cases x <;> rfl

/-- A request with the fuel of a state of the same parameters is `DMA.REQUEST`. -/
theorem finish_request_eq_exec {s u : State} (occ : Occasion) (h : u.cfg = s.cfg) :
    finish .none (request (engine s) occ u) = exec (.dmaRequest occ) u := by
  rw [exec_dmaRequest, ← finish_service_eq_exec ((dmaOnly_arbitrate occ u).cfg.trans h), request]

/-! #### The lines -/

/-- Settles O41: both transitions ask for nothing (`exec_ppuPhase_of_no_effects`). -/
theorem phaseVisibleLine : Obligations.PhaseVisibleLine := by
  unfold Obligations.PhaseVisibleLine
  constructor
  · intro s late hp h
    obtain ⟨u, hu, hregs, hfb, hdma, hexec⟩ := exec_ppuPhase_of_no_effects (transition_of_visible hp) rfl rfl h rfl
    exact ⟨u, _, rfl, hu, hregs, hfb, hdma, hexec⟩
  · intro s late hp hn h
    obtain ⟨u, hu, hregs, hfb, hdma, hexec⟩ := exec_ppuPhase_of_no_effects (transition_of_hblank hp hn) rfl rfl h rfl
    exact ⟨u, hu, ⟨hregs, hfb, hdma⟩, hexec⟩

/-- Settles O42: the requests of either transition, by whether HBlank and Video are asked for. -/
theorem phaseBlankBegins : Obligations.PhaseBlankBegins := by
  unfold Obligations.PhaseBlankBegins
  constructor
  · intro s late hp h
    obtain ⟨u, hu, hregs, hfb, hdma, hexec⟩ :=
      exec_ppuPhase_of_transition (transition_of_preHblankWindow hp) rfl rfl h
    refine ⟨u, hu, ⟨hregs, hfb, hdma⟩, hexec.trans ?_⟩
    simp only [phaseRequests, doIf, Bool.false_eq_true, if_false, if_true, andThen_next, decide_eq_true_eq]
  · intro s late hp h
    obtain ⟨u, hu, hregs, hfb, hdma, hexec⟩ :=
      exec_ppuPhase_of_transition (transition_of_vblankVisible hp) rfl rfl h
    refine ⟨u, hu, ⟨hregs, hfb, hdma⟩, hexec.trans ?_⟩
    rw [← finish_request_eq_exec .hblank hu.cfg]
    cases s.cfg.hblankDmaInVblank with
    | true =>
      simp only [phaseRequests, doIf_false, doIf_true, Bool.false_eq_true, if_false, if_true, andThen_next,
        andThen_next_right]
    | false => rfl

/-! #### The start of vertical blank -/

/-- R240: what stopping video capture leaves of the DMA controller depends on the controller alone. -/
theorem stopVideo_dma_congr {s u : State} (h : u.dma = s.dma) : (stopVideo u).dma = (stopVideo s).dma := by
  simp only [stopVideo_eq, disableChannel_eq, h, apply_ite State.dma]

/-- R293: what a transition's own updates leave does not speak of the DMA controller. -/
theorem phaseResult_of_dmaOnly {s u v : State} {late dur line : Nat} {p : Phase} {vb hb irqV irqH : Bool}
    (h : PhaseResult s u late p dur line vb hb irqV irqH) (hv : DmaOnly u v) :
    PhaseResult s v late p dur line vb hb irqV irqH where
  timing := hv.timing.trans h.timing
  queue := hv.sched ▸ h.queue
  now := hv.sched ▸ h.now
  nextSeq := hv.sched ▸ h.nextSeq
  env := hv.env.trans h.env
  cfg := hv.cfg.trans h.cfg
  result := hv.result.trans h.result

/-- Setting both elements leaves nothing of a vector of two. -/
theorem set_zero_set_one (v : Vector Int 2) (a b : Int) : (v.set (0 : Fin 2) a).set (1 : Fin 2) b = #v[a, b] := by
  ext i hi
  match i, hi with
  | 0, _ => exact (Vector.getElem_set_ne _ _ Nat.one_ne_zero).trans (Vector.getElem_set_self _)
  | 1, _ => exact Vector.getElem_set_self _

/-- R54, R293: the running reference points restart from their registers. -/
theorem reloadRefs_regs (s : State) :
    (reloadRefs s).regs =
      { s.regs with
        refX := #v[s.regs.bgx[(0 : Fin 2)].toInt, s.regs.bgx[(1 : Fin 2)].toInt]
        refY := #v[s.regs.bgy[(0 : Fin 2)].toInt, s.regs.bgy[(1 : Fin 2)].toInt] } := by
  simp only [reloadRefs, reloadRefX, reloadRefY, State.mapRegs, set_zero_set_one]

/-- Settles O43: line 160 is the one transition that stops video capture and requests VBlank; the other two ask for
nothing. -/
theorem phaseVblankEdges : Obligations.PhaseVblankEdges := by
  unfold Obligations.PhaseVblankEdges
  refine ⟨fun s x late hp hn h hx => ?_, fun s late hp hn h => ?_, fun s late hp hn h => ?_⟩
  · obtain ⟨u, hu, hregs, hfb, hdma, hexec⟩ := exec_ppuPhase_of_transition (transition_of_lastVisible hp hn) rfl rfl h
    obtain rfl := Host.Outcome.next.inj hx
    have hstop := dmaOnly_stopVideo u
    refine ⟨stopVideo u, phaseResult_of_dmaOnly hu hstop, ?_, hstop.fb.trans hfb, stopVideo_dma_congr hdma, ?_⟩
    · exact (hstop.regs.trans hregs).trans (reloadRefs_regs _)
    · rw [hexec, ← finish_request_eq_exec .vblank (hstop.cfg.trans hu.cfg)]
      simp only [phaseRequests, doIf_false, doIf_true, if_true, andThen_next_right]
  · obtain ⟨u, hu, hregs, hfb, hdma, hexec⟩ :=
      exec_ppuPhase_of_no_effects (transition_of_vblankHblank hp hn) rfl rfl h rfl
    exact ⟨u, hu, ⟨hregs, hfb, hdma⟩, hexec⟩
  · obtain ⟨u, hu, hregs, hfb, hdma, hexec⟩ := exec_ppuPhase_of_no_effects (transition_of_lastLine hp hn) rfl rfl h rfl
    exact ⟨u, hu, ⟨hregs, hfb, hdma⟩, hexec⟩

end Sys2Proof.Proofs

/-! ### A background's pixel in numbers (R330 to R340) -/

namespace Sys2Proof.Proofs

open Sys2Proof.Machine Sys2Proof.Spec

variable (w : View) (cnt : Half) (b : Fin 4) (k : Fin 2) (x : Nat)

/-! #### The fields of a control half-word (R143, R334) -/

theorem cntCharBase_eq : cntCharBase cnt = cnt.toNat / 4 % 4 * 0x4000 := by
  simp only [cntCharBase, field_eq_div_mod, Nat.reducePow]

theorem cntScreenBase_eq : cntScreenBase cnt = cnt.toNat / 0x100 % 32 := by
  simp only [cntScreenBase, field_eq_div_mod, Nat.reducePow]

theorem cntPal256_iff : cntPal256 cnt = true ↔ ¬cnt.toNat / 0x80 % 2 = 0 := by
  simp only [cntPal256, getLsbD_eq_decide, decide_eq_true_eq, Nat.reducePow]
  omega

theorem cntWrap_iff : cntWrap cnt = true ↔ ¬cnt.toNat / 0x2000 % 2 = 0 := by
  simp only [cntWrap, getLsbD_eq_decide, decide_eq_true_eq, Nat.reducePow]
  omega

theorem textWidth_eq : textWidth cnt = if cnt.toNat / 0x4000 % 2 = 1 then 512 else 256 := by
  simp only [textWidth, getLsbD_eq_decide, decide_eq_true_eq, Nat.reducePow]

/-- Bit 15 is the last, so nothing is left above it. -/
theorem textHeight_eq : textHeight cnt = if cnt.toNat / 0x8000 = 1 then 512 else 256 := by
  have hlast : cnt.toNat / 0x8000 % 2 = cnt.toNat / 0x8000 := Nat.mod_eq_of_lt (by have := cnt.isLt; omega)
  simp only [textHeight, getLsbD_eq_decide, decide_eq_true_eq, Nat.reducePow, hlast]

theorem affineSide_eq : affineSide cnt = 128 <<< (cnt.toNat / 0x4000) := by
  have hsize : cnt.toNat / 0x4000 % 4 = cnt.toNat / 0x4000 := Nat.mod_eq_of_lt (by have := cnt.isLt; omega)
  simp only [affineSide, cntSize, field_eq_div_mod, Nat.reducePow, hsize, Nat.shiftLeft_eq]

/-! #### Text layers (R334 to R336) -/

/-- Index 0 is transparent, any other is looked up (R335, R338, R340). -/
theorem ite_bgPal_eq_paletteColor (bank idx : Nat) :
    (if idx = 0 then none else some (w.bgPal (bank + idx))) = paletteColor w 0 bank idx := by
  simp only [paletteColor, bgPal_eq_pramColor, Nat.zero_add]

/-- The same with the 256-colour palette, which has no banks. -/
theorem ite_bgPal_eq_paletteColor_zero (idx : Nat) :
    (if idx = 0 then none else some (w.bgPal idx)) = paletteColor w 0 0 idx := by
  rw [← ite_bgPal_eq_paletteColor, Nat.zero_add]

/-- Where the map entry of the point `(sx, sy)` lies in VRAM (R334), `cnt` being the control half-word as a number. -/
def textMapOffset (cnt sx sy : Nat) : Nat :=
  (cnt / 0x100 % 32 + (if 256 ≤ sx then 1 else 0) + (if 256 ≤ sy then (if cnt / 0x4000 % 2 = 1 then 2 else 1) else 0))
    * 0x800 + (sy % 256 / 8 * 32 + sx % 256 / 8) * 2

theorem textMapEntry_eq (sx sy : Nat) :
    w.textMapEntry cnt sx sy =
      if 0x10000 ≤ textMapOffset cnt.toNat sx sy then none else some (w.vram16 (textMapOffset cnt.toNat sx sy)) := by
  have hbelow : (if textWidth cnt = 512 then 2 else 1) = if cnt.toNat / 0x4000 % 2 = 1 then 2 else 1 := by
    rw [textWidth_eq]
    split <;> rfl
  unfold View.textMapEntry
  rw [hbelow, cntScreenBase_eq]
  rfl

theorem textTilePixel_eq (tile bank tx ty : Nat) :
    w.textTilePixel cnt tile bank tx ty =
      if cnt.toNat / 0x80 % 2 = 0 then
        if 0x10000 ≤ cnt.toNat / 4 % 4 * 0x4000 + tile * 32 + ty * 4 + tx / 2 then none
        else
          paletteColor w 0 (bank * 16)
            (halfOfByte (vramByte w (cnt.toNat / 4 % 4 * 0x4000 + tile * 32 + ty * 4 + tx / 2)) tx)
      else if 0x10000 ≤ cnt.toNat / 4 % 4 * 0x4000 + tile * 64 + ty * 8 + tx then none
      else paletteColor w 0 0 (vramByte w (cnt.toNat / 4 % 4 * 0x4000 + tile * 64 + ty * 8 + tx)) := by
  simp only [View.textTilePixel, cntPal256_iff, cntCharBase_eq, nibble_eq_halfOfByte, ite_bgPal_eq_paletteColor,
    ite_bgPal_eq_paletteColor_zero, ite_not]
  rfl

/-- The text pixel, once the sampled point, the map entry and the tile's pixel are numbers. -/
theorem textPixel_eq_textColor : w.textPixel b x = textColor w b x := by
  unfold View.textPixel textColor
  simp only [bgSample_eq_samplePoint, scrollVal_eq_scrollBy, textWidth_eq, textHeight_eq, textMapEntry_eq,
    Nat.cast_ite, Nat.cast_ofNat]
  generalize Int.toNat _ = sx
  generalize Int.toNat _ = sy
  have hentry := toNat_vram16 w (textMapOffset w.regs.bgcnt[b].toNat sx sy)
  have hbank : field (w.vram16 (textMapOffset w.regs.bgcnt[b].toNat sx sy)) 12 4 =
      vramHalf w (textMapOffset w.regs.bgcnt[b].toNat sx sy) / 0x1000 := by
    rw [field_eq_div_mod, ← hentry]
    omega
  by_cases hout : 0x10000 ≤ textMapOffset w.regs.bgcnt[b].toNat sx sy
  · rw [if_pos hout]
    exact (if_pos hout).symm
  · rw [if_neg hout]
    refine Eq.trans ?_ (if_neg hout).symm
    simp only [textTilePixel_eq, hbank, field_eq_div_mod, getLsbD_eq_decide, hentry, decide_eq_true_eq, Nat.reducePow,
      Nat.div_one]
    rfl

/-! #### Affine layers (R337 to R339) -/

theorem affineCoord_eq :
    w.affineCoord b k x =
      ((w.regs.refX[k] - signed 16 w.regs.bgpb[k].toNat * ((w.scanline : Int) - (samplePoint w b x).2)
          + signed 16 w.regs.bgpa[k].toNat * (samplePoint w b x).1) / 256,
        (w.regs.refY[k] - signed 16 w.regs.bgpd[k].toNat * ((w.scanline : Int) - (samplePoint w b x).2)
          + signed 16 w.regs.bgpc[k].toNat * (samplePoint w b x).1) / 256) := by
  simp only [View.affineCoord, bgSample_eq_samplePoint, toInt_eq_signed]

theorem affinePixel_eq (px py : Nat) :
    w.affinePixel cnt px py =
      if 0x10000 ≤ cnt.toNat / 0x100 % 32 * 0x800 + py / 8 * (affineSide cnt / 8) + px / 8 then none
      else
        paletteColor w 0 0
          (vramByte w
            (cnt.toNat / 4 % 4 * 0x4000
              + vramByte w (cnt.toNat / 0x100 % 32 * 0x800 + py / 8 * (affineSide cnt / 8) + px / 8) * 64
              + py % 8 * 8 + px % 8)) := by
  simp only [View.affinePixel, cntScreenBase_eq, cntCharBase_eq, ite_bgPal_eq_paletteColor_zero]
  rfl

/-- Inside the map, wrapping changes nothing: one formula serves both (R338, R339). -/
theorem affineBgPixel_eq_ite :
    w.affineBgPixel b k x =
      if w.regs.bgcnt[b].toNat / 0x2000 % 2 = 0
          ∧ ((w.affineCoord b k x).1 < 0 ∨ (w.affineCoord b k x).1 ≥ affineSide w.regs.bgcnt[b]
            ∨ (w.affineCoord b k x).2 < 0 ∨ (w.affineCoord b k x).2 ≥ affineSide w.regs.bgcnt[b]) then none
      else
        w.affinePixel w.regs.bgcnt[b] ((w.affineCoord b k x).1 % affineSide w.regs.bgcnt[b]).toNat
          ((w.affineCoord b k x).2 % affineSide w.regs.bgcnt[b]).toNat := by
  simp only [View.affineBgPixel, cntWrap_iff]
  by_cases hwrap : w.regs.bgcnt[b].toNat / 0x2000 % 2 = 0
  · rw [if_neg (not_not_intro hwrap)]
    simp only [hwrap, true_and]
    split
    · rfl
    · next hin =>
      rw [Int.emod_eq_of_lt (by omega) (by omega), Int.emod_eq_of_lt (by omega) (by omega)]
  · rw [if_pos hwrap, if_neg fun h => hwrap h.1]

theorem affineBgPixel_eq_affineColor : w.affineBgPixel b k x = affineColor w b k x := by
  rw [affineBgPixel_eq_ite, affineCoord_eq, affinePixel_eq, affineSide_eq]
  rfl

/-! #### Bitmap layers (R340) -/

theorem bitmapPixel_eq_bitmapColor : w.bitmapPixel x = bitmapColor w x := by
  have hmode : bgMode w.regs.dispcnt = w.regs.dispcnt.toNat % 8 := by
    simp only [bgMode, field_eq_div_mod, Nat.reducePow, Nat.div_one]
  have hframe : dispFrame w.regs.dispcnt = true ↔ w.regs.dispcnt.toNat / 16 % 2 = 1 := by
    simp only [dispFrame, getLsbD_eq_decide, decide_eq_true_eq, Nat.reducePow]
  have hcolor (o : Nat) : (w.vram16 o).setWidth 15 = BitVec.ofNat 15 (vramHalf w o) :=
    color_of_half _ _ (toNat_vram16 w o)
  simp only [View.bitmapPixel, bitmapColor, hmode, hframe, hcolor, bgSample_eq_samplePoint,
    ite_bgPal_eq_paletteColor_zero]
  rfl

/-! #### The layer (R330, R331) -/

/-- Settles O49: the layer's kind picks one of the three pixels, and each of them is the model's own. -/
theorem backgroundPixels : Obligations.BackgroundPixels := by
  unfold Obligations.BackgroundPixels
  intro w b x
  refine ⟨fun h => ?_, fun hen hk => ?_, fun k hen hk => ?_, fun hen hk => ?_⟩
  · rcases h with hoff | hk
    · exact if_neg (ne_true_of_eq_false hoff)
    · rw [View.bgPixel, layerKind_eq_kindOf, hk]
      exact ite_self _
  · rw [View.bgPixel, dispBgEn, if_pos hen, layerKind_eq_kindOf, hk]
    exact textPixel_eq_textColor w b x
  · rw [View.bgPixel, dispBgEn, if_pos hen, layerKind_eq_kindOf, hk]
    exact affineBgPixel_eq_affineColor w b k x
  · rw [View.bgPixel, dispBgEn, if_pos hen, layerKind_eq_kindOf, hk]
    exact bitmapPixel_eq_bitmapColor w x

end Sys2Proof.Proofs

/-! ### What a row depends on (R92, R344, R383, R576) -/

namespace Sys2Proof.Proofs

open Sys2Proof.Machine Sys2Proof.Spec

/-- The same snapshot over another memory. -/
def withMem (w : View) (m : Mem) : View := { w with mem := m }

/-- Memory `m` holds what the snapshot's memory holds inside PRAM, VRAM and OAM (R82). -/
def SameVideo (w : View) (m : Mem) : Prop := ∀ a, videoAddress a → m.read a = w.mem.read a

theorem field_lt {n : Nat} (a : BitVec n) (lo len : Nat) : field a lo len < 2 ^ len := BitVec.isLt _

theorem nibble_lt (a : Byte) (x : Nat) : nibble a x < 16 := by
  unfold nibble
  split
  · exact field_lt a 4 4
  · exact field_lt a 0 4

section

variable {w : View} {m : Mem} (h : SameVideo w m) (b : Fin 4) (x : Nat)
include h

/-! #### Reads inside the video memories (R82) -/

theorem vram8_withMem {off : Nat} (ho : off < 0x18000) : (withMem w m).vram8 off = w.vram8 off :=
  h _ (by unfold videoAddress Config.vramBase; omega)

theorem vram16_withMem {off : Nat} (ho : off + 1 < 0x18000) : (withMem w m).vram16 off = w.vram16 off := by
  rw [View.vram16, View.vram16, vram8_withMem h ho, vram8_withMem h (Nat.lt_of_succ_lt ho)]

theorem pram16_withMem {off : Nat} (ho : off + 1 < 0x400) : (withMem w m).pram16 off = w.pram16 off :=
  congrArg₂ (· ++ ·) (h _ (by unfold videoAddress Config.pramBase; omega))
    (h _ (by unfold videoAddress Config.pramBase; omega))

theorem oam16_withMem {off : Nat} (ho : off + 1 < 0x400) : (withMem w m).oam16 off = w.oam16 off :=
  congrArg₂ (· ++ ·) (h _ (by unfold videoAddress Config.oamBase; omega))
    (h _ (by unfold videoAddress Config.oamBase; omega))

theorem bgPal_withMem {i : Nat} (hi : i < 256) : (withMem w m).bgPal i = w.bgPal i := by
  rw [View.bgPal, View.bgPal, pram16_withMem h (by omega)]

theorem objPal_withMem {i : Nat} (hi : i < 256) : (withMem w m).objPal i = w.objPal i := by
  rw [View.objPal, View.objPal, pram16_withMem h (by omega)]

/-! #### Text layers (R334 to R336) -/

theorem textMapEntry_withMem (cnt : Half) (sx sy : Nat) :
    (withMem w m).textMapEntry cnt sx sy = w.textMapEntry cnt sx sy := by
  unfold View.textMapEntry
  refine ite_congr rfl (fun _ => rfl) fun hin => ?_
  rw [vram16_withMem h (by omega)]

theorem textTilePixel_withMem (cnt : Half) (tile tx ty : Nat) {bank : Nat} (hb : bank < 16) :
    (withMem w m).textTilePixel cnt tile bank tx ty = w.textTilePixel cnt tile bank tx ty := by
  unfold View.textTilePixel
  refine ite_congr rfl (fun _ => ite_congr rfl (fun _ => rfl) fun hin => ?_)
    fun _ => ite_congr rfl (fun _ => rfl) fun hin => ?_
  · dsimp only
    rw [vram8_withMem h (by omega), bgPal_withMem h (BitVec.isLt _)]
  · have hidx := nibble_lt (w.vram8 (cntCharBase cnt + tile * 32 + ty * 4 + tx / 2)) tx
    dsimp only
    rw [vram8_withMem h (by omega), bgPal_withMem h (by omega)]

theorem textPixel_withMem : (withMem w m).textPixel b x = w.textPixel b x := by
  unfold View.textPixel
  rw [show (withMem w m).bgSample b x = w.bgSample b x from rfl]
  dsimp only
  rw [textMapEntry_withMem h, show (withMem w m).cfg = w.cfg from rfl, show (withMem w m).regs = w.regs from rfl]
  generalize w.textMapEntry _ _ _ = entry
  cases entry with
  | none => rfl
  | some e => exact textTilePixel_withMem h _ _ _ _ (field_lt e 12 4)

/-! #### Affine and bitmap layers (R337 to R340) -/

/-- The map entry is read below `0x10000`, and a tile number reaches no further above its character base. -/
theorem affinePixel_withMem (cnt : Half) (px py : Nat) : (withMem w m).affinePixel cnt px py = w.affinePixel cnt px py := by
  unfold View.affinePixel
  refine ite_congr rfl (fun _ => rfl) fun hin => ?_
  have hbase : cntCharBase cnt ≤ 0xC000 := by
    rw [cntCharBase_eq]
    omega
  have htile := (w.vram8 (cntScreenBase cnt * 0x800 + py / 8 * (affineSide cnt / 8) + px / 8)).isLt
  dsimp only
  rw [vram8_withMem h (show _ + px / 8 < 0x18000 by omega), vram8_withMem h (by omega), bgPal_withMem h (BitVec.isLt _)]

theorem affineBgPixel_withMem (k : Fin 2) : (withMem w m).affineBgPixel b k x = w.affineBgPixel b k x :=
  ite_congr rfl (fun _ => affinePixel_withMem h _ _ _)
    fun _ => ite_congr rfl (fun _ => rfl) fun _ => affinePixel_withMem h _ _ _

omit h in
/-- Mosaic only snaps down (R332). -/
theorem bgSample_le : (w.bgSample b x).1 ≤ x ∧ (w.bgSample b x).2 ≤ w.scanline := by
  unfold View.bgSample
  split
  · exact ⟨Nat.sub_le _ _, Nat.sub_le _ _⟩
  · exact ⟨le_rfl, le_rfl⟩

/-- A visible line's bitmap lies inside VRAM, in both frames. -/
theorem bitmapPixel_withMem (hx : x < 240) (hy : w.scanline < 160) : (withMem w m).bitmapPixel x = w.bitmapPixel x := by
  obtain ⟨hxm, hym⟩ := bgSample_le (w := w) 2 x
  have hframe : (if dispFrame w.regs.dispcnt then 0xA000 else 0) ≤ 0xA000 := by split <;> omega
  unfold View.bitmapPixel
  rw [show (withMem w m).bgSample 2 x = w.bgSample 2 x from rfl, show (withMem w m).regs = w.regs from rfl]
  generalize (if dispFrame w.regs.dispcnt then 0xA000 else 0) = frame at hframe ⊢
  generalize w.bgSample 2 x = sample at hxm hym ⊢
  dsimp only
  refine ite_congr rfl (fun _ => ?_) fun _ => ite_congr rfl (fun _ => ?_) fun _ => ite_congr rfl (fun _ => rfl) fun hin => ?_
  · rw [vram16_withMem h (by omega)]
  · rw [vram8_withMem h (by omega), bgPal_withMem h (BitVec.isLt _)]
  · rw [vram16_withMem h (by omega)]

theorem bgPixel_withMem (hx : x < 240) (hy : w.scanline < 160) : (withMem w m).bgPixel b x = w.bgPixel b x := by
  refine ite_congr rfl (fun _ => ?_) fun _ => rfl
  rw [show (withMem w m).regs = w.regs from rfl]
  cases layerKind (bgMode w.regs.dispcnt) b with
  | none => rfl
  | text => exact textPixel_withMem h b x
  | affine k => exact affineBgPixel_withMem h b x k
  | bitmap => exact bitmapPixel_withMem h x hx hy

/-! #### Sprites (R371 to R377) -/

theorem sprite_withMem {i : Nat} (hi : i < 128) : (withMem w m).sprite i = w.sprite i := by
  rw [View.sprite, View.sprite, oam16_withMem h (by omega), oam16_withMem h (by omega), oam16_withMem h (by omega)]

theorem affineGroup_withMem {g : Nat} (hg : g < 32) : (withMem w m).affineGroup g = w.affineGroup g := by
  rw [View.affineGroup, View.affineGroup, oam16_withMem h (by omega), oam16_withMem h (by omega),
    oam16_withMem h (by omega), oam16_withMem h (by omega)]

theorem spriteTexel_withMem {e : Sprite} (he : e.group < 32) (lx ly : Nat) :
    (withMem w m).spriteTexel e lx ly = w.spriteTexel e lx ly := by
  unfold View.spriteTexel
  rw [affineGroup_withMem h he]
  rfl

theorem spritePixel_withMem {e : Sprite} (he : e.palbank < 16) (tx ty : Nat) :
    (withMem w m).spritePixel e tx ty = w.spritePixel e tx ty := by
  unfold View.spritePixel
  rw [show (withMem w m).spriteTile e tx ty = w.spriteTile e tx ty from rfl]
  generalize w.spriteTile e tx ty = t
  refine ite_congr rfl (fun _ => rfl) fun _ => ite_congr rfl (fun _ => ?_) fun _ => ?_
  · dsimp only
    rw [vram8_withMem h (by omega), objPal_withMem h (BitVec.isLt _)]
  · have hidx := nibble_lt (w.vram8 (0x10000 + (t * 32 + ty % 8 * 4 + tx % 8 / 2) % 0x8000)) tx
    dsimp only
    rw [vram8_withMem h (by omega), objPal_withMem h (by omega)]

theorem spriteColor_withMem {e : Sprite} (hg : e.group < 32) (hp : e.palbank < 16) :
    (withMem w m).spriteColor e x = w.spriteColor e x := by
  refine ite_congr rfl (fun _ => rfl) fun _ => ?_
  rw [spriteTexel_withMem h hg, show (withMem w m).scanline = w.scanline from rfl]
  generalize w.spriteTexel _ _ _ = texel
  cases texel with
  | none => rfl
  | some t => exact spritePixel_withMem h hp t.1 t.2

theorem sprites_withMem : (withMem w m).sprites = w.sprites := by
  have hall : (List.range 128).map (withMem w m).sprite = (List.range 128).map w.sprite :=
    List.map_congr_left fun i hi => sprite_withMem h (List.mem_range.mp hi)
  unfold View.sprites
  rw [hall]
  rfl

omit h in
/-- A displayed sprite was decoded from OAM, so its fields are as wide as R371 has them. -/
theorem eq_sprite_of_mem_sprites {e : Sprite} (he : e ∈ w.sprites) : ∃ i, e = w.sprite i := by
  unfold View.sprites at he
  split at he
  · obtain ⟨i, -, rfl⟩ := List.mem_map.mp (List.mem_of_mem_filter he)
    exact ⟨i, rfl⟩
  · cases he

theorem objPixel_sprites_withMem : (withMem w m).objPixel w.sprites x = w.objPixel w.sprites x := by
  refine List.foldl_ext _ _ _ fun o e he => ?_
  obtain ⟨i, rfl⟩ := eq_sprite_of_mem_sprites he
  rw [spriteColor_withMem h x (field_lt _ 9 5) (field_lt _ 12 4)]

/-! #### The row (R410 to R420) -/

theorem candidates_withMem (mask : BitVec 6) (o : ObjPixel) (hx : x < 240) (hy : w.scanline < 160) :
    (withMem w m).candidates mask o x = w.candidates mask o x := by
  simp only [View.candidates, View.bgCandidate, bgPixel_withMem h _ x hx hy]
  rfl

theorem columnColor_withMem (hx : x < 240) (hy : w.scanline < 160) :
    (withMem w m).columnColor w.sprites x = w.columnColor w.sprites x := by
  unfold View.columnColor
  rw [objPixel_sprites_withMem h]
  dsimp only
  rw [candidates_withMem h x _ _ hx hy, View.backdrop, bgPal_withMem h (by decide)]
  rfl

/-- Every read a visible row makes falls inside the three video memories. -/
theorem row_withMem (hy : w.scanline < 160) : (withMem w m).row = w.row := by
  refine ite_congr rfl (fun _ => rfl) fun _ => ?_
  rw [sprites_withMem h]
  exact List.map_congr_left fun x hx =>
    congrArg (colorOut w.cfg) (columnColor_withMem h x (List.mem_range.mp hx) hy)

end

/-! #### The operation (R341, R420) -/

/-- The increment of the running reference points reads the registers alone (R341). -/
theorem advanceRefs_regs_congr {s u : State} (hregs : s.regs = u.regs) : (advanceRefs s).regs = (advanceRefs u).regs := by
  simp only [advanceRefs, advanceRef, State.mapRegs_regs, hregs]

theorem renderScanline_fb_scanline {s : State} (hline : s.timing.scanline < s.fb.length) :
    (renderScanline s).fb[s.timing.scanline]? = some s.view.row :=
  List.getElem?_set_self hline

/-- Settles O56: the two snapshots differ outside the video memories only, which no read of a visible row reaches. -/
theorem rowNoninterference : Obligations.RowNoninterference := by
  unfold Obligations.RowNoninterference
  intro s u s' u' hregs hcfg hline hvisible hs hu hmem hs' hu'
  obtain rfl := Host.Outcome.next.inj hs'
  obtain rfl := Host.Outcome.next.inj hu'
  have hview : u.view = withMem s.view u.env.mem := by
    rw [State.view, State.view, withMem, hregs, hcfg, hline]
  have hrow : s.view.row = u.view.row :=
    hview ▸ (row_withMem (w := s.view) (fun a ha => (hmem a ha).symm) hvisible).symm
  refine ⟨?_, advanceRefs_regs_congr hregs⟩
  calc (renderScanline s).fb[s.timing.scanline]?
    _ = some s.view.row := renderScanline_fb_scanline (by omega)
    _ = some u.view.row := congrArg some hrow
    _ = (renderScanline u).fb[u.timing.scanline]? := (renderScanline_fb_scanline (by omega)).symm
    _ = (renderScanline u).fb[s.timing.scanline]? := by rw [hline]

end Sys2Proof.Proofs

/-! ### A sprite's pixel in numbers (R371 to R376) -/

namespace Sys2Proof.Proofs

open Sys2Proof.Machine Sys2Proof.Spec

variable (w : View) (i x : Nat)

/-! #### The fields of an entry (R371, R372) -/

/-- One bit, as the rules write it in numbers. -/
theorem getLsbD_iff {n : Nat} (v : BitVec n) (k : Nat) : v.getLsbD k = true ↔ v.toNat / 2 ^ k % 2 = 1 := by
  rw [getLsbD_eq_decide, decide_eq_true_iff]

theorem sprite_x : (w.sprite i).x = signed 9 (attr w i 1 % 512) := by
  rw [← toNat_attr1]
  exact toInt_field_eq_signed _

theorem sprite_mosaic_iff : (w.sprite i).mosaic = true ↔ attr w i 0 / 0x1000 % 2 = 1 := by
  rw [← toNat_attr0]
  exact getLsbD_iff _ 12

theorem sprite_pal256_iff : (w.sprite i).pal256 = true ↔ attr w i 0 / 0x2000 % 2 = 1 := by
  rw [← toNat_attr0]
  exact getLsbD_iff _ 13

theorem sprite_group : (w.sprite i).group = attr w i 1 / 0x200 % 32 := by
  rw [← toNat_attr1]
  exact field_eq_div_mod _ 9 5

theorem sprite_hflip_iff : (w.sprite i).hflip = true ↔ attr w i 1 / 0x1000 % 2 = 1 := by
  rw [← toNat_attr1]
  exact getLsbD_iff _ 12

theorem sprite_vflip_iff : (w.sprite i).vflip = true ↔ attr w i 1 / 0x2000 % 2 = 1 := by
  rw [← toNat_attr1]
  exact getLsbD_iff _ 13

theorem sprite_tile : (w.sprite i).tile = attr w i 2 % 0x400 := by
  rw [← toNat_attr2, ← Nat.div_one (w.oam16 _).toNat]
  exact field_eq_div_mod _ 0 10

theorem sprite_palbank : (w.sprite i).palbank = attr w i 2 / 0x1000 := by
  have := attr2_lt w i
  have hfield : (w.sprite i).palbank = attr w i 2 / 0x1000 % 16 := by
    rw [← toNat_attr2]
    exact field_eq_div_mod _ 12 4
  omega

theorem affineGroup_eq_signed (g : Nat) :
    w.affineGroup g =
      (signed 16 (oamHalf w (32 * g + 6)), signed 16 (oamHalf w (32 * g + 14)), signed 16 (oamHalf w (32 * g + 22)),
        signed 16 (oamHalf w (32 * g + 30))) := by
  simp only [View.affineGroup, toInt_eq_signed, toNat_oam16]

/-! #### Which entries are evaluated (R374) -/

theorem touches_sprite_eq_entryDrawn : (w.sprite i).touches w.scanline = entryDrawn w i := by
  rw [Bool.eq_iff_iff]
  simp [Sprite.touches, Sprite.boxHeight, entryDrawn, sprite_shape, sprite_mode, sprite_affine, sprite_dbl,
    row_sprite w i _ rfl, boxScale_sprite, height_sprite, and_assoc]

theorem sprites_eq_map_filter (hen : w.regs.dispcnt.getLsbD 12 = true) :
    w.sprites = ((List.range 128).filter fun i => entryDrawn w i).map fun i => w.sprite i := by
  rw [View.sprites, dispObjEn, if_pos hen, List.filter_map]
  simp only [Function.comp_def, touches_sprite_eq_entryDrawn]

/-! #### The texel (R375) -/

/-- The mosaic snaps a column of the box to its block. -/
theorem snap_column (v : Nat) : snap v (field w.regs.mosaic 8 4) = v - v % (w.regs.mosaic.toNat / 0x100 % 16 + 1) := by
  simp only [snap, field_eq_div_mod, Nat.reducePow]

theorem snap_row (v : Nat) : snap v (field w.regs.mosaic 12 4) = v - v % (w.regs.mosaic.toNat / 0x1000 + 1) := by
  have hsize : field w.regs.mosaic 12 4 = w.regs.mosaic.toNat / 0x1000 := by
    have := w.regs.mosaic.isLt
    rw [field_eq_div_mod]
    omega
  rw [snap, hsize]

/-! #### The texel's colour (R376) -/

/-- Index 0 is transparent, any other is looked up in the sprite palette. -/
theorem ite_objPal_eq_paletteColor (bank idx : Nat) :
    (if idx = 0 then none else some (w.objPal (bank + idx))) = paletteColor w 0x200 bank idx := by
  simp only [paletteColor, objPal_eq_pramColor]

/-- The same with the 256-colour palette, which has no banks. -/
theorem ite_objPal_eq_paletteColor_zero (idx : Nat) :
    (if idx = 0 then none else some (w.objPal idx)) = paletteColor w 0x200 0 idx := by
  rw [← ite_objPal_eq_paletteColor, Nat.zero_add]

/-- The modes 3, 4 and 5 are those with a bitmap (R331). -/
theorem bitmapMode_iff (d : Half) : (3 ≤ bgMode d ∧ bgMode d ≤ 5) ↔ d.toNat % 8 ∈ [3, 4, 5] := by
  have hmode : bgMode d = d.toNat % 8 := by
    simp only [bgMode, field_eq_div_mod, Nat.reducePow, Nat.div_one]
  rw [hmode]
  simp only [List.mem_cons, List.not_mem_nil, or_false]
  omega

theorem spritePixel_sprite_eq_texelColor (tx ty : Nat) : w.spritePixel (w.sprite i) tx ty = texelColor w i tx ty := by
  simp only [View.spritePixel, View.spriteTile, ← and_assoc, bitmapMode_iff, sprite_pal256_iff, sprite_tile,
    sprite_palbank, width_sprite, nibble_eq_halfOfByte, ite_objPal_eq_paletteColor, ite_objPal_eq_paletteColor_zero]
  rfl

/-! #### The colour at a column (R377) -/

/-- The box test on the column counted from the box's left edge, then the texel, then its colour. -/
theorem spriteColor_eq_bind (e : Sprite) :
    w.spriteColor e x =
      if (x : Int) - e.x < 0 ∨ (x : Int) - e.x ≥ e.boxWidth then none
      else
        (w.spriteTexel e ((x : Int) - e.x).toNat (e.row w.scanline)).bind fun t => w.spritePixel e t.1 t.2 := by
  refine ite_congr (propext (by omega)) (fun _ => rfl) fun _ => ?_
  cases w.spriteTexel e ((x : Int) - e.x).toNat (e.row w.scanline) <;> rfl

/-- The texel is the affine transform's, which may fall outside the sprite, or the flipped one, which never does. -/
theorem spriteColor_sprite_eq_entryColor : w.spriteColor (w.sprite i) x = entryColor w i x := by
  rw [spriteColor_eq_bind, View.spriteTexel]
  simp only [spritePixel_sprite_eq_texelColor, sprite_mosaic_iff, sprite_hflip_iff, sprite_vflip_iff, sprite_affine,
    decide_eq_true_eq, sprite_group, affineGroup_eq_signed, snap_column, snap_row, sprite_x, Sprite.boxWidth,
    Sprite.boxHeight, boxScale_sprite, width_sprite, height_sprite, row_sprite w i _ rfl]
  refine ite_congr rfl (fun _ => rfl) fun _ => ?_
  by_cases haffine : attr w i 0 / 0x100 % 2 = 1
  · rw [if_pos haffine, apply_ite (Option.bind · _)]
    exact (if_pos haffine).symm
  · rw [if_neg haffine]
    exact (if_neg haffine).symm

/-- Settles O50: an entry's fields, and the reads they lead to, are the numbers of the rules. -/
theorem spritePixels : Obligations.SpritePixels := by
  unfold Obligations.SpritePixels
  refine ⟨fun w hoff => ?_, fun w hen => sprites_eq_map_filter w hen,
    fun w i x _ => spriteColor_sprite_eq_entryColor w i x⟩
  exact if_neg (ne_true_of_eq_false hoff)

end Sys2Proof.Proofs

/-! ### Sprite against sprite (R377) -/

namespace Sys2Proof.Proofs

open Sys2Proof.Machine

/-- What one entry of the list does to the buffer element at column `x`. -/
def drawSprite (w : View) (x : Nat) (o : ObjPixel) (e : Sprite) : ObjPixel := (w.spriteColor e x).elim o (o.put e)

theorem objPixel_eq_foldl_drawSprite (w : View) (sprites : List Sprite) (x : Nat) :
    w.objPixel sprites x = sprites.foldl (drawSprite w x) ObjPixel.empty := by
  refine List.foldl_ext _ _ _ fun o e _ => ?_
  rw [drawSprite]
  cases w.spriteColor e x <;> rfl

/-- An entry that is opaque at column `x` and no window marker. -/
def DrawsAt (w : View) (x : Nat) (e : Sprite) : Prop := e.mode ≠ 2 ∧ w.spriteColor e x ≠ none

/-- The element is transparent or ranks strictly below priority `p`: what an entry of priority `p` replaces. -/
def Yields (p : Nat) (o : ObjPixel) : Prop := o.color = none ∨ p < o.prio

/-- The element holds an opaque pixel with this colour, priority and alpha flag. -/
def HoldsPixel (col : Color) (p : Nat) (alpha : Bool) (o : ObjPixel) : Prop :=
  o.color = some col ∧ o.prio = p ∧ o.alpha = alpha

section

variable {w : View} {x : Nat} {o : ObjPixel} {e : Sprite}

theorem drawSprite_of_none (h : w.spriteColor e x = none) : drawSprite w x o e = o := by
  rw [drawSprite, h, Option.elim_none]

theorem drawSprite_of_marker {col : Color} (h : w.spriteColor e x = some col) (hm : e.mode = 2) :
    drawSprite w x o e = { o with window := true } := by
  rw [drawSprite, h, Option.elim_some, ObjPixel.put, if_pos hm]

theorem drawSprite_of_above {col : Color} (h : w.spriteColor e x = some col) (hm : e.mode ≠ 2)
    (ho : Yields e.prio o) :
    drawSprite w x o e = { o with color := some col, prio := e.prio, alpha := e.mode == 1 } := by
  rw [drawSprite, h, Option.elim_some, ObjPixel.put, if_neg hm]
  exact if_pos ho

theorem drawSprite_of_below (hm : e.mode ≠ 2) (ho : ¬Yields e.prio o) : drawSprite w x o e = o := by
  cases h : w.spriteColor e x with
  | none => exact drawSprite_of_none h
  | some col =>
    rw [drawSprite, h, Option.elim_some, ObjPixel.put, if_neg hm]
    exact if_neg ho

/-- What one entry can do: set the window flag, take the element, or leave it. -/
theorem drawSprite_cases (w : View) (x : Nat) (o : ObjPixel) (e : Sprite) :
    (e.mode = 2 ∧ w.spriteColor e x ≠ none ∧ drawSprite w x o e = { o with window := true })
      ∨ (∃ col, DrawsAt w x e ∧ Yields e.prio o
        ∧ drawSprite w x o e = { o with color := some col, prio := e.prio, alpha := e.mode == 1 })
      ∨ ((w.spriteColor e x = none ∨ DrawsAt w x e ∧ ¬Yields e.prio o) ∧ drawSprite w x o e = o) := by
  cases h : w.spriteColor e x with
  | none => exact .inr (.inr ⟨.inl rfl, drawSprite_of_none h⟩)
  | some col =>
    have hdraws (hm : e.mode ≠ 2) : DrawsAt w x e := ⟨hm, h ▸ Option.some_ne_none col⟩
    by_cases hm : e.mode = 2
    · exact .inl ⟨hm, Option.some_ne_none col, drawSprite_of_marker h hm⟩
    · by_cases ho : Yields e.prio o
      · exact .inr (.inl ⟨col, hdraws hm, ho, drawSprite_of_above h hm ho⟩)
      · exact .inr (.inr ⟨.inr ⟨hdraws hm, ho⟩, drawSprite_of_below hm ho⟩)

theorem drawSprite_window_iff :
    (drawSprite w x o e).window = true ↔ o.window = true ∨ (e.mode = 2 ∧ w.spriteColor e x ≠ none) := by
  rcases drawSprite_cases w x o e with ⟨hm, hc, heq⟩ | ⟨col, hdraws, -, heq⟩ | ⟨hno, heq⟩ <;> rw [heq]
  · simp [hm, hc]
  · simp [hdraws.1]
  · rcases hno with hc | ⟨hdraws, -⟩
    · simp [hc]
    · simp [hdraws.1]

theorem drawSprite_color_eq_none_iff :
    (drawSprite w x o e).color = none ↔ o.color = none ∧ ¬DrawsAt w x e := by
  rcases drawSprite_cases w x o e with ⟨hm, -, heq⟩ | ⟨col, hdraws, -, heq⟩ | ⟨hno, heq⟩ <;> rw [heq]
  · simp [DrawsAt, hm]
  · simp [hdraws]
  · rcases hno with hc | ⟨-, ho⟩
    · simp [DrawsAt, hc]
    · obtain ⟨hopaque, -⟩ := not_or.mp ho
      simp [hopaque]

theorem drawSprite_yields {p : Nat} (ho : Yields p o) (he : DrawsAt w x e → p < e.prio) :
    Yields p (drawSprite w x o e) := by
  rcases drawSprite_cases w x o e with ⟨-, -, heq⟩ | ⟨col, hdraws, -, heq⟩ | ⟨-, heq⟩ <;> rw [heq]
  · exact ho
  · exact .inr (he hdraws)
  · exact ho

theorem drawSprite_holdsPixel {col : Color} {p : Nat} {alpha : Bool} (ho : HoldsPixel col p alpha o)
    (he : DrawsAt w x e → p ≤ e.prio) : HoldsPixel col p alpha (drawSprite w x o e) := by
  rcases drawSprite_cases w x o e with ⟨-, -, heq⟩ | ⟨_, hdraws, habove, heq⟩ | ⟨-, heq⟩ <;> rw [heq]
  · exact ho
  · obtain ⟨hcol, rfl, -⟩ := ho
    rcases habove with hnone | hlt
    · rw [hcol] at hnone
      cases hnone
    · exact absurd hlt (Nat.not_lt.mpr (he hdraws))
  · exact ho

end

theorem foldl_drawSprite_window_iff (w : View) (x : Nat) (sprites : List Sprite) (o : ObjPixel) :
    (sprites.foldl (drawSprite w x) o).window = true ↔
      o.window = true ∨ ∃ d ∈ sprites, d.mode = 2 ∧ w.spriteColor d x ≠ none := by
  induction sprites generalizing o with
  | nil => simp
  | cons e rest ih => simp only [List.foldl_cons, ih, drawSprite_window_iff, or_assoc, List.exists_mem_cons_iff]

theorem foldl_drawSprite_color_eq_none_iff (w : View) (x : Nat) (sprites : List Sprite) (o : ObjPixel) :
    (sprites.foldl (drawSprite w x) o).color = none ↔ o.color = none ∧ ∀ d ∈ sprites, ¬DrawsAt w x d := by
  induction sprites generalizing o with
  | nil => simp
  | cons e rest ih => rw [List.foldl_cons, ih, drawSprite_color_eq_none_iff, and_assoc, List.forall_mem_cons]

/-- Settles O52: the entries before the winner leave an element that yields to it, those after it leave what it drew. -/
theorem spriteOrder : Obligations.SpriteOrder := by
  unfold Obligations.SpriteOrder
  refine ⟨fun w before after e x col hm hcol hbefore hafter => ?_, fun w sprites x => ⟨?_, ?_⟩⟩
  · have hyields : Yields e.prio (before.foldl (drawSprite w x) ObjPixel.empty) :=
      List.foldlRecOn before _ (.inl rfl) fun _ ho d hd =>
        drawSprite_yields ho fun ⟨hmd, hopaque⟩ => hbefore d hd hmd hopaque
    rw [objPixel_eq_foldl_drawSprite, List.foldl_append, List.foldl_cons, drawSprite_of_above hcol hm hyields]
    exact List.foldlRecOn (motive := HoldsPixel col e.prio (e.mode == 1)) after _ ⟨rfl, rfl, rfl⟩ fun _ ho d hd =>
      drawSprite_holdsPixel ho fun ⟨hmd, hopaque⟩ => hafter d hd hmd hopaque
  · rw [objPixel_eq_foldl_drawSprite, foldl_drawSprite_window_iff]
    simp [ObjPixel.empty]
  · rw [objPixel_eq_foldl_drawSprite, foldl_drawSprite_color_eq_none_iff]
    simp [ObjPixel.empty, DrawsAt]

end Sys2Proof.Proofs

/-! ### The window mask (R381, R382) -/

namespace Sys2Proof.Proofs

open Sys2Proof.Machine Sys2Proof.Spec

/-- The range of R381 on the two bytes of an edge register. -/
theorem inRange_edges_iff (v : Nat) (edges : Half) :
    inRange v (field edges 8 8) (field edges 0 8) = true ↔ insideRange v edges := by
  have hhigh : field edges 8 8 = edges.toNat / 256 := by
    have := edges.isLt
    rw [field_eq_div_mod]
    omega
  have hlow : field edges 0 8 = edges.toNat % 256 := by
    simp only [field_eq_div_mod, Nat.reducePow, Nat.div_one]
  rw [hhigh, hlow, inRange, insideRange]
  split <;> exact decide_eq_true_iff

theorem insideWindow_iff (w : View) (i : Fin 2) (x y : Nat) :
    w.insideWindow i x y = true ↔ insideRange x w.regs.winh[i] ∧ insideRange y w.regs.winv[i] := by
  rw [View.insideWindow, Bool.and_eq_true, inRange_edges_iff, inRange_edges_iff]

/-- DISPCNT bits 15:13 are the three window enables (R140). -/
theorem windowEnables_eq_zero_iff (d : Half) :
    d.extractLsb' 13 3 = 0 ↔ (dispWin0En d || dispWin1En d || dispObjwinEn d) = false := by
  have h0 : dispWin0En d = (d.extractLsb' 13 3).getLsbD 0 := by simp [dispWin0En]
  have h1 : dispWin1En d = (d.extractLsb' 13 3).getLsbD 1 := by simp [dispWin1En]
  have hObj : dispObjwinEn d = (d.extractLsb' 13 3).getLsbD 2 := by simp [dispObjwinEn]
  rw [h0, h1, hObj]
  generalize d.extractLsb' 13 3 = enables
  revert enables
  decide

/-- With a window enabled, the tests of R382 in their order. -/
theorem winMask_eq_of_enabled {w : View} (hen : w.regs.dispcnt.extractLsb' 13 3 ≠ 0) (o : ObjPixel) (x : Nat) :
    w.winMask o x =
      if dispWin0En w.regs.dispcnt && w.insideWindow 0 x w.scanline then w.regs.winin.extractLsb' 0 6
      else if dispWin1En w.regs.dispcnt && w.insideWindow 1 x w.scanline then w.regs.winin.extractLsb' 8 6
      else if dispObjwinEn w.regs.dispcnt && o.window then w.regs.winout.extractLsb' 8 6
      else w.regs.winout.extractLsb' 0 6 := by
  refine if_neg fun hnone => hen ?_
  rwa [windowEnables_eq_zero_iff, ← Bool.not_eq_true']

/-- Settles O53: the three tests of the mask are the three conditions, tried in the order stated. -/
theorem windowMasks : Obligations.WindowMasks := by
  unfold Obligations.WindowMasks
  intro w o x on0 on1 onObj h0 h1 hObj
  have hwin0 : (dispWin0En w.regs.dispcnt && w.insideWindow 0 x w.scanline) = true ↔ on0 := by
    rw [h0, Bool.and_eq_true, insideWindow_iff]
    rfl
  have hwin1 : (dispWin1En w.regs.dispcnt && w.insideWindow 1 x w.scanline) = true ↔ on1 := by
    rw [h1, Bool.and_eq_true, insideWindow_iff]
    rfl
  have hobjwin : (dispObjwinEn w.regs.dispcnt && o.window) = true ↔ onObj := by
    rw [hObj, Bool.and_eq_true]
    rfl
  refine ⟨fun hoff => ?_, fun hen => ?_⟩
  · rw [windowEnables_eq_zero_iff] at hoff
    exact if_pos (by rw [hoff, Bool.not_false])
  · rw [winMask_eq_of_enabled hen]
    refine ⟨fun hon0 => if_pos (hwin0.mpr hon0), fun hno0 hon1 => ?_, fun hno0 hno1 honObj => ?_,
      fun hno0 hno1 hnoObj => ?_⟩
    · rw [if_neg (mt hwin0.mp hno0), if_pos (hwin1.mpr hon1)]
    · rw [if_neg (mt hwin0.mp hno0), if_neg (mt hwin1.mp hno1), if_pos (hobjwin.mpr honObj)]
    · rw [if_neg (mt hwin0.mp hno0), if_neg (mt hwin1.mp hno1), if_neg (mt hobjwin.mp hnoObj)]

end Sys2Proof.Proofs

/-! ### Priority of the layers (R411, R412, R415, R416) -/

namespace Sys2Proof.Proofs

open Sys2Proof.Machine Sys2Proof.Spec

/-! #### The order of R412 -/

theorem rank_eq_rankOf (l : Layer) : l.rank = rankOf l := by cases l <;> rfl

theorem above_iff_keyBefore (c d : Candidate) : c.above d = true ↔ keyBefore c d := by
  rw [Candidate.above, decide_eq_true_iff, rank_eq_rankOf, rank_eq_rankOf]
  rfl

theorem keyBefore_irrefl (c : Candidate) : ¬keyBefore c c := by
  unfold keyBefore
  omega

theorem keyBefore_trans {a b c : Candidate} (hab : keyBefore a b) (hbc : keyBefore b c) : keyBefore a c := by
  unfold keyBefore at *
  omega

theorem rankOf_injective : Function.Injective rankOf := by
  intro l l' h
  cases l <;> cases l'
  case bg.bg b b' => exact congrArg Layer.bg (Fin.ext (Nat.add_left_cancel h))
  case obj.obj | bd.bd => rfl
  all_goals
    simp only [rankOf] at h
    omega

/-- Two candidates of different layers never tie, as R412 says of its ranks. -/
theorem keyBefore_of_not_keyBefore {c d : Candidate} (hlayer : c.layer ≠ d.layer) (h : ¬keyBefore c d) :
    keyBefore d c := by
  have hrank : rankOf c.layer ≠ rankOf d.layer := rankOf_injective.ne hlayer
  unfold keyBefore at *
  omega

/-! #### The model's ordered list -/

theorem insertCandidate_eq_orderedInsert (c : Candidate) (l : List Candidate) :
    insertCandidate c l = l.orderedInsert (fun a b => a.above b = true) c := by
  induction l with
  | nil => rfl
  | cons d rest ih => rw [insertCandidate, List.orderedInsert, ih]

theorem insertCandidate_perm (c : Candidate) (l : List Candidate) : (insertCandidate c l).Perm (c :: l) :=
  insertCandidate_eq_orderedInsert c l ▸ List.perm_orderedInsert _ c l

theorem insertCandidate_sorted {c : Candidate} {l : List Candidate} (hc : ∀ d ∈ l, c.layer ≠ d.layer)
    (hl : l.Pairwise keyBefore) : (insertCandidate c l).Pairwise keyBefore := by
  induction l with
  | nil => exact List.pairwise_singleton _ _
  | cons d rest ih =>
    obtain ⟨hd, hrest⟩ := List.pairwise_cons.mp hl
    obtain ⟨hcd, hcrest⟩ := List.forall_mem_cons.mp hc
    by_cases h : keyBefore c d
    · rw [insertCandidate, if_pos ((above_iff_keyBefore c d).mpr h)]
      exact List.pairwise_cons.mpr ⟨List.forall_mem_cons.mpr ⟨h, fun e he => keyBefore_trans h (hd e he)⟩, hl⟩
    · rw [insertCandidate, if_neg (mt (above_iff_keyBefore c d).mp h)]
      refine List.pairwise_cons.mpr ⟨fun e he => ?_, ih hcrest hrest⟩
      rcases List.mem_cons.mp ((insertCandidate_perm c rest).mem_iff.mp he) with rfl | he
      · exact keyBefore_of_not_keyBefore hcd h
      · exact hd e he

theorem foldr_insertCandidate_perm (l : List Candidate) : (l.foldr insertCandidate []).Perm l := by
  induction l with
  | nil => rfl
  | cons c rest ih => exact (insertCandidate_perm c _).trans (ih.cons c)

theorem foldr_insertCandidate_sorted {l : List Candidate} (hl : l.Pairwise fun c d => c.layer ≠ d.layer) :
    (l.foldr insertCandidate []).Pairwise keyBefore := by
  induction l with
  | nil => exact List.Pairwise.nil
  | cons c rest ih =>
    obtain ⟨hc, hrest⟩ := List.pairwise_cons.mp hl
    exact insertCandidate_sorted (fun d hd => hc d ((foldr_insertCandidate_perm rest).mem_iff.mp hd)) (ih hrest)

/-! #### The candidates of a column (R411) -/

section
variable {w : View} {mask : BitVec 6} {o : ObjPixel} {x : Nat} {c : Candidate}

/-- A layer allowed by the mask is a candidate where its pixel is not transparent. -/
theorem layerCandidate_eq_some_iff {p : Prop} [Decidable p] {layer : Layer} {pixel : Option Color} {prio : Nat} :
    (if p then pixel.map fun color => (⟨layer, color, prio⟩ : Candidate) else none) = some c ↔
      p ∧ pixel = some c.color ∧ c.layer = layer ∧ c.prio = prio := by
  obtain ⟨cLayer, cColor, cPrio⟩ := c
  by_cases hp : p
  · cases pixel <;> simp [hp, eq_comm, and_left_comm]
  · simp [hp]

theorem bgCandidate_eq_some_iff {b : Fin 4} :
    w.bgCandidate mask b x = some c ↔
      mask.getLsbD b.val = true ∧ w.bgPixel b x = some c.color ∧ c.layer = .bg b
        ∧ c.prio = w.regs.bgcnt[b].toNat % 4 := by
  rw [View.bgCandidate, layerCandidate_eq_some_iff, cntPrio, field_eq_div_mod, pow_zero, Nat.div_one]
  rfl

theorem objCandidate_eq_some_iff :
    objCandidate mask o = some c ↔
      mask.getLsbD 4 = true ∧ o.color = some c.color ∧ c.layer = .obj ∧ c.prio = o.prio :=
  layerCandidate_eq_some_iff

theorem candidates_eq_foldr (w : View) (mask : BitVec 6) (o : ObjPixel) (x : Nat) :
    w.candidates mask o x =
      ((objCandidate mask o :: (List.finRange 4).map fun b => w.bgCandidate mask b x).filterMap id).foldr
        insertCandidate [] := rfl

theorem mem_candidates_iff : c ∈ w.candidates mask o x ↔ CandidateAt w mask o x c := by
  rw [candidates_eq_foldr, (foldr_insertCandidate_perm _).mem_iff, List.mem_filterMap]
  simp only [List.mem_cons, List.mem_map, List.mem_finRange, true_and, id, or_and_right, exists_or, exists_eq_left,
    exists_exists_eq_and, bgCandidate_eq_some_iff, objCandidate_eq_some_iff, CandidateAt, or_comm]

/-- Each layer gives one candidate at most, so the keys are distinct and the list strictly ordered. -/
theorem candidates_sorted (w : View) (mask : BitVec 6) (o : ObjPixel) (x : Nat) :
    (w.candidates mask o x).Pairwise keyBefore := by
  rw [candidates_eq_foldr]
  refine foldr_insertCandidate_sorted (List.pairwise_filterMap.mpr (List.pairwise_cons.mpr ⟨?_, ?_⟩))
  · intro slot hslot c hc d hd
    obtain ⟨b, -, rfl⟩ := List.mem_map.mp hslot
    obtain ⟨-, -, hobj, -⟩ := objCandidate_eq_some_iff.mp hc
    obtain ⟨-, -, hbg, -⟩ := bgCandidate_eq_some_iff.mp hd
    rw [hobj, hbg]
    nofun
  · refine List.pairwise_map.mpr ((List.nodup_finRange 4).imp ?_)
    intro b b' hne c hc d hd hlayer
    obtain ⟨-, -, hbg, -⟩ := bgCandidate_eq_some_iff.mp hc
    obtain ⟨-, -, hbg', -⟩ := bgCandidate_eq_some_iff.mp hd
    exact hne (Layer.bg.inj (hbg.symm.trans (hlayer.trans hbg')))

end

/-! #### The first two of an ordered list (R416) -/

/-- In a strictly ordered list a least element stands first. -/
theorem eq_cons_of_least {l : List Candidate} {c : Candidate} (hl : l.Pairwise keyBefore) (hc : c ∈ l)
    (hleast : ∀ d ∈ l, d = c ∨ keyBefore c d) : ∃ rest, l = c :: rest ∧ ∀ d ∈ rest, keyBefore c d := by
  obtain _ | ⟨a, rest⟩ := l
  · cases hc
  · obtain ⟨ha, -⟩ := List.pairwise_cons.mp hl
    rcases List.mem_cons.mp hc with rfl | hc
    · exact ⟨rest, rfl, ha⟩
    · rcases hleast a List.mem_cons_self with rfl | hca
      · exact absurd (ha a hc) (keyBefore_irrefl a)
      · exact absurd (keyBefore_trans hca (ha c hc)) (keyBefore_irrefl c)

theorem topTwo_cons_fst (bd c : Candidate) (rest : List Candidate) : (topTwo bd (c :: rest)).1 = c := by
  cases rest <;> rfl

/-- Settles O54: the model's list of candidates holds those of R411 in the strict order of R412, so a least candidate
stands first in it, and the least of the others second. -/
theorem layerOrder : Obligations.LayerOrder := by
  unfold Obligations.LayerOrder
  intro w mask o x
  simp only [← mem_candidates_iff]
  have hsorted := candidates_sorted w mask o x
  generalize w.candidates mask o x = l at hsorted
  refine ⟨fun hnone => ?_, fun c hc hleast => ?_⟩
  · rw [List.eq_nil_iff_forall_not_mem.mpr hnone]
    rfl
  · obtain ⟨rest, rfl, hrest⟩ := eq_cons_of_least hsorted hc hleast
    refine ⟨topTwo_cons_fst _ _ _, fun honly => ?_, fun d hd hdc hsecond => ?_⟩
    · have hnil : rest = [] := List.eq_nil_iff_forall_not_mem.mpr fun d hd =>
        keyBefore_irrefl c (honly d (List.mem_cons_of_mem c hd) ▸ hrest d hd)
      rw [hnil]
      rfl
    · have hdrest : d ∈ rest := (List.mem_cons.mp hd).resolve_left hdc
      have hleast' : ∀ e ∈ rest, e = d ∨ keyBefore d e := fun e he =>
        (hsecond e (List.mem_cons_of_mem c he)).resolve_left fun hec => keyBefore_irrefl c (hec ▸ hrest e he)
      obtain ⟨_, rfl, -⟩ := eq_cons_of_least hsorted.of_cons hdrest hleast'
      rfl

end Sys2Proof.Proofs

/-! ### The blend of the top two layers (R417) -/

namespace Sys2Proof.Proofs

open Sys2Proof.Machine Sys2Proof.Spec

/-! #### Channels (R160) -/

theorem channel_eq_shade (c : Color) (i : Nat) : channel c i = shade c i := by
  rw [channel, field_eq_div_mod, pow_mul]
  rfl

theorem shade_lt (c : Color) (i : Nat) : shade c i < 32 := Nat.mod_lt _ (by decide)

/-- A colour made of three channels has them, when each fits its five bits. -/
theorem shade_mapChannels {f : Nat → Nat} (hf : ∀ j, f j < 32) {i : Nat} (hi : i < 3) : shade (mapChannels f) i = f i := by
  have h0 := hf 0
  have h1 := hf 1
  have h2 := hf 2
  rw [shade, mapChannels, mkColor, BitVec.toNat_ofNat]
  interval_cases i <;> omega

theorem shade_alphaBlend (eva evb : Nat) (a b : Color) {i : Nat} (hi : i < 3) :
    shade (alphaBlend eva evb a b) i = min 31 ((shade a i * eva + shade b i * evb) / 16) := by
  rw [alphaBlend, shade_mapChannels (fun j => by omega) hi, channel_eq_shade, channel_eq_shade]

/-- With a coefficient of 16 at most, brightening adds at most the distance to 31. -/
theorem shade_brighten {evy : Nat} (hevy : evy ≤ 16) (a : Color) {i : Nat} (hi : i < 3) :
    shade (brighten evy a) i = shade a i + (31 - shade a i) * evy / 16 := by
  rw [brighten, shade_mapChannels (fun j => ?_) hi, channel_eq_shade]
  have hlt := shade_lt a j
  have hadd : (31 - shade a j) * evy / 16 ≤ 31 - shade a j :=
    Nat.div_le_of_le_mul (by rw [Nat.mul_comm]; exact Nat.mul_le_mul_right _ hevy)
  rw [channel_eq_shade]
  omega

theorem shade_darken (evy : Nat) (a : Color) {i : Nat} (hi : i < 3) :
    shade (darken evy a) i = shade a i - shade a i * evy / 16 := by
  rw [darken, shade_mapChannels (fun j => ?_) hi, channel_eq_shade]
  have hlt := shade_lt a j
  rw [channel_eq_shade]
  omega

/-! #### The tests of R417, in their order -/

theorem secondBlends_iff {bldcnt : Half} {second : Option Candidate} :
    secondBlends bldcnt second = true ↔ ∃ b, second = some b ∧ bldcnt.getLsbD (8 + b.layer.number) = true := by
  cases second <;> simp [secondBlends, secondTarget]

section
variable {p : PpuRegs} {mask : BitVec 6} {alpha : Bool} {top : Candidate}

theorem blend_of_masked {second : Option Candidate} (hmask : mask.getLsbD 5 = false) :
    blend p mask alpha top second = top.color :=
  if_pos (by rw [hmask, Bool.not_false])

/-- Both ways to the alpha formula: a semi-transparent sprite, and the alpha effect of a first target. -/
theorem blend_of_alpha {b : Candidate} (hmask : mask.getLsbD 5 = true) (hb : secondBlends p.bldcnt (some b) = true)
    (hfirst : (top.layer = .obj ∧ alpha = true) ∨ (field p.bldcnt 6 2 = 1 ∧ firstTarget p.bldcnt top.layer = true)) :
    blend p mask alpha top (some b) =
      alphaBlend (coeff (field p.bldalpha 0 5)) (coeff (field p.bldalpha 8 5)) top.color b.color := by
  refine (if_neg (by rw [hmask]; decide)).trans ?_
  rcases hfirst with ⟨hobj, halpha⟩ | ⟨heffect, htarget⟩
  · exact if_pos ⟨hobj, halpha, hb⟩
  · exact ite_eq_left_iff.mpr fun _ => if_pos ⟨heffect, htarget, hb⟩

/-- With neither way to the alpha formula open, the brightness effects of a first target are left. -/
theorem blend_of_not_alpha {second : Option Candidate} (hmask : mask.getLsbD 5 = true)
    (hsemi : ¬(top.layer = .obj ∧ alpha = true ∧ secondBlends p.bldcnt second = true))
    (heffect : ¬(field p.bldcnt 6 2 = 1 ∧ firstTarget p.bldcnt top.layer = true ∧ secondBlends p.bldcnt second = true)) :
    blend p mask alpha top second =
      if field p.bldcnt 6 2 = 2 ∧ firstTarget p.bldcnt top.layer = true then
        brighten (coeff (field p.bldy 0 5)) top.color
      else if field p.bldcnt 6 2 = 3 ∧ firstTarget p.bldcnt top.layer = true then
        darken (coeff (field p.bldy 0 5)) top.color
      else top.color :=
  (if_neg (by rw [hmask]; decide)).trans ((if_neg hsemi).trans (if_neg heffect))

end

/-- Settles O55: the clauses are the tests of R417, the blended colours read channel by channel. -/
theorem blendArithmetic : Obligations.BlendArithmetic := by
  unfold Obligations.BlendArithmetic
  intro p mask alpha top second eva evb evy eff heva hevb hevy heff
  have hcoeffA : coeff (field p.bldalpha 0 5) = eva := by
    simp only [heva, coeff, field_eq_div_mod, pow_zero, Nat.div_one, Nat.reducePow]
  have hcoeffB : coeff (field p.bldalpha 8 5) = evb := by
    simp only [hevb, coeff, field_eq_div_mod, Nat.reducePow]
  have hcoeffY : coeff (field p.bldy 0 5) = evy := by
    simp only [hevy, coeff, field_eq_div_mod, pow_zero, Nat.div_one, Nat.reducePow]
  have heffect : field p.bldcnt 6 2 = eff := (field_eq_div_mod p.bldcnt 6 2).trans heff.symm
  have hevy16 : evy ≤ 16 := hevy ▸ Nat.min_le_left ..
  refine ⟨blend_of_masked, ?_, ?_⟩
  · rintro hmask b rfl hb hfirst i hi
    rw [blend_of_alpha hmask hb (heffect.symm ▸ hfirst), hcoeffA, hcoeffB, shade_alphaBlend _ _ _ _ hi]
  · intro hmask hsemi
    rw [← secondBlends_iff] at hsemi ⊢
    have hnot := blend_of_not_alpha hmask hsemi
    rw [heffect, hcoeffY] at hnot
    refine ⟨fun h2 hfirst i hi => ?_, fun h3 hfirst i hi => ?_, fun hnone => ?_⟩
    · rw [hnot (by omega), if_pos ⟨h2, hfirst⟩, shade_brighten hevy16 _ hi]
    · rw [hnot (by omega), if_neg (by omega), if_pos ⟨h3, hfirst⟩, shade_darken _ _ hi]
    · have hplain : ∀ n, n ≠ 0 → n ≠ 1 → ¬(eff = n ∧ firstTarget p.bldcnt top.layer = true) := by
        rintro n h0 h1 ⟨rfl, hfirst⟩
        rcases hnone with h | h | ⟨h, -⟩
        · exact h0 h
        · exact Bool.eq_false_iff.mp h hfirst
        · exact h1 h
      rw [hnot ?_, if_neg (hplain 2 (by decide) (by decide)), if_neg (hplain 3 (by decide) (by decide))]
      rintro ⟨h1, hfirst, hb⟩
      rcases hnone with h | h | ⟨-, h⟩
      · omega
      · exact Bool.eq_false_iff.mp h hfirst
      · exact h hb

end Sys2Proof.Proofs

/-! ### The rendered row (R341, R420, R422) -/

namespace Sys2Proof.Proofs

open Sys2Proof.Machine Sys2Proof.Spec

/-! #### The operation -/

/-- R341: each running reference point moves by the signed parameter of its set. -/
theorem advanceRefs_refs (s : State) (k : Fin 2) :
    (advanceRefs s).regs.refX[k] = s.regs.refX[k] + s.regs.bgpb[k].toInt
      ∧ (advanceRefs s).regs.refY[k] = s.regs.refY[k] + s.regs.bgpd[k].toInt := by
  simp only [advanceRefs, advanceRef, State.mapRegs_regs]
  fin_cases k <;> simp

theorem exec_ppuRender (s : State) :
    exec .ppuRender s =
      .next
        { s with
          fb := s.fb.set s.timing.scanline s.view.row
          regs := { s.regs with refX := (advanceRefs s).regs.refX, refY := (advanceRefs s).regs.refY }
          result := .none } := rfl

/-! #### The row's columns (R420) -/

theorem row_of_blank {w : View} (h : w.regs.dispcnt.getLsbD 7 = true) :
    w.row = List.replicate 240 (colorOut w.cfg w.cfg.blankColor) := if_pos h

theorem row_of_not_blank {w : View} (h : w.regs.dispcnt.getLsbD 7 = false) :
    w.row = (List.range 240).map fun x => colorOut w.cfg (w.columnColor w.sprites x) :=
  if_neg (by rw [dispForcedBlank, h]; decide)

theorem columnColor_eq_blend {w : View} {sprites : List Sprite} {x : Nat} {o : ObjPixel} {mask : BitVec 6}
    {top : Candidate} {second : Option Candidate} (ho : o = w.objPixel sprites x) (hmask : mask = w.winMask o x)
    (htop : (top, second) = topTwo w.backdrop (w.candidates mask o x)) :
    w.columnColor sprites x = blend w.regs mask o.alpha top second := by
  subst ho hmask
  simp only [View.columnColor, ← htop]

/-- Settles O48: the row is the snapshot's, its columns the blends of `columnColor`. -/
theorem renderRow : Obligations.RenderRow := by
  unfold Obligations.RenderRow
  intro s
  refine ⟨s.view.row, _, _, View.length_row _, exec_ppuRender s, advanceRefs_refs s, fun hblank x hx => ?_, ?_⟩
  · rw [row_of_blank (w := s.view) hblank, List.getElem?_replicate, if_pos hx]
    rfl
  · rintro hblank x w o mask top second hx rfl ho hmask htop
    rw [← columnColor_eq_blend ho hmask htop, row_of_not_blank (w := s.view) hblank, List.getElem?_map,
      List.getElem?_range hx]
    rfl

/-! #### No layer enabled (R422) -/

theorem getLsbD_eq_false_of_extractLsb'_eq_zero {n lo len : Nat} {v : BitVec n} (h : v.extractLsb' lo len = 0) {i : Nat}
    (hi : i < len) : v.getLsbD (lo + i) = false := by
  have hbit : (v.extractLsb' lo len).getLsbD i = false := by rw [h]; exact BitVec.getLsbD_zero
  rwa [BitVec.getLsbD_extractLsb', decide_eq_true hi, Bool.true_and] at hbit

/-- R343, R422: the backdrop's colour is bits 14:0 of the half-word at offset 0 of PRAM. -/
theorem backdrop_color (w : View) : w.backdrop.color = (w.mem.readHalf 0x05000000#32).extractLsb' 0 15 := by
  have hhalf : w.mem.readHalf 0x05000000#32 = w.pram16 0 := rfl
  rw [hhalf, ← BitVec.setWidth_eq_extractLsb' (by decide)]
  rfl

section
variable {w : View} (hoff : w.regs.dispcnt.extractLsb' 8 5 = 0)
include hoff

/-- With the five layer enables clear no background is opaque and the sprite buffer stays empty: no candidate. -/
theorem not_candidateAt_of_layers_off (mask : BitVec 6) (x : Nat) (c : Candidate) :
    ¬CandidateAt w mask (w.objPixel w.sprites x) x c := by
  rintro (⟨b, -, hpixel, -, -⟩ | ⟨-, hcolor, -, -⟩)
  · have hbg := getLsbD_eq_false_of_extractLsb'_eq_zero hoff (i := b.val) (by omega)
    rw [(backgroundPixels w b x).1 (.inl hbg)] at hpixel
    cases hpixel
  · have hsprites : w.sprites = [] := spritePixels.1 w (getLsbD_eq_false_of_extractLsb'_eq_zero hoff (i := 4) (by decide))
    rw [hsprites] at hcolor
    cases hcolor

end

/-- R417: the backdrop alone, neither brightened nor darkened, keeps its colour. -/
theorem blend_backdrop {p : PpuRegs} (h : p.bldcnt.getLsbD 7 = false ∨ p.bldcnt.getLsbD 5 = false) (mask : BitVec 6)
    (alpha : Bool) {top : Candidate} (htop : top.layer = .bd) : blend p mask alpha top none = top.color := by
  obtain ⟨hmasked, -, hallowed⟩ := blendArithmetic p mask alpha top none _ _ _ _ rfl rfl rfl rfl
  cases hmask : mask.getLsbD 5 with
  | false => exact hmasked hmask
  | true =>
    obtain ⟨-, -, hplain⟩ := hallowed hmask (by rw [htop]; nofun)
    refine hplain ?_
    rcases h with h | h
    · rw [getLsbD_eq_decide, decide_eq_false_iff_not] at h
      obtain heff | heff : p.bldcnt.toNat / 64 % 4 = 0 ∨ p.bldcnt.toNat / 64 % 4 = 1 := by omega
      · exact .inl heff
      · exact .inr (.inr ⟨heff, by nofun⟩)
    · exact .inr (.inl (htop ▸ h))

/-- R422: without a candidate the backdrop is the top layer at every column. -/
theorem row_of_layers_off {w : View} (hblank : w.regs.dispcnt.getLsbD 7 = false)
    (hoff : w.regs.dispcnt.extractLsb' 8 5 = 0)
    (heffect : w.regs.bldcnt.getLsbD 7 = false ∨ w.regs.bldcnt.getLsbD 5 = false) :
    w.row = List.replicate 240 (colorOut w.cfg w.backdrop.color) := by
  have hcolumn : ∀ x, w.columnColor w.sprites x = w.backdrop.color := by
    intro x
    obtain ⟨o, ho⟩ : ∃ o, o = w.objPixel w.sprites x := ⟨_, rfl⟩
    have htop : topTwo w.backdrop (w.candidates (w.winMask o x) o x) = (w.backdrop, none) :=
      (layerOrder w _ o x).1 (ho ▸ not_candidateAt_of_layers_off hoff _ x)
    calc w.columnColor w.sprites x
      _ = blend w.regs (w.winMask o x) o.alpha w.backdrop none := columnColor_eq_blend ho rfl htop.symm
      _ = w.backdrop.color := blend_backdrop heffect _ _ rfl
  rw [row_of_not_blank hblank]
  simp only [hcolumn, List.map_const', List.length_range]

/-- Settles O51: the row of a snapshot without layers, put in its place in the framebuffer. -/
theorem backdropFill : Obligations.BackdropFill := by
  unfold Obligations.BackdropFill
  intro s hblank hoff heffect hline
  refine ⟨_, exec_ppuRender s, ?_⟩
  calc (s.fb.set s.timing.scanline s.view.row)[s.timing.scanline]?
    _ = some s.view.row := List.getElem?_set_self hline
    _ = some (List.replicate 240 (colorOut s.cfg s.view.backdrop.color)) :=
      congrArg some (row_of_layers_off (w := s.view) hblank hoff heffect)
    _ = some (List.replicate 240 (colorOut s.cfg ((s.env.mem.readHalf 0x05000000#32).extractLsb' 0 15))) := by
      rw [backdrop_color]
      rfl

end Sys2Proof.Proofs

/-! ### Register rows and their reads (R440, R442) -/

namespace Sys2Proof.Proofs

open Sys2Proof.Machine Sys2Proof.Spec

/-! #### The rows by index -/

section
variable (a : Access)

/-! Each row by index is the row of its register. -/

theorem bgcntRow_eq (b : Fin 4) : bgcntRow b a = (Reg.bgcnt b).instr a := by match b with | 0 | 1 | 2 | 3 => rfl
theorem bghofsRow_eq (b : Fin 4) : bghofsRow b a = (Reg.bghofs b).instr a := by match b with | 0 | 1 | 2 | 3 => rfl
theorem bgvofsRow_eq (b : Fin 4) : bgvofsRow b a = (Reg.bgvofs b).instr a := by match b with | 0 | 1 | 2 | 3 => rfl
theorem bgpaRow_eq (k : Fin 2) : bgpaRow k a = (Reg.bgpa k).instr a := by match k with | 0 | 1 => rfl
theorem bgpbRow_eq (k : Fin 2) : bgpbRow k a = (Reg.bgpb k).instr a := by match k with | 0 | 1 => rfl
theorem bgpcRow_eq (k : Fin 2) : bgpcRow k a = (Reg.bgpc k).instr a := by match k with | 0 | 1 => rfl
theorem bgpdRow_eq (k : Fin 2) : bgpdRow k a = (Reg.bgpd k).instr a := by match k with | 0 | 1 => rfl
theorem bgxRow_eq (k : Fin 2) : bgxRow k a = (Reg.bgx k).instr a := by match k with | 0 | 1 => rfl
theorem bgyRow_eq (k : Fin 2) : bgyRow k a = (Reg.bgy k).instr a := by match k with | 0 | 1 => rfl
theorem winhRow_eq (w : Fin 2) : winhRow w a = (Reg.winh w).instr a := by match w with | 0 | 1 => rfl
theorem winvRow_eq (w : Fin 2) : winvRow w a = (Reg.winv w).instr a := by match w with | 0 | 1 => rfl
theorem sadRow_eq (c : Chan) : sadRow c a = (Reg.dmaSad c).instr a := by match c with | 0 | 1 | 2 | 3 => rfl
theorem dadRow_eq (c : Chan) : dadRow c a = (Reg.dmaDad c).instr a := by match c with | 0 | 1 | 2 | 3 => rfl
theorem cntLRow_eq (c : Chan) : cntLRow c a = (Reg.dmaCntL c).instr a := by match c with | 0 | 1 | 2 | 3 => rfl
theorem cntHRow_eq (c : Chan) : cntHRow c a = (Reg.dmaCntH c).instr a := by match c with | 0 | 1 | 2 | 3 => rfl

end

section
variable {r : Reg} {o : Nat} {v : Byte} {s : State}

/-- R440: the row of a register, read. -/
theorem exec_instr_read (h : o < r.width) :
    exec (r.instr (.read o)) s = .next { s with result := .byte (byteOf (readValue r s) o) } := by
  rw [exec_instr, accessReg_read s h]

/-- R441: the row of a register, written, where that starts no transfer. -/
theorem exec_instr_write (h : o < r.width) (hs : writeStarts r o v s = false) :
    exec (r.instr (.write o v)) s = .next { writeState r o v s with result := .none } := by
  rw [exec_instr, accessReg_write h hs]

/-! #### Reads (R440, R442) -/

/-- R442: a read of a register of two bytes. -/
theorem exec_instr_read_half {h : Half} (hw : r.width = 2) (hv : readValue r s = h.setWidth 32) (ho : o < 2) :
    exec (r.instr (.read o)) s = .next { s with result := .byte (halfByte h o) } := by
  rw [exec_instr_read (hw ▸ ho), hv, halfByte_eq h o ho]

/-- R440: a register that is not readable reads 0. -/
theorem readValue_of_writeOnly (h : readable r = false) : readValue r s = 0 := by
  unfold readValue
  split
  · cases h
  · cases h
  · exact if_neg (Bool.eq_false_iff.1 h)

/-- R440, R442: a read of any byte of a write-only register. -/
theorem exec_instr_read_writeOnly (h : readable r = false) (ho : o < r.width) :
    exec (r.instr (.read o)) s = .next { s with result := .byte 0 } := by
  have hzero : byteOf 0 o = 0 := BitVec.extractLsb'_zero
  rw [exec_instr_read ho, readValue_of_writeOnly h, hzero]

end

/-- R440, R442: what a list of write-only rows reads as, from the list of their registers. -/
theorem exec_read_of_writeOnly_rows {rows : List (Access → Instr)} {regs : List Reg} {n : Nat}
    (hrows : rows = regs.map Reg.instr) (hregs : ∀ r ∈ regs, readable r = false ∧ r.width = n) :
    ∀ row ∈ rows, ∀ (o : Nat) (s : State), o < n → exec (row (.read o)) s = .next { s with result := .byte 0 } := by
  subst hrows
  refine List.forall_mem_map.2 fun r hr o s ho => ?_
  obtain ⟨hread, hwidth⟩ := hregs r hr
  exact exec_instr_read_writeOnly hread (hwidth ▸ ho)

/-! #### Bytes of a value (R87) -/

/-! Bytes of bitwise operations and of a merged value. -/

theorem byteOf_and (x y : Word) (o : Nat) : byteOf (x &&& y) o = byteOf x o &&& byteOf y o := BitVec.extractLsb'_and

theorem byteOf_or (x y : Word) (o : Nat) : byteOf (x ||| y) o = byteOf x o ||| byteOf y o := BitVec.extractLsb'_or

theorem byteOf_mergeByte {o : Nat} (w : Word) (v : Byte) (p : Nat) (ho : o < 4) :
    byteOf (mergeByte w o v) p = if p = o then v else byteOf w p := by
  apply BitVec.eq_of_getLsbD_eq
  intro i hi
  have hbyte : (8 * p + i) / 8 = p := by omega
  have hbit : (8 * p + i) % 8 = i := by omega
  simp only [byteOf, BitVec.getLsbD_extractLsb', mergeByte_bit _ _ _ _ ho, hbyte, hbit]
  split <;> simp [hi]

/-- A word is its four bytes. -/
theorem word_ext {x y : Word} (h : ∀ p, p < 4 → byteOf x p = byteOf y p) : x = y := by
  apply BitVec.eq_of_getLsbD_eq
  intro i hi
  have hbit := congrArg (fun b : Byte => b.getLsbD (i % 8)) (h (i / 8) (by omega))
  have hlt : i % 8 < 8 := Nat.mod_lt i (by decide)
  simpa only [byteOf, BitVec.getLsbD_extractLsb', hlt, decide_true, Bool.true_and, Nat.div_add_mod] using hbit

/-- A byte as a word. -/
theorem byteOf_setWidth (b : Byte) (o : Nat) : byteOf (b.setWidth 32) o = if o = 0 then b else 0 := by
  ext i hi
  obtain rfl | ho := Nat.eq_zero_or_pos o
  · have h1 : i < 32 := by omega
    simp [byteOf, hi, h1]
  · have h1 : b.getLsbD (8 * o + i) = false := BitVec.getLsbD_of_ge b _ (by omega)
    simp [byteOf, ho.ne', h1]

/-! #### DISPSTAT (R141) -/

/-- R141: the target is the high byte. -/
theorem byteOf_vcountTarget (t : Byte) :
    byteOf (t.setWidth 32 <<< 8) 0 = 0 ∧ byteOf (t.setWidth 32 <<< 8) 1 = t := by
  constructor
  · ext i hi
    simp [byteOf, hi]
  · ext i hi
    have h1 : 8 + i < 32 := by omega
    simp [byteOf, hi, h1]

/-- R141: the live flags are bits 2:0. -/
theorem byteOf_statusFlags (t : Timing) :
    byteOf (statusFlags t) 0 =
        0#5 ++ (BitVec.ofBool t.vcountFlag ++ (BitVec.ofBool t.hblankFlag ++ BitVec.ofBool t.vblankFlag))
      ∧ byteOf (statusFlags t) 1 = 0 := by
  unfold statusFlags
  generalize t.vblankFlag = v
  generalize t.hblankFlag = h
  generalize t.vcountFlag = c
  revert v h c
  decide

/-- R141: the enables are bits 5:3. -/
theorem byteOf_enables : ∀ v h c : Bool,
    byteOf (bitAt v 3 ||| bitAt h 4 ||| bitAt c 5) 0 =
        0#2 ++ (BitVec.ofBool c ++ (BitVec.ofBool h ++ (BitVec.ofBool v ++ 0#3)))
      ∧ byteOf (bitAt v 3 ||| bitAt h 4 ||| bitAt c 5) 1 = 0 := by
  decide

/-- R141: the enables and the flags do not overlap. -/
theorem enables_or_flags : ∀ c h v c' h' v' : Bool,
    0#2 ++ (BitVec.ofBool c ++ (BitVec.ofBool h ++ (BitVec.ofBool v ++ 0#3)))
        ||| (0#5 ++ (BitVec.ofBool c' ++ (BitVec.ofBool h' ++ BitVec.ofBool v'))) =
      0#2 ++ (BitVec.ofBool c ++ (BitVec.ofBool h ++ (BitVec.ofBool v
        ++ (BitVec.ofBool c' ++ (BitVec.ofBool h' ++ BitVec.ofBool v'))))) := by
  decide

/-- R141: the low byte of DISPSTAT is its live flags and its enables, the high byte the target. -/
theorem byteOf_dispstat {s : State} {o : Nat} (ho : o < 2) :
    byteOf (readValue .dispstat s) o =
      if o = 0 then
        0#2 ++ (BitVec.ofBool s.timing.vcountIrqEn ++ (BitVec.ofBool s.timing.hblankIrqEn
          ++ (BitVec.ofBool s.timing.vblankIrqEn ++ (BitVec.ofBool s.timing.vcountFlag
            ++ (BitVec.ofBool s.timing.hblankFlag ++ BitVec.ofBool s.timing.vblankFlag)))))
      else s.timing.vcountTarget := by
  obtain ⟨htarget0, htarget1⟩ := byteOf_vcountTarget s.timing.vcountTarget
  obtain ⟨hflags0, hflags1⟩ := byteOf_statusFlags s.timing
  obtain ⟨henables0, henables1⟩ := byteOf_enables s.timing.vblankIrqEn s.timing.hblankIrqEn s.timing.vcountIrqEn
  rw [readValue, stored, byteOf_or, byteOf_or _ (s.timing.vcountTarget.setWidth 32 <<< 8)]
  obtain rfl | rfl : o = 0 ∨ o = 1 := by omega
  · rw [htarget0, hflags0, henables0, if_pos rfl]
    exact (congrArg (· ||| _) BitVec.or_zero).trans (enables_or_flags _ _ _ _ _ _)
  · rw [htarget1, hflags1, henables1, if_neg Nat.one_ne_zero]
    simp

/-! #### The write-only rows (R442) -/

/-- The registers of `writeOnlyScrollAffine`, in its order. -/
def scrollAffineRegs : List Reg :=
  [.bghofs 0, .bgvofs 0, .bghofs 1, .bgvofs 1, .bghofs 2, .bgvofs 2, .bghofs 3, .bgvofs 3,
    .bgpa 0, .bgpb 0, .bgpc 0, .bgpd 0, .bgpa 1, .bgpb 1, .bgpc 1, .bgpd 1]

/-- The registers of `writeOnlyHalves`, in its order. -/
def writeOnlyHalfRegs : List Reg :=
  [.winh 0, .winh 1, .winv 0, .winv 1, .mosaic, .bldy, .dmaCntL 0, .dmaCntL 1, .dmaCntL 2, .dmaCntL 3]

/-- The registers of `writeOnlyWords`, in its order. -/
def writeOnlyWordRegs : List Reg :=
  [.bgx 0, .bgy 0, .bgx 1, .bgy 1, .dmaSad 0, .dmaDad 0, .dmaSad 1, .dmaDad 1, .dmaSad 2, .dmaDad 2, .dmaSad 3, .dmaDad 3]

/-- Settles O35: a readable register's byte (`exec_instr_read_half`), and the write-only rows by their registers. -/
theorem registerReads : Obligations.RegisterReads := by
  unfold Obligations.RegisterReads
  refine ⟨fun s o ho => ⟨?_, ?_, ?_, fun b => ?_, ?_, ?_, ?_, ?_, fun c => ?_⟩, ?_, ?_, ?_⟩
  · exact exec_instr_read_half (r := .dispcnt) rfl rfl ho
  · rw [← byteOf_dispstat ho]
    exact exec_instr_read (r := .dispstat) ho
  · exact (exec_instr_read (r := .vcount) ho).trans (by rw [readValue, byteOf_setWidth])
  · rw [bgcntRow_eq]
    exact exec_instr_read_half rfl rfl ho
  · exact exec_instr_read_half (r := .winin) rfl rfl ho
  · exact exec_instr_read_half (r := .winout) rfl rfl ho
  · exact exec_instr_read_half (r := .bldcnt) rfl rfl ho
  · exact exec_instr_read_half (r := .bldalpha) rfl rfl ho
  · rw [cntHRow_eq]
    exact exec_instr_read_half rfl rfl ho
  · exact exec_read_of_writeOnly_rows (regs := scrollAffineRegs) rfl (by decide)
  · exact exec_read_of_writeOnly_rows (regs := writeOnlyHalfRegs) rfl (by decide)
  · exact exec_read_of_writeOnly_rows (regs := writeOnlyWordRegs) rfl (by decide)

end Sys2Proof.Proofs

/-! ### Writes of the PPU registers (R441, R442, R450 to R462) -/

namespace Sys2Proof.Proofs

open Sys2Proof.Machine Sys2Proof.Spec

/-! #### What a register stores (R441) -/

section
variable {r : Reg} {o : Nat} {v : Byte} {s : State}

/-- R441: a register of 16 stored bits under the mask `m`. -/
theorem setWidth_newStored {h m : Half} (hs : stored r s = h.setWidth 32) (hm : writeMask r = m.setWidth 32)
    (ho : o < 2) : (newStored r o v s).setWidth 16 = setHalfByte h o v &&& m := by
  rw [newStored, hs, hm, half_write h m o v ho]

/-- R441: a register of 16 stored bits that keeps them all. -/
theorem setWidth_newStored_full {h : Half} (hs : stored r s = h.setWidth 32) (hm : writeMask r = 0xFFFF#32)
    (ho : o < 2) : (newStored r o v s).setWidth 16 = setHalfByte h o v := by
  have hones : setHalfByte h o v &&& 0xFFFF#16 = setHalfByte h o v := BitVec.and_allOnes
  rw [setWidth_newStored (m := 0xFFFF#16) hs hm ho, hones]

/-- Bits cut off by a mask of at least `n` ones and bits cut off at `n`. -/
theorem setWidth_and_of_ones {n : Nat} {m : Word} (h : ∀ i, i < n → m.getLsbD i = true) (w : Word) :
    (w &&& m).setWidth n = w.extractLsb' 0 n := by
  apply BitVec.eq_of_getLsbD_eq
  intro i hi
  simp only [BitVec.getLsbD_setWidth, BitVec.getLsbD_and, h i hi, BitVec.getLsbD_extractLsb', Nat.zero_add, Bool.and_true]

/-- R453, R144: a scroll register keeps 9 bits. -/
theorem setWidth_newStored_scroll {h : BitVec 9} (hs : stored r s = h.setWidth 32) (hm : writeMask r = 0x01FF#32)
    (ho : o < 2) : (newStored r o v s).setWidth 9 = (setHalfByte (h.setWidth 16) o v).extractLsb' 0 9 := by
  rw [newStored, hs, hm, setWidth_and_of_ones (by decide)]
  apply BitVec.eq_of_getLsbD_eq
  intro i hi
  have h32 : i < 32 := by omega
  have h16 : i < 16 := by omega
  rw [BitVec.getLsbD_extractLsb', BitVec.getLsbD_extractLsb', Nat.zero_add, setHalfByte_bit _ _ _ _ ho,
    mergeByte_bit _ _ _ _ (by omega), BitVec.getLsbD_setWidth, BitVec.getLsbD_setWidth, decide_eq_true h32,
    decide_eq_true h16]

/-- R458: a reference point keeps 28 bits. -/
theorem setWidth_newStored_ref {h : BitVec 28} (hs : stored r s = h.setWidth 32) (hm : writeMask r = 0x0FFFFFFF#32)
    (ho : o < 4) : (newStored r o v s).setWidth 28 = (setWordByte (h.setWidth 32) o v).extractLsb' 0 28 := by
  rw [newStored, hs, hm, setWidth_and_of_ones (by decide), setWordByte_eq _ _ _ ho]

/-- R441: the stored value after a write, byte by byte. -/
theorem byteOf_newStored (ho : o < 4) (p : Nat) :
    byteOf (newStored r o v s) p = (if p = o then v else byteOf (stored r s) p) &&& byteOf (writeMask r) p := by
  rw [newStored, byteOf_and, byteOf_mergeByte _ _ _ ho]

/-- R441: the stored value after a write, bit by bit. -/
theorem newStored_bit (ho : o < 4) (i : Nat) :
    (newStored r o v s).getLsbD i =
      ((if i / 8 = o then v.getLsbD (i % 8) else (stored r s).getLsbD i) && (writeMask r).getLsbD i) := by
  rw [newStored, BitVec.getLsbD_and, mergeByte_bit _ _ _ _ ho]

/-- A byte is the low byte of its word. -/
theorem setWidth_eq_byteOf (w : Word) : w.setWidth 8 = byteOf w 0 := by
  ext i hi
  simp [byteOf]

/-- R462: BLDY keeps 5 bits of its low byte. -/
theorem setWidth_newStored_bldy (ho : o < 2) :
    (newStored .bldy o v s).setWidth 8 = if o = 0 then v &&& 0x1F#8 else s.regs.bldy &&& 0x1F#8 := by
  have hstored : byteOf (stored .bldy s) 0 = s.regs.bldy := byteOf_setWidth s.regs.bldy 0
  have hmask : byteOf (writeMask .bldy) 0 = 0x1F#8 := by decide
  rw [setWidth_eq_byteOf, byteOf_newStored (by omega), hstored, hmask]
  obtain rfl | rfl : o = 0 ∨ o = 1 := by omega
  · rfl
  · rfl

/-- R47, R141: the stored bits of DISPSTAT. -/
theorem stored_dispstat_bits (s : State) :
    (stored .dispstat s).getLsbD 3 = s.timing.vblankIrqEn ∧ (stored .dispstat s).getLsbD 4 = s.timing.hblankIrqEn
      ∧ (stored .dispstat s).getLsbD 5 = s.timing.vcountIrqEn := by
  have hbits : ∀ v h c : Bool, (bitAt v 3 ||| bitAt h 4 ||| bitAt c 5).getLsbD 3 = v
      ∧ (bitAt v 3 ||| bitAt h 4 ||| bitAt c 5).getLsbD 4 = h
      ∧ (bitAt v 3 ||| bitAt h 4 ||| bitAt c 5).getLsbD 5 = c := by decide
  obtain ⟨h3, h4, h5⟩ := hbits s.timing.vblankIrqEn s.timing.hblankIrqEn s.timing.vcountIrqEn
  have hshift : ∀ i, i < 8 → (s.timing.vcountTarget.setWidth 32 <<< 8).getLsbD i = false := fun i hi => by simp [hi]
  simp only [stored]
  refine ⟨?_, ?_, ?_⟩
  · rw [BitVec.getLsbD_or, h3, hshift 3 (by decide), Bool.or_false]
  · rw [BitVec.getLsbD_or, h4, hshift 4 (by decide), Bool.or_false]
  · rw [BitVec.getLsbD_or, h5, hshift 5 (by decide), Bool.or_false]

/-- R451: storing into DISPSTAT leaves the flags alone. -/
theorem setStored_dispstat (w : Word) (s : State) :
    setStored .dispstat w s =
      { s with
        timing :=
          { s.timing with
            vblankIrqEn := w.getLsbD 3
            hblankIrqEn := w.getLsbD 4
            vcountIrqEn := w.getLsbD 5
            vcountTarget := byteOf w 1 } } := rfl

/-- R451: what a write of a byte of DISPSTAT stores. -/
theorem storeByte_dispstat (s : State) (v : Byte) (ho : o < 2) :
    storeByte .dispstat o v s =
      { s with
        timing :=
          if o = 0 then
            { s.timing with vblankIrqEn := v.getLsbD 3, hblankIrqEn := v.getLsbD 4, vcountIrqEn := v.getLsbD 5 }
          else { s.timing with vcountTarget := v } } := by
  have hbit (i : Nat) := newStored_bit (r := .dispstat) (v := v) (s := s) (show o < 4 by omega) i
  have htarget := byteOf_newStored (r := .dispstat) (v := v) (s := s) (show o < 4 by omega) 1
  obtain ⟨h3, h4, h5⟩ := stored_dispstat_bits s
  have hold : byteOf (stored .dispstat s) 1 = s.timing.vcountTarget := by
    obtain ⟨-, henables⟩ := byteOf_enables s.timing.vblankIrqEn s.timing.hblankIrqEn s.timing.vcountIrqEn
    rw [stored, byteOf_or, henables, (byteOf_vcountTarget _).2]
    exact BitVec.zero_or
  have hmask : byteOf (writeMask .dispstat) 1 = BitVec.allOnes 8 := by decide
  have hmasks : ∀ i ∈ [3, 4, 5], (writeMask .dispstat).getLsbD i = true := by decide
  rw [storeByte, setStored_dispstat, hbit 3, hbit 4, hbit 5, htarget, h3, h4, h5, hold, hmask, hmasks 3 (by decide),
    hmasks 4 (by decide), hmasks 5 (by decide), BitVec.and_allOnes]
  simp only [Bool.and_true]
  obtain rfl | rfl : o = 0 ∨ o = 1 := by omega
  · rfl
  · rfl

end

/-- Settles O37: the 28 bits that are kept (`setWidth_newStored_ref`), and the running point reloaded from them. -/
theorem referencePointWrites : Obligations.ReferencePointWrites := by
  unfold Obligations.ReferencePointWrites
  refine fun s k o v ho => ⟨fun n hn => ?_, fun n hn => ?_⟩
  · subst hn
    rw [bgxRow_eq, ← setWidth_newStored_ref (r := .bgx k) rfl rfl ho]
    refine (exec_instr_write ho rfl).trans ?_
    simp [writeState, storeByte, setStored, reloadRefX, State.mapRegs]
  · subst hn
    rw [bgyRow_eq, ← setWidth_newStored_ref (r := .bgy k) rfl rfl ho]
    refine (exec_instr_write ho rfl).trans ?_
    simp [writeState, storeByte, setStored, reloadRefY, State.mapRegs]

/-- Settles O36: a register's write is its store, told apart by what the register keeps of the byte: all of it
(`setWidth_newStored_full`), what its mask leaves (`setWidth_newStored`), 9 bits (`setWidth_newStored_scroll`), 5 bits
(`setWidth_newStored_bldy`); DISPSTAT by `storeByte_dispstat`. -/
theorem ppuRegisterWrites : Obligations.PpuRegisterWrites := by
  unfold Obligations.PpuRegisterWrites
  intro s o v ho
  refine ⟨?_, ?_, ?_, fun b => ?_, ?_, ?_, ?_, ?_, fun b => ?_, fun b => ?_, fun k => ⟨?_, ?_, ?_, ?_, ?_, ?_⟩, ?_, ?_⟩
  · rw [← setWidth_newStored_full (r := .dispcnt) rfl rfl ho]
    exact exec_instr_write (r := .dispcnt) ho rfl
  · exact (exec_instr_write (r := .dispstat) ho rfl).trans (by rw [writeState, storeByte_dispstat s v ho])
  · exact exec_instr_write (r := .vcount) ho rfl
  · rw [bgcntRow_eq, ← setWidth_newStored_full (r := .bgcnt b) rfl rfl ho]
    exact exec_instr_write ho rfl
  · rw [← setWidth_newStored (r := .winin) rfl rfl ho]
    exact exec_instr_write (r := .winin) ho rfl
  · rw [← setWidth_newStored (r := .winout) rfl rfl ho]
    exact exec_instr_write (r := .winout) ho rfl
  · rw [← setWidth_newStored (r := .bldcnt) rfl rfl ho]
    exact exec_instr_write (r := .bldcnt) ho rfl
  · rw [← setWidth_newStored (r := .bldalpha) rfl rfl ho]
    exact exec_instr_write (r := .bldalpha) ho rfl
  · rw [bghofsRow_eq, ← setWidth_newStored_scroll (r := .bghofs b) rfl rfl ho]
    exact exec_instr_write ho rfl
  · rw [bgvofsRow_eq, ← setWidth_newStored_scroll (r := .bgvofs b) rfl rfl ho]
    exact exec_instr_write ho rfl
  · rw [bgpaRow_eq, ← setWidth_newStored_full (r := .bgpa k) rfl rfl ho]
    exact exec_instr_write ho rfl
  · rw [bgpbRow_eq, ← setWidth_newStored_full (r := .bgpb k) rfl rfl ho]
    exact exec_instr_write ho rfl
  · rw [bgpcRow_eq, ← setWidth_newStored_full (r := .bgpc k) rfl rfl ho]
    exact exec_instr_write ho rfl
  · rw [bgpdRow_eq, ← setWidth_newStored_full (r := .bgpd k) rfl rfl ho]
    exact exec_instr_write ho rfl
  · rw [winhRow_eq, ← setWidth_newStored_full (r := .winh k) rfl rfl ho]
    exact exec_instr_write ho rfl
  · rw [winvRow_eq, ← setWidth_newStored_full (r := .winv k) rfl rfl ho]
    exact exec_instr_write ho rfl
  · rw [← setWidth_newStored_full (r := .mosaic) rfl rfl ho]
    exact exec_instr_write (r := .mosaic) ho rfl
  · rw [← setWidth_newStored_bldy ho]
    exact exec_instr_write (r := .bldy) ho rfl

end Sys2Proof.Proofs

/-! ### Writes of the DMA registers (R470 to R472) -/

namespace Sys2Proof.Proofs

open Sys2Proof.Machine Sys2Proof.Spec

/-- R470: a channel's source address after its four bytes are written, each under the mask. -/
theorem setWordBytes_masked (w v m : Word) :
    setWordByte
        (setWordByte (setWordByte (setWordByte w 0 (byteOf v 0) &&& m) 1 (byteOf v 1) &&& m) 2 (byteOf v 2) &&& m)
        3 (byteOf v 3) &&& m = v &&& m := by
  have hbyte {o : Nat} (ho : o < 4) (x : Word) (b : Byte) (p : Nat) :
      byteOf (setWordByte x o b) p = if p = o then b else byteOf x p := by
    rw [setWordByte_eq x o b ho, byteOf_mergeByte x b p ho]
  refine word_ext fun p hp => ?_
  simp only [byteOf_and, hbyte (show 0 < 4 by decide), hbyte (show 1 < 4 by decide), hbyte (show 2 < 4 by decide),
    hbyte (show 3 < 4 by decide)]
  interval_cases p <;> simp [BitVec.and_assoc]

section
variable {c : Chan} {o : Nat} {v : Byte} {s : State}

/-- R470: a write of a byte of DMAcSAD. -/
theorem exec_sadRow_write (ho : o < 4) :
    exec (sadRow c (.write o v)) s =
      .next
        { withChan s c
            { s.dma.ch[c] with
              cfgSrc := setWordByte s.dma.ch[c].cfgSrc o v &&& (if c = 0 then 0x07FFFFFF#32 else 0x0FFFFFFF#32) } with
          result := .none } := by
  rw [sadRow_eq, setWordByte_eq _ _ _ ho]
  exact exec_instr_write ho rfl

/-- R470: a write of a byte of DMAcDAD. -/
theorem exec_dadRow_write (ho : o < 4) :
    exec (dadRow c (.write o v)) s =
      .next
        { withChan s c
            { s.dma.ch[c] with
              cfgDst := setWordByte s.dma.ch[c].cfgDst o v &&& (if c = 3 then 0x0FFFFFFF#32 else 0x07FFFFFF#32) } with
          result := .none } := by
  rw [dadRow_eq, setWordByte_eq _ _ _ ho]
  exact exec_instr_write ho rfl

/-- R471: a write of a byte of DMAcCNT_L. -/
theorem exec_cntLRow_write (ho : o < 2) :
    exec (cntLRow c (.write o v)) s =
      .next
        { withChan s c
            { s.dma.ch[c] with
              cfgLen := setHalfByte s.dma.ch[c].cfgLen o v &&& (if c = 3 then 0xFFFF#16 else 0x3FFF#16) } with
          result := .none } := by
  rw [cntLRow_eq, ← setWidth_newStored (r := .dmaCntL c) (m := if c = 3 then 0xFFFF#16 else 0x3FFF#16) rfl rfl ho]
  exact exec_instr_write ho rfl

end

/-- Settles O32: the three rows, and the four bytes of a source address (`setWordBytes_masked`). -/
theorem addressLengthWrite : Obligations.AddressLengthWrite := by
  unfold Obligations.AddressLengthWrite
  refine ⟨fun s c o v => exec_sadRow_write, fun s c o v => exec_dadRow_write, fun s c o v => exec_cntLRow_write,
    fun s c v => ⟨_, _, _, _, exec_sadRow_write (by decide), exec_sadRow_write (by decide),
      exec_sadRow_write (by decide), exec_sadRow_write (by decide), ?_⟩⟩
  simp only [withChan, Fin.getElem_fin, Vector.getElem_set_self]
  exact setWordBytes_masked s.dma.ch[c].cfgSrc v _

/-! #### The control half-word of a channel (R472, R241) -/

section
variable {c : Chan} {o : Nat} {v : Byte} {s : State}

/-- R442, R472: what a write of a byte of DMAcCNT_H stores. -/
theorem storeByte_dmaCntH (ho : o < 2) :
    storeByte (.dmaCntH c) o v s =
      withChan s c { s.dma.ch[c] with ctrl := controlAfter c s.dma.ch[c].ctrl o v } := by
  rw [controlAfter, ← setWidth_newStored (r := .dmaCntH c) (m := if c = 3 then 0xFFE0#16 else 0xF7E0#16) rfl ?_ ho]
  · rfl
  · rw [writeMask, Config.ctrlMask]

/-- R150: a write of the high byte replaces the enable bit, a write of the low byte keeps it. -/
theorem controlAfter_enable (old : Half) (ho : o < 2) :
    (controlAfter c old o v).getLsbD 15 = if o = 1 then v.getLsbD 7 else old.getLsbD 15 := by
  have hmask : (if c = 3 then 0xFFE0#16 else 0xF7E0#16).getLsbD 15 = true := by split <;> rfl
  rw [controlAfter, BitVec.getLsbD_and, hmask, Bool.and_true, setHalfByte_bit _ _ _ _ ho]
  simp only [eq_comm (a := o)]

/-- R150: a write of the high byte replaces the timing. -/
theorem controlAfter_timing (old : Half) : (controlAfter c old 1 v).extractLsb' 12 2 = v.extractLsb' 4 2 := by
  have hmask : ∀ i, i < 2 → (if c = 3 then 0xFFE0#16 else 0xF7E0#16).getLsbD (12 + i) = true := by
    split <;> decide
  apply BitVec.eq_of_getLsbD_eq
  intro i hi
  have hbyte : (12 + i) / 8 = 1 := by omega
  have hbit : (12 + i) % 8 = 4 + i := by omega
  rw [BitVec.getLsbD_extractLsb', BitVec.getLsbD_extractLsb', controlAfter, BitVec.getLsbD_and, hmask i hi,
    Bool.and_true, setHalfByte_bit _ _ _ _ (by decide), if_pos hbyte, hbit]

/-- R472: a write of a byte of DMAcCNT_H is `DMA.ONWRITE` after the store. -/
theorem exec_cntHRow_write (ho : o < 2) :
    exec (cntHRow c (.write o v)) s =
      exec (.dmaOnwrite c (s.dma.ch[c].ctrl.getLsbD 15))
        (withChan s c { s.dma.ch[c] with ctrl := controlAfter c s.dma.ch[c].ctrl o v }) := by
  have hin : (Access.write o v).within (Reg.dmaCntH c).width = true := decide_eq_true ho
  rw [exec_cntHRow, accessReg, if_pos hin, ← storeByte_dmaCntH ho]
  rfl

/-- The channel that `withChan` puts in place. -/
theorem withChan_ch_same (x : Channel) : (withChan s c x).dma.ch[c] = x := Vector.getElem_set_self c.isLt

/-- R241, R472: a write of the high byte that enables the channel, in the cases of its timing. -/
theorem exec_cntHRow_arm {x : Channel} (hx : x = { s.dma.ch[c] with ctrl := controlAfter c s.dma.ch[c].ctrl 1 v })
    (hold : s.dma.ch[c].ctrl.getLsbD 15 = false) (hen : v.getLsbD 7 = true) :
    exec (cntHRow c (.write 1 v)) s =
      if v.extractLsb' 4 2 = 0 then
        exec .dmaService (tryStart c (withChan (rederived (withChan s c x) c) c (armed c x)))
      else .next { withChan (rederived (withChan s c x) c) c (armed c x) with result := .none } := by
  have hch : (withChan s c x).dma.ch[c] = x := withChan_ch_same x
  have henabled : (withChan s c x).dma.ch[c].ctrl.getLsbD 15 = true := by
    rw [hch, hx, controlAfter_enable _ (by decide), if_pos rfl, hen]
  have htiming : (withChan s c x).dma.ch[c].ctrl.extractLsb' 12 2 = v.extractLsb' 4 2 := by
    rw [hch, hx, controlAfter_timing]
  rw [exec_cntHRow_write (by decide), hold, ← hx]
  split
  · rename_i himm
    rw [exec_dmaOnwrite_of_starts (startsNow_iff.2 ⟨henabled, rfl, htiming.trans himm⟩), configure_of_armed henabled,
      if_pos (htiming.trans himm), hch]
  · rename_i himm
    rw [exec_dmaOnwrite_of_not_starts fun h => himm (htiming.symm.trans (startsNow_iff.1 h).2.2),
      configure_of_armed henabled, if_neg (htiming ▸ himm), hch]

end

/-- Settles O30: the store and `DMA.ONWRITE` behind it, and the arming of a channel that does not start at once. -/
theorem controlWrite : Obligations.ControlWrite := by
  unfold Obligations.ControlWrite
  refine ⟨fun s c o v ho => exec_cntHRow_write ho, fun s c v x hx hold hen himm => ?_⟩
  rw [exec_cntHRow_arm hx hold hen, if_neg himm]

end Sys2Proof.Proofs

/-! ### The transfer inside a register write (R472, R236 to R238) -/

namespace Sys2Proof.Proofs

open Sys2Proof.Machine Sys2Proof.Spec

/-- `u` is `s` with channel `c` as `x`, the one runnable and active channel; its occasion sets are left open. -/
structure Started (c : Chan) (x : Channel) (s u : State) : Prop where
  active : u.dma.active = some c
  runnable : u.dma.runnable = bit c
  busy : u.dma.busy = s.dma.busy
  earlyExit : u.dma.earlyExit = s.dma.earlyExit
  openBus : u.dma.openBus = s.dma.openBus
  chan : u.dma.ch[c] = x
  others : ∀ d, d ≠ c → u.dma.ch[d] = s.dma.ch[d]
  rest : DmaOnly s u

/-- What the undisturbed transfer of channel `c`, the only runnable one, leaves of `u` (R236 to R238). -/
structure Transferred (c : Chan) (u t : State) : Prop where
  env : t.env =
    { u.env with
      mem := (endOf u c).mem
      irqLog :=
        u.env.irqLog ++ (if u.dma.ch[c].ctrl.getLsbD 14 then [⟨.dma, c.val, (endOf u c).now⟩] else []) }
  sched : t.sched = { u.sched with now := (endOf u c).now }
  openBus : t.dma.openBus = (endOf u c).openBus
  ctrl : t.dma.ch[c].ctrl =
    if u.dma.ch[c].ctrl.getLsbD 9 then u.dma.ch[c].ctrl else u.dma.ch[c].ctrl &&& 0x7FFF#16
  others : ∀ d, d ≠ c → t.dma.ch[d] = u.dma.ch[d]
  quiet : t.dma.Quiet
  earlyExit : t.dma.earlyExit = u.dma.earlyExit
  regs : t.regs = u.regs
  timing : t.timing = u.timing
  fb : t.fb = u.fb
  cfg : t.cfg = u.cfg

section
variable {c : Chan} {s u : State}

/-- R241: arming and starting channel `c` of a quiet controller. -/
theorem started_tryStart {x : Channel} (hq : s.dma.Quiet) (y : Channel) :
    Started c x s (tryStart c (withChan (rederived (withChan s c y) c) c x)) := by
  have hq' : (withChan (rederived (withChan s c y) c) c x).dma.Quiet := ⟨hq.runnable, hq.active, hq.busy⟩
  rw [tryStart_of_quiet hq']
  refine ⟨rfl, rfl, rfl, rfl, rfl, withChan_ch_same x, fun d hd => ?_, ⟨rfl, rfl, rfl, rfl, rfl, rfl, rfl⟩⟩
  exact (getElem_set_of_ne _ x hd).trans (getElem_set_of_ne s.dma.ch y hd)

section
variable {x : Channel} (h : Started c x s u)
include h

/-- The occasion sets play no part in a transfer. -/
theorem Started.startOf : startOf u c = startOf (withChan s c x) c := by
  simp only [Spec.startOf, h.chan, withChan_ch_same, h.openBus, h.rest.env, h.rest.sched]
  rfl

/-- R237: nor in where it ends. -/
theorem Started.endOf : endOf u c = endOf (withChan s c x) c := by
  simp only [Spec.endOf, h.startOf, h.chan, withChan_ch_same, h.rest.cfg]
  rfl

/-- R237: nor in what disturbs it. -/
theorem Started.plain (hp : Plain (withChan s c x) c) : Plain u c := by
  simp only [Plain, withChan_ch_same] at hp
  simp only [Plain, h.startOf, h.chan, h.rest.cfg, h.rest.sched]
  exact hp

end

/-- R238: `Complete` and the control half-word. -/
theorem complete_ctrl (c : Chan) (s : State) :
    (complete c s).dma.ch[c].ctrl =
      if s.dma.ch[c].ctrl.getLsbD 9 then s.dma.ch[c].ctrl else s.dma.ch[c].ctrl &&& 0x7FFF#16 := by
  rw [complete_eq]
  change _ = if ctrlRepeat (s.chan c).ctrl then _ else _
  dsimp only
  split
  all_goals
    simp only [selectNext, leaveSets, disableBit, State.mapDma_dma, State.mapChan_dma, Fin.getElem_fin,
      Vector.getElem_set_self]
    rfl

/-- R238: what `Complete` leaves runnable, and what else of the controller it does not touch. -/
theorem complete_dma (c : Chan) (s : State) :
    (complete c s).dma.runnable = removeChan s.dma.runnable c ∧ (complete c s).dma.openBus = s.dma.openBus
      ∧ (complete c s).dma.earlyExit = s.dma.earlyExit := by
  rw [complete_eq]
  dsimp only
  split <;> exact ⟨rfl, rfl, rfl⟩

/-- R42 (f): once the one runnable channel has completed, the controller is quiet. -/
theorem quiet_complete (h : s.dma.runnable = bit c) : (setBusy false (complete c s)).dma.Quiet := by
  have hrunnable : removeChan s.dma.runnable c = 0 := by rw [h, removeChan_eq, without_bit]
  refine ⟨(complete_dma c s).1.trans hrunnable, (complete_active c s).trans ?_, rfl⟩
  rw [hrunnable, lowest_zero]

/-- R237: moving units leaves the control half-word. -/
theorem movedState_ctrl (c : Chan) (s : State) : (movedState s c).dma.ch[c].ctrl = s.dma.ch[c].ctrl := by
  simp only [movedState, Fin.getElem_fin, Vector.getElem_set_self]

/-- R236 to R238: `DMA.SERVICE` with one runnable channel, undisturbed, field by field. -/
theorem exec_dmaService_transferred (hb : u.dma.busy = false) (ha : u.dma.active = some c)
    (hr : u.dma.runnable = bit c) (he : u.dma.earlyExit = false) (hp : Plain u c)
    (hf : u.dma.ch[c].latRem + 2 < u.cfg.fuel) : ∃ t, exec .dmaService u = .next t ∧ Transferred c u t := by
  refine ⟨_, exec_dmaService_plain hb ha hr he hp hf, ?_⟩
  have hmoved : (movedState (setBusy true u) c).dma.ch[c].ctrl = u.dma.ch[c].ctrl := movedState_ctrl c _
  have hframe := complete_frame c (movedState (setBusy true u) c)
  rw [raiseIf_frame] at hframe
  obtain ⟨-, hopen, hearly⟩ := complete_dma c (movedState (setBusy true u) c)
  constructor
  case env =>
    refine hframe.env.trans ?_
    change Env.mk _ (_ ++ if ctrlIrq (movedState (setBusy true u) c).dma.ch[c].ctrl then _ else _) _ _ _ = _
    rw [hmoved]
    rfl
  case sched => exact hframe.sched
  case openBus => exact hopen
  case ctrl =>
    have h := complete_ctrl c (movedState (setBusy true u) c)
    rwa [hmoved] at h
  case others => exact fun d hd => (complete_ch_other _ hd).trans (getElem_set_of_ne u.dma.ch _ hd)
  case quiet => exact quiet_complete hr
  case earlyExit => exact hearly
  case regs => exact hframe.regs
  case timing => exact hframe.timing
  case fb => exact hframe.fb
  case cfg => exact hframe.cfg

end

/-- Settles O31: the write starts the channel (`started_tryStart`), and the service moves its transfer
(`exec_dmaService_transferred`). -/
theorem immediateWriteTransfers : Obligations.ImmediateWriteTransfers := by
  unfold Obligations.ImmediateWriteTransfers
  intro s c v x m hquiet hearly hold hen himm hx hm hp hf
  have hexec := exec_cntHRow_arm rfl hold hen
  rw [if_pos himm, ← hx] at hexec
  have hs := started_tryStart (c := c) (x := x) hquiet { s.dma.ch[c] with ctrl := controlAfter c s.dma.ch[c].ctrl 1 v }
  generalize tryStart c _ = u at hexec hs
  obtain ⟨t, ht, h⟩ := exec_dmaService_transferred (hs.busy.trans hquiet.busy) hs.active hs.runnable
    (hs.earlyExit.trans hearly) (hs.plain hp) (by rw [hs.chan, hs.rest.cfg]; exact hf)
  obtain ⟨henv, hsched, hopen, hctrl, hothers, hdone, htrigger, hregs, htiming, hfb, hcfg⟩ := h
  rw [hs.endOf, ← hm] at henv hsched hopen
  rw [hs.chan] at henv hctrl
  rw [hs.rest.env] at henv
  rw [hs.rest.sched] at hsched
  exact ⟨t, hexec.trans ht, henv, hsched, hopen, hctrl, fun d hd => (hothers d hd).trans (hs.others d hd), hdone,
    htrigger.trans (hs.earlyExit.trans hearly), hregs.trans hs.rest.regs, htiming.trans hs.rest.timing,
    hfb.trans hs.rest.fb, hcfg.trans hs.rest.cfg⟩

end Sys2Proof.Proofs

/-! ### Register writes in general: what is stored, the round trip, the frame (R441, R444, R103, R244) -/

namespace Sys2Proof.Proofs

open Sys2Proof.Machine Sys2Proof.Spec

/-! #### What every register has stored after a write (R441) -/

/-- A masked value survives a register of at least the mask's width. -/
theorem setWidth_setWidth_of_masked {n : Nat} {m : Word} (h : (m.setWidth n).setWidth 32 = m) (w : Word) :
    ((w &&& m).setWidth n).setWidth 32 = w &&& m := by
  rw [BitVec.setWidth_and, BitVec.setWidth_and, h]
  apply BitVec.eq_of_getLsbD_eq
  intro i hi
  have hm : m.getLsbD i = (decide (i < n) && m.getLsbD i) := by
    conv_lhs => rw [← h]
    simp [hi]
  simp only [BitVec.getLsbD_and, BitVec.getLsbD_setWidth, hi, decide_true, Bool.true_and]
  rw [hm]
  cases decide (i < n) <;> simp

/-- A truth value at bit `i`, bit by bit. -/
theorem getLsbD_bitAt (b : Bool) (i : Nat) {j : Nat} (hj : j < 32) : (bitAt b i).getLsbD j = (decide (i = j) && b) := by
  cases b
  · simp [bitAt]
  · simp only [bitAt, if_true, BitVec.getLsbD_ofNat, Nat.testBit_two_pow, hj, decide_true, Bool.true_and, Bool.and_true]

/-- R47: DISPSTAT gives back what was stored under its mask. -/
theorem stored_setStored_dispstat (w : Word) (s : State) :
    stored .dispstat (setStored .dispstat (w &&& 0xFF38#32) s) = w &&& 0xFF38#32 := by
  simp only [stored, setStored, State.mapTiming_timing]
  apply BitVec.eq_of_getLsbD_eq
  intro i hi
  simp only [BitVec.getLsbD_or, getLsbD_bitAt _ _ hi]
  interval_cases i <;> simp

/-- R441: a register gives back what was stored under its mask. -/
theorem stored_setStored (r : Reg) (w : Word) (s : State) :
    stored r (setStored r (w &&& writeMask r) s) = w &&& writeMask r := by
  cases r
  case dispstat => exact stored_setStored_dispstat w s
  case vcount => exact BitVec.and_zero.symm
  all_goals simp only [stored, setStored, writeMask, State.mapRegs_regs, State.mapChan_dma, Fin.getElem_fin,
    Vector.getElem_set_self]
  case dmaCntL c | dmaCntH c => exact setWidth_setWidth_of_masked (by revert c; decide) w
  all_goals exact setWidth_setWidth_of_masked (by decide) w

/-- R441: every other register has stored what it had. -/
theorem stored_setStored_other {r r' : Reg} (h : r' ≠ r) (w : Word) (s : State) :
    stored r' (setStored r w s) = stored r' s := by
  cases r <;> cases r'
  case dispcnt.dispcnt | dispstat.dispstat | winin.winin | winout.winout | mosaic.mosaic | bldcnt.bldcnt
      | bldalpha.bldalpha | bldy.bldy =>
    exact absurd rfl h
  case bgcnt.bgcnt b b' | bghofs.bghofs b b' | bgvofs.bgvofs b b' | bgpa.bgpa b b' | bgpb.bgpb b b' | bgpc.bgpc b b'
      | bgpd.bgpd b b' | bgx.bgx b b' | bgy.bgy b b' | winh.winh b b' | winv.winv b b' =>
    have hne : b.val ≠ b'.val := fun e => h (Fin.ext e ▸ rfl)
    simp only [stored, setStored, State.mapRegs_regs, Fin.getElem_fin, Vector.getElem_set_ne _ _ hne]
  case dmaSad.dmaSad c c' | dmaDad.dmaDad c c' | dmaCntL.dmaCntL c c' | dmaCntH.dmaCntH c c' =>
    have hne : c' ≠ c := fun e => h (e ▸ rfl)
    simp only [stored, setStored, State.mapChan_dma, getElem_set_of_ne _ _ hne]
  case dmaSad.dmaDad c c' | dmaSad.dmaCntL c c' | dmaSad.dmaCntH c c' | dmaDad.dmaSad c c' | dmaDad.dmaCntL c c'
      | dmaDad.dmaCntH c c' | dmaCntL.dmaSad c c' | dmaCntL.dmaDad c c' | dmaCntL.dmaCntH c c' | dmaCntH.dmaSad c c'
      | dmaCntH.dmaDad c c' | dmaCntH.dmaCntL c c' =>
    simp only [stored, setStored, State.mapChan_dma]
    obtain rfl | hne := eq_or_ne c' c
    · simp only [Fin.getElem_fin, Vector.getElem_set_self]
    · rw [getElem_set_of_ne _ _ hne]
  all_goals rfl

/-! #### What configuring a channel leaves of the registers (R241) -/

/-- The four registers of a channel are the same. -/
structure SameConfig (x y : Channel) : Prop where
  src : y.cfgSrc = x.cfgSrc
  dst : y.cfgDst = x.cfgDst
  len : y.cfgLen = x.cfgLen
  ctrl : y.ctrl = x.ctrl

/-- What the registers have stored is in the register block, the timing state and the channels' registers. -/
theorem stored_congr {s t : State} (hregs : t.regs = s.regs) (htiming : t.timing = s.timing)
    (hch : ∀ c : Chan, SameConfig s.dma.ch[c] t.dma.ch[c]) (r : Reg) : stored r t = stored r s := by
  cases r
  case dmaSad c => exact (hch c).src
  case dmaDad c => exact (hch c).dst
  case dmaCntL c => exact congrArg (BitVec.setWidth 32) (hch c).len
  case dmaCntH c => exact congrArg (BitVec.setWidth 32) (hch c).ctrl
  all_goals simp only [stored, hregs, htiming]

/-- R239: clearing the enable bit of a disabled channel changes nothing. -/
theorem and_of_disabled {h : Half} (hd : h.getLsbD 15 = false) : h &&& 0x7FFF#16 = h := by
  have hmask : ∀ i, i < 15 → (0x7FFF#16).getLsbD i = true := by decide
  apply BitVec.eq_of_getLsbD_eq
  intro i hi
  rw [BitVec.getLsbD_and]
  obtain hi | rfl : i < 15 ∨ i = 15 := by omega
  · rw [hmask i hi, Bool.and_true]
  · rw [hd, Bool.false_and]

/-- R241: `OnChannelWritten` changes no other channel, none of the channel's own registers, and not the open-bus latch. -/
theorem configure_frame (c : Chan) (was : Bool) (s : State) :
    ∃ x, (configure c was s).dma.ch = s.dma.ch.set c x ∧ SameConfig s.dma.ch[c] x
      ∧ (configure c was s).dma.openBus = s.dma.openBus := by
  cases hen : s.dma.ch[c].ctrl.getLsbD 15 with
  | false =>
    rw [configure_of_disabled hen, disableChannel_eq]
    exact ⟨_, rfl, ⟨rfl, rfl, rfl, and_of_disabled hen⟩, rfl⟩
  | true =>
    cases was with
    | true =>
      rw [configure_of_enabled hen]
      exact ⟨s.dma.ch[c], (Vector.set_getElem_self c.isLt).symm, ⟨rfl, rfl, rfl, rfl⟩, rfl⟩
    | false =>
      refine ⟨armed c s.dma.ch[c], ?_⟩
      rw [configure_of_armed hen]
      split
      · obtain ⟨-, hch, -, -, -, -, hopen⟩ := tryStart_frame c (withChan (rederived s c) c (armed c s.dma.ch[c]))
        exact ⟨hch, ⟨rfl, rfl, rfl, rfl⟩, hopen⟩
      · exact ⟨rfl, ⟨rfl, rfl, rfl, rfl⟩, rfl⟩

/-- R241: `OnChannelWritten` changes no register. -/
theorem stored_configure (c : Chan) (was : Bool) (s : State) (r : Reg) : stored r (configure c was s) = stored r s := by
  have hframe := dmaOnly_configure c was s
  obtain ⟨x, hch, hx, -⟩ := configure_frame c was s
  refine stored_congr hframe.regs hframe.timing (fun d => ?_) r
  rw [hch]
  obtain rfl | hd := eq_or_ne d c
  · rwa [show (s.dma.ch.set d x)[d] = x from Vector.getElem_set_self d.isLt]
  · rw [getElem_set_of_ne _ x hd]
    exact ⟨rfl, rfl, rfl, rfl⟩

/-- R441: the side effect of a write changes no register. -/
theorem stored_writeState_eq_storeByte (r r' : Reg) (o : Nat) (v : Byte) (s : State) :
    stored r' (writeState r o v s) = stored r' (storeByte r o v s) := by
  cases r
  case dmaCntH c => exact stored_configure c _ _ r'
  case bgx k | bgy k => cases r' <;> rfl
  all_goals rfl

/-- R441: what the written register has stored after a write. -/
theorem stored_writeState (r : Reg) (o : Nat) (v : Byte) (s : State) :
    stored r (writeState r o v s) = newStored r o v s := by
  rw [stored_writeState_eq_storeByte, storeByte, newStored, stored_setStored]

/-- R441: what any other register has. -/
theorem stored_writeState_other {r r' : Reg} (h : r' ≠ r) (o : Nat) (v : Byte) (s : State) :
    stored r' (writeState r o v s) = stored r' s := by
  rw [stored_writeState_eq_storeByte, storeByte, stored_setStored_other h]

/-- R472: a write starts a transfer only where it enables a channel with Immediate timing. -/
theorem writeStarts_eq_false {r : Reg} {o : Nat} {v : Byte} {s : State} (ho : o < r.width)
    (h : ∀ c, r = .dmaCntH c →
      s.dma.ch[c].ctrl.getLsbD 15 = true ∨ o = 0 ∨ v.getLsbD 7 = false ∨ v.extractLsb' 4 2 ≠ 0) :
    writeStarts r o v s = false := by
  cases r
  case dmaCntH c =>
    have ho : o < 2 := ho
    change startsNow c (s.dma.ch[c].ctrl.getLsbD 15) (storeByte (.dmaCntH c) o v s) = false
    rw [storeByte_dmaCntH ho, Bool.eq_false_iff]
    intro hstart
    obtain ⟨hen, hwas, htiming⟩ := startsNow_iff.1 hstart
    rw [withChan_ch_same, controlAfter_enable _ ho] at hen
    rw [withChan_ch_same] at htiming
    obtain rfl : o = 1 := by
      by_contra hne
      rw [if_neg hne, hwas] at hen
      exact Bool.noConfusion hen
    rw [if_pos rfl] at hen
    rw [controlAfter_timing] at htiming
    rcases h c rfl with hold | hzero | hdisabled | hlater
    · exact Bool.noConfusion (hold.symm.trans hwas)
    · exact absurd hzero Nat.one_ne_zero
    · exact Bool.noConfusion (hen.symm.trans hdisabled)
    · exact hlater htiming
  all_goals rfl

/-! #### Writing a register and reading it back (R444) -/

/-- R442: a readable register other than VCOUNT reads as it has stored, DISPSTAT with its live flags. -/
theorem readValue_of_readable {r : Reg} {s : State} (h : readable r = true) (hv : r ≠ .vcount) :
    readValue r s = stored r s ||| (if r = .dispstat then statusFlags s.timing else 0) := by
  unfold readValue
  split
  · rw [if_pos rfl]
  · exact absurd rfl hv
  · rename_i hd _
    rw [if_pos h, if_neg hd]
    exact BitVec.or_zero.symm

/-- R442: the list of read-write registers and the model's tables. -/
theorem mem_readWriteRegs : ∀ p ∈ readWriteRegs, p.1.width = 2 ∧ readable p.1 = true ∧ p.1 ≠ .vcount
    ∧ byteOf (writeMask p.1) 1 ++ byteOf (writeMask p.1) 0 = p.2 := by
  decide

/-- What a register has stored does not depend on the result. -/
theorem stored_result (r : Reg) (s : State) (res : Result) : stored r { s with result := res } = stored r s :=
  stored_congr rfl rfl (fun _ => ⟨rfl, rfl, rfl, rfl⟩) r

/-- R22: a register write leaves the live flags of DISPSTAT. -/
theorem statusFlags_writeState (r : Reg) (o : Nat) (v : Byte) (s : State) :
    statusFlags (writeState r o v s).timing = statusFlags s.timing := by
  have h := writeFrame_writeState r o v s
  simp only [statusFlags, h.vblankFlag, h.hblankFlag, h.vcountFlag]

/-- `s` after byte 0 and then byte 1 of a register were written. -/
def written (r : Reg) (v0 v1 : Byte) (s : State) : State :=
  { writeState r 1 v1 { writeState r 0 v0 s with result := .none } with result := .none }

/-- R22: two writes leave the live flags. -/
theorem statusFlags_written (r : Reg) (v0 v1 : Byte) (s : State) :
    statusFlags (written r v0 v1 s).timing = statusFlags s.timing :=
  (statusFlags_writeState r 1 v1 _).trans (statusFlags_writeState r 0 v0 s)

/-- R444: both bytes are stored under the mask. -/
theorem byteOf_stored_written (r : Reg) (v0 v1 : Byte) (s : State) :
    byteOf (stored r (written r v0 v1 s)) 0 = v0 &&& byteOf (writeMask r) 0
      ∧ byteOf (stored r (written r v0 v1 s)) 1 = v1 &&& byteOf (writeMask r) 1 := by
  rw [written, stored_result, stored_writeState, byteOf_newStored (by decide), byteOf_newStored (by decide),
    stored_result, stored_writeState, byteOf_newStored (by decide), if_neg (by decide), if_pos rfl, if_pos rfl,
    BitVec.and_assoc, BitVec.and_self]
  exact ⟨rfl, rfl⟩

/-- R444, R141: the live flags of DISPSTAT stand in bits 2:0. -/
theorem statusFlags_half (t : Timing) :
    byteOf (statusFlags t) 1 ++ byteOf (statusFlags t) 0 =
      0#13 ++ (BitVec.ofBool t.vcountFlag ++ (BitVec.ofBool t.hblankFlag ++ BitVec.ofBool t.vblankFlag)) := by
  have happend : ∀ c h v : Bool, (0 : Byte) ++ (0#5 ++ (BitVec.ofBool c ++ (BitVec.ofBool h ++ BitVec.ofBool v))) =
      0#13 ++ (BitVec.ofBool c ++ (BitVec.ofBool h ++ BitVec.ofBool v)) := by decide
  rw [(byteOf_statusFlags t).1, (byteOf_statusFlags t).2]
  exact happend _ _ _

/-- R444: what both bytes read as. -/
theorem readValue_written {r : Reg} (hr : readable r = true) (hv : r ≠ .vcount) (v0 v1 : Byte) (s : State) :
    byteOf (readValue r (written r v0 v1 s)) 1 ++ byteOf (readValue r (written r v0 v1 s)) 0 =
      ((v1 ++ v0 : Half) &&& (byteOf (writeMask r) 1 ++ byteOf (writeMask r) 0))
        ||| (if r = .dispstat then byteOf (statusFlags s.timing) 1 ++ byteOf (statusFlags s.timing) 0 else 0#16) := by
  obtain ⟨hb0, hb1⟩ := byteOf_stored_written r v0 v1 s
  rw [readValue_of_readable hr hv, byteOf_or, byteOf_or, hb0, hb1, statusFlags_written, BitVec.and_append]
  split
  · rw [BitVec.or_append]
  · exact (BitVec.or_append (y₂ := 0#8)).symm

/-- R441: an `IO.WRITE` that starts no transfer. -/
theorem exec_ioWrite_addr {r : Reg} {o : Nat} {v : Byte} {s : State} (ho : o < r.width)
    (hs : writeStarts r o v s = false) :
    exec (.ioWrite (r.addr o) v) s = .next { writeState r o v s with result := .none } := by
  rw [exec_ioWrite_of_regAt (regAt_addr r o ho), exec_instr_write ho hs]

/-- R440: an `IO.READ`. -/
theorem exec_ioRead_addr {r : Reg} {o : Nat} (s : State) (ho : o < r.width) :
    exec (.ioRead (r.addr o)) s = .next { s with result := .byte (byteOf (readValue r s) o) } := by
  rw [exec_ioRead_of_regAt (regAt_addr r o ho), exec_instr_read ho]

/-- R472: a write of the low byte keeps the enable bit. -/
theorem enable_writeState_low (c : Chan) (v : Byte) (s : State) :
    (writeState (.dmaCntH c) 0 v s).dma.ch[c].ctrl.getLsbD 15 = s.dma.ch[c].ctrl.getLsbD 15 := by
  have hmask : (writeMask (.dmaCntH c)).getLsbD 15 = true := by
    revert c
    decide
  have hctrl (t : State) : t.dma.ch[c].ctrl.getLsbD 15 = (stored (.dmaCntH c) t).getLsbD 15 := by
    rw [stored, BitVec.getLsbD_setWidth, decide_eq_true (by decide), Bool.true_and]
  rw [hctrl, hctrl, stored_writeState, newStored_bit (by decide), hmask, Bool.and_true, if_neg (by decide)]

/-- Settles O38: neither write starts a transfer, and what they leave reads back (`readValue_written`). -/
theorem roundTrip : Obligations.RoundTrip := by
  unfold Obligations.RoundTrip
  intro p hp v0 v1 s h
  obtain ⟨hwidth, hreadable, hvcount, hmask⟩ := mem_readWriteRegs p hp
  have h0 : 0 < p.1.width := by omega
  have h1 : 1 < p.1.width := by omega
  have hstart0 : writeStarts p.1 0 v0 s = false := writeStarts_eq_false h0 fun c _ => .inr (.inl rfl)
  have hstart1 : writeStarts p.1 1 v1 { writeState p.1 0 v0 s with result := .none } = false := by
    refine writeStarts_eq_false h1 fun c hc => ?_
    rw [hc]
    exact (h c hc).imp (enable_writeState_low c v0 s).trans .inr
  refine ⟨_, written p.1 v0 v1 s, _, _, exec_ioWrite_addr h0 hstart0, exec_ioWrite_addr h1 hstart1,
    exec_ioRead_addr _ h0, exec_ioRead_addr _ h1, ?_⟩
  rw [readValue_written hreadable hvcount, hmask, statusFlags_half]

/-! #### The frame of a register write (R441, R103, R244) -/

/-- R244: the latch of a channel. -/
structure SameLatch (x y : Channel) : Prop where
  src : y.latSrc = x.latSrc
  dst : y.latDst = x.latDst
  rem : y.latRem = x.latRem
  srcMode : y.srcModeEff = x.srcModeEff
  fifo : y.fifoMode = x.fifoMode

/-- Replacing channel `d` by a channel of the same latch. -/
theorem sameLatch_of_set {v w : Vector Channel 4} {d : Chan} {x : Channel} (hw : w = v.set d x) (h : SameLatch v[d] x)
    (c : Chan) : SameLatch v[c] w[c] := by
  subst hw
  obtain rfl | hc := eq_or_ne c d
  · rwa [show (v.set c x)[c] = x from Vector.getElem_set_self c.isLt]
  · rw [getElem_set_of_ne v x hc]
    exact ⟨rfl, rfl, rfl, rfl, rfl⟩

section
variable (r : Reg) (o : Nat) (v : Byte) (s : State)

/-- R244, R472: only a channel's own control half-word touches its latch. -/
theorem sameLatch_writeState {c : Chan} (h : r ≠ .dmaCntH c) :
    SameLatch s.dma.ch[c] (writeState r o v s).dma.ch[c] := by
  have hrefl : SameLatch s.dma.ch[c] s.dma.ch[c] := ⟨rfl, rfl, rfl, rfl, rfl⟩
  cases r
  case dmaSad d | dmaDad d | dmaCntL d =>
    refine sameLatch_of_set (v := s.dma.ch) (w := (writeState _ o v s).dma.ch) (d := d) rfl ?_ c
    exact ⟨rfl, rfl, rfl, rfl, rfl⟩
  case dmaCntH d =>
    have hne : c ≠ d := fun e => h (e ▸ rfl)
    obtain ⟨x, hch, -⟩ := configure_frame d (ctrlEnable (s.chan d).ctrl) (storeByte (.dmaCntH d) o v s)
    rw [writeState, hch, getElem_set_of_ne _ x hne]
    refine sameLatch_of_set (v := s.dma.ch) (w := (storeByte _ o v s).dma.ch) (d := d) rfl ?_ c
    exact ⟨rfl, rfl, rfl, rfl, rfl⟩
  all_goals exact hrefl

/-- R441: a register write leaves the open-bus latch. -/
theorem writeState_openBus : (writeState r o v s).dma.openBus = s.dma.openBus := by
  cases r
  case dmaCntH c =>
    obtain ⟨-, -, -, hopen⟩ := configure_frame c (ctrlEnable (s.chan c).ctrl) (storeByte (.dmaCntH c) o v s)
    exact hopen
  all_goals rfl

/-- R458: only BG2X and BG3X restart a running reference point's column. -/
theorem writeState_refX {k : Fin 2} (h : r ≠ .bgx k) : (writeState r o v s).regs.refX[k] = s.regs.refX[k] := by
  cases r
  case bgx k' =>
    have hne : k'.val ≠ k.val := fun e => h (Fin.ext e ▸ rfl)
    exact Vector.getElem_set_ne k'.isLt k.isLt hne
  case dmaCntH c => rw [(writeState_ppu_of_dma _ o v s rfl).1]
  all_goals rfl

/-- R458: only BG2Y and BG3Y its row. -/
theorem writeState_refY {k : Fin 2} (h : r ≠ .bgy k) : (writeState r o v s).regs.refY[k] = s.regs.refY[k] := by
  cases r
  case bgy k' =>
    have hne : k'.val ≠ k.val := fun e => h (Fin.ext e ▸ rfl)
    exact Vector.getElem_set_ne k'.isLt k.isLt hne
  case dmaCntH c => rw [(writeState_ppu_of_dma _ o v s rfl).1]
  all_goals rfl

end

/-- Settles O39: the write is `writeState`, whose frame is put together from its lemmas. -/
theorem registerWriteFrame : Obligations.RegisterWriteFrame := by
  unfold Obligations.RegisterWriteFrame
  intro r o v s t ho h ht
  rw [exec_instr_write ho (writeStarts_eq_false ho h)] at ht
  obtain rfl := (Host.Outcome.next.inj ht).symm
  have hframe := writeFrame_writeState r o v s
  refine ⟨fun a => congrArg (fun e : Env => e.mem.read a) hframe.env, hframe.env, hframe.sched, hframe.fb, hframe.cfg,
    hframe.phase, hframe.scanline, hframe.vblankFlag, hframe.hblankFlag, hframe.vcountFlag, hframe.ppuEvent,
    writeState_openBus r o v s, writeState_busy r o v s, fun k => writeState_refX r o v s, fun k => writeState_refY r o v s,
    fun r' hr' => ?_, fun p hp hpo => ?_, writeState_dma_of_ppu r o v s, writeState_ppu_of_dma r o v s, fun c hc => ?_⟩
  · rw [stored_result, stored_writeState_other hr']
  · have ho4 : o < 4 := by have := r.width_eq; omega
    rw [stored_result, stored_writeState, byteOf_newStored ho4, if_neg hpo, byteOf_and]
  · obtain ⟨hsrc, hdst, hrem, hmode, hfifo⟩ := sameLatch_writeState r o v s hc
    exact ⟨hsrc, hdst, hrem, hmode, hfifo⟩

end Sys2Proof.Proofs

/-! ### Reset and hazards (R560 to R563, R573) -/

namespace Sys2Proof.Proofs

open Sys2Proof.Machine Sys2Proof.Spec

/-! #### The old phase event and the PPU's reset -/

section
variable {s : State}

/-- R562: the old phase event is pending, and leaves the queue. -/
theorem cancelPhaseEvent_of_pending (h : ∃ e ∈ s.sched.queue, e.seq = s.timing.ppuEvent ∧ e.tag = 0) :
    cancelPhaseEvent s = cancelEvent s.timing.ppuEvent s :=
  if_pos (by simpa using h)

/-- R562: the old phase event is no longer pending, and nothing leaves the queue. -/
theorem cancelPhaseEvent_of_not_pending (h : ¬∃ e ∈ s.sched.queue, e.seq = s.timing.ppuEvent ∧ e.tag = 0) :
    cancelPhaseEvent s = s :=
  if_neg (by simpa using h)

/-- R562: the cancellation changes the queue only. -/
theorem cancelPhaseEvent_frame (s : State) :
    cancelPhaseEvent s = { s with sched := { s.sched with queue := (cancelPhaseEvent s).sched.queue } } := by
  rcases cancelPhaseEvent_eq s with ⟨h, -⟩ | h
  · rw [h]
  · rw [h]
    rfl

/-- R562, R201: `PpuReset()` answers when its phase event can be added. -/
theorem ppuReset_ready (hclock : s.sched.now + 960 ≤ Config.nowMax)
    (hroom : (cancelPhaseEvent s).sched.queue.length ≠ s.cfg.qcap) (hhandle : s.sched.nextSeq ≠ Config.seqMax) :
    ∃ t, ppuReset s = .next t := by
  have hframe := cancelPhaseEvent_frame s
  have hnow : (clearPpu (cancelPhaseEvent s)).sched.now = s.sched.now := by rw [hframe]; rfl
  have hseq : (clearPpu (cancelPhaseEvent s)).sched.nextSeq = s.sched.nextSeq := by rw [hframe]; rfl
  have hcfg : (clearPpu (cancelPhaseEvent s)).cfg = s.cfg := by rw [hframe]; rfl
  have hadd := addEvent_next (b := false) (d := 960) (tag := 0) (s := clearPpu (cancelPhaseEvent s)) (by decide) (by decide)
    (by rw [hnow]; omega) (by rw [hcfg]; exact hroom) (by rw [hseq]; exact hhandle) (by simp)
  exact ⟨_, andThen_eq_next.2 ⟨_, hadd, rfl⟩⟩

/-- R562: `PPU.RESET` is `PpuReset()`. -/
theorem exec_ppuReset {t : State} (h : ppuReset s = .next t) : exec .ppuReset s = .next { t with result := .none } := by
  change finish .none (ppuReset s) = _
  rw [h, finish_next]

/-- R563: `SYS.RESET` is `PPU.RESET` from the state with the scheduler and the DMA controller reset. -/
theorem exec_sysReset (s : State) : exec .sysReset s = exec .ppuReset (dmaReset (schedReset s)) := rfl

end

/-- Settles O58: `PpuReset()` answers (`ppuReset_ready`), and what it leaves is `PpuResetFrame`. -/
theorem ppuResetEffect : Obligations.PpuResetEffect := by
  unfold Obligations.PpuResetEffect
  intro s q hpending habsent hclock hroom hhandle
  have hq : (cancelPhaseEvent s).sched.queue = q := by
    by_cases h : ∃ e ∈ s.sched.queue, e.seq = s.timing.ppuEvent ∧ e.tag = 0
    · rw [cancelPhaseEvent_of_pending h, hpending h]
      rfl
    · rw [cancelPhaseEvent_of_not_pending h, habsent h]
  have hcancel := cancelPhaseEvent_frame s
  rw [hq] at hcancel
  obtain ⟨t, ht⟩ := ppuReset_ready hclock (hq ▸ hroom) hhandle
  have hframe := ppuReset_frame ht
  have hsched := hframe.sched
  rw [hcancel] at hsched
  refine ⟨_, exec_ppuReset ht, ?_, ?_, ?_, hframe.timing, hframe.regs, hframe.fb, hframe.dma, hframe.env, hframe.cfg, rfl⟩
  all_goals simp only [hsched, Sched.add]
  exact perm_insertEvent _ _

/-- Settles O59: `PpuReset()` from an empty queue leaves the reset components (`afterReset_of_components`). -/
theorem systemReset : Obligations.SystemReset := by
  unfold Obligations.SystemReset
  refine ⟨decode_of_encode_eq rfl rfl, fun s hcap => ?_⟩
  have hcancel : cancelPhaseEvent (dmaReset (schedReset s)) = dmaReset (schedReset s) :=
    cancelPhaseEvent_of_not_pending nofun
  have hclock : 0 + 960 ≤ Config.nowMax := by decide
  have hhandle : 0 ≠ Config.seqMax := by decide
  obtain ⟨t, ht⟩ := ppuReset_ready (s := dmaReset (schedReset s)) hclock (by rw [hcancel]; exact hcap.symm) hhandle
  have hframe := ppuReset_frame ht
  have hsched := hframe.sched
  rw [hcancel] at hsched
  rw [exec_sysReset]
  refine ⟨_, exec_ppuReset ht, ?_, hframe.env, hframe.cfg⟩
  exact afterReset_of_components hsched hframe.dma hframe.timing hframe.regs (hframe.cfg.symm ▸ hframe.fb)

/-! #### A phase event that is too late -/

/-- R201: a negative delay is the first of the refusals of `Add`. -/
theorem addEvent_of_neg {b : Bool} {d : Int} {tag : Byte} {s : State} (h : d < 0) :
    addEvent b d tag s = .refused .negativeDelay :=
  if_pos h

/-- R573, R201: the handler refuses a lateness above the duration of the phase it enters. -/
theorem exec_ppuPhase_of_late {s u : State} {late : BitVec 48} {fx : PhaseEffects} (htr : transition s = (u, fx))
    (hlate : u.timing.phase.dur < late.toNat) : exec (.ppuPhase late) s = .refused .negativeDelay := by
  have hneg : ((setVcountFlag u).timing.phase.dur : Int) - late.toNat < 0 := Int.sub_neg_of_lt (Int.ofNat_lt.2 hlate)
  have hupdate : phaseUpdate late.toNat s = .refused .negativeDelay := by
    unfold phaseUpdate
    rw [htr]
    dsimp only
    rw [addEvent_of_neg hneg, andThen_refused]
  change finish .none (phaseComplete (engine s) late.toNat s) = _
  rw [phaseComplete, hupdate, andThen_refused, finish, andThen_refused]

/-- Settles O44: each case is a transition, and `exec_ppuPhase_of_late` with the duration of the phase it enters. -/
theorem phaseTooLate : Obligations.PhaseTooLate := by
  unfold Obligations.PhaseTooLate
  rintro s late (⟨hp, hl⟩ | ⟨hp, hl⟩ | ⟨hp, hn, hl⟩ | ⟨hp, hn, hl⟩ | ⟨hp, hl⟩ | ⟨hp, hn, hl⟩ | ⟨hp, hn, hl⟩)
  · exact exec_ppuPhase_of_late (transition_of_visible hp) hl
  · exact exec_ppuPhase_of_late (transition_of_preHblankWindow hp) hl
  · exact exec_ppuPhase_of_late (transition_of_hblank hp hn) hl
  · exact exec_ppuPhase_of_late (transition_of_lastVisible hp hn) hl
  · exact exec_ppuPhase_of_late (transition_of_vblankVisible hp) hl
  · exact exec_ppuPhase_of_late (transition_of_vblankHblank hp hn) hl
  · exact exec_ppuPhase_of_late (transition_of_lastLine hp hn) hl

/-! #### The scheduler's and the DMA controller's reset -/

/-- R560: `SCH.RESET` is `SchedReset()`. -/
theorem exec_schReset (s : State) : exec .schReset s = .next { schedReset s with result := .none } := rfl

/-- R561: `DMA.RESET` is `DmaReset()`. -/
theorem exec_dmaReset (s : State) : exec .dmaReset s = .next { dmaReset s with result := .none } := rfl

/-- Settles O57: the two words, and `exec_schReset` and `exec_dmaReset` with the reset values written out. -/
theorem componentResets : Obligations.ComponentResets := by
  unfold Obligations.ComponentResets
  exact ⟨decode_of_encode_eq rfl rfl, exec_schReset, decode_of_encode_eq rfl rfl, exec_dmaReset⟩

end Sys2Proof.Proofs
